-- ==== Sys2Proof/Word.lean ====
section
/-! DEFINITION. The word types of the block (00_scope.md R5, R8). -/

namespace Sys2Proof

/-- A byte of a stream or of the window RAM (R5). -/
abbrev Byte := BitVec 8

/-- A 32-bit register or record-port field (R5, R36, R51). -/
abbrev Word := BitVec 32

/-- A 64-bit counter or size (R24, R26, R33). -/
abbrev DWord := BitVec 64

/-- A probability counter: 11 bits (R30, conflict C3). -/
abbrev Counter := BitVec 11

end Sys2Proof
end

