-- ==== Sys2Proof/Syntax.lean ====
section
/-! DEFINITION. The instructions of the block: the packets of a compressed stream (30_encoding.md R106, R141) and the
commands of CMD (10_state.md R38), one constructor per row of spec/opcode_table.json. -/

namespace Sys2Proof

/-- One row of the opcode table with its operands. A command has none. -/
inductive Instr where
  /-- LIT `b` (R207). -/
  | lit (b : Byte)
  /-- MATCH `len, dist`, `dist` zero-based and not `0xFFFFFFFF` (R208). -/
  | newMatch (len : Nat) (dist : Word)
  /-- EOS, with the length that is decoded and ignored (R209, R114). -/
  | eos (len : Nat)
  /-- SHORTREP (R210). -/
  | shortRep
  /-- REP0 `len` (R214). -/
  | rep0 (len : Nat)
  /-- REP1 `len` (R215). -/
  | rep1 (len : Nat)
  /-- REP2 `len` (R217). -/
  | rep2 (len : Nat)
  /-- REP3 `len` (R218). -/
  | rep3 (len : Nat)
  /-- START_LZMA, CMD bit 0 (R311). -/
  | startLzma
  /-- START_PARSE, CMD bit 1 (R312). -/
  | startParse
  /-- CLEAR_LZMA, CMD bit 2 (R313). -/
  | clearLzma
  /-- CLEAR_PARSE, CMD bit 3 (R314). -/
  | clearParse
  deriving DecidableEq, Repr

end Sys2Proof
end

