-- ==== Sys2Proof/WellFormed.lean ====
section
/-! DEFINITION. Which instructions an encoding exists for (30_encoding.md R110, R114, R141). -/

namespace Sys2Proof

/-- A length the two length coders can decode (R109, R110). -/
def lenOk (len : Nat) : Bool := decide (2 ≤ len) && decide (len ≤ 273)

/-- The distance of the end marker (R114). -/
def eosDistance : Word := 0xFFFFFFFF

/-- A packet's length is 2..273 and a MATCH's distance is not the end marker's (R141). -/
def Instr.wf : Instr → Bool
  | .lit _ => true
  | .newMatch len dist => lenOk len && decide (dist ≠ eosDistance)
  | .eos len => lenOk len
  | .shortRep => true
  | .rep0 len => lenOk len
  | .rep1 len => lenOk len
  | .rep2 len => lenOk len
  | .rep3 len => lenOk len
  | .startLzma => true
  | .startParse => true
  | .clearLzma => true
  | .clearParse => true

end Sys2Proof
end

