-- ==== Sys2Proof/Decode.lean ====
section
/-! DEFINITION. The encodings (30_encoding.md) and the routines that read them (41_probability_models.md, the prefix of
42_lzma_fsm.md R200), as decision trees over decoded bits; the decoder; the encoder.

A packet's word is a sequence of decoded bits, first decoded bit first (R106). A tree asks for one decoded bit at a time and
says how it is decoded: against a counter (R153) or directly (R155). So the same tree is the decoder of a given bit sequence
and, with the range decoder answering the questions, the engine's own routine (R142). -/

namespace Sys2Proof

/-! ### Decision trees -/

/-- How the next bit is decoded: `DecodeBit(i)` (R153), or one bit of `DecodeDirectBits` (R155). -/
inductive Query where
  | counter (i : Nat)
  | direct
  deriving DecidableEq, Repr

/-- A routine over decoded bits. `noMatchByte`: a matched literal whose `GetByte(rep0)` has no window byte (R70; log 10). -/
inductive Tree (α : Type) where
  | done (a : α)
  | ask (q : Query) (k : Bool → Tree α)
  | noMatchByte

/-- Run one routine, then another on its value (R10). -/
def Tree.bind {α β : Type} (t : Tree α) (f : α → Tree β) : Tree β :=
  match t with
  | .done a => f a
  | .ask q k => .ask q (fun b => (k b).bind f)
  | .noMatchByte => .noMatchByte

/-- Follow a routine along decoded bits: where it stands, and the bits it did not read. -/
def Tree.walk {α : Type} (t : Tree α) (bits : List Bool) : Tree α × List Bool :=
  match bits with
  | [] => (t, [])
  | b :: bs =>
    match t with
    | .done a => (.done a, b :: bs)
    | .ask _ k => (k b).walk bs
    | .noMatchByte => (.noMatchByte, b :: bs)
termination_by structural bits

/-! ### Bit trees (R170, R171) -/

/-- The loop of `BitTreeDecode`: `n` bits still to decode, at node `m`. -/
def bitTreeFrom (base : Nat) (n : Nat) (m : Nat) : Tree Nat :=
  match n with
  | 0 => .done m
  | n + 1 => .ask (.counter (base + m)) (fun b => bitTreeFrom base n (2 * m + b.toNat))

/-- `BitTreeDecode(base, nbits)`: most significant bit first (R170). -/
def bitTreeDecode (base nbits : Nat) : Tree Nat :=
  (bitTreeFrom base nbits 1).bind (fun m => .done (m - 2 ^ nbits))

/-- The loop of `BitTreeReverseDecode`: the k-th decoded bit is bit k of the value. -/
def bitTreeReverseFrom (base : Nat) (n : Nat) (m k sym : Nat) : Tree Nat :=
  match n with
  | 0 => .done sym
  | n + 1 =>
    .ask (.counter (base + m)) (fun b => bitTreeReverseFrom base n (2 * m + b.toNat) (k + 1) (sym + b.toNat * 2 ^ k))

/-- `BitTreeReverseDecode(base, nbits)`: least significant bit first (R171). -/
def bitTreeReverseDecode (base nbits : Nat) : Tree Nat := bitTreeReverseFrom base nbits 1 0 0

/-- The loop of `DecodeDirectBits`: the first bit is the most significant (R155). -/
def directBitsFrom (n : Nat) (result : Nat) : Tree Nat :=
  match n with
  | 0 => .done result
  | n + 1 => .ask .direct (fun b => directBitsFrom n (2 * result + b.toNat))

/-- `DecodeDirectBits(n)` (R155). -/
def decodeDirectBits (n : Nat) : Tree Nat := directBitsFrom n 0

/-! ### The probability RAM's index map (R120 to R131) -/

/-- isMatch (R121). -/
def idxIsMatch (state ps : Nat) : Nat := state * 16 + ps
/-- isRep (R122). -/
def idxIsRep (state : Nat) : Nat := 192 + state
/-- isRepG0 (R122). -/
def idxIsRepG0 (state : Nat) : Nat := 204 + state
/-- isRepG1 (R122). -/
def idxIsRepG1 (state : Nat) : Nat := 216 + state
/-- isRepG2 (R122). -/
def idxIsRepG2 (state : Nat) : Nat := 228 + state
/-- isRep0Long (R123). -/
def idxIsRep0Long (state ps : Nat) : Nat := 240 + state * 16 + ps
/-- Base of the slot tree of a lenState (R124). -/
def basePosSlot (lenState : Nat) : Nat := 432 + 64 * lenState
/-- Base of the reverse tree of a slot in 4..13 whose distance base is `base` (R125). -/
def baseSpecPos (base slot : Nat) : Nat := 688 + base - slot - 1
/-- Base of the align tree (R126). -/
def baseAlign : Nat := 802
/-- Base of the match-length coder (R127). -/
def baseLenCoder : Nat := 818
/-- Base of the rep-length coder (R128). -/
def baseRepLenCoder : Nat := 1332
/-- Base of the literal coder (R129). -/
def baseLiteral : Nat := 1846
/-- `PROB_COUNT(lc, lp)` (R30). -/
def probCount (lc lp : Nat) : Nat := 1846 + 768 * 2 ^ (lc + lp)

/-! ### The routines (R177 to R183) -/

/-- `LitNormal(base)` (R177). -/
def litNormal (base : Nat) : Tree Nat := bitTreeDecode base 8

/-- The loop of `LitMatched`: `n` bits still to decode, match bits still in `mb`, symbol so far `sym`; after the first bit
that differs from its match bit the normal tree decodes the rest (R178). -/
def litMatchedFrom (base : Nat) (n : Nat) (mb sym : Nat) : Tree Nat :=
  match n with
  | 0 => .done sym
  | n + 1 =>
    .ask (.counter (base + (1 + mb / 128 % 2) * 256 + sym)) (fun b =>
      if b.toNat = mb / 128 % 2 then litMatchedFrom base n (2 * mb % 256) (2 * sym + b.toNat)
      else bitTreeFrom base n (2 * sym + b.toNat))

/-- `LitMatched(base, mb)` (R178). -/
def litMatched (base : Nat) (mb : Byte) : Tree Nat :=
  (litMatchedFrom base 8 mb.toNat 1).bind (fun sym => .done (sym - 256))

/-- `LenDecode(L, ps)` (R180). -/
def lenDecode (l ps : Nat) : Tree Nat :=
  .ask (.counter (l + 0)) (fun choice =>
    if choice = false then (bitTreeDecode (l + 2 + 8 * ps) 3).bind (fun v => .done (2 + v))
    else .ask (.counter (l + 1)) (fun choice2 =>
      if choice2 = false then (bitTreeDecode (l + 130 + 8 * ps) 3).bind (fun v => .done (10 + v))
      else (bitTreeDecode (l + 258) 8).bind (fun v => .done (18 + v))))

/-- `SlotDecode(len)` (R182). -/
def slotDecode (len : Nat) : Tree Nat := bitTreeDecode (basePosSlot (min (len - 2) 3)) 6

/-- The number of bits of a slot's distance after the slot (R112). -/
def slotExtraBits (slot : Nat) : Nat := if slot < 4 then 0 else slot / 2 - 1

/-- The smallest distance of a slot (R112). -/
def slotBase (slot : Nat) : Nat := if slot < 4 then slot else (2 + slot % 2) * 2 ^ (slot / 2 - 1)

/-- `DistDecode(slot)` (R183): exact in 32 bits (R115). -/
def distDecode (slot : Nat) : Tree Nat :=
  if slot < 4 then .done slot
  else if slot < 14 then
    (bitTreeReverseDecode (baseSpecPos (slotBase slot) slot) (slotExtraBits slot)).bind (fun v => .done (slotBase slot + v))
  else
    (decodeDirectBits (slotExtraBits slot - 4)).bind (fun d =>
      (bitTreeReverseDecode baseAlign 4).bind (fun a => .done (slotBase slot + d * 16 + a)))

/-! ### A packet (R106, R200) -/

/-- What a packet's contexts depend on, fixed while the packet is decoded (R121 to R131, R221). -/
structure Ctx where
  /-- The automaton state 0..11. -/
  state : Nat
  /-- The position state `ps` (R221). -/
  ps : Nat
  /-- Base of the literal context, `1846 + 768 * ctx` (R129, R130). -/
  litBase : Nat
  /-- The byte at distance `rep0`; `none` where it lies outside the window (R254, R70). -/
  matchByte : Option Byte
  deriving DecidableEq, Repr

/-- A context to read bits with where their counters do not matter: the shape of a packet does not depend on it (R107). -/
def Ctx.blank : Ctx := { state := 0, ps := 0, litBase := baseLiteral, matchByte := none }

/-- `LitDecode()` (R175). -/
def litDecode (c : Ctx) : Tree Nat :=
  if 7 ≤ c.state then
    match c.matchByte with
    | some mb => litMatched c.litBase mb
    | none => .noMatchByte
  else litNormal c.litBase

/-- MATCH or EOS: length, slot, distance (R208, R209). -/
def matchDecode (c : Ctx) : Tree Instr :=
  (lenDecode baseLenCoder c.ps).bind (fun len =>
    (slotDecode len).bind (fun slot =>
      (distDecode slot).bind (fun dist =>
        if BitVec.ofNat 32 dist = eosDistance then .done (.eos len)
        else .done (.newMatch len (BitVec.ofNat 32 dist)))))

/-- A repeat's length, by the rep-length coder (R214, R215, R217, R218). -/
def repDecode (c : Ctx) (mk : Nat → Instr) : Tree Instr :=
  (lenDecode baseRepLenCoder c.ps).bind (fun len => .done (mk len))

/-- One packet: the prefix code of R106 with the contexts of R108, then the payload (R200's loop body). -/
def packetDecode (c : Ctx) : Tree Instr :=
  .ask (.counter (idxIsMatch c.state c.ps)) (fun isMatch =>
    if isMatch = false then (litDecode c).bind (fun v => .done (.lit (BitVec.ofNat 8 v)))
    else .ask (.counter (idxIsRep c.state)) (fun isRep =>
      if isRep = false then matchDecode c
      else .ask (.counter (idxIsRepG0 c.state)) (fun isRepG0 =>
        if isRepG0 = false then
          .ask (.counter (idxIsRep0Long c.state c.ps)) (fun isRep0Long =>
            if isRep0Long = false then .done .shortRep else repDecode c .rep0)
        else .ask (.counter (idxIsRepG1 c.state)) (fun isRepG1 =>
          if isRepG1 = false then repDecode c .rep1
          else .ask (.counter (idxIsRepG2 c.state)) (fun isRepG2 =>
            if isRepG2 = false then repDecode c .rep2 else repDecode c .rep3)))))

/-! ### The decoder -/

/-- An instruction's word: a packet's decoded bits, first bit first (R106), or a value written to CMD (R38). -/
inductive Code where
  | bits (l : List Bool)
  | cmd (v : Word)
  deriving DecidableEq, Repr

/-- Why a word is no instruction. -/
inductive DecodeError where
  /-- The bits end inside a packet. -/
  | incomplete
  /-- The bits go on after the packet. -/
  | trailingBits
  /-- A matched literal with no match byte (R70; log 10). -/
  | noMatchByte
  /-- A CMD value with bits 3:0 clear issues nothing (R315). -/
  | noCommand
  /-- A CMD value with several of bits 3:0 set is several commands (R315). -/
  | severalCommands
  deriving DecidableEq, Repr

/-- The commands a CMD value issues, in the order they are performed; bits 31:4 are ignored (R38, R315). -/
def decodeCommands (v : Word) : List Instr :=
  (if v.getLsbD 2 then [.clearLzma] else []) ++ (if v.getLsbD 3 then [.clearParse] else []) ++
    (if v.getLsbD 0 then [.startLzma] else []) ++ (if v.getLsbD 1 then [.startParse] else [])

/-- The decoder, total: the instruction a word is, or why it is none. -/
def decode (c : Ctx) : Code → Except DecodeError Instr
  | .bits l =>
    match (packetDecode c).walk l with
    | (.done i, []) => .ok i
    | (.done _, _ :: _) => .error .trailingBits
    | (.ask _ _, _) => .error .incomplete
    | (.noMatchByte, _) => .error .noMatchByte
  | .cmd v =>
    match decodeCommands v with
    | [] => .error .noCommand
    | [i] => .ok i
    | _ :: _ :: _ => .error .severalCommands

/-! ### The encoder, from the encoding tables of 30_encoding.md -/

/-- The `n` low bits of `v`, most significant first. -/
def bitsMsb (n v : Nat) : List Bool :=
  match n with
  | 0 => []
  | n + 1 => v.testBit n :: bitsMsb n v

/-- The `n` low bits of `v`, least significant first. -/
def bitsLsb (n v : Nat) : List Bool :=
  match n with
  | 0 => []
  | n + 1 => v.testBit 0 :: bitsLsb n (v / 2)

/-- The length code (R109). -/
def encodeLen (len : Nat) : List Bool :=
  if len < 10 then false :: bitsMsb 3 (len - 2)
  else if len < 18 then true :: false :: bitsMsb 3 (len - 10)
  else true :: true :: bitsMsb 8 (len - 18)

/-- The slot whose range holds a distance (R112). -/
def slotOf (dist : Nat) : Nat :=
  if dist < 4 then dist else 2 * dist.log2 + (if dist.testBit (dist.log2 - 1) then 1 else 0)

/-- The distance code: slot, then the modelled bits, or the direct and align bits (R111 to R113). -/
def encodeDist (dist : Nat) : List Bool :=
  let slot := slotOf dist
  let rest := dist - slotBase slot
  bitsMsb 6 slot ++
    (if slot < 14 then bitsLsb (slotExtraBits slot) rest
     else bitsMsb (slotExtraBits slot - 4) (rest / 16) ++ bitsLsb 4 rest)

/-- The word of an instruction (R106 for packets, R38 for commands). -/
def encode : Instr → Code
  | .lit b => .bits (false :: bitsMsb 8 b.toNat)
  | .newMatch len dist => .bits (true :: false :: encodeLen len ++ encodeDist dist.toNat)
  | .eos len => .bits (true :: false :: encodeLen len ++ encodeDist eosDistance.toNat)
  | .shortRep => .bits [true, true, false, false]
  | .rep0 len => .bits (true :: true :: false :: true :: encodeLen len)
  | .rep1 len => .bits (true :: true :: true :: false :: encodeLen len)
  | .rep2 len => .bits (true :: true :: true :: true :: false :: encodeLen len)
  | .rep3 len => .bits (true :: true :: true :: true :: true :: encodeLen len)
  | .startLzma => .cmd 1
  | .startParse => .cmd 2
  | .clearLzma => .cmd 4
  | .clearParse => .cmd 8

/-! ### Words numbered as spec/opcode_table.json numbers them (log 3) -/

/-- The packet rows' patterns as the table's numbers (first decoded bit the most significant of the pattern). -/
def tablePattern (w : Nat) : Option (List Bool) :=
  match w with
  | 0 => some [false]
  | 2 => some [true, false]
  | 12 => some [true, true, false, false]
  | 13 => some [true, true, false, true]
  | 14 => some [true, true, true, false]
  | 30 => some [true, true, true, true, false]
  | 31 => some [true, true, true, true, true]
  | _ => none

/-- As many zero bits as the routine still asks for (the payload the table gives no bits). -/
def zerosToDone {α : Type} (fuel : Nat) (t : Tree α) : List Bool :=
  match fuel with
  | 0 => []
  | fuel + 1 =>
    match t with
    | .ask _ k => false :: zerosToDone fuel (k false)
    | .done _ => []
    | .noMatchByte => []

/-- A table word as the instruction's word: below 32 bits a packet row's pattern with a payload of zeros; every other word,
and every word of 32 bits, is a value for CMD (DESIGN CHOICE, log 3). -/
def tableCode (nbits w : Nat) : Code :=
  if nbits < 32 then
    match tablePattern w with
    | some p => .bits (p ++ zerosToDone 64 ((packetDecode Ctx.blank).walk p).1)
    | none => .cmd (BitVec.ofNat 32 w)
  else .cmd (BitVec.ofNat 32 w)

/-- The instruction the decoder reads from a table word. -/
def decodeTableWord (nbits w : Nat) : Option Instr :=
  match decode Ctx.blank (tableCode nbits w) with
  | .ok i => some i
  | .error _ => none

end Sys2Proof
end

