-- ==== Sys2Proof/Config.lean ====
section
/-! DEFINITION. What an implementation of the block fixes (00_scope.md R6) and the one free value (93 I10). -/

namespace Sys2Proof

/-- The implementation parameters a model takes as arguments (R6, R375). State holds them, and nothing changes them. -/
structure Params where
  /-- `WINDOW_CAPACITY`: bytes of window RAM. -/
  windowCapacity : Nat
  /-- `LIT_CTX_BITS_CAPACITY`: the largest `lc + lp` the literal counters hold. -/
  litCtxBitsCapacity : Nat
  deriving DecidableEq, Repr

/-- The ranges R6 gives the two parameters. -/
def Params.wf (p : Params) : Bool :=
  decide (4096 ≤ p.windowCapacity) && decide (p.windowCapacity ≤ 2 ^ 32 - 1) && decide (p.litCtxBitsCapacity ≤ 12)

/-- DESIGN CHOICE (log 7): the parameters of `State.reset`, the block that decodes every stream RS §3 calls valid (R6). -/
def Params.largest : Params := { windowCapacity := 2 ^ 32 - 1, litCtxBitsCapacity := 12 }

/-- Free value (93 I10, I11; log 8): the bits the sign and payload of the k-th NaN on `temp_out` are made of. -/
opaque Config.freeNanBits : Nat → Word

end Sys2Proof
end

