-- ==== Sys2Proof/Machine/State.lean ====
section
/-! DEFINITION. The machine's state (10_state.md), plain data: the two engines, the control registers, the ports, the
parameters, and the host's side of the ports (R22). `State.reset` is R370 to R373. -/

namespace Sys2Proof.Machine

/-! ### The LZMA engine -/

/-- The automaton's 12 states with the labels of R201, in the order of their values 0..11. -/
inductive LzState where
  | litLit | matchLitLit | repLitLit | shortRepLitLit | matchLit | repLit | shortRepLit
  | litMatch | litLongRep | litShortRep | nonLitMatch | nonLitRep
  deriving DecidableEq, Repr

/-- The error codes an engine can write (R330); codes 8..15 are never written (93 I9). -/
inductive ErrCode where
  | magicMismatch | unsupportedVersion | invalidStreamProperties | prematureEndOfInput
  | corruptCompressedStream | sizeMismatch | invalidFieldWidth
  deriving DecidableEq, Repr

/-- What the LZMA engine does when a `Flush()` has emitted its last byte (R251 to R253, R216). -/
inductive FlushCont where
  /-- The rest of `DoLit` after `PutByte(b)` (R207). -/
  | lit (b : Byte)
  /-- The rest of `CopyBlock`: bytes still to copy and the source index (R252). -/
  | copy (rem src : Nat)
  /-- The rest of `Finish` (R216). -/
  | finish
  deriving DecidableEq, Repr

/-- The LZMA engine's control point (R29): the statement of R200 it stands at, with that routine's locals. -/
inductive LzPhase where
  /-- Idle: it executes nothing. -/
  | idle
  /-- `ReadHeader`, before byte 0 (R203). -/
  | hdrProps
  /-- `ReadHeader`: properties byte `d` read, `k` of the 4 dictionary bytes read into `ds` (R203). -/
  | hdrDict (d : Byte) (k : Nat) (ds : Word)
  /-- `ReadHeader`: `k` of the 8 size bytes read into `u` (R206). -/
  | hdrSize (k : Nat) (u : DWord)
  /-- `RcInit`, before the discarded byte (R150). -/
  | rcFirst
  /-- `RcInit`: `k` of the 4 code bytes read into `c` (R150). -/
  | rcCode (k : Nat) (c : Word)
  /-- The loop test before a packet (R220). -/
  | loopTop
  /-- Inside a packet whose decoded bits so far are `bits` (R200's loop body, R142). -/
  | packet (bits : List Bool)
  /-- Inside `Flush` at index `j` (R253), with what follows it. -/
  | flush (j : Nat) (cont : FlushCont)
  deriving DecidableEq, Repr

/-- The LZMA engine: its registers (R23 to R28), its RAMs (R30, R32), its control point, its STATUS and PROPS fields
(R39, R40) and its output port (R51). -/
structure Lzma where
  range : Word
  code : Word
  outPos : DWord
  inCount : DWord
  state : LzState
  rep0 : Word
  rep1 : Word
  rep2 : Word
  rep3 : Word
  prevByte : Byte
  eos : Bool
  inEnded : Bool
  hdr13 : Bool
  lc : BitVec 4
  lp : BitVec 3
  pb : BitVec 3
  dictSize : Word
  dictCheck : Word
  winSize : Word
  sizeKnown : Bool
  usize : DWord
  winPos : Word
  streamPos : Word
  /-- Probability RAM: the counters that do not hold 1024, by rising index (log 6). -/
  prob : List (Nat × Counter)
  /-- Window RAM: the bytes that are not 0, by rising index (log 5). -/
  window : List Host.Cell
  phase : LzPhase
  busy : Bool
  done : Bool
  eosFlag : Bool
  err : Option ErrCode
  /-- The PROPS register (R40; log 18). -/
  props : Word
  /-- The byte offered on `dout` (R52, R77). -/
  dout : Option Byte
  deriving DecidableEq, Repr

/-! ### The parser engine -/

/-- A field of the dataset (R135, R136); the record fields carry what was read of their entry before them. -/
inductive PField where
  | magic (k : Nat)
  | version
  | countTemperatures | countLocations | countBins
  | minYear | minMonth | maxYear | maxMonth
  | tempMin | tempMax
  | bcTemperature | bcTemperatureIndex | bcMonthDelta | bcBinIndex
  | tempCode
  | binMonthDelta
  | binTempIndex (md : Word)
  | locLat
  | locLon (la : Word)
  | locBinIndex (la lo : Word)
  deriving DecidableEq, Repr

/-- The parser engine's control point (R35, R274). -/
inductive PPhase where
  | idle
  /-- `PReadBits` of a field: `k` bits read into `v` (R271). -/
  | field (f : PField) (k : Nat) (v : Word)
  /-- After `TempOut` (R282). -/
  | tempNext
  /-- After bin `(md, ti)` is read and the one before it is out (R285). -/
  | binHold (md ti : Word)
  /-- After the last bin is out (R285). -/
  | binsEnd
  /-- After location `(la, lo, bi)` is read and the one before it is out (R286). -/
  | locHold (la lo bi : Word)
  /-- After the last location is out (R286): `PFinish` (R287). -/
  | locsEnd
  deriving DecidableEq, Repr

/-- One item of `bin_out` (R51). -/
structure BinItem where
  monthDelta : Word
  tidxMin : Word
  tidxEnd : Word
  deriving DecidableEq, Repr

/-- One item of `loc_out` (R51). -/
structure LocItem where
  lat : Word
  lon : Word
  bidxMin : Word
  bidxEnd : Word
  deriving DecidableEq, Repr

/-- The parser engine: its registers (R33 to R35), its control point, its STATUS fields (R39) and its output ports (R51). -/
structure Parser where
  bitpos : DWord
  byte : Byte
  avail : BitVec 4
  ended : Bool
  countTemperatures : Word
  countLocations : Word
  countBins : Word
  minYear : BitVec 16
  minMonth : Byte
  maxYear : BitVec 16
  maxMonth : Byte
  tempMin : Word
  tempMax : Word
  bcTemperature : Byte
  bcTemperatureIndex : Byte
  bcMonthDelta : Byte
  bcBinIndex : Byte
  pI : Word
  heldBinValid : Bool
  heldBinMd : Word
  heldBinTi : Word
  heldLocValid : Bool
  heldLocLa : Word
  heldLocLo : Word
  heldLocBi : Word
  phase : PPhase
  busy : Bool
  done : Bool
  hdrValid : Bool
  err : Option ErrCode
  tempOut : Option Word
  binOut : Option BinItem
  locOut : Option LocItem
  deriving DecidableEq, Repr

/-! ### The host's side -/

/-- What the host or the `rst` port can do between two steps of an engine (R51, R52, R310, R318, R370). -/
inductive HostAct where
  /-- `CsrRead(off)`. -/
  | csrRead (off : BitVec 8)
  /-- `CsrWrite(off, v)`. -/
  | csrWrite (off : BitVec 8) (v : Word)
  /-- Offer one more byte on `cin`, flagged `last` or not. -/
  | offerCin (b : Byte) (last : Bool)
  /-- Offer one more byte on `pin`. -/
  | offerPin (b : Byte) (last : Bool)
  /-- Withdraw the `cin` bytes that were not taken (R318). -/
  | withdrawCin
  /-- Withdraw the `pin` bytes that were not taken. -/
  | withdrawPin
  | takeDout
  | takeTemp
  | takeBin
  | takeLoc
  /-- Assert `rst`. -/
  | rst
  deriving DecidableEq, Repr

/-- Which agent moves (R20, R387). -/
inductive Turn where
  | host (a : HostAct)
  | lzma
  | parser
  deriving DecidableEq, Repr

/-- The inputs of R22 and what the host has seen; the model's own bookkeeping (log 1, log 13, log 14). -/
structure HostSide where
  /-- Bytes offered on `cin` and not taken, with their `last` flags. -/
  cin : List (Byte × Bool)
  /-- Bytes offered on `pin` and not taken. -/
  pin : List (Byte × Bool)
  /-- The turns to come. -/
  schedule : List Turn
  /-- With the schedule used up: does the host take offered items. -/
  takes : Bool
  /-- What the last `CsrRead` returned. -/
  rdata : Word
  /-- The `dout` bytes taken, oldest first. -/
  doutLog : List Byte
  tempLog : List Word
  binLog : List BinItem
  locLog : List LocItem
  deriving DecidableEq, Repr

/-! ### The whole machine -/

/-- The state of the block and of its environment's ports. -/
structure State where
  /-- The implementation parameters (R6, R375). -/
  params : Params
  /-- CTRL bits 1:0: HDR13, IRQ_EN (R37). -/
  ctrl : BitVec 2
  lz : Lzma
  ps : Parser
  host : HostSide
  /-- How many free NaN values have been used (log 8). -/
  nanCount : Nat
  deriving DecidableEq, Repr

/-- What stops the machine with a fault. -/
inductive Fault where
  /-- A window access outside `0 .. win_size - 1` (R70); raised by `memRead`, `memWrite`, `getByte`, `copyBlock`. SAFE: the
  spec derives that no run makes one (log 10). -/
  | windowIndex
  /-- A counter access outside `0 .. PROB_COUNT - 1` (R72); raised by `decodeBit`. SAFE, as above (log 10). -/
  | probIndex
  deriving DecidableEq, Repr

/-- Why a step has no meaning. -/
inductive Refusal where
  /-- An instruction with no meaning yet; raised by an arm of `exec`. SAFE. -/
  | notModelled (mnemonic : String)
  /-- `out_pos` or `in_count` would pass 2^64 - 1 (R24, 93 I6: "refuse"); raised by `readIn` and `appendByte`. SAFE (log 9). -/
  | counterLimit
  deriving DecidableEq, Repr

/-- The outcome of a step of this machine. -/
abbrev Out := Host.Outcome State Fault Refusal

/-! ### Reset -/

/-- The LZMA engine after reset with the RAM contents given (R371, R372; unspecified registers 0: log 4). -/
def Lzma.resetWith (prob : List (Nat × Counter)) (window : List Host.Cell) : Lzma :=
  { range := 0, code := 0, outPos := 0, inCount := 0, state := .litLit, rep0 := 0, rep1 := 0, rep2 := 0, rep3 := 0
    prevByte := 0, eos := false, inEnded := false, hdr13 := true, lc := 0, lp := 0, pb := 0, dictSize := 0, dictCheck := 0
    winSize := 0, sizeKnown := false, usize := 0, winPos := 0, streamPos := 0, prob := prob, window := window
    phase := .idle, busy := false, done := false, eosFlag := false, err := none, props := 0, dout := none }

/-- The parser engine after reset (R371; unspecified registers 0: log 4). -/
def Parser.reset : Parser :=
  { bitpos := 0, byte := 0, avail := 0, ended := false, countTemperatures := 0, countLocations := 0, countBins := 0
    minYear := 0, minMonth := 0, maxYear := 0, maxMonth := 0, tempMin := 0, tempMax := 0, bcTemperature := 0
    bcTemperatureIndex := 0, bcMonthDelta := 0, bcBinIndex := 0, pI := 0, heldBinValid := false, heldBinMd := 0
    heldBinTi := 0, heldLocValid := false, heldLocLa := 0, heldLocLo := 0, heldLocBi := 0, phase := .idle, busy := false
    done := false, hdrValid := false, err := none, tempOut := none, binOut := none, locOut := none }

/-- A host that offers nothing, has nothing planned and has taken nothing (log 1, log 13, log 14). -/
def HostSide.quiet : HostSide :=
  { cin := [], pin := [], schedule := [], takes := true, rdata := 0, doutLog := [], tempLog := [], binLog := [], locLog := [] }

/-- The block with the given parameters right after reset, CTRL = 1 (R371), its RAMs never written (log 5, log 6). -/
def State.resetWith (p : Params) : State :=
  { params := p, ctrl := 1, lz := Lzma.resetWith [] [], ps := Parser.reset, host := HostSide.quiet, nanCount := 0 }

/-- The machine right after reset (R371), with the parameters of log 7. -/
def State.reset : State := State.resetWith Params.largest

end Sys2Proof.Machine
end

