-- ==== Sys2Proof/Machine/Ops.lean ====
section
/-! DEFINITION. The shared operations: sparse RAM, the window and counter accesses (R70, R72), taking a byte (R75, R78), the
range decoder (R152 to R155), the bit cursor (R271), raising an error (R333). -/

namespace Sys2Proof.Machine

/-! ### Sparse RAM: the entries that differ from what an unlisted index reads as, by rising index -/

/-- Read index `k`; an unlisted index reads as `dflt`. -/
def sparseGet {α : Type} (dflt : α) (m : List (Nat × α)) (k : Nat) : α :=
  match m with
  | [] => dflt
  | (a, v) :: r => if a = k then v else sparseGet dflt r k

/-- Write `v` at index `k`, keeping the canonical form. -/
def sparseSet {α : Type} [DecidableEq α] (dflt : α) (m : List (Nat × α)) (k : Nat) (v : α) : List (Nat × α) :=
  match m with
  | [] => if v = dflt then [] else [(k, v)]
  | (a, w) :: r =>
    if k < a then (if v = dflt then (a, w) :: r else (k, v) :: (a, w) :: r)
    else if k = a then (if v = dflt then r else (k, v) :: r)
    else (a, w) :: sparseSet dflt r k v

/-- The canonical form from index `lo` on: indices strictly rising, no entry equal to `dflt`. -/
def sparseWfFrom {α : Type} [DecidableEq α] (dflt : α) (lo : Nat) (m : List (Nat × α)) : Bool :=
  match m with
  | [] => true
  | (a, v) :: r => decide (lo ≤ a) && decide (v ≠ dflt) && sparseWfFrom dflt (a + 1) r

/-- What a window byte that nothing has written reads as (DESIGN CHOICE, log 5; 93 I3). -/
def windowDefault : Byte := 0

/-- What a counter that is not listed holds: the value `Decode` gives every counter (R200; log 6). -/
def probDefault : Counter := 1024

/-- The window RAM is in canonical form. -/
def Memory.wf (m : List Host.Cell) : Bool := sparseWfFrom windowDefault 0 m

/-- The probability RAM is in canonical form. -/
def probWf (m : List (Nat × Counter)) : Bool := sparseWfFrom probDefault 0 m

/-! ### What an operation of an engine answers -/

/-- A value and the state after; a wait for the host; a raised error with the state at the raise; a stop. -/
inductive Res (α : Type) where
  | ok (a : α) (s : State)
  | wait
  | raised (e : ErrCode) (s : State)
  | fault (f : Fault)
  | refused (r : Refusal)

/-- One operation after another (R10). -/
def Res.bind {α β : Type} (r : Res α) (f : α → State → Res β) : Res β :=
  match r with
  | .ok a s => f a s
  | .wait => .wait
  | .raised e s => .raised e s
  | .fault x => .fault x
  | .refused x => .refused x

/-! ### Raising an error (R333) -/

/-- The two engines (R20). -/
inductive Engine where
  | lzma
  | parser
  deriving DecidableEq, Repr

/-- `raise E` in engine X: the routine is abandoned, X_ERR takes the code, X_BUSY falls, nothing else changes (R333, R337). -/
def raise (x : Engine) (e : ErrCode) (s : State) : State :=
  match x with
  | .lzma => { s with lz := { s.lz with err := some e, busy := false, phase := .idle } }
  | .parser => { s with ps := { s.ps with err := some e, busy := false, phase := .idle } }

/-- A turn of engine X that performs an operation and goes on; `none` while it waits (R76, R353). -/
def Res.turn {α : Type} (x : Engine) (r : Res α) (k : α → State → Out) : Option Out :=
  match r with
  | .ok a s => some (k a s)
  | .wait => none
  | .raised e s => some (.next (raise x e s))
  | .fault f => some (.fault f)
  | .refused f => some (.refused f)

/-! ### Taking a byte -/

/-- `ReadIn()` (R75). -/
def readIn (s : State) : Res Byte :=
  if s.lz.inEnded then .raised .prematureEndOfInput s
  else
    match s.host.cin with
    | [] => .wait
    | (b, last) :: rest =>
      if s.lz.inCount = BitVec.allOnes 64 then .refused .counterLimit
      else .ok b { s with
        lz := { s.lz with inCount := s.lz.inCount + 1, inEnded := last }
        host := { s.host with cin := rest } }

/-- `PinRead()` (R78). -/
def pinRead (s : State) : Res Byte :=
  if s.ps.ended then .raised .prematureEndOfInput s
  else
    match s.host.pin with
    | [] => .wait
    | (b, last) :: rest =>
      .ok b { s with ps := { s.ps with ended := last }, host := { s.host with pin := rest } }

/-! ### The probability RAM and the range decoder -/

/-- `P[i]` (R72). -/
def probRead (i : Nat) (s : State) : Counter := sparseGet probDefault s.lz.prob i

/-- The counter after a decoded 0: `p + ((2048 - p) >> 5)` (R153). -/
def probUp (p : Counter) : Counter := BitVec.ofNat 11 (p.toNat + (2048 - p.toNat) / 32)

/-- The counter after a decoded 1: `p - (p >> 5)` (R153). -/
def probDown (p : Counter) : Counter := p - (p >>> 5)

/-- `bound = (range >> 11) * p`, exact in 32 bits (R153). -/
def bitBound (range : Word) (p : Counter) : Word := (range >>> 11) * p.setWidth 32

/-- `Normalize()` (R152). -/
def normalize (s : State) : Res Unit :=
  if s.lz.range < 0x01000000 then
    (readIn { s with lz := { s.lz with range := s.lz.range <<< 8 } }).bind (fun b s =>
      .ok () { s with lz := { s.lz with code := (s.lz.code <<< 8) ||| b.setWidth 32 } })
  else .ok () s

/-- The registers and the counter after `DecodeBit(i)` has decoded 0, before its `Normalize` (R153). -/
def bitZero (i : Nat) (s : State) : State :=
  { s with lz := { s.lz with
      range := bitBound s.lz.range (probRead i s)
      prob := sparseSet probDefault s.lz.prob i (probUp (probRead i s)) } }

/-- The same after it has decoded 1; the subtractions are modulo 2^32 (R153, D41). -/
def bitOne (i : Nat) (s : State) : State :=
  { s with lz := { s.lz with
      range := s.lz.range - bitBound s.lz.range (probRead i s)
      code := s.lz.code - bitBound s.lz.range (probRead i s)
      prob := sparseSet probDefault s.lz.prob i (probDown (probRead i s)) } }

/-- `DecodeBit(i)` (R153). -/
def decodeBit (i : Nat) (s : State) : Res Bool :=
  if i < probCount s.lz.lc.toNat s.lz.lp.toNat then
    if s.lz.code < bitBound s.lz.range (probRead i s) then
      (normalize (bitZero i s)).bind (fun _ s => .ok false s)
    else (normalize (bitOne i s)).bind (fun _ s => .ok true s)
  else .fault .probIndex

/-- One bit of `DecodeDirectBits` (R155). -/
def directBit (s : State) : Res Bool :=
  if s.lz.code < s.lz.range >>> 1 then
    (normalize { s with lz := { s.lz with range := s.lz.range >>> 1 } }).bind (fun _ s => .ok false s)
  else
    (normalize { s with lz := { s.lz with
        range := s.lz.range >>> 1
        code := s.lz.code - s.lz.range >>> 1 } }).bind (fun _ s => .ok true s)

/-- The range decoder's answer to a question of a routine. -/
def answer (q : Query) (s : State) : Res Bool :=
  match q with
  | .counter i => decodeBit i s
  | .direct => directBit s

/-- `PROB_COUNT` counters are set to 1024; the rest of the RAM keeps its contents (R30, R200). -/
def initCounters (count : Nat) (m : List (Nat × Counter)) : List (Nat × Counter) :=
  m.filter (fun c => decide (count ≤ c.1))

/-! ### The window RAM -/

/-- `MemRead(a, 1)` (R70); `none` outside the window. -/
def memRead (a : Nat) (s : State) : Option Byte :=
  if a < s.lz.winSize.toNat then some (sparseGet windowDefault s.lz.window a) else none

/-- The engine after `MemWrite(win_pos, 1, b)`, `win_pos` and `out_pos` up by 1 (R70, R251, R252). -/
def appended (b : Byte) (s : State) : State :=
  { s with lz := { s.lz with
      window := sparseSet windowDefault s.lz.window s.lz.winPos.toNat b
      winPos := s.lz.winPos + 1
      outPos := s.lz.outPos + 1 } }

/-- Append one byte and go on with `k`; a stop where `win_pos` is no window index, or `out_pos` would reach 2^64 (log 9, log 10). -/
def appendByte (b : Byte) (s : State) (k : State → Out) : Out :=
  if s.lz.winPos.toNat < s.lz.winSize.toNat then
    if s.lz.outPos = BitVec.allOnes 64 then .refused .counterLimit else k (appended b s)
  else .fault .windowIndex

/-- `win_pos - d - 1` as a window index, around the end once (R252, R254). -/
def backIndex (d : Word) (s : State) : Int :=
  if (s.lz.winPos.toNat : Int) - d.toNat - 1 < 0 then (s.lz.winPos.toNat : Int) - d.toNat - 1 + s.lz.winSize.toNat
  else (s.lz.winPos.toNat : Int) - d.toNat - 1

/-- `GetByte(d)` (R254); `none` where no window byte stands at that distance. -/
def getByte (d : Word) (s : State) : Option Byte :=
  if backIndex d s < 0 then none else memRead (backIndex d s).toNat s

/-! ### The bit cursor -/

/-- One bit of `PReadBits` (R271). -/
def pReadBit (s : State) : Res Bool :=
  (if s.ps.avail = 0 then
      (pinRead s).bind (fun b s => .ok () { s with ps := { s.ps with byte := b, avail := 8 } })
    else .ok () s).bind (fun _ s =>
      .ok (s.ps.byte.getLsbD (s.ps.avail.toNat - 1))
        { s with ps := { s.ps with avail := s.ps.avail - 1, bitpos := s.ps.bitpos + 1 } })

/-! ### Bit fields of registers -/

/-- `x` with the field of `width` bits at bit `lo` replaced by `v` (R8). -/
def setField (x : Word) (lo width : Nat) (v : Nat) : Word :=
  (x &&& ~~~ (BitVec.ofNat 32 ((2 ^ width - 1) * 2 ^ lo))) ||| BitVec.ofNat 32 (v % 2 ^ width * 2 ^ lo)

/-- A flag as a number. -/
def flag (b : Bool) : Nat := if b then 1 else 0

end Sys2Proof.Machine
end

