-- ==== Sys2Proof/Machine/Operands.lean ====
section
/-! DEFINITION. What a packet's operands are read from: the masks and contexts (R27, R121 to R131, R221), the automaton
(R201, R202), the repeat distances (R223), the properties byte (R102). -/

namespace Sys2Proof.Machine

/-! ### The automaton (R201, R202) -/

/-- The value 0..11 of a state (R201). -/
def LzState.value : LzState → Nat
  | .litLit => 0
  | .matchLitLit => 1
  | .repLitLit => 2
  | .shortRepLitLit => 3
  | .matchLit => 4
  | .repLit => 5
  | .shortRepLit => 6
  | .litMatch => 7
  | .litLongRep => 8
  | .litShortRep => 9
  | .nonLitMatch => 10
  | .nonLitRep => 11

/-- Column "after LIT" of R202. -/
def litNext : LzState → LzState
  | .litLit => .litLit
  | .matchLitLit => .litLit
  | .repLitLit => .litLit
  | .shortRepLitLit => .litLit
  | .matchLit => .matchLitLit
  | .repLit => .repLitLit
  | .shortRepLit => .shortRepLitLit
  | .litMatch => .matchLit
  | .litLongRep => .repLit
  | .litShortRep => .shortRepLit
  | .nonLitMatch => .matchLit
  | .nonLitRep => .repLit

/-- A literal state, `state < 7` (R201). -/
def isLitState (st : LzState) : Bool := decide (st.value < 7)

/-- Column "after MATCH" of R202. -/
def matchNext (st : LzState) : LzState := if isLitState st then .litMatch else .nonLitMatch

/-- Column "after REP0..REP3" of R202. -/
def repNext (st : LzState) : LzState := if isLitState st then .litLongRep else .nonLitRep

/-- Column "after SHORTREP" of R202. -/
def shortRepNext (st : LzState) : LzState := if isLitState st then .litShortRep else .nonLitRep

/-! ### Masks and contexts -/

/-- `lit_pos_mask` (R27). -/
def litPosMask (z : Lzma) : Nat := 2 ^ z.lp.toNat - 1

/-- `pos_state_mask` (R27). -/
def posStateMask (z : Lzma) : Nat := 2 ^ z.pb.toNat - 1

/-- `ps = out_pos & pos_state_mask` (R221). -/
def posState (z : Lzma) : Nat := z.outPos.toNat &&& posStateMask z

/-- `LitContext()` (R130, R176). -/
def litContext (z : Lzma) : Nat :=
  ((z.outPos.toNat &&& litPosMask z) <<< z.lc.toNat) + (z.prevByte.toNat >>> (8 - z.lc.toNat))

/-- The contexts of the packet at the engine's position (R108, R175, R221). -/
def ctxOf (s : State) : Ctx :=
  { state := s.lz.state.value, ps := posState s.lz, litBase := baseLiteral + 768 * litContext s.lz
    matchByte := getByte s.lz.rep0 s }

/-! ### The repeat distances (R223) -/

/-- The rotation of MATCH (R208). -/
def rotateNew (dist : Word) (z : Lzma) : Lzma :=
  { z with rep0 := dist, rep1 := z.rep0, rep2 := z.rep1, rep3 := z.rep2 }

/-- The rotation of REP1 (R215). -/
def rotateRep1 (z : Lzma) : Lzma := { z with rep0 := z.rep1, rep1 := z.rep0 }

/-- The rotation of REP2 (R217). -/
def rotateRep2 (z : Lzma) : Lzma := { z with rep0 := z.rep2, rep1 := z.rep0, rep2 := z.rep1 }

/-- The rotation of REP3 (R218). -/
def rotateRep3 (z : Lzma) : Lzma := { z with rep0 := z.rep3, rep1 := z.rep0, rep2 := z.rep1, rep3 := z.rep2 }

/-- The rotation a packet whose decoded bits so far are `bits` has made before its length is decoded (R215, R217, R218);
an error raised inside the length finds it made (R333; log 12). -/
def rotateEarly (bits : List Bool) (z : Lzma) : Lzma :=
  match bits with
  | true :: true :: true :: false :: _ => rotateRep1 z
  | true :: true :: true :: true :: false :: _ => rotateRep2 z
  | true :: true :: true :: true :: true :: _ => rotateRep3 z
  | _ => z

/-! ### The properties byte (R102) -/

/-- `d < 225`. -/
def propsValid (d : Byte) : Bool := decide (d.toNat < 225)

/-- `lc = d mod 9`, 0 for an invalid byte (R204). -/
def propsLc (d : Byte) : BitVec 4 := if propsValid d then BitVec.ofNat 4 (d.toNat % 9) else 0

/-- `lp = (d div 9) mod 5`, 0 for an invalid byte. -/
def propsLp (d : Byte) : BitVec 3 := if propsValid d then BitVec.ofNat 3 (d.toNat / 9 % 5) else 0

/-- `pb = d div 45`, 0 for an invalid byte. -/
def propsPb (d : Byte) : BitVec 3 := if propsValid d then BitVec.ofNat 3 (d.toNat / 45) else 0

/-- `dict_check = max(dict_size, 1)` (R101). -/
def dictCheckOf (ds : Word) : Word := if ds = 0 then 1 else ds

/-- `win_size = max(dict_check, 4096)` (R101). -/
def winSizeOf (ds : Word) : Word := if dictCheckOf ds < 4096 then 4096 else dictCheckOf ds

end Sys2Proof.Machine
end

