-- ==== Sys2Proof/Machine/Flags.lean ====
section
/-! DEFINITION. The status bits (10_state.md R39, R40; 60_exceptions.md R330, R340) and the control registers as words (R36 to
R50). The block has no condition flags (R53). -/

namespace Sys2Proof.Machine

/-- The 4-bit code of an error (R330). -/
def ErrCode.code : ErrCode → Nat
  | .magicMismatch => 1
  | .unsupportedVersion => 2
  | .invalidStreamProperties => 3
  | .prematureEndOfInput => 4
  | .corruptCompressedStream => 5
  | .sizeMismatch => 6
  | .invalidFieldWidth => 7

/-- The value of an X_ERR field: 0 when there is no error (R39, R330). -/
def errField (e : Option ErrCode) : Nat :=
  match e with
  | none => 0
  | some c => c.code

/-- STATUS.IRQ (R39, R340). -/
def irqPending (s : State) : Bool := s.lz.done || s.lz.err.isSome || s.ps.done || s.ps.err.isSome

/-- The `irq` output (R340). -/
def irq (s : State) : Bool := s.ctrl.getLsbD 1 && irqPending s

/-- The STATUS word (R39). -/
def statusWord (s : State) : Word :=
  BitVec.ofNat 32 (flag s.lz.busy + 2 * flag s.lz.done + 4 * flag s.lz.eosFlag + 16 * errField s.lz.err +
    256 * flag s.ps.busy + 512 * flag s.ps.done + 1024 * flag s.ps.hdrValid + 4096 * errField s.ps.err +
    65536 * flag (irqPending s))

/-- PROPS.RAW (R40, R203). -/
def propsSetRaw (d : Byte) (x : Word) : Word := setField x 24 8 d.toNat

/-- PROPS.LC, LP, PB and VALID (R40, R205). -/
def propsSetValid (lc : BitVec 4) (lp pb : BitVec 3) (x : Word) : Word :=
  setField (setField (setField (setField x 0 4 lc.toNat) 4 3 lp.toNat) 8 3 pb.toNat) 17 1 1

/-- PROPS.SIZE_KNOWN (R40, R206). -/
def propsSetKnown (k : Bool) (x : Word) : Word := setField x 16 1 (flag k)

/-- A date register: year, then month, bits 31:24 zero (R46). -/
def dateWord (year : BitVec 16) (month : Byte) : Word := BitVec.ofNat 32 (year.toNat + 65536 * month.toNat)

/-- P_WIDTHS (R48). -/
def widthsWord (p : Parser) : Word :=
  BitVec.ofNat 32 (p.bcTemperature.toNat + 256 * p.bcTemperatureIndex.toNat + 65536 * p.bcMonthDelta.toNat +
    16777216 * p.bcBinIndex.toNat)

/-- The low half of a 64-bit register (R42 to R44, R49). -/
def lowWord (x : DWord) : Word := x.setWidth 32

/-- The high half of a 64-bit register. -/
def highWord (x : DWord) : Word := (x >>> 32).setWidth 32

/-- `CsrRead(off)` by register number, `off` with its bits 1:0 dropped (R36 to R50, R310). -/
def csrRegister (n : Nat) (s : State) : Word :=
  match n with
  | 0 => s.ctrl.setWidth 32
  | 1 => 0
  | 2 => statusWord s
  | 3 => s.lz.props
  | 4 => s.lz.dictSize
  | 5 => lowWord s.lz.usize
  | 6 => highWord s.lz.usize
  | 7 => lowWord s.lz.outPos
  | 8 => highWord s.lz.outPos
  | 9 => lowWord s.lz.inCount
  | 10 => highWord s.lz.inCount
  | 11 => s.ps.countTemperatures
  | 12 => s.ps.countLocations
  | 13 => s.ps.countBins
  | 14 => dateWord s.ps.minYear s.ps.minMonth
  | 15 => dateWord s.ps.maxYear s.ps.maxMonth
  | 16 => s.ps.tempMin
  | 17 => s.ps.tempMax
  | 18 => widthsWord s.ps
  | 19 => lowWord s.ps.bitpos
  | 20 => highWord s.ps.bitpos
  | _ => 0

/-- `CsrRead(off)`: the word at `off & 0xFC` (R310, R50). -/
def csrRead (off : BitVec 8) (s : State) : Word := csrRegister (off.toNat / 4) s

end Sys2Proof.Machine
end

