-- ==== Sys2Proof/Machine/Commands.lean ====
section
/-! DEFINITION. The meanings of the commands (45_host_commands.md R311 to R314). -/

namespace Sys2Proof.Machine

/-- START_LZMA (R311); ignored while busy (R316). The RAMs, `range`, `code`, `state`, the repeat distances and `prev_byte`
keep their contents. -/
def execStartLzma (s : State) : Out :=
  if s.lz.busy then .next s
  else .next { s with lz := { s.lz with
      hdr13 := s.ctrl.getLsbD 0
      outPos := 0, inCount := 0, eos := false, inEnded := false
      winPos := 0, streamPos := 0
      lc := 0, lp := 0, pb := 0, dictSize := 0, dictCheck := 0, winSize := 0
      sizeKnown := false, usize := 0
      props := 0
      done := false, eosFlag := false, err := none
      busy := true
      phase := .hdrProps } }

/-- START_PARSE (R312); ignored while busy (R316). -/
def execStartParse (s : State) : Out :=
  if s.ps.busy then .next s
  else .next { s with ps := { s.ps with
      bitpos := 0, avail := 0, ended := false
      heldBinValid := false, heldLocValid := false
      countTemperatures := 0, countLocations := 0, countBins := 0
      minYear := 0, minMonth := 0, maxYear := 0, maxMonth := 0, tempMin := 0, tempMax := 0
      bcTemperature := 0, bcTemperatureIndex := 0, bcMonthDelta := 0, bcBinIndex := 0
      hdrValid := false, done := false, err := none
      busy := true
      phase := .field (.magic 0) 0 0 } }

/-- CLEAR_LZMA (R313); ignored while busy (R316). -/
def execClearLzma (s : State) : Out :=
  if s.lz.busy then .next s
  else .next { s with lz := { s.lz with done := false, eosFlag := false, err := none } }

/-- CLEAR_PARSE (R314); ignored while busy (R316). -/
def execClearParse (s : State) : Out :=
  if s.ps.busy then .next s
  else .next { s with ps := { s.ps with done := false, err := none } }

end Sys2Proof.Machine
end

