-- ==== Sys2Proof/Machine/Window.lean ====
section
/-! DEFINITION. The output window's routines (43_output_window.md) and what follows them: PutByte, CopyBlock, Flush, CopyStep,
Finish. A `Flush` waits for the host at each byte, so it is a control point of its own with what follows it (R29, R77). -/

namespace Sys2Proof.Machine

/-- Enter `Flush()` (R253). -/
def beginFlush (cont : FlushCont) (s : State) : State :=
  { s with lz := { s.lz with phase := .flush s.lz.streamPos.toNat cont } }

/-- The rest of `DoLit` after `PutByte(b)` (R207). -/
def endLit (b : Byte) (s : State) : State :=
  { s with lz := { s.lz with prevByte := b, state := litNext s.lz.state, phase := .loopTop } }

/-- The rest of `CopyStep` after `CopyBlock`: `prev_byte <- GetByte(0)` (R219). -/
def endCopy (s : State) : Out :=
  match getByte 0 s with
  | some b => .next { s with lz := { s.lz with prevByte := b, phase := .loopTop } }
  | none => .fault .windowIndex

/-- `PutByte(b)` in `DoLit`, then the rest of it, by way of a flush at the window's end (R251, R207). -/
def putLiteral (b : Byte) (s : State) : Out :=
  appendByte b s (fun t =>
    if t.lz.winPos = t.lz.winSize then .next (beginFlush (.lit b) t) else .next (endLit b t))

/-- The source index of a copy step, wrapped (R252). -/
def copySource (src : Nat) (s : State) : Nat := if src < s.lz.winSize.toNat then src else 0

/-- The loop of `CopyBlock`: `rem` bytes to copy from source index `src`; it stops for a flush at the window's end (R252). -/
def copyRun (rem : Nat) (src : Nat) (s : State) : Out :=
  match rem with
  | 0 => endCopy s
  | rem + 1 =>
    match memRead (copySource src s) s with
    | none => .fault .windowIndex
    | some b =>
      appendByte b s (fun t =>
        if t.lz.winPos = t.lz.winSize then .next (beginFlush (.copy rem (copySource src s + 1)) t)
        else copyRun rem (copySource src s + 1) t)

/-- `CopyBlock(dist, len)` (R252). -/
def copyBlock (dist : Word) (len : Nat) (s : State) : Out :=
  if backIndex dist s < 0 then .fault .windowIndex else copyRun len (backIndex dist s).toNat s

/-- R211: the distance is below `out_pos` and below `dict_check`. -/
def distanceOk (z : Lzma) : Bool := decide (z.rep0.toNat < z.outPos.toNat) && decide (z.rep0.toNat < z.dictCheck.toNat)

/-- R212: the copy stays within a known size. -/
def sizeOk (len : Nat) (z : Lzma) : Bool := !z.sizeKnown || decide (z.outPos.toNat + len ≤ z.usize.toNat)

/-- `CopyStep(len)` (R219). -/
def copyStep (len : Nat) (s : State) : Out :=
  if distanceOk s.lz then
    if sizeOk len s.lz then copyBlock s.lz.rep0 len s else .next (raise .lzma .sizeMismatch s)
  else .next (raise .lzma .corruptCompressedStream s)

/-- The rest of `Finish()` after its flush (R216). -/
def endDecode (s : State) : State :=
  { s with lz := { s.lz with eosFlag := s.lz.eos, done := true, busy := false, phase := .idle } }

/-- What follows a flush. -/
def afterFlush (cont : FlushCont) (s : State) : Out :=
  match cont with
  | .lit b => .next (endLit b s)
  | .copy rem src => copyRun rem src s
  | .finish => .next (endDecode s)

/-- The end of `Flush()`: wrap, then `stream_pos <- win_pos` (R253). -/
def endFlush (s : State) : State :=
  { s with lz := { s.lz with
      winPos := if s.lz.winPos = s.lz.winSize then 0 else s.lz.winPos
      streamPos := if s.lz.winPos = s.lz.winSize then 0 else s.lz.winPos } }

/-- A turn inside `Flush()` at index `j`, nothing offered on `dout`: offer the next byte, or go on (R253, R77). -/
def flushTurn (j : Nat) (cont : FlushCont) (s : State) : Out :=
  if j < s.lz.winPos.toNat then
    match memRead j s with
    | some b => .next { s with lz := { s.lz with dout := some b, phase := .flush (j + 1) cont } }
    | none => .fault .windowIndex
  else afterFlush cont (endFlush s)

end Sys2Proof.Machine
end

