-- ==== Sys2Proof/Machine/Packets.lean ====
section
/-! DEFINITION. The meanings of the packets (42_lzma_fsm.md R207 to R219), each for a packet whose bits are decoded. -/

namespace Sys2Proof.Machine

/-- LIT (R207). -/
def execLit (b : Byte) (s : State) : Out := putLiteral b s

/-- MATCH (R208). -/
def execNewMatch (len : Nat) (dist : Word) (s : State) : Out :=
  copyStep len { s with lz := { rotateNew dist s.lz with state := matchNext s.lz.state } }

/-- EOS (R209, R213): the length is ignored (R114). -/
def execEos (_len : Nat) (s : State) : Out :=
  if s.lz.sizeKnown && decide (s.lz.outPos ≠ s.lz.usize) then
    .next (raise .lzma .sizeMismatch { s with lz := { s.lz with eos := true } })
  else .next (beginFlush .finish { s with lz := { s.lz with eos := true } })

/-- SHORTREP (R210). -/
def execShortRep (s : State) : Out :=
  copyStep 1 { s with lz := { s.lz with state := shortRepNext s.lz.state } }

/-- REP0 (R214). -/
def execRep0 (len : Nat) (s : State) : Out :=
  copyStep len { s with lz := { s.lz with state := repNext s.lz.state } }

/-- REP1 (R215). -/
def execRep1 (len : Nat) (s : State) : Out :=
  copyStep len { s with lz := { rotateRep1 s.lz with state := repNext s.lz.state } }

/-- REP2 (R217). -/
def execRep2 (len : Nat) (s : State) : Out :=
  copyStep len { s with lz := { rotateRep2 s.lz with state := repNext s.lz.state } }

/-- REP3 (R218). -/
def execRep3 (len : Nat) (s : State) : Out :=
  copyStep len { s with lz := { rotateRep3 s.lz with state := repNext s.lz.state } }

end Sys2Proof.Machine
end

