-- ==== Sys2Proof/Machine/Dispatch.lean ====
section
/-! DEFINITION. The dispatch of an instruction to its meaning. -/

namespace Sys2Proof.Machine

def exec (i : Instr) (s : State) : Host.Outcome State Fault Refusal :=
  match i with
  | .lit b => Sys2Proof.Machine.execLit b s
  | .newMatch len dist => Sys2Proof.Machine.execNewMatch len dist s
  | .eos len => Sys2Proof.Machine.execEos len s
  | .shortRep => Sys2Proof.Machine.execShortRep s
  | .rep0 len => Sys2Proof.Machine.execRep0 len s
  | .rep1 len => Sys2Proof.Machine.execRep1 len s
  | .rep2 len => Sys2Proof.Machine.execRep2 len s
  | .rep3 len => Sys2Proof.Machine.execRep3 len s
  | .startLzma => Sys2Proof.Machine.execStartLzma s
  | .startParse => Sys2Proof.Machine.execStartParse s
  | .clearLzma => Sys2Proof.Machine.execClearLzma s
  | .clearParse => Sys2Proof.Machine.execClearParse s

end Sys2Proof.Machine
end

