-- ==== Sys2Proof/Machine/Lzma.lean ====
section
/-! DEFINITION. A turn of the LZMA engine: the decode routine (42_lzma_fsm.md R200 to R206, R220), from one port event or
decoded bit to the next. -/

namespace Sys2Proof.Machine

/-- The engine at another control point. -/
def toPhase (p : LzPhase) (s : State) : State := { s with lz := { s.lz with phase := p } }

/-- The derived properties and PROPS.RAW, DICT_SIZE after header byte 4 (R203, R204). -/
def headerValues (d : Byte) (ds : Word) (s : State) : State :=
  { s with lz := { s.lz with
      props := propsSetRaw d s.lz.props
      dictSize := ds
      lc := propsLc d, lp := propsLp d, pb := propsPb d
      dictCheck := dictCheckOf ds, winSize := winSizeOf ds } }

/-- The size is settled: `usize`, `size_known`, PROPS.SIZE_KNOWN; `RcInit` is next (R206, R150). -/
def headerSize (u : DWord) (s : State) : State :=
  { s with lz := { s.lz with
      usize := u
      sizeKnown := decide (u ≠ BitVec.allOnes 64)
      props := propsSetKnown (decide (u ≠ BitVec.allOnes 64)) s.lz.props
      phase := .rcFirst } }

/-- The properties are accepted: PROPS.LC, LP, PB, VALID; the size field is next (R205, R206). -/
def headerAccept (s : State) : State :=
  if s.lz.hdr13 then
    { s with lz := { s.lz with props := propsSetValid s.lz.lc s.lz.lp s.lz.pb s.lz.props, phase := .hdrSize 0 0 } }
  else headerSize (BitVec.allOnes 64)
    { s with lz := { s.lz with props := propsSetValid s.lz.lc s.lz.lp s.lz.pb s.lz.props } }

/-- The validation of R205, in its order, on the state after R204. -/
def headerCheck (d : Byte) (s : State) : State :=
  if propsValid d = false then raise .lzma .invalidStreamProperties s
  else if s.params.windowCapacity < s.lz.winSize.toNat then raise .lzma .invalidStreamProperties s
  else if s.params.litCtxBitsCapacity < s.lz.lc.toNat + s.lz.lp.toNat then raise .lzma .invalidStreamProperties s
  else headerAccept s

/-- Dictionary byte `k` is `b` (R203). -/
def dictByte (d : Byte) (k : Nat) (ds : Word) (b : Byte) (s : State) : State :=
  if k < 3 then toPhase (.hdrDict d (k + 1) (ds ||| (b.setWidth 32 <<< (8 * k)))) s
  else headerCheck d (headerValues d (ds ||| (b.setWidth 32 <<< (8 * k))) s)

/-- Size byte `k` is `b` (R206). -/
def sizeByte (k : Nat) (u : DWord) (b : Byte) (s : State) : State :=
  if k < 7 then toPhase (.hdrSize (k + 1) (u ||| (b.setWidth 64 <<< (8 * k)))) s
  else headerSize (u ||| (b.setWidth 64 <<< (8 * k))) s

/-- The end of `RcInit`, and the start values before the loop (R150, R200). -/
def startPackets (c : Word) (s : State) : State :=
  { s with lz := { s.lz with
      code := c, range := 0xFFFFFFFF
      prob := initCounters (probCount s.lz.lc.toNat s.lz.lp.toNat) s.lz.prob
      state := .litLit
      rep0 := 0, rep1 := 0, rep2 := 0, rep3 := 0
      prevByte := 0
      phase := .loopTop } }

/-- Code byte `k` of `RcInit` is `b` (R150). -/
def codeByte (k : Nat) (c : Word) (b : Byte) (s : State) : State :=
  if k < 3 then toPhase (.rcCode (k + 1) ((c <<< 8) ||| b.setWidth 32)) s
  else startPackets ((c <<< 8) ||| b.setWidth 32) s

/-- The loop test (R220): `Finish`, or the next packet. -/
def loopTest (s : State) : State :=
  if s.lz.sizeKnown && decide (s.lz.usize.toNat ≤ s.lz.outPos.toNat) then beginFlush .finish s
  else toPhase (.packet []) s

/-- A turn inside a packet: perform it once its bits are complete, else decode one more bit (R200). An error finds the early
rotation of REP1 to REP3 made (log 12). -/
def packetTurn (bits : List Bool) (s : State) : Option Out :=
  match (packetDecode (ctxOf s)).walk bits with
  | (.done i, _) => some (exec i s)
  | (.noMatchByte, _) => some (.fault .windowIndex)
  | (.ask q _, _) =>
    match answer q s with
    | .ok b t => some (.next (toPhase (.packet (bits ++ [b])) t))
    | .wait => none
    | .raised e t => some (.next (raise .lzma e { t with lz := rotateEarly bits t.lz }))
    | .fault f => some (.fault f)
    | .refused r => some (.refused r)

/-- A turn of the LZMA engine; `none` while it is idle or waits for the host (R29, R52, R76, R77). -/
def lzmaTurn (s : State) : Option Out :=
  if s.lz.busy && s.lz.dout.isNone then
    match s.lz.phase with
    | .idle => none
    | .hdrProps => (readIn s).turn .lzma (fun d t => .next (toPhase (.hdrDict d 0 0) t))
    | .hdrDict d k ds => (readIn s).turn .lzma (fun b t => .next (dictByte d k ds b t))
    | .hdrSize k u => (readIn s).turn .lzma (fun b t => .next (sizeByte k u b t))
    | .rcFirst => (readIn s).turn .lzma (fun _ t => .next (toPhase (.rcCode 0 0) t))
    | .rcCode k c => (readIn s).turn .lzma (fun b t => .next (codeByte k c b t))
    | .loopTop => some (.next (loopTest s))
    | .packet bits => packetTurn bits s
    | .flush j cont => some (flushTurn j cont s)
  else none

end Sys2Proof.Machine
end

