-- ==== Sys2Proof/Machine/Float.lean ====
section
/-! DEFINITION. IEEE 754 binary64 arithmetic and the dequantizer (44_dataset_parser.md R283, R289), by exact rational
arithmetic and one rounding. -/

namespace Sys2Proof.Machine

/-- A binary64 datum: `fin neg m e` is `(-1)^neg * m * 2^e`, `m = 0` being a signed zero (log 19). -/
inductive F64 where
  | nan
  | inf (neg : Bool)
  | fin (neg : Bool) (m : Nat) (e : Int)
  deriving DecidableEq, Repr

/-- The numerator and denominator of `n / d * 2^(-q)`. -/
def scaleDown (n d : Nat) (q : Int) : Nat × Nat := if 0 ≤ q then (n, d * 2 ^ q.toNat) else (n * 2 ^ (-q).toNat, d)

/-- `floor(log2(n / d))` for positive `n`, `d`. -/
def ratLog2 (n d : Nat) : Int :=
  if (scaleDown n d ((n.log2 : Int) - d.log2)).2 ≤ (scaleDown n d ((n.log2 : Int) - d.log2)).1 then (n.log2 : Int) - d.log2
  else (n.log2 : Int) - d.log2 - 1

/-- `n / d` rounded to the nearest natural number, ties to even. -/
def roundNearestEven (n d : Nat) : Nat :=
  if 2 * (n % d) < d then n / d
  else if d < 2 * (n % d) then n / d + 1
  else if n / d % 2 = 0 then n / d else n / d + 1

/-- The exponent of the last place of `n / d` in a format of `p` bits whose smallest last place is `2^qmin`. -/
def lastPlace (p : Nat) (qmin : Int) (n d : Nat) : Int := max (ratLog2 n d - (p - 1)) qmin

/-- `n / d` (positive) rounded to such a format, ties to even: a mantissa and the exponent of its last place. -/
def roundRat (p : Nat) (qmin : Int) (n d : Nat) : Nat × Int :=
  (roundNearestEven (scaleDown n d (lastPlace p qmin n d)).1 (scaleDown n d (lastPlace p qmin n d)).2, lastPlace p qmin n d)

/-- Round `(-1)^neg * n / d` to binary64, overflowing to an infinity; a zero keeps its sign (R289). -/
def f64Round (neg : Bool) (n d : Nat) : F64 :=
  if n = 0 then .fin neg 0 0
  else if 1024 ≤ ((roundRat 53 (-1074) n d).1.log2 : Int) + (roundRat 53 (-1074) n d).2 then .inf neg
  else .fin neg (roundRat 53 (-1074) n d).1 (roundRat 53 (-1074) n d).2

/-- Round `(-1)^neg * m * 2^e` to binary64. -/
def f64RoundScaled (neg : Bool) (m : Nat) (e : Int) : F64 :=
  if 0 ≤ e then f64Round neg (m * 2 ^ e.toNat) 1 else f64Round neg m (2 ^ (-e).toNat)

/-- `(-1)^neg * m` as an integer. -/
def signed (neg : Bool) (m : Nat) : Int := if neg then -(m : Int) else m

/-- The exact sum of two finite data, in units of `2^(min e1 e2)`. -/
def exactSum (n1 : Bool) (m1 : Nat) (e1 : Int) (n2 : Bool) (m2 : Nat) (e2 : Int) : Int :=
  signed n1 (m1 * 2 ^ (e1 - min e1 e2).toNat) + signed n2 (m2 * 2 ^ (e2 - min e1 e2).toNat)

/-- `f64_add` (R289): an exact zero sum is `+0` unless both operands are negative (round to nearest). -/
def f64Add : F64 → F64 → F64
  | .nan, _ => .nan
  | _, .nan => .nan
  | .inf a, .inf b => if a = b then .inf a else .nan
  | .inf a, .fin _ _ _ => .inf a
  | .fin _ _ _, .inf b => .inf b
  | .fin n1 m1 e1, .fin n2 m2 e2 =>
    if exactSum n1 m1 e1 n2 m2 e2 = 0 then .fin (n1 && n2) 0 0
    else f64RoundScaled (decide (exactSum n1 m1 e1 n2 m2 e2 < 0)) (exactSum n1 m1 e1 n2 m2 e2).natAbs (min e1 e2)

/-- The negated datum. -/
def f64Neg : F64 → F64
  | .nan => .nan
  | .inf a => .inf (!a)
  | .fin n m e => .fin (!n) m e

/-- `f64_sub` (R289). -/
def f64Sub (x y : F64) : F64 := f64Add x (f64Neg y)

/-- `f64_mul` (R289). -/
def f64Mul : F64 → F64 → F64
  | .nan, _ => .nan
  | _, .nan => .nan
  | .inf a, .inf b => .inf (a != b)
  | .inf a, .fin n m _ => if m = 0 then .nan else .inf (a != n)
  | .fin n m _, .inf b => if m = 0 then .nan else .inf (n != b)
  | .fin n1 m1 e1, .fin n2 m2 e2 => f64RoundScaled (n1 != n2) (m1 * m2) (e1 + e2)

/-- `f64_div` (R289). -/
def f64Div : F64 → F64 → F64
  | .nan, _ => .nan
  | _, .nan => .nan
  | .inf _, .inf _ => .nan
  | .inf a, .fin n _ _ => .inf (a != n)
  | .fin n _ _, .inf b => .fin (n != b) 0 0
  | .fin n1 m1 e1, .fin n2 m2 e2 =>
    if m2 = 0 then (if m1 = 0 then .nan else .inf (n1 != n2))
    else f64Round (n1 != n2) (m1 * 2 ^ (e1 - min e1 e2).toNat) (m2 * 2 ^ (e2 - min e1 e2).toNat)

/-- `f64(n)`, exact for `n < 2^32` (R289). -/
def f64OfNat (n : Nat) : F64 := .fin false n 0

/-- `f64_from_f32(x)`: exact; a NaN becomes a NaN (R289). -/
def f64FromF32 (x : Word) : F64 :=
  if x.toNat / 2 ^ 23 % 256 = 255 then (if x.toNat % 2 ^ 23 = 0 then .inf (x.getLsbD 31) else .nan)
  else if x.toNat / 2 ^ 23 % 256 = 0 then .fin (x.getLsbD 31) (x.toNat % 2 ^ 23) (-149)
  else .fin (x.getLsbD 31) (2 ^ 23 + x.toNat % 2 ^ 23) ((x.toNat / 2 ^ 23 % 256 : Nat) - 150)

/-- The pattern of `(-1)^neg` and the 31 low bits `b`. -/
def f32Pattern (neg : Bool) (b : Nat) : Word := BitVec.ofNat 32 (b + (if neg then 2 ^ 31 else 0))

/-- The 31 low bits of a rounded magnitude, infinity at the top (R289). -/
def f32Magnitude (r : Nat × Int) : Nat := min (r.1 + (r.2 + 149).toNat * 2 ^ 23) 0x7F800000

/-- `f32_from_f64(v)` (R289); `none` for a NaN, whose pattern is free (93 I10). -/
def f32FromF64 : F64 → Option Word
  | .nan => none
  | .inf a => some (f32Pattern a 0x7F800000)
  | .fin n m e =>
    if m = 0 then some (f32Pattern n 0)
    else some (f32Pattern n (f32Magnitude
      (roundRat 24 (-149) (if 0 ≤ e then m * 2 ^ e.toNat else m) (if 0 ≤ e then 1 else 2 ^ (-e).toNat))))

/-- `Dequant(c)` of a code of `w` bits (R283); `none` for a NaN. -/
def dequant (w c : Nat) (tempMin tempMax : Word) : Option Word :=
  f32FromF64 (f64Add
    (f64Mul (f64Div (f64OfNat c) (f64OfNat (2 ^ w - 1))) (f64Sub (f64FromF32 tempMax) (f64FromF32 tempMin)))
    (f64FromF32 tempMin))

/-- The binary32 NaN made of free bits: any sign, any payload but zero (93 I10; log 8). -/
def nanOf (x : Word) : Word := if x.toNat % 2 ^ 23 = 0 then (x ||| 0x7F800000) ||| 1 else x ||| 0x7F800000

end Sys2Proof.Machine
end

