-- ==== Sys2Proof/Machine/Parser.lean ====
section
/-! DEFINITION. A turn of the parser engine: the parse routine (44_dataset_parser.md R274 to R291), one bit, one completed
field or one offered item at a time. -/

namespace Sys2Proof.Machine

/-- The parser at another control point. -/
def toPPhase (p : PPhase) (s : State) : State := { s with ps := { s.ps with phase := p } }

/-- Start reading a field (R271). -/
def readField (f : PField) (s : State) : State := toPPhase (.field f 0 0) s

/-- The width of a field in bits (R135, R136, R272). -/
def fieldWidth (p : Parser) : PField → Nat
  | .magic _ => 8
  | .version => 8
  | .countTemperatures => 32
  | .countLocations => 32
  | .countBins => 32
  | .minYear => 16
  | .minMonth => 8
  | .maxYear => 16
  | .maxMonth => 8
  | .tempMin => 32
  | .tempMax => 32
  | .bcTemperature => 8
  | .bcTemperatureIndex => 8
  | .bcMonthDelta => 8
  | .bcBinIndex => 8
  | .tempCode => p.bcTemperature.toNat
  | .binMonthDelta => p.bcMonthDelta.toNat
  | .binTempIndex _ => p.bcTemperatureIndex.toNat
  | .locLat => 32
  | .locLon _ => 32
  | .locBinIndex _ _ => p.bcBinIndex.toNat

/-- Byte `k` of "CCE" (R275). -/
def magicByte (k : Nat) : Word := if k < 2 then 0x43 else 0x45

/-- `PFinish()` (R287). -/
def endParse (s : State) : State := { s with ps := { s.ps with done := true, busy := false, phase := .idle } }

/-- The loop test of `ReadLocations`; after the last entry the held one goes out (R286). -/
def nextLocation (s : State) : State :=
  if s.ps.pI < s.ps.countLocations then readField .locLat s
  else if s.ps.heldLocValid then
    { s with ps := { s.ps with
        locOut := some { lat := s.ps.heldLocLa, lon := s.ps.heldLocLo, bidxMin := s.ps.heldLocBi, bidxEnd := s.ps.countBins }
        phase := .locsEnd } }
  else toPPhase .locsEnd s

/-- The start of `ReadLocations` (R286). -/
def startLocations (s : State) : State := nextLocation { s with ps := { s.ps with heldLocValid := false, pI := 0 } }

/-- The loop test of `ReadBins` (R285). -/
def nextBin (s : State) : State :=
  if s.ps.pI < s.ps.countBins then readField .binMonthDelta s
  else if s.ps.heldBinValid then
    { s with ps := { s.ps with
        binOut := some { monthDelta := s.ps.heldBinMd, tidxMin := s.ps.heldBinTi, tidxEnd := s.ps.countTemperatures }
        phase := .binsEnd } }
  else toPPhase .binsEnd s

/-- The start of `ReadBins` (R285). -/
def startBins (s : State) : State := nextBin { s with ps := { s.ps with heldBinValid := false, pI := 0 } }

/-- The loop test of `ReadTemperatures` (R282). -/
def nextTemperature (s : State) : State := if s.ps.pI < s.ps.countTemperatures then readField .tempCode s else startBins s

/-- `p_i` up by one (R35). -/
def bumpIndex (s : State) : State := { s with ps := { s.ps with pI := s.ps.pI + 1 } }

/-- `TempOut(Dequant(c))` (R282, R283); a NaN is the next free one (93 I10; log 8). -/
def offerTemperature (c : Word) (s : State) : State :=
  match dequant s.ps.bcTemperature.toNat c.toNat s.ps.tempMin s.ps.tempMax with
  | some v => { s with ps := { s.ps with tempOut := some v, phase := .tempNext } }
  | none =>
    { s with
      ps := { s.ps with tempOut := some (nanOf (Config.freeNanBits s.nanCount)), phase := .tempNext }
      nanCount := s.nanCount + 1 }

/-- Bin `(md, ti)` is read: the held bin goes out with `ti` as its end (R284, R285). -/
def offerBin (md ti : Word) (s : State) : State :=
  if s.ps.heldBinValid then
    { s with ps := { s.ps with
        binOut := some { monthDelta := s.ps.heldBinMd, tidxMin := s.ps.heldBinTi, tidxEnd := ti }
        phase := .binHold md ti } }
  else toPPhase (.binHold md ti) s

/-- `p_held_bin <- (md, ti, valid = 1)` (R285). -/
def holdBin (md ti : Word) (s : State) : State :=
  { s with ps := { s.ps with heldBinMd := md, heldBinTi := ti, heldBinValid := true } }

/-- Location `(la, lo, bi)` is read: the held one goes out with `bi` as its end (R284, R286). -/
def offerLocation (la lo bi : Word) (s : State) : State :=
  if s.ps.heldLocValid then
    { s with ps := { s.ps with
        locOut := some { lat := s.ps.heldLocLa, lon := s.ps.heldLocLo, bidxMin := s.ps.heldLocBi, bidxEnd := bi }
        phase := .locHold la lo bi } }
  else toPPhase (.locHold la lo bi) s

/-- `p_held_loc <- (la, lo, bi, valid = 1)` (R286). -/
def holdLocation (la lo bi : Word) (s : State) : State :=
  { s with ps := { s.ps with heldLocLa := la, heldLocLo := lo, heldLocBi := bi, heldLocValid := true } }

/-- `CheckWidths()` (R278), then P_HDR_VALID and the start of `ReadTemperatures` (R281, R282). -/
def checkWidths (s : State) : State :=
  if 32 < s.ps.bcTemperature.toNat ∨ 32 < s.ps.bcTemperatureIndex.toNat ∨ 32 < s.ps.bcMonthDelta.toNat ∨
      32 < s.ps.bcBinIndex.toNat then
    raise .parser .invalidFieldWidth s
  else nextTemperature { s with ps := { s.ps with hdrValid := true, pI := 0 } }

/-- A field is complete with value `v` (R275 to R278, R282, R285, R286). -/
def fieldDone (f : PField) (v : Word) (s : State) : State :=
  match f with
  | .magic k =>
    if v = magicByte k then (if k < 2 then readField (.magic (k + 1)) s else readField .version s)
    else raise .parser .magicMismatch s
  | .version => if v = 3 then readField .countTemperatures s else raise .parser .unsupportedVersion s
  | .countTemperatures => readField .countLocations { s with ps := { s.ps with countTemperatures := v } }
  | .countLocations => readField .countBins { s with ps := { s.ps with countLocations := v } }
  | .countBins => readField .minYear { s with ps := { s.ps with countBins := v } }
  | .minYear => readField .minMonth { s with ps := { s.ps with minYear := v.setWidth 16 } }
  | .minMonth => readField .maxYear { s with ps := { s.ps with minMonth := v.setWidth 8 } }
  | .maxYear => readField .maxMonth { s with ps := { s.ps with maxYear := v.setWidth 16 } }
  | .maxMonth => readField .tempMin { s with ps := { s.ps with maxMonth := v.setWidth 8 } }
  | .tempMin => readField .tempMax { s with ps := { s.ps with tempMin := v } }
  | .tempMax => readField .bcTemperature { s with ps := { s.ps with tempMax := v } }
  | .bcTemperature => readField .bcTemperatureIndex { s with ps := { s.ps with bcTemperature := v.setWidth 8 } }
  | .bcTemperatureIndex => readField .bcMonthDelta { s with ps := { s.ps with bcTemperatureIndex := v.setWidth 8 } }
  | .bcMonthDelta => readField .bcBinIndex { s with ps := { s.ps with bcMonthDelta := v.setWidth 8 } }
  | .bcBinIndex => checkWidths { s with ps := { s.ps with bcBinIndex := v.setWidth 8 } }
  | .tempCode => offerTemperature v s
  | .binMonthDelta => readField (.binTempIndex v) s
  | .binTempIndex md => offerBin md v s
  | .locLat => readField (.locLon v) s
  | .locLon la => readField (.locBinIndex la v) s
  | .locBinIndex la lo => offerLocation la lo v s

/-- A turn inside a field: one more bit, or the field is complete (R271, R291). -/
def fieldTurn (f : PField) (k : Nat) (v : Word) (s : State) : Option Out :=
  if k < fieldWidth s.ps f then
    (pReadBit s).turn .parser (fun b t => .next (toPPhase (.field f (k + 1) ((v <<< 1) ||| BitVec.ofNat 32 b.toNat)) t))
  else some (.next (fieldDone f v s))

/-- No item of the parser waits for the host (R52, R79). -/
def parserPortsFree (p : Parser) : Bool := p.tempOut.isNone && p.binOut.isNone && p.locOut.isNone

/-- A turn of the parser engine; `none` while it is idle or waits for the host. -/
def parserTurn (s : State) : Option Out :=
  if s.ps.busy && parserPortsFree s.ps then
    match s.ps.phase with
    | .idle => none
    | .field f k v => fieldTurn f k v s
    | .tempNext => some (.next (nextTemperature (bumpIndex s)))
    | .binHold md ti => some (.next (nextBin (bumpIndex (holdBin md ti s))))
    | .binsEnd => some (.next (startLocations s))
    | .locHold la lo bi => some (.next (nextLocation (bumpIndex (holdLocation la lo bi s))))
    | .locsEnd => some (.next (endParse s))
  else none

end Sys2Proof.Machine
end

