-- ==== Sys2Proof/Machine/Agents.lean ====
section
/-! DEFINITION. The host's side: control-register writes (45_host_commands.md R310, R315), the ports (R52), reset (R370); and
which agent moves (R387; log 1). -/

namespace Sys2Proof.Machine

/-- Commands one after another, each seeing the effect of those before it (R315). -/
def runCommands (is : List Instr) (s : State) : Out :=
  match is with
  | [] => .next s
  | i :: is =>
    match exec i s with
    | .next t => runCommands is t
    | .fault f => .fault f
    | .refused r => .refused r

/-- `CsrWrite(off, v)` (R310): CTRL stores bits 1:0, CMD issues its commands, any other offset ignores the write. -/
def csrWrite (off : BitVec 8) (v : Word) (s : State) : Out :=
  match off.toNat / 4 with
  | 0 => .next { s with ctrl := v.setWidth 2 }
  | 1 => runCommands (decodeCommands v) s
  | _ => .next s

/-- `rst` (R370, R374): every register at its reset value, offered items withdrawn; the RAMs are not cleared (R372), the
parameters do not change (R375), and what the host offers stays with the host. Unspecified registers: log 4. -/
def resetBlock (s : State) : State :=
  { s with ctrl := 1, lz := Lzma.resetWith s.lz.prob s.lz.window, ps := Parser.reset }

/-- The host takes the byte offered on `dout` (R52). -/
def takeDout (s : State) : State :=
  match s.lz.dout with
  | some b => { s with lz := { s.lz with dout := none }, host := { s.host with doutLog := s.host.doutLog ++ [b] } }
  | none => s

/-- The host takes the item offered on `temp_out`. -/
def takeTemp (s : State) : State :=
  match s.ps.tempOut with
  | some v => { s with ps := { s.ps with tempOut := none }, host := { s.host with tempLog := s.host.tempLog ++ [v] } }
  | none => s

/-- The host takes the item offered on `bin_out`. -/
def takeBin (s : State) : State :=
  match s.ps.binOut with
  | some v => { s with ps := { s.ps with binOut := none }, host := { s.host with binLog := s.host.binLog ++ [v] } }
  | none => s

/-- The host takes the item offered on `loc_out`. -/
def takeLoc (s : State) : State :=
  match s.ps.locOut with
  | some v => { s with ps := { s.ps with locOut := none }, host := { s.host with locLog := s.host.locLog ++ [v] } }
  | none => s

/-- One action of the host or of `rst`. -/
def hostTurn (a : HostAct) (s : State) : Out :=
  match a with
  | .csrRead off => .next { s with host := { s.host with rdata := csrRead off s } }
  | .csrWrite off v => csrWrite off v s
  | .offerCin b last => .next { s with host := { s.host with cin := s.host.cin ++ [(b, last)] } }
  | .offerPin b last => .next { s with host := { s.host with pin := s.host.pin ++ [(b, last)] } }
  | .withdrawCin => .next { s with host := { s.host with cin := [] } }
  | .withdrawPin => .next { s with host := { s.host with pin := [] } }
  | .takeDout => .next (takeDout s)
  | .takeTemp => .next (takeTemp s)
  | .takeBin => .next (takeBin s)
  | .takeLoc => .next (takeLoc s)
  | .rst => .next (resetBlock s)

/-- A planned turn; an engine that is idle or waits does nothing with its turn (R29, R76). -/
def runTurn (t : Turn) (s : State) : Out :=
  match t with
  | .host a => hostTurn a s
  | .lzma => (lzmaTurn s).getD (.next s)
  | .parser => (parserTurn s).getD (.next s)

/-- An item is offered on some output port. -/
def itemOffered (s : State) : Bool := s.lz.dout.isSome || !parserPortsFree s.ps

/-- The host takes every offered item. -/
def takeAll (s : State) : State := takeLoc (takeBin (takeTemp (takeDout s)))

/-- The turn after the plan is used up (log 1): the host takes what is offered if it takes at all; else the LZMA engine moves
if it can; else the parser engine; else nothing changes (93 I12). -/
def autoTurn (s : State) : Out :=
  if s.host.takes && itemOffered s then .next (takeAll s)
  else (lzmaTurn s).getD ((parserTurn s).getD (.next s))

/-- One step: the next planned turn, or the turn after the plan (log 1). -/
def anyTurn (s : State) : Out :=
  match s.host.schedule with
  | [] => autoTurn s
  | t :: rest => runTurn t { s with host := { s.host with schedule := rest } }

/-! ### Placing an instruction where it is fetched (log 2) -/

/-- A stream whose header gave properties 0, dictionary size 0 and no size, where no header was read (R101, R150). -/
def streamStarted (z : Lzma) : Lzma :=
  if z.winSize = 0 then
    { z with dictCheck := 1, winSize := 4096, usize := BitVec.allOnes 64, sizeKnown := false, range := 0xFFFFFFFF }
  else z

/-- The instruction's word where the next step fetches it: a packet's bits at the LZMA engine's control point, with its turn
next; a command's value in a CMD write that is the host's next turn. -/
def placeCode (c : Code) (s : State) : State :=
  match c with
  | .bits l =>
    { s with
      lz := { streamStarted s.lz with busy := true, dout := none, phase := .packet l }
      host := { s.host with schedule := .lzma :: s.host.schedule } }
  | .cmd v => { s with host := { s.host with schedule := .host (.csrWrite 4 v) :: s.host.schedule } }

end Sys2Proof.Machine
end

