-- ==== Sys2Proof/Machine/Step.lean ====
section
/-! DEFINITION. One step of the machine, and placing an instruction where the step fetches it. -/

namespace Sys2Proof.Machine

/-- One turn of one agent (R20, R387). -/
def step (s : State) : Host.Outcome State Fault Refusal := anyTurn s

/-- `s` with the instruction of a table word stored where `step` fetches its next instruction (log 2, log 3). -/
def State.withFetchWord (s : State) (nbits w : Nat) : State := placeCode (tableCode nbits w) s

end Sys2Proof.Machine
end

