-- ==== Sys2Proof/Safety.lean ====
section
/-! DEFINITION. What counts as a safe run, and the invariants of the machine that the spec states or derives. -/

namespace Sys2Proof.Machine

/-- The step stops with a fault. -/
def Faults (o : Out) : Prop := ∃ f, o = .fault f

/-- The step goes on. -/
def GoesOn (o : Out) : Prop := ∃ t, o = .next t

/-- Every next state the outcome can be satisfies `P`. -/
def NextHolds (P : State → Prop) (o : Out) : Prop := ∀ t, o = .next t → P t

/-- `P` is kept by every step, from every state that satisfies it. -/
def KeptByStep (P : State → Prop) : Prop := ∀ s, P s → NextHolds P (step s)

/-! ### The RAMs -/

/-- Both RAMs are in canonical form (log 5, log 6). -/
def RamsCanonical (s : State) : Prop := Memory.wf s.lz.window = true ∧ probWf s.lz.prob = true

/-- A counter in 31..2017 (R31). -/
def counterOk (c : Counter) : Prop := 31 ≤ c.toNat ∧ c.toNat ≤ 2017

/-- Every counter of the RAM is in 31..2017 (R31). -/
def CountersBounded (s : State) : Prop := ∀ i, counterOk (probRead i s)

/-! ### Control points of the LZMA engine -/

/-- The header was read and accepted in the current run (R205). -/
def headerAccepted : LzPhase → Bool
  | .idle => false
  | .hdrProps => false
  | .hdrDict _ _ _ => false
  | .hdrSize _ _ => true
  | .rcFirst => true
  | .rcCode _ _ => true
  | .loopTop => true
  | .packet _ => true
  | .flush _ _ => true

/-- The main loop has been entered (R200). -/
def inLoop : LzPhase → Bool
  | .idle => false
  | .hdrProps => false
  | .hdrDict _ _ _ => false
  | .hdrSize _ _ => false
  | .rcFirst => false
  | .rcCode _ _ => false
  | .loopTop => true
  | .packet _ => true
  | .flush _ _ => true

/-- Between decoded bits the range decoder keeps `range >= 2^24` (R154). -/
def RangeNormal (s : State) : Prop := inLoop s.lz.phase = true → 2 ^ 24 ≤ s.lz.range.toNat

/-- The window pointers: `stream_pos <= win_pos < win_size` between window routines, and inside `Flush`
`stream_pos <= j <= win_pos <= win_size` (R28, R250, R253). -/
def pointersOk (z : Lzma) : Prop :=
  match z.phase with
  | .flush j _ =>
    z.streamPos.toNat ≤ j ∧ j ≤ z.winPos.toNat ∧ z.winPos.toNat ≤ z.winSize.toNat
  | _ => z.streamPos.toNat ≤ z.winPos.toNat ∧ z.winPos.toNat < z.winSize.toNat

/-- A decode that has not reached its loop has produced nothing (R250, R311). -/
def NothingBeforeLoop (s : State) : Prop :=
  s.lz.phase ≠ .idle → inLoop s.lz.phase = false → s.lz.outPos = 0 ∧ s.lz.winPos = 0 ∧ s.lz.streamPos = 0

/-- The geometry of an accepted header (R101, R102, R205, R250). -/
def WindowGeometry (s : State) : Prop :=
  headerAccepted s.lz.phase = true →
    s.lz.dictCheck = dictCheckOf s.lz.dictSize ∧ s.lz.winSize = winSizeOf s.lz.dictSize ∧
      s.lz.lc.toNat ≤ 8 ∧ s.lz.lp.toNat ≤ 4 ∧ s.lz.pb.toNat ≤ 4 ∧ pointersOk s.lz

/-- Flushes happen at the window's end and at the end of the stream only, so `win_pos` is `out_pos` modulo `win_size` and
`stream_pos` is 0 outside them (R255). -/
def WindowFollowsOutput (s : State) : Prop :=
  inLoop s.lz.phase = true →
    s.lz.streamPos = 0 ∧
      match s.lz.phase with
      | .flush _ .finish => s.lz.winPos.toNat = s.lz.outPos.toNat % s.lz.winSize.toNat
      | .flush _ _ => s.lz.winPos = s.lz.winSize ∧ s.lz.outPos.toNat % s.lz.winSize.toNat = 0
      | _ => s.lz.winPos.toNat = s.lz.outPos.toNat % s.lz.winSize.toNat

/-- In a non-literal state `rep0` is a validated distance (R175, R211). -/
def MatchByteExists (s : State) : Prop :=
  inLoop s.lz.phase = true → 7 ≤ s.lz.state.value →
    s.lz.rep0.toNat < s.lz.outPos.toNat ∧ s.lz.rep0.toNat < s.lz.dictCheck.toNat

/-- With a known size `out_pos` does not exceed it; inside a copy that waits for a flush, neither does what is left (R220). -/
def SizeRespected (s : State) : Prop :=
  inLoop s.lz.phase = true → s.lz.sizeKnown = true →
    match s.lz.phase with
    | .packet _ => s.lz.outPos.toNat < s.lz.usize.toNat
    | .flush _ (.copy rem _) => s.lz.outPos.toNat + rem ≤ s.lz.usize.toNat
    | _ => s.lz.outPos.toNat ≤ s.lz.usize.toNat

/-! ### Packets -/

/-- A byte of the window RAM, whatever `win_size` is. -/
def ramByte (z : Lzma) (a : Nat) : Byte := sparseGet windowDefault z.window a

/-- The length of a copy packet, and the engine with the packet's distances and state (the tables of R202 and R223). -/
def copyOperands (i : Instr) (z : Lzma) : Option (Nat × Lzma) :=
  match i with
  | .lit _ => none
  | .newMatch len dist =>
    some (len, { z with rep0 := dist, rep1 := z.rep0, rep2 := z.rep1, rep3 := z.rep2, state := matchNext z.state })
  | .eos _ => none
  | .shortRep => some (1, { z with state := shortRepNext z.state })
  | .rep0 len => some (len, { z with state := repNext z.state })
  | .rep1 len => some (len, { z with rep0 := z.rep1, rep1 := z.rep0, state := repNext z.state })
  | .rep2 len => some (len, { z with rep0 := z.rep2, rep1 := z.rep0, rep2 := z.rep1, state := repNext z.state })
  | .rep3 len =>
    some (len, { z with rep0 := z.rep3, rep1 := z.rep0, rep2 := z.rep1, rep3 := z.rep2, state := repNext z.state })
  | .startLzma => none
  | .startParse => none
  | .clearLzma => none
  | .clearParse => none

/-- How many bytes a copy of `len` writes before the window's end. -/
def copyCount (len : Nat) (z : Lzma) : Nat := min len (z.winSize.toNat - z.winPos.toNat)

/-- The engine after a copy of `len` bytes at `dist` from `z` left the window RAM as `w`: the packet is over (R219), or the
window is full and a flush comes before the rest of the copy (R252). -/
def copiedLzma (dist len : Nat) (z : Lzma) (w : List Host.Cell) : Lzma :=
  if z.winPos.toNat + len < z.winSize.toNat then
    { z with
      window := w, winPos := z.winPos + BitVec.ofNat 32 len, outPos := z.outPos + BitVec.ofNat 64 len
      prevByte := sparseGet windowDefault w ((z.winPos.toNat + len + z.winSize.toNat - 1) % z.winSize.toNat)
      phase := .loopTop }
  else
    { z with
      window := w, winPos := z.winSize, outPos := z.outPos + BitVec.ofNat 64 (copyCount len z)
      phase := .flush z.streamPos.toNat
        (.copy (len - copyCount len z) ((2 * z.winSize.toNat - dist - 2) % z.winSize.toNat + 1)) }

/-- The window RAM after `n` bytes were copied at `dist` to `win_pos`: byte by byte, so that a byte beyond the distance is a
byte of this copy; every other byte as before (R219, R252, R380). -/
def CopiedBytes (dist n : Nat) (z : Lzma) (w : List Host.Cell) : Prop :=
  Memory.wf w = true ∧
    (∀ a, a < z.winPos.toNat ∨ z.winPos.toNat + n ≤ a → sparseGet windowDefault w a = ramByte z a) ∧
      ∀ k, k < n → sparseGet windowDefault w (z.winPos.toNat + k) =
        if dist < k then sparseGet windowDefault w (z.winPos.toNat + (k - dist - 1))
        else ramByte z ((z.winPos.toNat + z.winSize.toNat + k - dist - 1) % z.winSize.toNat)

/-- The outcome is the next state of a copy of `len` bytes at `dist` from the engine `z`; the rest of `s` is unchanged. -/
def Copies (dist len : Nat) (z : Lzma) (s : State) (o : Out) : Prop :=
  ∃ w, o = .next { s with lz := copiedLzma dist len z w } ∧ CopiedBytes dist (copyCount len z) z w

/-- A copy of `len` bytes at `z.rep0` is accepted by R211 and R212 and stays below 2^64 bytes (R24, log 9). -/
def CopyAccepted (len : Nat) (z : Lzma) : Prop :=
  z.rep0.toNat < z.outPos.toNat ∧ z.rep0.toNat < z.dictCheck.toNat ∧
    (z.sizeKnown = true → z.outPos.toNat + len ≤ z.usize.toNat) ∧ z.outPos.toNat + len < 2 ^ 64

/-- The window the engine stands in between window routines (R28, R101), its RAM in canonical form. -/
def WindowReady (z : Lzma) : Prop :=
  Memory.wf z.window = true ∧ z.winPos.toNat < z.winSize.toNat ∧ z.dictCheck.toNat ≤ z.winSize.toNat

/-- The decoded sequence of R224 after a copy of `n` bytes at distance `dist`. -/
def copyOutput (dist n : Nat) (out : List Byte) : List Byte :=
  match n with
  | 0 => out
  | n + 1 => copyOutput dist n (out ++ [out.getD (out.length - dist - 1) 0])

/-- The window law (R257): `out` is what the decode has produced, and the window holds its last `win_size` bytes. -/
def WindowHolds (out : List Byte) (s : State) : Prop :=
  out.length = s.lz.outPos.toNat ∧
    ∀ d : Word, d.toNat < out.length → d.toNat < s.lz.winSize.toNat → getByte d s = out[out.length - d.toNat - 1]?

/-- Bytes of the decoded sequence that stand in the window and were not offered on `dout` yet: from `stream_pos` on, or from a
flush's index on (R250, R253). -/
def unflushed (z : Lzma) : Nat :=
  match z.phase with
  | .flush j _ => z.winPos.toNat - j
  | _ => z.winPos.toNat - z.streamPos.toNat

/-- `out` is what the decode has produced (R257), and after the bytes `given` before it the host was given all of `out` but
what is not flushed yet; the last of these bytes may still be offered on `dout` (R77, R253). -/
def Delivered (given out : List Byte) (s : State) : Prop :=
  WindowHolds out s ∧ unflushed s.lz ≤ out.length ∧
    s.host.doutLog ++ s.lz.dout.toList = given ++ out.take (out.length - unflushed s.lz)

/-! ### Which counter decodes which bit (R121 to R131) -/

/-- After the decoded bits `bits` of a packet, all of them used, the packet's next bit is decoded as `q` says. -/
def NextBit (c : Ctx) (bits : List Bool) (q : Query) : Prop := ∃ k, (packetDecode c).walk bits = (.ask q k, [])

/-- The packet routine has ended with `i` on the decoded bits `bits` (R200). -/
def PacketComplete (c : Ctx) (bits : List Bool) (i : Instr) : Prop := ((packetDecode c).walk bits).1 = .done i

/-! ### Several turns -/

/-- Up to `n` turns of the LZMA engine; it stops where the engine waits or stops. -/
def lzmaTurns (n : Nat) (s : State) : Out :=
  match n with
  | 0 => .next s
  | n + 1 =>
    match lzmaTurn s with
    | none => .next s
    | some (.next t) => lzmaTurns n t
    | some o => o

/-- Up to `n` turns of the parser engine. -/
def parserTurns (n : Nat) (s : State) : Out :=
  match n with
  | 0 => .next s
  | n + 1 =>
    match parserTurn s with
    | none => .next s
    | some (.next t) => parserTurns n t
    | some o => o

/-- `n` steps of the machine. -/
def steps (n : Nat) (s : State) : Out :=
  match n with
  | 0 => .next s
  | n + 1 =>
    match step s with
    | .next t => steps n t
    | o => o

/-! ### The bit string on `pin` (R270) -/

/-- The `n` low bits of a byte, the most significant of them first. -/
def byteBits (b : Byte) (n : Nat) : List Bool :=
  match n with
  | 0 => []
  | n + 1 => b.getLsbD n :: byteBits b n

/-- The bits of offered bytes up to the one flagged `last`. -/
def offeredBits (l : List (Byte × Bool)) : List Bool :=
  match l with
  | [] => []
  | (b, last) :: r => byteBits b 8 ++ (if last then [] else offeredBits r)

/-- The bits the parser can still read of what is offered. -/
def pendingBits (s : State) : List Bool :=
  byteBits s.ps.byte s.ps.avail.toNat ++ (if s.ps.ended then [] else offeredBits s.host.pin)

/-- The unsigned integer whose most significant bit is the first of the list (R270). -/
def bitsValue (l : List Bool) : Nat := l.foldl (fun v b => 2 * v + b.toNat) 0

/-- The node of a bit tree after the decoded bits `l`: 1 followed by them (R170). -/
def treeNode (l : List Bool) : Nat := 2 ^ l.length + bitsValue l

/-- The field of `w` bits at bit `off` of a bit string. -/
def bitsField (l : List Bool) (off w : Nat) : Nat := bitsValue ((l.drop off).take w)

/-- A binary32 NaN (R289, 93 I10). -/
def isNanPattern (x : Word) : Prop := x.toNat / 2 ^ 23 % 256 = 255 ∧ x.toNat % 2 ^ 23 ≠ 0

/-- A finite binary32 value. -/
def isFinitePattern (x : Word) : Prop := x.toNat / 2 ^ 23 % 256 ≠ 255

/-- A binary32 infinity. -/
def isInfPattern (x : Word) : Prop := x.toNat % 2 ^ 31 = 0x7F800000

/-- The magnitude of a finite binary32 pattern, in units of `2^(-149)` (R289). -/
def f32Units (x : Word) : Nat :=
  if x.toNat / 2 ^ 23 % 256 = 0 then x.toNat % 2 ^ 23 else (2 ^ 23 + x.toNat % 2 ^ 23) * 2 ^ (x.toNat / 2 ^ 23 % 256 - 1)

/-- The value of a finite binary32 pattern, in units of `2^(-149)`. -/
def f32Signed (x : Word) : Int := signed (x.getLsbD 31) (f32Units x)

/-- How far apart two numbers are. -/
def apart (a b : Nat) : Nat := (a - b) + (b - a)

/-- `m * 2^e` is the binary64 magnitude nearest to `num / den`, of two that are equally near the one with the even mantissa
(R289); subnormals, whose last place is `2^(-1074)`, are among the candidates. -/
def NearestF64 (num den m : Nat) (e : Int) : Prop :=
  m ≤ 2 ^ 53 ∧ -1074 ≤ e ∧ ∀ k (f : Int), k < 2 ^ 53 → -1074 ≤ f →
    apart (m * 2 ^ (e + 1074).toNat * den) (num * 2 ^ 1074) ≤ apart (k * 2 ^ (f + 1074).toNat * den) (num * 2 ^ 1074) ∧
      (apart (m * 2 ^ (e + 1074).toNat * den) (num * 2 ^ 1074) = apart (k * 2 ^ (f + 1074).toNat * den) (num * 2 ^ 1074) →
        k * 2 ^ (f + 1074).toNat = m * 2 ^ (e + 1074).toNat ∨ m % 2 = 0)

/-- The magnitude of the binary32 pattern `x` is the one nearest to `num / den` units of `2^(-149)`, of two that are equally near
the one with the even mantissa; from halfway between the largest finite value and `2^128` on it is an infinity (R289). -/
def NearestF32 (num den : Nat) (x : Word) : Prop :=
  if (2 ^ 25 - 1) * 2 ^ 252 * den ≤ num then isInfPattern x
  else isFinitePattern x ∧ ∀ y, isFinitePattern y →
    apart (f32Units x * den) num ≤ apart (f32Units y * den) num ∧
      (apart (f32Units x * den) num = apart (f32Units y * den) num → f32Units y = f32Units x ∨ x.toNat % 2 = 0)

/-- An outcome seen with other parts of the state in place of those an engine has no access to. -/
def mapNext (f : State → State) (o : Out) : Out :=
  match o with
  | .next t => .next (f t)
  | .fault x => .fault x
  | .refused x => .refused x

/-- The outcome `o`, followed by the instruction `i` where `b` holds. -/
def thenIf (b : Bool) (i : Instr) (o : Out) : Out :=
  match o with
  | .next t => if b then exec i t else .next t
  | .fault x => .fault x
  | .refused x => .refused x

/-! ### STATUS (R39) -/

/-- An engine is busy exactly while its routine runs, and at most one of BUSY, DONE, ERR != 0 holds (R39, R29). -/
def StatusExclusive (s : State) : Prop :=
  (s.lz.busy = true ↔ s.lz.phase ≠ .idle) ∧ (s.ps.busy = true ↔ s.ps.phase ≠ .idle) ∧
    (s.lz.busy = true → s.lz.done = false ∧ s.lz.err = none) ∧ (s.lz.done = true → s.lz.err = none) ∧
    (s.ps.busy = true → s.ps.done = false ∧ s.ps.err = none) ∧ (s.ps.done = true → s.ps.err = none)

/-- Each engine reports only the errors R330 gives it (R292). -/
def ErrorsOfEngine (s : State) : Prop :=
  (s.lz.err = none ∨ s.lz.err = some .invalidStreamProperties ∨ s.lz.err = some .prematureEndOfInput ∨
      s.lz.err = some .corruptCompressedStream ∨ s.lz.err = some .sizeMismatch) ∧
    (s.ps.err = none ∨ s.ps.err = some .magicMismatch ∨ s.ps.err = some .unsupportedVersion ∨
      s.ps.err = some .prematureEndOfInput ∨ s.ps.err = some .invalidFieldWidth)

/-! ### The parser -/

/-- A field of the header (R135). -/
def headerField : PField → Bool
  | .magic _ => true
  | .version => true
  | .countTemperatures => true
  | .countLocations => true
  | .countBins => true
  | .minYear => true
  | .minMonth => true
  | .maxYear => true
  | .maxMonth => true
  | .tempMin => true
  | .tempMax => true
  | .bcTemperature => true
  | .bcTemperatureIndex => true
  | .bcMonthDelta => true
  | .bcBinIndex => true
  | .tempCode => false
  | .binMonthDelta => false
  | .binTempIndex _ => false
  | .locLat => false
  | .locLon _ => false
  | .locBinIndex _ _ => false

/-- The parser is reading the header. -/
def inHeader : PPhase → Bool
  | .field f _ _ => headerField f
  | _ => false

/-- P_HDR_VALID is 0 while the header is read, and where it is 1 every declared width is at most 32 (R278, R281). -/
def HeaderValidMeansWidths (s : State) : Prop :=
  (inHeader s.ps.phase = true → s.ps.hdrValid = false) ∧
    (s.ps.hdrValid = true →
      s.ps.bcTemperature.toNat ≤ 32 ∧ s.ps.bcTemperatureIndex.toNat ≤ 32 ∧ s.ps.bcMonthDelta.toNat ≤ 32 ∧
        s.ps.bcBinIndex.toNat ≤ 32)

/-- Bits of the temperature array (R137). -/
def temperatureBits (p : Parser) : Nat := p.countTemperatures.toNat * p.bcTemperature.toNat

/-- Bits of one bin entry (R136). -/
def binEntryBits (p : Parser) : Nat := p.bcMonthDelta.toNat + p.bcTemperatureIndex.toNat

/-- Bits of one location entry (R136). -/
def locEntryBits (p : Parser) : Nat := 64 + p.bcBinIndex.toNat

/-- Bit offset of the bins (R136). -/
def binsOffset (p : Parser) : Nat := 272 + temperatureBits p

/-- Bit offset of the locations (R136). -/
def locsOffset (p : Parser) : Nat := binsOffset p + p.countBins.toNat * binEntryBits p

/-- The length in bits of a dataset with the header read (R137, R290). -/
def datasetBits (p : Parser) : Nat := locsOffset p + p.countLocations.toNat * locEntryBits p

/-- The bit offset of a field in the dataset (R135, R136). -/
def fieldOffset (p : Parser) : PField → Nat
  | .magic k => 8 * k
  | .version => 24
  | .countTemperatures => 32
  | .countLocations => 64
  | .countBins => 96
  | .minYear => 128
  | .minMonth => 144
  | .maxYear => 152
  | .maxMonth => 168
  | .tempMin => 176
  | .tempMax => 208
  | .bcTemperature => 240
  | .bcTemperatureIndex => 248
  | .bcMonthDelta => 256
  | .bcBinIndex => 264
  | .tempCode => 272 + p.pI.toNat * p.bcTemperature.toNat
  | .binMonthDelta => binsOffset p + p.pI.toNat * binEntryBits p
  | .binTempIndex _ => binsOffset p + p.pI.toNat * binEntryBits p + p.bcMonthDelta.toNat
  | .locLat => locsOffset p + p.pI.toNat * locEntryBits p
  | .locLon _ => locsOffset p + p.pI.toNat * locEntryBits p + 32
  | .locBinIndex _ _ => locsOffset p + p.pI.toNat * locEntryBits p + 64

/-- A record field belongs to a record below its count (R282, R285, R286). -/
def fieldIndexOk (p : Parser) : PField → Prop
  | .magic k => k ≤ 2
  | .version => True
  | .countTemperatures => True
  | .countLocations => True
  | .countBins => True
  | .minYear => True
  | .minMonth => True
  | .maxYear => True
  | .maxMonth => True
  | .tempMin => True
  | .tempMax => True
  | .bcTemperature => True
  | .bcTemperatureIndex => True
  | .bcMonthDelta => True
  | .bcBinIndex => True
  | .tempCode => p.pI.toNat < p.countTemperatures.toNat
  | .binMonthDelta => p.pI.toNat < p.countBins.toNat
  | .binTempIndex _ => p.pI.toNat < p.countBins.toNat
  | .locLat => p.pI.toNat < p.countLocations.toNat
  | .locLon _ => p.pI.toNat < p.countLocations.toNat
  | .locBinIndex _ _ => p.pI.toNat < p.countLocations.toNat

/-- `p_bitpos` is the offset the layout of R135 to R137 gives the parser's control point. -/
def BitPositionFollowsLayout (s : State) : Prop :=
  match s.ps.phase with
  | .idle => True
  | .field f k _ =>
    fieldIndexOk s.ps f ∧ k ≤ fieldWidth s.ps f ∧ s.ps.bitpos.toNat = fieldOffset s.ps f + k
  | .tempNext =>
    s.ps.pI.toNat < s.ps.countTemperatures.toNat ∧
      s.ps.bitpos.toNat = 272 + (s.ps.pI.toNat + 1) * s.ps.bcTemperature.toNat
  | .binHold _ _ =>
    s.ps.pI.toNat < s.ps.countBins.toNat ∧
      s.ps.bitpos.toNat = binsOffset s.ps + (s.ps.pI.toNat + 1) * binEntryBits s.ps
  | .binsEnd => s.ps.bitpos.toNat = locsOffset s.ps
  | .locHold _ _ _ =>
    s.ps.pI.toNat < s.ps.countLocations.toNat ∧
      s.ps.bitpos.toNat = locsOffset s.ps + (s.ps.pI.toNat + 1) * locEntryBits s.ps
  | .locsEnd => s.ps.bitpos.toNat = datasetBits s.ps

end Sys2Proof.Machine
end

