-- ==== Sys2Proof/Certificates/Slice0/Obligations.lean ====
section
/-! DEFINITION. The statements for the provers, from the numbered rules of spec/. -/

section

open Sys2Proof Sys2Proof.Machine

/-! ### Encodings -/

/-- Decoding an encoded well-formed instruction gives it back, in every context a packet can be read in (R106, R109 to R117,
R141, R38). -/
def Obligations.EncodeThenDecode : Prop :=
  ∀ (c : Ctx) (i : Instr), i.wf = true → (7 ≤ c.state → c.matchByte ≠ none) → decode c (encode i) = .ok i

/-- What the spec derives in R107: every sequence of decoded bits begins with exactly one packet, a well-formed one, whose bits
are its encoding. No packet has more than 48 bits. -/
def Obligations.EveryBitSequenceBeginsWithAPacket : Prop :=
  ∀ (c : Ctx) (l : List Bool), (7 ≤ c.state → c.matchByte ≠ none) → 48 ≤ l.length →
    ∃ i p r, i.wf = true ∧ encode i = .bits p ∧ l = p ++ r ∧ decode c (.bits p) = .ok i ∧
      ∀ p' r', l = p' ++ r' → ∀ i', decode c (.bits p') = .ok i' → p' = p ∧ i' = i

/-- A few words written out from R106, R109, R112, R114 and R38. -/
def Obligations.WrittenOutWordsDecode : Prop :=
  decode Ctx.blank (.bits [false, false, true, false, false, false, false, false, true]) = .ok (.lit 0x41) ∧
    decode Ctx.blank (.bits [true, true, false, false]) = .ok .shortRep ∧
    decode Ctx.blank (.bits [true, true, true, true, true, true, false, false, false, true]) = .ok (.rep3 11) ∧
    decode Ctx.blank (.bits [true, false, false, false, true, false, false, false, false, true, false, false, true]) =
      .ok (.newMatch 4 5) ∧
    decode Ctx.blank (.cmd 0xFFFFFFF4) = .ok .clearLzma

/-- R171, R170, R155: a forward tree and direct bits give the value of the decoded bits, first bit most significant; a reverse
tree gives the bit reversal. -/
def Obligations.TreesReadTheirBits : Prop :=
  ∀ (base : Nat) (l : List Bool),
    (bitTreeDecode base l.length).walk l = (.done (bitsValue l), []) ∧
      (decodeDirectBits l.length).walk l = (.done (bitsValue l), []) ∧
      (bitTreeReverseDecode base l.length).walk l = (.done (bitsValue l.reverse), [])

/-- R121 to R131, R172, R175 to R183, R221: which counter decodes which bit of a packet. The first clause gives the keys a packet is
decoded with: the state, the position state, the literal context, the match byte. Then, by the bits decoded so far: the prefix
flags; a literal, normal or matched; the two length coders; the slot trees; the specPos trees, the direct bits and the align
tree. The indices are those of the spec's map, so different uses have different counters (R133). -/
def Obligations.PacketBitsUseTheirCounters : Prop :=
  (∀ s : State, s.lz.lc.toNat ≤ 8 →
    ctxOf s = {
      state := s.lz.state.value
      ps := s.lz.outPos.toNat % 2 ^ s.lz.pb.toNat
      litBase := 1846 + 768 * (s.lz.outPos.toNat % 2 ^ s.lz.lp.toNat * 2 ^ s.lz.lc.toNat +
        s.lz.prevByte.toNat / 2 ^ (8 - s.lz.lc.toNat))
      matchByte := getByte s.lz.rep0 s }) ∧
  ∀ c : Ctx,
    (NextBit c [] (.counter (16 * c.state + c.ps)) ∧
      NextBit c [true] (.counter (192 + c.state)) ∧
      NextBit c [true, true] (.counter (204 + c.state)) ∧
      NextBit c [true, true, false] (.counter (240 + 16 * c.state + c.ps)) ∧
      NextBit c [true, true, true] (.counter (216 + c.state)) ∧
      NextBit c [true, true, true, true] (.counter (228 + c.state))) ∧
    (∀ l : List Bool, l.length < 8 →
      (c.state < 7 → NextBit c (false :: l) (.counter (c.litBase + treeNode l))) ∧
        ∀ mb, 7 ≤ c.state → c.matchByte = some mb → NextBit c (false :: l) (.counter
          (if l = (bitsMsb 8 mb.toNat).take l.length then
            c.litBase + 256 * (1 + (mb.getLsbD (7 - l.length)).toNat) + treeNode l
          else c.litBase + treeNode l))) ∧
    (∀ p base,
      (p, base) ∈ [([true, false], 818), ([true, true, false, true], 1332), ([true, true, true, false], 1332),
        ([true, true, true, true, false], 1332), ([true, true, true, true, true], 1332)] →
      NextBit c p (.counter base) ∧ NextBit c (p ++ [true]) (.counter (base + 1)) ∧
        (∀ l : List Bool, l.length < 3 →
          NextBit c (p ++ false :: l) (.counter (base + 2 + 8 * c.ps + treeNode l)) ∧
            NextBit c (p ++ true :: false :: l) (.counter (base + 130 + 8 * c.ps + treeNode l))) ∧
        ∀ l : List Bool, l.length < 8 → NextBit c (p ++ true :: true :: l) (.counter (base + 258 + treeNode l))) ∧
    ∀ len, 2 ≤ len → len ≤ 273 →
      (∀ l : List Bool, l.length < 6 →
        NextBit c (true :: false :: encodeLen len ++ l) (.counter (432 + 64 * min (len - 2) 3 + treeNode l))) ∧
      ∀ slot l p, p = true :: false :: encodeLen len ++ bitsMsb 6 slot ++ l →
        (4 ≤ slot → slot < 14 → l.length < slot / 2 - 1 →
          NextBit c p (.counter (688 + (2 + slot % 2) * 2 ^ (slot / 2 - 1) - slot - 1 + treeNode l))) ∧
        (14 ≤ slot → slot < 64 →
          (l.length < slot / 2 - 5 → NextBit c p .direct) ∧
            ∀ a : List Bool, l.length = slot / 2 - 5 → a.length < 4 → NextBit c (p ++ a) (.counter (802 + treeNode a)))

/-- R315: several command bits of one CMD write are performed in the order CLEAR_LZMA, CLEAR_PARSE, START_LZMA, START_PARSE,
each on the state the previous ones left; bits 31:4 do not matter. -/
def Obligations.CommandsRunInOrder : Prop :=
  ∀ (off : BitVec 8) (v : Word) (s : State), off.toNat / 4 = 1 →
    csrWrite off v s =
      thenIf (v.getLsbD 1) .startParse (thenIf (v.getLsbD 0) .startLzma
        (thenIf (v.getLsbD 3) .clearParse (thenIf (v.getLsbD 2) .clearLzma (.next s))))

/-! ### A step runs the decoded instruction -/

/-- A step runs the decoded instruction. A packet: with its bits complete at the LZMA engine's control point, the engine's
turn is the packet's meaning; until then its turn decodes the packet's next bit as the routine asks (R200, R142;
`PacketBitsUseTheirCounters`) and stands at the packet with that bit more, or waits. A command: a CMD write of its value is its
meaning (R38, R310). Whose turn comes next is the model's choice (log 1): the planned one, or the engine's when nothing is planned
and no item is to be taken. -/
def Obligations.StepRunsTheDecodedInstruction : Prop :=
  ∀ (s : State) (i : Instr),
    (∀ bits, s.lz.busy = true → s.lz.dout = none → s.lz.phase = .packet bits → decode (ctxOf s) (.bits bits) = .ok i →
      (∀ rest, s.host.schedule = .lzma :: rest →
        step s = exec i { s with host := { s.host with schedule := rest } }) ∧
      (s.host.schedule = [] → (s.host.takes && itemOffered s) = false → step s = exec i s)) ∧
    (∀ bits q, s.lz.busy = true → s.lz.dout = none → s.lz.phase = .packet bits → NextBit (ctxOf s) bits q →
      (∀ b t, answer q s = .ok b t →
        lzmaTurn s = some (.next { t with lz := { t.lz with phase := .packet (bits ++ [b]) } })) ∧
      (answer q s = .wait → lzmaTurn s = none)) ∧
    (∀ k, answer (.counter k) s = decodeBit k s ∧ answer .direct s = directBit s) ∧
    ∀ off v c rest, s.host.schedule = .host (.csrWrite off v) :: rest → off.toNat / 4 = 1 → decode c (.cmd v) = .ok i →
      step s = exec i { s with host := { s.host with schedule := rest } }

/-! ### Packets: results, completion and frame -/

/-- R207, R251: LIT writes its byte at `win_pos` and advances; below the window's end it also sets `prev_byte` and `state`, at
the window's end a flush comes first. Every other byte of the window RAM and every other field is unchanged. -/
def Obligations.LitAppendsItsByte : Prop :=
  ∀ (b : Byte) (s : State), WindowReady s.lz → s.lz.outPos ≠ BitVec.allOnes 64 →
    ∃ w, exec (.lit b) s = .next { s with lz :=
          if s.lz.winPos.toNat + 1 < s.lz.winSize.toNat then
            { s.lz with
              window := w, winPos := s.lz.winPos + 1, outPos := s.lz.outPos + 1
              prevByte := b, state := litNext s.lz.state, phase := .loopTop }
          else
            { s.lz with
              window := w, winPos := s.lz.winPos + 1, outPos := s.lz.outPos + 1
              phase := .flush s.lz.streamPos.toNat (.lit b) } } ∧
      sparseGet windowDefault w s.lz.winPos.toNat = b ∧
      (∀ a, a ≠ s.lz.winPos.toNat → sparseGet windowDefault w a = ramByte s.lz a) ∧ Memory.wf w = true

/-- R208: MATCH rotates `dist` in front of the distances, makes the MATCH transition and copies. -/
def Obligations.MatchRotatesAndCopies : Prop :=
  ∀ (len : Nat) (dist : Word) (s : State) (z : Lzma),
    z = { s.lz with rep0 := dist, rep1 := s.lz.rep0, rep2 := s.lz.rep1, rep3 := s.lz.rep2, state := matchNext s.lz.state } →
      WindowReady s.lz → CopyAccepted len z → Copies dist.toNat len z s (exec (.newMatch len dist) s)

/-- R210: SHORTREP makes its transition and copies one byte at `rep0`. -/
def Obligations.ShortRepCopiesOneByte : Prop :=
  ∀ (s : State) (z : Lzma), z = { s.lz with state := shortRepNext s.lz.state } →
    WindowReady s.lz → CopyAccepted 1 z → Copies s.lz.rep0.toNat 1 z s (exec .shortRep s)

/-- R214, R215, R217, R218: REP0 keeps the distances, REP1 swaps `rep0` and `rep1`, REP2 and REP3 move `rep2` and `rep3` to the
front; each makes the explicit-length transition and copies at the new `rep0`. -/
def Obligations.RepeatsRotateAndCopy : Prop :=
  ∀ (len : Nat) (s : State) (z : Lzma), WindowReady s.lz → CopyAccepted len z →
    (z = { s.lz with state := repNext s.lz.state } → Copies s.lz.rep0.toNat len z s (exec (.rep0 len) s)) ∧
      (z = { s.lz with rep0 := s.lz.rep1, rep1 := s.lz.rep0, state := repNext s.lz.state } →
        Copies s.lz.rep1.toNat len z s (exec (.rep1 len) s)) ∧
      (z = { s.lz with rep0 := s.lz.rep2, rep1 := s.lz.rep0, rep2 := s.lz.rep1, state := repNext s.lz.state } →
        Copies s.lz.rep2.toNat len z s (exec (.rep2 len) s)) ∧
      (z = { s.lz with rep0 := s.lz.rep3, rep1 := s.lz.rep0, rep2 := s.lz.rep1, rep3 := s.lz.rep2,
                       state := repNext s.lz.state } →
        Copies s.lz.rep3.toNat len z s (exec (.rep3 len) s))

/-- R252, R253: after a flush at the window's end the copy that waited goes on from index 0. -/
def Obligations.FlushResumesTheCopy : Prop :=
  ∀ (s : State) (j dist rem src : Nat) (z : Lzma), s.lz.busy = true → s.lz.dout = none →
    s.lz.phase = .flush j (.copy rem src) → s.lz.winPos.toNat ≤ j → s.lz.winPos = s.lz.winSize →
    z = { s.lz with winPos := 0, streamPos := 0 } → Memory.wf z.window = true → dist < z.winSize.toNat →
    copySource src s = z.winSize.toNat - dist - 1 → z.outPos.toNat + rem < 2 ^ 64 →
      ∃ o, lzmaTurn s = some o ∧ Copies dist rem z s o

/-- R209: an end marker with an unknown size, or at the known size, sets `eos` and goes to the final flush; the length, the
state and the distances do not matter and do not change, and no byte is written. R213: with a known size and elsewhere it
raises `SizeMismatch`. -/
def Obligations.EosEndsTheStreamOrStops : Prop :=
  ∀ (len : Nat) (s : State),
    ((s.lz.sizeKnown = false ∨ s.lz.outPos = s.lz.usize) →
      exec (.eos len) s =
        .next { s with lz := { s.lz with eos := true, phase := .flush s.lz.streamPos.toNat .finish } }) ∧
      (s.lz.sizeKnown = true → s.lz.outPos ≠ s.lz.usize →
        exec (.eos len) s =
          .next { s with lz := { s.lz with eos := true, err := some .sizeMismatch, busy := false, phase := .idle } })

/-- R211: a copy packet whose distance is not below both `out_pos` and `dict_check` raises `CorruptCompressedStream`. R212: one
whose distance is, but that would pass the known size, raises `SizeMismatch`. Its distances and state are already updated
(R223, R202), and no byte is written. -/
def Obligations.RefusedCopyWritesNothing : Prop :=
  ∀ (i : Instr) (len : Nat) (z : Lzma) (s : State), copyOperands i s.lz = some (len, z) →
    (¬ (z.rep0.toNat < z.outPos.toNat ∧ z.rep0.toNat < z.dictCheck.toNat) →
      exec i s =
        .next { s with lz := { z with err := some .corruptCompressedStream, busy := false, phase := .idle } }) ∧
      (z.rep0.toNat < z.outPos.toNat → z.rep0.toNat < z.dictCheck.toNat → z.sizeKnown = true →
        z.usize.toNat < z.outPos.toNat + len →
          exec i s = .next { s with lz := { z with err := some .sizeMismatch, busy := false, phase := .idle } })

/-- R202: the transitions, by the values of the states, which are 0..11; an EOS makes none. -/
def Obligations.StateTransitions : Prop :=
  (∀ st : LzState,
    st.value ≤ 11 ∧
      (litNext st).value = (if st.value < 4 then 0 else if st.value < 10 then st.value - 3 else st.value - 6) ∧
      (matchNext st).value = (if st.value < 7 then 7 else 10) ∧
      (repNext st).value = (if st.value < 7 then 8 else 11) ∧
      (shortRepNext st).value = (if st.value < 7 then 9 else 11)) ∧
    ∀ (len : Nat) (s t : State), exec (.eos len) s = .next t → t.lz.state = s.lz.state

/-- R24, log 9: a decode that would reach 2^64 bytes is refused, and a step is refused only for that. A LIT, a copy packet or a
copy that goes on after a flush is refused where a byte it would write, up to the window's end, would bring `out_pos` to 2^64; a
byte taken where it would bring `in_count` to 2^64. The last clause is the converse: whatever step is refused, one of the two
counters was at its limit and the refusal is named `counterLimit`. -/
def Obligations.CounterLimitRefuses : Prop :=
  (∀ (b : Byte) (s : State), WindowReady s.lz → s.lz.outPos = BitVec.allOnes 64 →
      exec (.lit b) s = .refused .counterLimit) ∧
    (∀ (i : Instr) (len : Nat) (z : Lzma) (s : State), copyOperands i s.lz = some (len, z) → WindowReady s.lz →
      z.rep0.toNat < z.outPos.toNat → z.rep0.toNat < z.dictCheck.toNat →
      (z.sizeKnown = true → z.outPos.toNat + len ≤ z.usize.toNat) → 2 ^ 64 ≤ z.outPos.toNat + copyCount len z →
        exec i s = .refused .counterLimit) ∧
    (∀ (s : State) (j rem src : Nat), s.lz.busy = true → s.lz.dout = none → s.lz.phase = .flush j (.copy rem src) →
      s.lz.winPos.toNat ≤ j → s.lz.winPos = s.lz.winSize → 0 < s.lz.winSize.toNat →
      2 ^ 64 ≤ s.lz.outPos.toNat + min rem s.lz.winSize.toNat → lzmaTurn s = some (.refused .counterLimit)) ∧
    (∀ (s : State) (b : Byte) (l : Bool) (rest : List (Byte × Bool)), s.lz.inEnded = false →
      s.host.cin = (b, l) :: rest → s.lz.inCount = BitVec.allOnes 64 → readIn s = .refused .counterLimit) ∧
    ∀ (s : State) (r : Refusal), step s = .refused r → r = .counterLimit ∧
      ((s.lz.inCount = BitVec.allOnes 64 ∧ s.lz.inEnded = false ∧ s.host.cin ≠ []) ∨
        (∃ bits b, s.lz.phase = .packet bits ∧ PacketComplete (ctxOf s) bits (.lit b) ∧ s.lz.outPos = BitVec.allOnes 64) ∨
        (∃ bits i len z, s.lz.phase = .packet bits ∧ PacketComplete (ctxOf s) bits i ∧
          copyOperands i s.lz = some (len, z) ∧ 2 ^ 64 ≤ s.lz.outPos.toNat + copyCount len z) ∨
        ∃ j rem src, s.lz.phase = .flush j (.copy rem src) ∧ 2 ^ 64 ≤ s.lz.outPos.toNat + rem)

/-! ### The decoded sequence and the window -/

/-- The output law and the window law, which the spec derives (R224, R257): where the window holds the decoded sequence, a LIT
appends its byte to it and a copy appends, byte by byte, the byte `rep0 + 1` back (as many as fit before the window's end), and
the window still holds it. -/
def Obligations.PacketsExtendTheOutput : Prop :=
  ∀ (out : List Byte) (s t : State), WindowReady s.lz → WindowHolds out s →
    (∀ b, exec (.lit b) s = .next t → WindowHolds (out ++ [b]) t) ∧
      ∀ i len z, copyOperands i s.lz = some (len, z) → CopyAccepted len z → exec i s = .next t →
        WindowHolds (copyOutput z.rep0.toNat (copyCount len z) out) t

/-- The window law again (R257, R256, derived by the spec): no turn of the engine inside the loop loses a byte the window law
gives: what the window held of the decoded sequence it still holds, after whatever the turn appended. -/
def Obligations.WindowLawIsKept : Prop :=
  ∀ (out : List Byte) (s t : State), RamsCanonical s → WindowGeometry s → inLoop s.lz.phase = true → WindowHolds out s →
    lzmaTurn s = some (.next t) → inLoop t.lz.phase = true → ∃ more, WindowHolds (out ++ more) t

/-! ### Input, range decoder, header -/

/-- R75: `ReadIn` raises after the last byte; else it takes the next offered byte, counts it and notes its `last` flag; with
none offered it waits. -/
def Obligations.ReadInTakesOneByte : Prop :=
  ∀ s : State,
    (s.lz.inEnded = true → readIn s = .raised .prematureEndOfInput s) ∧
      (s.lz.inEnded = false → s.host.cin = [] → readIn s = .wait) ∧
      ∀ b last rest, s.lz.inEnded = false → s.host.cin = (b, last) :: rest → s.lz.inCount ≠ BitVec.allOnes 64 →
        readIn s = .ok b { s with
          lz := { s.lz with inCount := s.lz.inCount + 1, inEnded := last }
          host := { s.host with cin := rest } }

/-- R75, R78, R76, R335, R333: a byte that is needed after the last one raises `PrematureEndOfInput`, with the counters where they
are; while more may come but none is offered, the engine has no turn. The LZMA engine before its loop: a header or start byte.
Inside a packet: the byte `Normalize` needs after a bit, where the bit's counter is already adapted and its `range` and `code`
set (`u`, as `DecodeBitFollowsItsCounter` and `DirectBitHalvesTheRange` give it), `range` is already shifted (R152), and a REP1,
REP2 or REP3 whose prefix is decoded has its distances rotated (R215, R217, R218; log 12). The parser: a bit whose byte is
missing. -/
def Obligations.EndOfInputStopsAnEngine : Prop :=
  (∀ s : State,
    (s.lz.busy = true → s.lz.dout = none → s.lz.phase ≠ .idle → inLoop s.lz.phase = false → s.lz.inEnded = true →
      lzmaTurn s =
        some (.next { s with lz := { s.lz with err := some .prematureEndOfInput, busy := false, phase := .idle } })) ∧
      (inLoop s.lz.phase = false → s.lz.inEnded = false → s.host.cin = [] → lzmaTurn s = none) ∧
      (∀ (bits : List Bool) (q : Query) (b : Bool) (u : State), s.lz.busy = true → s.lz.dout = none →
        s.lz.phase = .packet bits → NextBit (ctxOf s) bits q →
        answer q s = (Machine.normalize u).bind (fun _ t => .ok b t) → u.lz.range.toNat < 2 ^ 24 →
          (u.lz.inEnded = true → lzmaTurn s = some (.next { u with lz := { rotateEarly bits u.lz with
            range := BitVec.ofNat 32 (u.lz.range.toNat * 256)
            err := some .prematureEndOfInput, busy := false, phase := .idle } })) ∧
          (u.lz.inEnded = false → u.host.cin = [] → lzmaTurn s = none)) ∧
      ∀ (f : PField) (k : Nat) (v : Word), s.ps.phase = .field f k v → k < fieldWidth s.ps f → s.ps.avail = 0 →
        (s.ps.busy = true → parserPortsFree s.ps = true → s.ps.ended = true →
          parserTurn s =
            some (.next { s with ps := { s.ps with err := some .prematureEndOfInput, busy := false, phase := .idle } })) ∧
        (s.ps.ended = false → s.host.pin = [] → parserTurn s = none)) ∧
    ∀ (z : Lzma) (r : List Bool),
      rotateEarly (true :: true :: true :: false :: r) z = { z with rep0 := z.rep1, rep1 := z.rep0 } ∧
        rotateEarly (true :: true :: true :: true :: false :: r) z =
          { z with rep0 := z.rep2, rep1 := z.rep0, rep2 := z.rep1 } ∧
        rotateEarly (true :: true :: true :: true :: true :: r) z =
          { z with rep0 := z.rep3, rep1 := z.rep0, rep2 := z.rep1, rep3 := z.rep2 } ∧
        rotateEarly (false :: r) z = z ∧ rotateEarly (true :: false :: r) z = z ∧
        rotateEarly (true :: true :: false :: r) z = z

/-- R152: `Normalize` does nothing when `range >= 2^24`; else it shifts both registers and takes a byte into `code`; after the
last byte it raises, with `range` shifted and `code` not. -/
def Obligations.NormalizeShiftsOneByte : Prop :=
  ∀ s : State,
    (2 ^ 24 ≤ s.lz.range.toNat → Machine.normalize s = .ok () s) ∧
      (s.lz.range.toNat < 2 ^ 24 → s.lz.inEnded = true →
        Machine.normalize s = .raised .prematureEndOfInput
          { s with lz := { s.lz with range := BitVec.ofNat 32 (s.lz.range.toNat * 256) } }) ∧
      ∀ b last rest, s.lz.range.toNat < 2 ^ 24 → s.lz.inEnded = false → s.host.cin = (b, last) :: rest →
        s.lz.inCount ≠ BitVec.allOnes 64 →
          Machine.normalize s = .ok () { s with
            lz := { s.lz with
              range := BitVec.ofNat 32 (s.lz.range.toNat * 256)
              code := BitVec.ofNat 32 (s.lz.code.toNat * 256 + b.toNat)
              inCount := s.lz.inCount + 1, inEnded := last }
            host := { s.host with cin := rest } }

/-- R153: `DecodeBit` compares `code` with the exact bound, decodes 0 below it and 1 otherwise, adapts the one counter, leaves
every other counter, and normalizes. -/
def Obligations.DecodeBitFollowsItsCounter : Prop :=
  ∀ (i p bound : Nat) (b : Bool) (s : State), RamsCanonical s → CountersBounded s →
    i < 1846 + 768 * 2 ^ (s.lz.lc.toNat + s.lz.lp.toNat) → p = (probRead i s).toNat →
    bound = s.lz.range.toNat / 2048 * p → b = decide (bound ≤ s.lz.code.toNat) →
      ∃ m, decodeBit i s = (Machine.normalize { s with lz := { s.lz with
          range := BitVec.ofNat 32 (if b = true then s.lz.range.toNat - bound else bound)
          code := BitVec.ofNat 32 (if b = true then s.lz.code.toNat - bound else s.lz.code.toNat)
          prob := m } }).bind (fun _ t => .ok b t) ∧
        (sparseGet probDefault m i).toNat = (if b = true then p - p / 32 else p + (2048 - p) / 32) ∧
        ∀ j, j ≠ i → sparseGet probDefault m j = probRead j s

/-- R155: a direct bit halves `range`, decodes 1 where `code` is not below the half, subtracts it then, touches no counter, and
normalizes. -/
def Obligations.DirectBitHalvesTheRange : Prop :=
  ∀ (b : Bool) (s : State), b = decide (s.lz.range.toNat / 2 ≤ s.lz.code.toNat) →
    directBit s = (Machine.normalize { s with lz := { s.lz with
        range := BitVec.ofNat 32 (s.lz.range.toNat / 2)
        code := BitVec.ofNat 32 (if b = true then s.lz.code.toNat - s.lz.range.toNat / 2 else s.lz.code.toNat) } }).bind
      (fun _ t => .ok b t)

/-- R150, R200: the five start bytes, whatever the first one is, give `code` (first byte most significant) and `range`; then
every counter of the stream is 1024, and `state`, the distances and `prev_byte` are 0. -/
def Obligations.StartBytesStartTheDecoder : Prop :=
  ∀ (s : State) (b0 b1 b2 b3 b4 : Byte) (last : Bool) (rest : List (Byte × Bool)), s.lz.busy = true →
    s.lz.dout = none → s.lz.phase = .rcFirst → s.lz.inEnded = false → s.lz.inCount.toNat + 5 < 2 ^ 64 →
    s.host.cin = (b0, false) :: (b1, false) :: (b2, false) :: (b3, false) :: (b4, last) :: rest →
      ∃ p, lzmaTurns 5 s = .next { s with
          lz := { s.lz with
            code := BitVec.ofNat 32 (b1.toNat * 2 ^ 24 + b2.toNat * 2 ^ 16 + b3.toNat * 2 ^ 8 + b4.toNat)
            range := 0xFFFFFFFF
            inCount := s.lz.inCount + 5, inEnded := last
            prob := p, state := .litLit, rep0 := 0, rep1 := 0, rep2 := 0, rep3 := 0, prevByte := 0
            phase := .loopTop }
          host := { s.host with cin := rest } } ∧
        ∀ i, i < 1846 + 768 * 2 ^ (s.lz.lc.toNat + s.lz.lp.toNat) → sparseGet probDefault p i = 1024

/-- R102 (the spec derives that the byte is valid below 225): then it is the one byte whose `lc`, `lp`, `pb` these are; R204:
else all three are 0. -/
def Obligations.PropertiesByteDecodes : Prop :=
  ∀ d : Byte, (propsValid d = true ↔ d.toNat < 225) ∧
    (225 ≤ d.toNat → propsLc d = 0 ∧ propsLp d = 0 ∧ propsPb d = 0) ∧
    (d.toNat < 225 →
      (propsLc d).toNat = d.toNat % 9 ∧ (propsLp d).toNat = d.toNat / 9 % 5 ∧ (propsPb d).toNat = d.toNat / 45 ∧
        (propsLc d).toNat ≤ 8 ∧ (propsLp d).toNat ≤ 4 ∧ (propsPb d).toNat ≤ 4 ∧
        ((propsPb d).toNat * 5 + (propsLp d).toNat) * 9 + (propsLc d).toNat = d.toNat)

/-- R203, R204, R101: the first five header bytes give PROPS.RAW, the dictionary size (little-endian) and the window size.
R205: the three checks. R206: with a 5-byte header the size is unknown. That a refused header leaves PROPS with RAW only, while
`lc`, `lp` and `pb` are set, rests on the model's reading of PROPS as a register of its own (log 18, DEDUCED). -/
def Obligations.HeaderIsReadAndChecked : Prop :=
  ∀ (s : State) (d e0 e1 e2 e3 : Byte) (last : Bool) (rest : List (Byte × Bool)) (ds : Nat) (z : Lzma),
    s.lz.busy = true → s.lz.dout = none → s.lz.phase = .hdrProps → s.lz.inEnded = false → s.lz.props = 0 →
    s.lz.inCount.toNat + 5 < 2 ^ 64 →
    s.host.cin = (d, false) :: (e0, false) :: (e1, false) :: (e2, false) :: (e3, last) :: rest →
    ds = e0.toNat + e1.toNat * 2 ^ 8 + e2.toNat * 2 ^ 16 + e3.toNat * 2 ^ 24 →
    z = { s.lz with
          inCount := s.lz.inCount + 5, inEnded := last, dictSize := BitVec.ofNat 32 ds
          lc := propsLc d, lp := propsLp d, pb := propsPb d
          dictCheck := BitVec.ofNat 32 (max ds 1), winSize := BitVec.ofNat 32 (max (max ds 1) 4096)
          props := BitVec.ofNat 32 (d.toNat * 2 ^ 24) } →
      ((225 ≤ d.toNat ∨ s.params.windowCapacity < max (max ds 1) 4096 ∨
          s.params.litCtxBitsCapacity < (propsLc d).toNat + (propsLp d).toNat) →
        lzmaTurns 5 s = .next { s with
          lz := { z with err := some .invalidStreamProperties, busy := false, phase := .idle }
          host := { s.host with cin := rest } }) ∧
      (¬ (225 ≤ d.toNat ∨ s.params.windowCapacity < max (max ds 1) 4096 ∨
          s.params.litCtxBitsCapacity < (propsLc d).toNat + (propsLp d).toNat) →
        lzmaTurns 5 s = .next { s with
          lz := { z with
            props := BitVec.ofNat 32 (d.toNat * 2 ^ 24 + 2 ^ 17 + (propsPb d).toNat * 2 ^ 8 + (propsLp d).toNat * 2 ^ 4 +
              (propsLc d).toNat)
            usize := if s.lz.hdr13 = true then s.lz.usize else BitVec.allOnes 64
            sizeKnown := if s.lz.hdr13 = true then s.lz.sizeKnown else false
            phase := if s.lz.hdr13 = true then .hdrSize 0 0 else .rcFirst }
          host := { s.host with cin := rest } })

/-- R206, R103: the eight size bytes are little-endian; all ones mean an unknown size. PROPS.SIZE_KNOWN is written, the other
bits of PROPS are not. -/
def Obligations.SizeFieldIsRead : Prop :=
  ∀ (s : State) (b0 b1 b2 b3 b4 b5 b6 b7 : Byte) (last : Bool) (rest : List (Byte × Bool)) (u : DWord),
    s.lz.busy = true → s.lz.dout = none → s.lz.phase = .hdrSize 0 0 → s.lz.inEnded = false →
    s.lz.inCount.toNat + 8 < 2 ^ 64 →
    s.host.cin = (b0, false) :: (b1, false) :: (b2, false) :: (b3, false) :: (b4, false) :: (b5, false) :: (b6, false) ::
      (b7, last) :: rest →
    u = BitVec.ofNat 64 (b0.toNat + b1.toNat * 2 ^ 8 + b2.toNat * 2 ^ 16 + b3.toNat * 2 ^ 24 + b4.toNat * 2 ^ 32 +
      b5.toNat * 2 ^ 40 + b6.toNat * 2 ^ 48 + b7.toNat * 2 ^ 56) →
      ∃ x, lzmaTurns 8 s = .next { s with
          lz := { s.lz with
            inCount := s.lz.inCount + 8, inEnded := last, usize := u
            sizeKnown := decide (u ≠ BitVec.allOnes 64), props := x, phase := .rcFirst }
          host := { s.host with cin := rest } } ∧
        x.getLsbD 16 = decide (u ≠ BitVec.allOnes 64) ∧ ∀ k, k ≠ 16 → x.getLsbD k = s.lz.props.getLsbD k

/-! ### Loop, flush, end of a decode -/

/-- R220: before a packet, a known size that is reached ends the loop; else the next packet is decoded. What the spec derives there
(from R212 and R207): where `out_pos` does not exceed a known size (`SizeIsRespected`), the loop ends at the size exactly. -/
def Obligations.LoopTestEndsAtTheSize : Prop :=
  ∀ s : State, s.lz.busy = true → s.lz.dout = none → s.lz.phase = .loopTop →
    lzmaTurn s = some (.next { s with lz := { s.lz with phase :=
      if s.lz.sizeKnown = true ∧ s.lz.usize.toNat ≤ s.lz.outPos.toNat then .flush s.lz.streamPos.toNat .finish
      else (.packet []) } }) ∧
      (SizeRespected s → s.lz.sizeKnown = true → s.lz.usize.toNat ≤ s.lz.outPos.toNat → s.lz.outPos = s.lz.usize)

/-- R253, R77: with a host that takes what is offered and nothing else planned (log 1), a flush at index `j` delivers the bytes
`j .. win_pos - 1` on `dout`, in order, each once, and changes nothing else. -/
def Obligations.FlushDeliversTheBytes : Prop :=
  ∀ (s : State) (j : Nat) (c : FlushCont), s.lz.busy = true → s.lz.dout = none → s.lz.phase = .flush j c →
    j ≤ s.lz.winPos.toNat → s.lz.winPos.toNat ≤ s.lz.winSize.toNat → s.host.schedule = [] → s.host.takes = true →
    parserPortsFree s.ps = true →
      steps (2 * (s.lz.winPos.toNat - j)) s = .next { s with
        lz := { s.lz with phase := .flush s.lz.winPos.toNat c }
        host := { s.host with
          doutLog := s.host.doutLog ++ (List.range' j (s.lz.winPos.toNat - j)).map (ramByte s.lz) } }

/-- R253, R216, R207: a flush that has emitted its last byte wraps `win_pos` at the window's end, sets `stream_pos` to it, and
the routine it came from goes on: `Finish` sets LZ_EOS, LZ_DONE and clears LZ_BUSY; a LIT sets `prev_byte` and `state`. -/
def Obligations.FlushEndsThenItsRoutineGoesOn : Prop :=
  ∀ (s : State) (j : Nat) (z : Lzma), s.lz.busy = true → s.lz.dout = none → s.lz.winPos.toNat ≤ j →
    z = { s.lz with
      winPos := if s.lz.winPos = s.lz.winSize then 0 else s.lz.winPos
      streamPos := if s.lz.winPos = s.lz.winSize then 0 else s.lz.winPos } →
      (s.lz.phase = .flush j .finish →
        lzmaTurn s =
          some (.next { s with lz := { z with eosFlag := s.lz.eos, done := true, busy := false, phase := .idle } })) ∧
      ∀ b, s.lz.phase = .flush j (.lit b) →
        lzmaTurn s =
          some (.next { s with lz := { z with prevByte := b, state := litNext s.lz.state, phase := .loopTop } })

/-- R88, R216, with what the spec derives in R257 and R253: STATUS.LZ_DONE becomes 1 only when every byte decoded has been delivered.
The first clause: in such a step no byte waits on `dout`, every byte written is flushed, and LZ_EOS is `eos`. The others say what
was delivered, in the terms of the host's log of `dout` (log 14): a decode enters its loop with nothing of it decoded or
delivered; every step inside the loop keeps that, after what the host had been `given` before, the host has been given the
decoded bytes in order, each once, but for those still in the window; and where LZ_DONE rises it has been given all of them. -/
def Obligations.DoneMeansEverythingDelivered : Prop :=
  (∀ s t : State, s.lz.done = false → step s = .next t → t.lz.done = true →
    t.lz.dout = none ∧ t.lz.streamPos = t.lz.winPos ∧ t.lz.busy = false ∧ t.lz.eosFlag = t.lz.eos ∧
      t.lz.outPos = s.lz.outPos ∧ t.lz.inCount = s.lz.inCount) ∧
    (∀ s t : State, NothingBeforeLoop s → inLoop s.lz.phase = false → step s = .next t → inLoop t.lz.phase = true →
      Delivered t.host.doutLog [] t) ∧
    ∀ (given out : List Byte) (s t : State), RamsCanonical s → WindowGeometry s →
      inLoop s.lz.phase = true → Delivered given out s → step s = .next t →
        (inLoop t.lz.phase = true → ∃ more, Delivered given (out ++ more) t) ∧
        (s.lz.done = false → t.lz.done = true → t.host.doutLog = given ++ out ∧ t.lz.outPos.toNat = out.length)

/-- R24: within a decode `out_pos` and `in_count` only increase. -/
def Obligations.CountersOnlyIncrease : Prop :=
  ∀ s t : State, lzmaTurn s = some (.next t) →
    s.lz.outPos.toNat ≤ t.lz.outPos.toNat ∧ s.lz.inCount.toNat ≤ t.lz.inCount.toNat

/-- R52: an item offered on an output port stays offered, unchanged, until the host takes it (or `rst` withdraws it, R370), and
the engine that offers it has no turn meanwhile. -/
def Obligations.OfferedItemsStayOffered : Prop :=
  ∀ s t : State, step s = .next t →
    (∀ b, s.lz.dout = some b → lzmaTurn s = none ∧
      (t.lz.dout = some b ∨ (t.lz.dout = none ∧ t.host.doutLog = s.host.doutLog ++ [b]) ∨
        ∃ rest, s.host.schedule = .host .rst :: rest)) ∧
    (∀ x, s.ps.tempOut = some x → parserTurn s = none ∧
      (t.ps.tempOut = some x ∨ (t.ps.tempOut = none ∧ t.host.tempLog = s.host.tempLog ++ [x]) ∨
        ∃ rest, s.host.schedule = .host .rst :: rest)) ∧
    (∀ x, s.ps.binOut = some x → parserTurn s = none ∧
      (t.ps.binOut = some x ∨ (t.ps.binOut = none ∧ t.host.binLog = s.host.binLog ++ [x]) ∨
        ∃ rest, s.host.schedule = .host .rst :: rest)) ∧
    ∀ x, s.ps.locOut = some x → parserTurn s = none ∧
      (t.ps.locOut = some x ∨ (t.ps.locOut = none ∧ t.host.locLog = s.host.locLog ++ [x]) ∨
        ∃ rest, s.host.schedule = .host .rst :: rest)

/-! ### Errors -/

/-- R333: `raise` writes the code and clears BUSY of its engine, which becomes idle; nothing else changes. -/
def Obligations.RaiseChangesOnlyItsEngine : Prop :=
  ∀ (e : ErrCode) (s : State),
    raise .lzma e s = { s with lz := { s.lz with err := some e, busy := false, phase := .idle } } ∧
      raise .parser e s = { s with ps := { s.ps with err := some e, busy := false, phase := .idle } } ∧
      lzmaTurn (raise .lzma e s) = none ∧ parserTurn (raise .parser e s) = none

/-! ### The parser -/

/-- R271, R270: a field of `w` bits is the next `w` bits of the bit string on `pin`, first bit most significant; the cursor
advances by `w`, and a byte is taken only when its first bit is needed. -/
def Obligations.FieldReadsItsBits : Prop :=
  ∀ (s : State) (f : PField) (w : Nat), s.ps.busy = true → parserPortsFree s.ps = true → s.ps.phase = .field f 0 0 →
    w = fieldWidth s.ps f → w ≤ 32 → w ≤ (pendingBits s).length →
      ∃ t, parserTurns w s = .next t ∧
        t.ps.phase = .field f w (BitVec.ofNat 32 (bitsValue ((pendingBits s).take w))) ∧
        pendingBits t = (pendingBits s).drop w ∧ t.ps.bitpos = s.ps.bitpos + BitVec.ofNat 64 w ∧
        t.host.pin = s.host.pin.drop ((w - s.ps.avail.toNat + 7) / 8) ∧
        t = { s with
          ps := { s.ps with
            phase := t.ps.phase, bitpos := t.ps.bitpos, byte := t.ps.byte, avail := t.ps.avail, ended := t.ps.ended }
          host := { s.host with pin := t.host.pin } }

/-- R275, R276: each magic byte is compared as soon as it is read, then the version. R278: a declared width above 32 raises
`InvalidFieldWidth` once all four are read, and P_HDR_VALID is not set. -/
def Obligations.DatasetHeaderIsChecked : Prop :=
  ∀ (s : State) (v : Word), s.ps.busy = true → parserPortsFree s.ps = true →
    (∀ k, s.ps.phase = .field (.magic k) 8 v → k ≤ 2 →
      parserTurn s = some (.next { s with ps :=
        if v = (if k = 2 then 0x45 else 0x43) then
          { s.ps with phase := .field (if k = 2 then .version else .magic (k + 1)) 0 0 }
        else { s.ps with err := some .magicMismatch, busy := false, phase := .idle } })) ∧
      (s.ps.phase = .field .version 8 v →
        parserTurn s = some (.next { s with ps :=
          if v = 3 then { s.ps with phase := .field .countTemperatures 0 0 }
          else { s.ps with err := some .unsupportedVersion, busy := false, phase := .idle } })) ∧
      (s.ps.phase = .field .bcBinIndex 8 v →
        (32 < s.ps.bcTemperature.toNat ∨ 32 < s.ps.bcTemperatureIndex.toNat ∨ 32 < s.ps.bcMonthDelta.toNat ∨
          32 < v.toNat % 256) →
        parserTurn s = some (.next { s with ps := { s.ps with
          bcBinIndex := v.setWidth 8, err := some .invalidFieldWidth, busy := false, phase := .idle } }))

/-- R277, R135, R281: 272 bits with the magic "CCE", version 3 and widths of at most 32 are read as the header, each register
from its bits, and STATUS.P_HDR_VALID becomes 1. -/
def Obligations.HeaderRegistersHoldTheirFields : Prop :=
  ∀ (s : State) (l : List Bool), s.ps.busy = true → parserPortsFree s.ps = true → s.ps.phase = .field (.magic 0) 0 0 →
    l = pendingBits s → 272 ≤ l.length → bitsField l 0 24 = 0x434345 → bitsField l 24 8 = 3 →
    bitsField l 240 8 ≤ 32 → bitsField l 248 8 ≤ 32 → bitsField l 256 8 ≤ 32 → bitsField l 264 8 ≤ 32 →
      ∃ t, parserTurns 289 s = .next t ∧ t.ps.hdrValid = true ∧
        t.ps.countTemperatures.toNat = bitsField l 32 32 ∧ t.ps.countLocations.toNat = bitsField l 64 32 ∧
        t.ps.countBins.toNat = bitsField l 96 32 ∧ t.ps.minYear.toNat = bitsField l 128 16 ∧
        t.ps.minMonth.toNat = bitsField l 144 8 ∧ t.ps.maxYear.toNat = bitsField l 152 16 ∧
        t.ps.maxMonth.toNat = bitsField l 168 8 ∧ t.ps.tempMin.toNat = bitsField l 176 32 ∧
        t.ps.tempMax.toNat = bitsField l 208 32 ∧ t.ps.bcTemperature.toNat = bitsField l 240 8 ∧
        t.ps.bcTemperatureIndex.toNat = bitsField l 248 8 ∧ t.ps.bcMonthDelta.toNat = bitsField l 256 8 ∧
        t.ps.bcBinIndex.toNat = bitsField l 264 8 ∧ t.ps.bitpos = s.ps.bitpos + 272 ∧ pendingBits t = l.drop 272 ∧
        t.lz = s.lz ∧ t.ctrl = s.ctrl

/-- R282, R283: a complete temperature code is dequantized and offered on `temp_out`; where the result is a NaN, the value
offered is some binary32 NaN, a free one (93 I10, log 8). -/
def Obligations.TemperatureIsOffered : Prop :=
  ∀ (s : State) (c : Word), s.ps.busy = true → parserPortsFree s.ps = true →
    s.ps.phase = .field .tempCode s.ps.bcTemperature.toNat c →
      (∀ x, dequant s.ps.bcTemperature.toNat c.toNat s.ps.tempMin s.ps.tempMax = some x →
        parserTurn s = some (.next { s with ps := { s.ps with tempOut := some x, phase := .tempNext } })) ∧
      (dequant s.ps.bcTemperature.toNat c.toNat s.ps.tempMin s.ps.tempMax = none →
        ∃ x, isNanPattern x ∧ parserTurn s = some (.next { s with
          ps := { s.ps with tempOut := some x, phase := .tempNext }
          nanCount := s.nanCount + 1 }))

/-- R282's example (the scenario of RS §8), and R291: with a temperature width of 0 the value is a NaN, whatever the bounds. R289:
the widening of a finite binary32 value is exact; the binary64 operations on finite data, where they stay finite, give the datum
nearest to the exact result, ties to even, with the sign of IEEE 754; narrowing gives the nearest binary32 value, ties to even,
subnormals among them, and an infinity beyond the largest. A finite datum stands for `(-1)^n * m * 2^e` (log 19). -/
def Obligations.DequantizerScenarioAndWidthZero : Prop :=
  dequant 8 0 0xC1200000 0x41F00000 = some 0xC1200000 ∧ dequant 8 128 0xC1200000 0x41F00000 = some 0x41214141 ∧
    dequant 8 255 0xC1200000 0x41F00000 = some 0x41F00000 ∧ (∀ tmin tmax : Word, dequant 0 0 tmin tmax = none) ∧
    (∀ x : Word, isFinitePattern x → ∃ m e, f64FromF32 x = .fin (x.getLsbD 31) m e ∧ -1074 ≤ e ∧
      m * 2 ^ (e + 1074).toNat = f32Units x * 2 ^ 925) ∧
    (∀ (n : Bool) (m : Nat) (e : Int), -1074 ≤ e → ∃ x, f32FromF64 (.fin n m e) = some x ∧ x.getLsbD 31 = n ∧
      NearestF32 (m * 2 ^ (e + 1074).toNat) (2 ^ 925) x) ∧
    ∀ (n1 n2 n : Bool) (m1 m2 m a b : Nat) (e1 e2 e : Int), -1074 ≤ e1 → -1074 ≤ e2 →
      a = m1 * 2 ^ (e1 + 1074).toNat → b = m2 * 2 ^ (e2 + 1074).toNat →
        (f64Mul (.fin n1 m1 e1) (.fin n2 m2 e2) = .fin n m e → n = (n1 != n2) ∧ NearestF64 (a * b) (2 ^ 2148) m e) ∧
        (m2 ≠ 0 → f64Div (.fin n1 m1 e1) (.fin n2 m2 e2) = .fin n m e → n = (n1 != n2) ∧ NearestF64 a b m e) ∧
        (f64Add (.fin n1 m1 e1) (.fin n2 m2 e2) = .fin n m e →
          n = (if signed n1 a + signed n2 b = 0 then n1 && n2 else decide (signed n1 a + signed n2 b < 0)) ∧
            NearestF64 (signed n1 a + signed n2 b).natAbs (2 ^ 1074) m e) ∧
        f64Sub (.fin n1 m1 e1) (.fin n2 m2 e2) = f64Add (.fin n1 m1 e1) (.fin (!n2) m2 e2)

/-- R283's corner cases. The spec derives the first: with finite bounds, code 0 of a width of at least 1 gives `temp_min` exactly, but
+0 where `temp_min` is -0 and `temp_max >= 0`. The last code gives `temp_max` where the subtraction is exact in binary64; equal
bounds give `temp_min` for every code (in both, +0 where that is -0). By R283's operations: an infinite `temp_max` over a finite
`temp_min` comes out for every code but 0, which gives a NaN; an infinite `temp_min`, or a NaN among the bounds, gives a NaN. -/
def Obligations.CodeZeroGivesTheMinimum : Prop :=
  ∀ (w c : Nat) (tmin tmax : Word), 1 ≤ w → w ≤ 32 → c < 2 ^ w →
    (isFinitePattern tmin → isFinitePattern tmax →
      dequant w 0 tmin tmax = some (if tmin = 0x80000000 ∧ tmax ≤ 0x80000000 then 0 else tmin) ∧
        ((∃ m k, m < 2 ^ 53 ∧ (f32Signed tmax - f32Signed tmin).natAbs = m * 2 ^ k) →
          dequant w (2 ^ w - 1) tmin tmax = some (if tmax = 0x80000000 then 0 else tmax)) ∧
        dequant w c tmin tmin = some (if tmin = 0x80000000 then 0 else tmin)) ∧
    (isFinitePattern tmin → isInfPattern tmax → dequant w c tmin tmax = if c = 0 then none else some tmax) ∧
    (isInfPattern tmin ∨ isNanPattern tmin ∨ isNanPattern tmax → dequant w c tmin tmax = none)

/-- R282, R284, R285, R286: the records' order and ranges. An accepted header is followed by the first record of the first array whose
count is not 0, and the last record of an array by the first record of the next; an array whose count is 0 is passed over and
offers no item (R280). A bin goes out when the next one is read, with the next one's start as its end, and the next one is held
in its place; the last one goes out with `count_temperatures` as its end. The same for locations, whose latitude and longitude
are kept and go out as read (R288), the last end being `count_bins`. -/
def Obligations.RecordsCarryTheirRanges : Prop :=
  ∀ (s : State) (bins locs : Parser), s.ps.busy = true → parserPortsFree s.ps = true →
    bins = { s.ps with
      heldBinValid := false, pI := 0
      phase := if 0 < s.ps.countBins then .field .binMonthDelta 0 0 else .binsEnd } →
    locs = { s.ps with
      heldLocValid := false, pI := 0
      phase := if 0 < s.ps.countLocations then .field .locLat 0 0 else .locsEnd } →
    (∀ v, s.ps.phase = .field .bcBinIndex 8 v → s.ps.bcTemperature.toNat ≤ 32 → s.ps.bcTemperatureIndex.toNat ≤ 32 →
      s.ps.bcMonthDelta.toNat ≤ 32 → v.toNat % 256 ≤ 32 →
      parserTurn s = some (.next { s with ps :=
        if 0 < s.ps.countTemperatures then
          { s.ps with bcBinIndex := v.setWidth 8, hdrValid := true, pI := 0, phase := .field .tempCode 0 0 }
        else { bins with bcBinIndex := v.setWidth 8, hdrValid := true } })) ∧
    (s.ps.phase = .tempNext →
      parserTurn s = some (.next { s with ps :=
        if s.ps.pI + 1 < s.ps.countTemperatures then { s.ps with pI := s.ps.pI + 1, phase := .field .tempCode 0 0 }
        else bins })) ∧
    (∀ md, s.ps.phase = .field .binMonthDelta s.ps.bcMonthDelta.toNat md →
      parserTurn s = some (.next { s with ps := { s.ps with phase := .field (.binTempIndex md) 0 0 } })) ∧
    (∀ md ti, s.ps.phase = .field (.binTempIndex md) s.ps.bcTemperatureIndex.toNat ti →
      parserTurn s = some (.next { s with ps := { s.ps with
        binOut := if s.ps.heldBinValid = true then
            some { monthDelta := s.ps.heldBinMd, tidxMin := s.ps.heldBinTi, tidxEnd := ti } else none
        phase := .binHold md ti } })) ∧
    (∀ md ti, s.ps.phase = .binHold md ti →
      parserTurn s = some (.next { s with ps :=
        if s.ps.pI + 1 < s.ps.countBins then
          { s.ps with heldBinMd := md, heldBinTi := ti, heldBinValid := true, pI := s.ps.pI + 1
                      phase := .field .binMonthDelta 0 0 }
        else
          { s.ps with heldBinMd := md, heldBinTi := ti, heldBinValid := true, pI := s.ps.pI + 1
                      binOut := some { monthDelta := md, tidxMin := ti, tidxEnd := s.ps.countTemperatures }
                      phase := .binsEnd } })) ∧
    (s.ps.phase = .binsEnd → parserTurn s = some (.next { s with ps := locs })) ∧
    (∀ la, s.ps.phase = .field .locLat 32 la →
      parserTurn s = some (.next { s with ps := { s.ps with phase := .field (.locLon la) 0 0 } })) ∧
    (∀ la lo, s.ps.phase = .field (.locLon la) 32 lo →
      parserTurn s = some (.next { s with ps := { s.ps with phase := .field (.locBinIndex la lo) 0 0 } })) ∧
    (∀ la lo bi, s.ps.phase = .field (.locBinIndex la lo) s.ps.bcBinIndex.toNat bi →
      parserTurn s = some (.next { s with ps := { s.ps with
        locOut := if s.ps.heldLocValid = true then
            some { lat := s.ps.heldLocLa, lon := s.ps.heldLocLo, bidxMin := s.ps.heldLocBi, bidxEnd := bi } else none
        phase := .locHold la lo bi } })) ∧
    ∀ la lo bi, s.ps.phase = .locHold la lo bi →
      parserTurn s = some (.next { s with ps :=
        if s.ps.pI + 1 < s.ps.countLocations then
          { s.ps with heldLocLa := la, heldLocLo := lo, heldLocBi := bi, heldLocValid := true, pI := s.ps.pI + 1
                      phase := .field .locLat 0 0 }
        else
          { s.ps with heldLocLa := la, heldLocLo := lo, heldLocBi := bi, heldLocValid := true, pI := s.ps.pI + 1
                      locOut := some { lat := la, lon := lo, bidxMin := bi, bidxEnd := s.ps.countBins }
                      phase := .locsEnd } })

/-- R287, and what the spec derives in R290: a parse that ends has consumed the bits the header's counts and widths say, and sets P_DONE. -/
def Obligations.ParseEndsAfterItsBits : Prop :=
  ∀ s : State, BitPositionFollowsLayout s → s.ps.busy = true → parserPortsFree s.ps = true → s.ps.phase = .locsEnd →
    parserTurn s = some (.next { s with ps := { s.ps with done := true, busy := false, phase := .idle } }) ∧
      s.ps.bitpos.toNat =
        272 + s.ps.countTemperatures.toNat * s.ps.bcTemperature.toNat +
          s.ps.countBins.toNat * (s.ps.bcMonthDelta.toNat + s.ps.bcTemperatureIndex.toNat) +
          s.ps.countLocations.toNat * (64 + s.ps.bcBinIndex.toNat)

/-! ### Commands and control registers -/

/-- R311, R312: START_LZMA and START_PARSE: ignored while their engine is busy; on an idle engine, everything they write, and
nothing else. -/
def Obligations.StartCommandsStartTheirEngine : Prop :=
  ∀ s : State,
    (s.lz.busy = true → exec .startLzma s = .next s) ∧
      (s.lz.busy = false →
        exec .startLzma s = .next { s with lz := { s.lz with
          hdr13 := s.ctrl.getLsbD 0
          outPos := 0, inCount := 0, eos := false, inEnded := false, winPos := 0, streamPos := 0
          lc := 0, lp := 0, pb := 0, dictSize := 0, dictCheck := 0, winSize := 0, sizeKnown := false, usize := 0, props := 0
          done := false, eosFlag := false, err := none, busy := true, phase := .hdrProps } }) ∧
      (s.ps.busy = true → exec .startParse s = .next s) ∧
      (s.ps.busy = false →
        exec .startParse s = .next { s with ps := { s.ps with
          bitpos := 0, avail := 0, ended := false, heldBinValid := false, heldLocValid := false
          countTemperatures := 0, countLocations := 0, countBins := 0
          minYear := 0, minMonth := 0, maxYear := 0, maxMonth := 0, tempMin := 0, tempMax := 0
          bcTemperature := 0, bcTemperatureIndex := 0, bcMonthDelta := 0, bcBinIndex := 0
          hdrValid := false, done := false, err := none, busy := true, phase := .field (.magic 0) 0 0 } })

/-- R313, R314: CLEAR_LZMA and CLEAR_PARSE: ignored while their engine is busy; on an idle engine they clear its status bits
and nothing else. -/
def Obligations.ClearClearsTheStatus : Prop :=
  ∀ s : State,
    (s.lz.busy = true → exec .clearLzma s = .next s) ∧
      (s.lz.busy = false →
        exec .clearLzma s = .next { s with lz := { s.lz with done := false, eosFlag := false, err := none } }) ∧
      (s.ps.busy = true → exec .clearParse s = .next s) ∧
      (s.ps.busy = false → exec .clearParse s = .next { s with ps := { s.ps with done := false, err := none } })

/-- R316: a command for a busy engine is ignored, and nothing the host does but `rst` stops a running engine. -/
def Obligations.OnlyResetStopsARunningEngine : Prop :=
  (∀ s : State,
    (s.lz.busy = true → exec .startLzma s = .next s ∧ exec .clearLzma s = .next s) ∧
      (s.ps.busy = true → exec .startParse s = .next s ∧ exec .clearParse s = .next s)) ∧
    ∀ (a : HostAct) (s t : State), a ≠ .rst → hostTurn a s = .next t →
      (s.lz.busy = true → t.lz.busy = true ∧ t.lz.phase = s.lz.phase) ∧
        (s.ps.busy = true → t.ps.busy = true ∧ t.ps.phase = s.ps.phase)

/-- R39, R330, R340: the fields of the STATUS word, its reserved bits, the code of each error, and the `irq` output. -/
def Obligations.StatusWordFields : Prop :=
  (errField none = 0 ∧ errField (some .magicMismatch) = 1 ∧ errField (some .unsupportedVersion) = 2 ∧
    errField (some .invalidStreamProperties) = 3 ∧ errField (some .prematureEndOfInput) = 4 ∧
    errField (some .corruptCompressedStream) = 5 ∧ errField (some .sizeMismatch) = 6 ∧
    errField (some .invalidFieldWidth) = 7) ∧
  ∀ (s : State) (v : Word), v = csrRead 0x08 s →
    v.getLsbD 0 = s.lz.busy ∧ v.getLsbD 1 = s.lz.done ∧ v.getLsbD 2 = s.lz.eosFlag ∧ v.getLsbD 3 = false ∧
      v.toNat / 16 % 16 = errField s.lz.err ∧ v.getLsbD 8 = s.ps.busy ∧ v.getLsbD 9 = s.ps.done ∧
      v.getLsbD 10 = s.ps.hdrValid ∧ v.getLsbD 11 = false ∧ v.toNat / 4096 % 16 = errField s.ps.err ∧
      v.getLsbD 16 = (s.lz.done || (errField s.lz.err != 0) || s.ps.done || (errField s.ps.err != 0)) ∧
      v.toNat < 2 ^ 17 ∧ irq s = (s.ctrl.getLsbD 1 && v.getLsbD 16)

/-- R37, R38, R40 to R49: the other registers by offset. That PROPS is a register of its own, not a view of `lc`, `lp`, `pb` and
`size_known`, is the model's reading (log 18, DEDUCED). -/
def Obligations.RegisterWindowMap : Prop :=
  ∀ s : State,
    csrRead 0x00 s = s.ctrl.setWidth 32 ∧ csrRead 0x04 s = 0 ∧ csrRead 0x0C s = s.lz.props ∧
      csrRead 0x10 s = s.lz.dictSize ∧
      (csrRead 0x18 s).toNat * 2 ^ 32 + (csrRead 0x14 s).toNat = s.lz.usize.toNat ∧
      (csrRead 0x20 s).toNat * 2 ^ 32 + (csrRead 0x1C s).toNat = s.lz.outPos.toNat ∧
      (csrRead 0x28 s).toNat * 2 ^ 32 + (csrRead 0x24 s).toNat = s.lz.inCount.toNat ∧
      csrRead 0x2C s = s.ps.countTemperatures ∧ csrRead 0x30 s = s.ps.countLocations ∧ csrRead 0x34 s = s.ps.countBins ∧
      (csrRead 0x38 s).toNat = s.ps.minYear.toNat + 65536 * s.ps.minMonth.toNat ∧
      (csrRead 0x3C s).toNat = s.ps.maxYear.toNat + 65536 * s.ps.maxMonth.toNat ∧
      csrRead 0x40 s = s.ps.tempMin ∧ csrRead 0x44 s = s.ps.tempMax ∧
      (csrRead 0x48 s).toNat =
        s.ps.bcTemperature.toNat + 256 * s.ps.bcTemperatureIndex.toNat + 65536 * s.ps.bcMonthDelta.toNat +
          16777216 * s.ps.bcBinIndex.toNat ∧
      (csrRead 0x50 s).toNat * 2 ^ 32 + (csrRead 0x4C s).toNat = s.ps.bitpos.toNat

/-- R50, R310: bits 1:0 of an offset are ignored, an unmapped offset reads 0, and a write outside CTRL and CMD has no effect;
CTRL stores bits 1:0. -/
def Obligations.RegisterAccessRules : Prop :=
  ∀ (off : BitVec 8) (v : Word) (s : State),
    csrRead off s = csrRead (off &&& 0xFC) s ∧ csrWrite off v s = csrWrite (off &&& 0xFC) v s ∧
      (0x54 ≤ off.toNat → csrRead off s = 0) ∧ (8 ≤ off.toNat → csrWrite off v s = .next s) ∧
      (off.toNat < 4 → csrWrite off v s = .next { s with ctrl := v.setWidth 2 })

/-- R370, R371, R373 to R375: the state after power-on reset and after `rst`: every register of R23 to R50 at its reset value, both
engines idle, no item offered, `irq` 0; `rst` leaves the parameters and what the host offers. The registers whose reset value the
spec leaves unspecified are the model's choice (log 4) and are not stated. That `rst` keeps the RAMs' contents is the model's
reading (log 17, DEDUCED): R372 says that reset does not clear them and that their contents are unspecified. -/
def Obligations.ResetSetsTheRegisters : Prop :=
  (∀ t : State, (t = State.reset ∨ ∃ s, hostTurn .rst s = .next t) →
    csrRead 0x00 t = 1 ∧ (∀ off : BitVec 8, 4 ≤ off.toNat → csrRead off t = 0) ∧ irq t = false ∧
      t.lz.phase = .idle ∧ t.ps.phase = .idle ∧ lzmaTurn t = none ∧ parserTurn t = none ∧
      t.lz.outPos = 0 ∧ t.lz.inCount = 0 ∧ t.lz.eos = false ∧ t.lz.inEnded = false ∧ t.lz.hdr13 = true ∧
      t.lz.lc = 0 ∧ t.lz.lp = 0 ∧ t.lz.pb = 0 ∧ t.lz.dictCheck = 0 ∧ t.lz.winSize = 0 ∧ t.lz.sizeKnown = false ∧
      t.lz.winPos = 0 ∧ t.lz.streamPos = 0 ∧ t.ps.bitpos = 0 ∧ t.ps.avail = 0 ∧ t.ps.ended = false ∧
      t.ps.heldBinValid = false ∧ t.ps.heldLocValid = false ∧
      t.lz.dout = none ∧ t.ps.tempOut = none ∧ t.ps.binOut = none ∧ t.ps.locOut = none) ∧
    ∀ s : State, ∃ t, hostTurn .rst s = .next t ∧ t.lz.window = s.lz.window ∧ t.lz.prob = s.lz.prob ∧
      t.params = s.params ∧ t.host = s.host

/-! ### The two engines -/

/-- R21, R89, R293: a turn of the LZMA engine neither reads nor writes the parser engine, CTRL, the free values' count or the
host's side other than the bytes offered on `cin`; a turn of the parser engine neither reads nor writes the LZMA engine, CTRL,
the parameters or the host's side other than the bytes offered on `pin`. -/
def Obligations.EnginesAreIsolated : Prop :=
  (∀ (s : State) (p : Parser) (c : BitVec 2) (n : Nat) (h : HostSide), h.cin = s.host.cin →
    lzmaTurn { s with ps := p, ctrl := c, nanCount := n, host := h } =
      (lzmaTurn s).map (mapNext (fun t =>
        { t with ps := p, ctrl := c, nanCount := n, host := { h with cin := t.host.cin } }))) ∧
    ∀ (s : State) (z : Lzma) (c : BitVec 2) (pm : Params) (h : HostSide), h.pin = s.host.pin →
      parserTurn { s with lz := z, ctrl := c, params := pm, host := h } =
        (parserTurn s).map (mapNext (fun t =>
          { t with lz := z, ctrl := c, params := pm, host := { h with pin := t.host.pin } }))

/-- R375: no step changes the parameters. -/
def Obligations.ParametersNeverChange : Prop := ∀ s t : State, step s = .next t → t.params = s.params

/-! ### Invariants, from every state that satisfies them -/

/-- Both RAMs keep their canonical form (the model's own representation, log 5, log 6). -/
def Obligations.RamsStayCanonical : Prop := KeptByStep RamsCanonical

/-- What the spec derives in R31 and R154: a counter only ever holds a value in 31..2017, and between decoded bits
`range >= 2^24`. -/
def Obligations.RangeStaysNormal : Prop := KeptByStep (fun s => RamsCanonical s ∧ CountersBounded s ∧ RangeNormal s)

/-- What the spec derives in R39 and R292 (with R29, R330): an engine is busy exactly while its routine runs, and at most one of
BUSY, DONE, ERR != 0 holds; each engine reports only its own errors. -/
def Obligations.StatusStaysExclusive : Prop := KeptByStep StatusExclusive ∧ KeptByStep ErrorsOfEngine

/-- What the spec derives in R255: `win_pos` is `out_pos` modulo `win_size` and nothing of the window is flushed but at its end
and the stream's. -/
def Obligations.WindowFollowsOutputIsKept : Prop :=
  KeptByStep (fun s => NothingBeforeLoop s ∧ WindowGeometry s ∧ WindowFollowsOutput s)

/-- What the spec derives in R220: with a known size `out_pos` never exceeds it. -/
def Obligations.SizeIsRespected : Prop := KeptByStep (fun s => NothingBeforeLoop s ∧ SizeRespected s)

/-- R278, R281: where P_HDR_VALID is 1 every declared width is at most 32. -/
def Obligations.ValidHeaderHasLegalWidths : Prop := KeptByStep HeaderValidMeansWidths

/-- What R290 and R137 derive from the layout of R135 and R136: `p_bitpos` is always where the dataset's layout has the parser's
control point. -/
def Obligations.BitPositionFollowsTheLayout : Prop := KeptByStep BitPositionFollowsLayout

/-- What the spec derives in R70, R256 and R175: from a state that satisfies the window's invariants no step accesses a window
byte or a counter that does not exist, and the invariants are kept. -/
def Obligations.NoStepFaults : Prop :=
  ∀ s : State, NothingBeforeLoop s → WindowGeometry s → MatchByteExists s →
    ¬ Faults (step s) ∧ NextHolds (fun t => NothingBeforeLoop t ∧ WindowGeometry t ∧ MatchByteExists t) (step s)

/-- The state after reset satisfies the invariants. -/
def Obligations.ResetSatisfiesTheInvariants : Prop :=
  RamsCanonical State.reset ∧ CountersBounded State.reset ∧ RangeNormal State.reset ∧ StatusExclusive State.reset ∧
    ErrorsOfEngine State.reset ∧ NothingBeforeLoop State.reset ∧ WindowGeometry State.reset ∧
    WindowFollowsOutput State.reset ∧ MatchByteExists State.reset ∧ SizeRespected State.reset ∧
    HeaderValidMeansWidths State.reset ∧ BitPositionFollowsLayout State.reset

end
end

