-- ==== Sys2Proof/Laws/Tree.lean ====
section
/-! SUPPORT. The laws of the decision trees: a routine followed along its own code ends with its value (30_encoding.md). -/

namespace Sys2Proof

variable {α β : Type}

@[simp] theorem walk_nil (t : Tree α) : t.walk [] = (t, []) := rfl

@[simp] theorem walk_ask_cons (q : Query) (k : Bool → Tree α) (b : Bool) (bs : List Bool) :
    (Tree.ask q k).walk (b :: bs) = (k b).walk bs := rfl

@[simp] theorem walk_done (a : α) (bs : List Bool) : (Tree.done a).walk bs = (.done a, bs) := by
  cases bs <;> rfl

@[simp] theorem walk_noMatchByte (bs : List Bool) : (Tree.noMatchByte : Tree α).walk bs = (.noMatchByte, bs) := by
  cases bs <;> rfl

@[simp] theorem bind_done (a : α) (f : α → Tree β) : (Tree.done a).bind f = f a := rfl

@[simp] theorem bind_ask (q : Query) (k : Bool → Tree α) (f : α → Tree β) :
    (Tree.ask q k).bind f = .ask q (fun b => (k b).bind f) := rfl

@[simp] theorem bind_noMatchByte (f : α → Tree β) : (Tree.noMatchByte : Tree α).bind f = .noMatchByte := rfl

/-- A routine that ends exactly at the end of `l`, then another one along `r`. -/
theorem walk_bind (f : α → Tree β) (a : α) (r : List Bool) :
    ∀ (l : List Bool) (t : Tree α), t.walk l = (.done a, []) → (t.bind f).walk (l ++ r) = (f a).walk r
  | [], t, h => by
    cases t with
    | done b => simp at h; subst h; simp
    | ask q k => simp at h
    | noMatchByte => simp at h
  | b :: l, t, h => by
    cases t with
    | done b => simp at h
    | ask q k => simpa using walk_bind f a r l (k b) (by simpa using h)
    | noMatchByte => simp at h

/-- A routine that ends exactly at the end of `l` leaves what follows unread. -/
theorem walk_append {a : α} {l : List Bool} {t : Tree α} (h : t.walk l = (.done a, [])) (r : List Bool) :
    t.walk (l ++ r) = (.done a, r) := by
  have e : ∀ u : Tree α, u.bind .done = u := by
    intro u
    induction u with
    | done b => rfl
    | ask q k ih => simp [ih]
    | noMatchByte => rfl
  simpa [e] using walk_bind Tree.done a r l t h

theorem testBit_mod_two_pow_succ (n v : Nat) : (v.testBit n).toNat * 2 ^ n + v % 2 ^ n = v % 2 ^ (n + 1) := by
  rw [Nat.testBit_eq_decide_div_mod_eq, pow_succ, Nat.mod_mul]
  rcases Nat.mod_two_eq_zero_or_one (v / 2 ^ n) with h | h <;> simp [h]
  omega

/-- The forward tree reads a value's bits most significant first (R170). -/
theorem bitTreeFrom_walk (base : Nat) : ∀ (n m v : Nat),
    (bitTreeFrom base n m).walk (bitsMsb n v) = (.done (m * 2 ^ n + v % 2 ^ n), [])
  | 0, m, v => by simp [bitTreeFrom, bitsMsb, Nat.mod_one]
  | n + 1, m, v => by
    rw [bitsMsb, bitTreeFrom, walk_ask_cons, bitTreeFrom_walk base n, ← testBit_mod_two_pow_succ]
    congr 2; ring

theorem bitTreeDecode_walk (base n v : Nat) (h : v < 2 ^ n) :
    (bitTreeDecode base n).walk (bitsMsb n v) = (.done v, []) := by
  have := walk_bind (fun m => Tree.done (m - 2 ^ n)) _ [] _ _ (bitTreeFrom_walk base n 1 v)
  rw [List.append_nil] at this
  rw [bitTreeDecode, this, Nat.mod_eq_of_lt h]; simp

/-- The reverse tree reads a value's bits least significant first (R171). -/
theorem bitTreeReverseFrom_walk (base : Nat) : ∀ (n m k sym v : Nat),
    (bitTreeReverseFrom base n m k sym).walk (bitsLsb n v) = (.done (sym + v % 2 ^ n * 2 ^ k), [])
  | 0, m, k, sym, v => by simp [bitTreeReverseFrom, bitsLsb, Nat.mod_one]
  | n + 1, m, k, sym, v => by
    rw [bitsLsb, bitTreeReverseFrom, walk_ask_cons, bitTreeReverseFrom_walk base n]
    have h : v % 2 ^ (n + 1) = v % 2 + 2 * (v / 2 % 2 ^ n) := by rw [pow_succ', Nat.mod_mul]
    have hb : (v.testBit 0).toNat = v % 2 := by
      rw [Nat.testBit_zero]; rcases Nat.mod_two_eq_zero_or_one v with h | h <;> simp [h]
    rw [h, hb]; congr 2; ring

theorem bitTreeReverseDecode_walk (base n v : Nat) (h : v < 2 ^ n) :
    (bitTreeReverseDecode base n).walk (bitsLsb n v) = (.done v, []) := by
  simpa [bitTreeReverseDecode, Nat.mod_eq_of_lt h] using bitTreeReverseFrom_walk base n 1 0 0 v

/-- Direct bits are read most significant first (R155). -/
theorem directBitsFrom_walk : ∀ (n r v : Nat),
    (directBitsFrom n r).walk (bitsMsb n v) = (.done (r * 2 ^ n + v % 2 ^ n), [])
  | 0, r, v => by simp [directBitsFrom, bitsMsb, Nat.mod_one]
  | n + 1, r, v => by
    rw [bitsMsb, directBitsFrom, walk_ask_cons, directBitsFrom_walk n, ← testBit_mod_two_pow_succ]
    congr 2; ring

theorem decodeDirectBits_walk (n v : Nat) (h : v < 2 ^ n) :
    (decodeDirectBits n).walk (bitsMsb n v) = (.done v, []) := by
  simpa [decodeDirectBits, Nat.mod_eq_of_lt h] using directBitsFrom_walk n 0 v

/-- A matched literal reads the same bits as a normal one, whatever the match byte (R178). -/
theorem litMatchedFrom_walk (base : Nat) : ∀ (n mb sym v : Nat),
    (litMatchedFrom base n mb sym).walk (bitsMsb n v) = (.done (sym * 2 ^ n + v % 2 ^ n), [])
  | 0, mb, sym, v => by simp [litMatchedFrom, bitsMsb, Nat.mod_one]
  | n + 1, mb, sym, v => by
    rw [bitsMsb, litMatchedFrom, walk_ask_cons, ← testBit_mod_two_pow_succ]
    split
    · rw [litMatchedFrom_walk base n]; congr 2; ring
    · rw [bitTreeFrom_walk]; congr 2; ring

theorem bitsMsb_length : ∀ n v : Nat, (bitsMsb n v).length = n
  | 0, _ => rfl
  | n + 1, v => by simp [bitsMsb, bitsMsb_length n]

theorem bitsLsb_length : ∀ n v : Nat, (bitsLsb n v).length = n
  | 0, _ => rfl
  | n + 1, v => by simp [bitsLsb, bitsLsb_length n]

/-- A length's code ends with the length (R109, R180). -/
theorem lenDecode_walk (l ps len : Nat) (h : lenOk len = true) :
    (lenDecode l ps).walk (encodeLen len) = (.done len, []) := by
  simp only [lenOk, Bool.and_eq_true, decide_eq_true_eq] at h
  unfold encodeLen lenDecode
  split
  · rw [walk_ask_cons, if_pos rfl, ← List.append_nil (bitsMsb _ _),
      walk_bind _ _ _ _ _ (bitTreeDecode_walk _ 3 (len - 2) (by omega))]
    simp; omega
  · split
    · rw [walk_ask_cons, if_neg (by simp), walk_ask_cons, if_pos rfl, ← List.append_nil (bitsMsb _ _),
        walk_bind _ _ _ _ _ (bitTreeDecode_walk _ 3 (len - 10) (by omega))]
      simp; omega
    · rw [walk_ask_cons, if_neg (by simp), walk_ask_cons, if_neg (by simp), ← List.append_nil (bitsMsb _ _),
        walk_bind _ _ _ _ _ (bitTreeDecode_walk _ 8 (len - 18) (by omega))]
      simp; omega

/-- The slot of a distance and where the distance lies in its range (R112). -/
theorem slotOf_spec (dist : Nat) (h : dist < 2 ^ 32) :
    slotOf dist < 64 ∧ slotBase (slotOf dist) ≤ dist ∧
      dist < slotBase (slotOf dist) + 2 ^ slotExtraBits (slotOf dist) := by
  unfold slotOf
  split
  · next h4 =>
    have : slotBase dist = dist := by simp [slotBase, h4]
    have : slotExtraBits dist = 0 := by simp [slotExtraBits, h4]
    simp_all; omega
  · next h4 =>
    have hd : dist ≠ 0 := by omega
    have hlo := Nat.log2_self_le hd
    have hhi := Nat.lt_log2_self (n := dist)
    have hn2 : 2 ≤ dist.log2 := (Nat.le_log2 hd).2 (by omega)
    have hn32 : dist.log2 < 32 := (Nat.log2_lt hd).2 h
    obtain ⟨n, hn⟩ : ∃ n, dist.log2 = n + 1 := ⟨dist.log2 - 1, by omega⟩
    rw [hn] at hlo hhi hn2 hn32 ⊢
    simp only [Nat.add_sub_cancel]
    have hq : dist / 2 ^ n = 2 ∨ dist / 2 ^ n = 3 := by
      have h1 : 2 ≤ dist / 2 ^ n := (Nat.le_div_iff_mul_le (by positivity)).2 (by rw [pow_succ] at hlo; omega)
      have h2 : dist / 2 ^ n < 4 := Nat.div_lt_of_lt_mul (by rw [pow_succ, pow_succ] at hhi; omega)
      omega
    have hmod := Nat.mod_lt dist (show 0 < 2 ^ n by positivity)
    have hdiv := Nat.div_add_mod dist (2 ^ n)
    rw [Nat.testBit_eq_decide_div_mod_eq]
    rcases hq with hq | hq <;> rw [hq] at hdiv ⊢
    · have e1 : slotBase (2 * (n + 1)) = 2 * 2 ^ n := by
        unfold slotBase; rw [if_neg (by omega)]
        rw [show 2 * (n + 1) % 2 = 0 by omega, show 2 * (n + 1) / 2 - 1 = n by omega]
      have e2 : slotExtraBits (2 * (n + 1)) = n := by
        unfold slotExtraBits; rw [if_neg (by omega)]; omega
      simp only [Nat.reduceMod, zero_ne_one, decide_false, Bool.false_eq_true, if_false, Nat.add_zero]
      rw [e1, e2]; omega
    · have e1 : slotBase (2 * (n + 1) + 1) = 3 * 2 ^ n := by
        unfold slotBase; rw [if_neg (by omega)]
        rw [show (2 * (n + 1) + 1) % 2 = 1 by omega, show (2 * (n + 1) + 1) / 2 - 1 = n by omega]
      have e2 : slotExtraBits (2 * (n + 1) + 1) = n := by
        unfold slotExtraBits; rw [if_neg (by omega)]; omega
      simp only [Nat.reduceMod, decide_true, if_true]
      rw [e1, e2]; omega

/-! ### What a routine can end with -/

/-- The packets. -/
def isPacket : Instr → Bool
  | .lit _ => true
  | .newMatch _ _ => true
  | .eos _ => true
  | .shortRep => true
  | .rep0 _ => true
  | .rep1 _ => true
  | .rep2 _ => true
  | .rep3 _ => true
  | .startLzma => false
  | .startParse => false
  | .clearLzma => false
  | .clearParse => false

/-- Every value a routine can end with satisfies `p`. -/
def Tree.Ends {α : Type} (p : α → Prop) : Tree α → Prop
  | .done a => p a
  | .ask _ k => ∀ b, Tree.Ends p (k b)
  | .noMatchByte => True

theorem Tree.Ends.bind {α β : Type} {p : α → Prop} {q : β → Prop} {f : α → Tree β} :
    ∀ {t : Tree α}, Tree.Ends p t → (∀ a, p a → Tree.Ends q (f a)) → Tree.Ends q (t.bind f)
  | .done a, h, hf => hf a h
  | .ask _ _, h, hf => fun b => Tree.Ends.bind (h b) hf
  | .noMatchByte, _, _ => trivial

theorem Tree.Ends.mono {α : Type} {p q : α → Prop} (hpq : ∀ a, p a → q a) :
    ∀ {t : Tree α}, Tree.Ends p t → Tree.Ends q t
  | .done a, h => hpq a h
  | .ask _ _, h => fun b => Tree.Ends.mono hpq (h b)
  | .noMatchByte, _ => trivial

theorem Tree.ends_true {α : Type} : ∀ t : Tree α, Tree.Ends (fun _ => True) t
  | .done _ => trivial
  | .ask _ k => fun b => Tree.ends_true (k b)
  | .noMatchByte => trivial

theorem Tree.Ends.walk {α : Type} {p : α → Prop} :
    ∀ {bits : List Bool} {t : Tree α}, Tree.Ends p t → Tree.Ends p (t.walk bits).1
  | [], _, h => h
  | _ :: _, .done _, h => h
  | b :: bs, .ask _ k, h => Tree.Ends.walk (bits := bs) (t := k b) (h b)
  | _ :: _, .noMatchByte, h => h

theorem bitTreeFrom_ends (base : Nat) : ∀ n m : Nat,
    Tree.Ends (fun v => m * 2 ^ n ≤ v ∧ v < (m + 1) * 2 ^ n) (bitTreeFrom base n m)
  | 0, m => by simp [bitTreeFrom, Tree.Ends]
  | n + 1, m => fun b => by
    refine Tree.Ends.mono ?_ (bitTreeFrom_ends base n (2 * m + b.toNat))
    intro v hv
    have hp : 0 < 2 ^ n := by positivity
    have e : m * 2 ^ (n + 1) = 2 * m * 2 ^ n := by ring
    have e2 : (m + 1) * 2 ^ (n + 1) = (2 * m + 2) * 2 ^ n := by ring
    cases b
    · refine ⟨?_, ?_⟩
      · simpa [e] using hv.1
      · calc v < (2 * m + 1) * 2 ^ n := by simpa using hv.2
          _ ≤ (2 * m + 2) * 2 ^ n := Nat.mul_le_mul_right _ (by omega)
          _ = _ := e2.symm
    · refine ⟨?_, ?_⟩
      · calc m * 2 ^ (n + 1) = 2 * m * 2 ^ n := e
          _ ≤ (2 * m + 1) * 2 ^ n := Nat.mul_le_mul_right _ (by omega)
          _ ≤ v := by simpa using hv.1
      · simpa [e2] using hv.2

theorem bitTreeDecode_ends (base n : Nat) : Tree.Ends (fun v => v < 2 ^ n) (bitTreeDecode base n) :=
  (bitTreeFrom_ends base n 1).bind (fun v hv => by simp only [Tree.Ends]; omega)

/-- A decoded length is in 2..273 (R110). -/
theorem lenDecode_ends (l ps : Nat) : Tree.Ends (fun v => lenOk v = true) (lenDecode l ps) := by
  have key : ∀ base n lo, lo + 2 ^ n ≤ 274 → 2 ≤ lo →
      Tree.Ends (fun v => lenOk v = true) ((bitTreeDecode base n).bind (fun v => .done (lo + v))) := by
    intro base n lo h1 h2
    refine (bitTreeDecode_ends base n).bind (fun v hv => ?_)
    simp only [Tree.Ends, lenOk, Bool.and_eq_true, decide_eq_true_eq]; omega
  unfold lenDecode
  intro b
  dsimp only
  split
  · exact key _ 3 2 (by norm_num) (by norm_num)
  · intro b2
    dsimp only
    split
    · exact key _ 3 10 (by norm_num) (by norm_num)
    · exact key _ 8 18 (by norm_num) (by norm_num)

theorem repDecode_ends (c : Ctx) (mk : Nat → Instr) (p : Instr → Prop) (h : ∀ len, lenOk len = true → p (mk len)) :
    Tree.Ends p (repDecode c mk) :=
  (lenDecode_ends _ _).bind (fun v hv => h v hv)

/-- The packet routine ends with a well-formed packet (R106, R141). -/
theorem packetDecode_ends (c : Ctx) :
    Tree.Ends (fun i => isPacket i = true ∧ i.wf = true) (packetDecode c) := by
  intro b; dsimp only; split
  · refine (Tree.ends_true _).bind (fun v _ => ?_); simp [Tree.Ends, isPacket, Instr.wf]
  · intro b; dsimp only; split
    · refine (lenDecode_ends _ _).bind (fun len hl => (Tree.ends_true _).bind (fun slot _ => (Tree.ends_true _).bind (fun d _ => ?_)))
      split
      · simpa [Tree.Ends, isPacket, Instr.wf] using hl
      · next hd => simpa [Tree.Ends, isPacket, Instr.wf] using ⟨hl, hd⟩
    · intro b; dsimp only; split
      · intro b; dsimp only; split
        · simp [Tree.Ends, isPacket, Instr.wf]
        · exact repDecode_ends _ _ _ (fun len h => by simpa [isPacket, Instr.wf] using h)
      · intro b; dsimp only; split
        · exact repDecode_ends _ _ _ (fun len h => by simpa [isPacket, Instr.wf] using h)
        · intro b; dsimp only; split
          · exact repDecode_ends _ _ _ (fun len h => by simpa [isPacket, Instr.wf] using h)
          · exact repDecode_ends _ _ _ (fun len h => by simpa [isPacket, Instr.wf] using h)

/-- What decoded bits are complete for is a well-formed packet. -/
theorem packet_of_walk {c : Ctx} {bits r : List Bool} {i : Instr} (h : (packetDecode c).walk bits = (.done i, r)) :
    isPacket i = true ∧ i.wf = true := by
  have := (packetDecode_ends c).walk (bits := bits)
  rw [h] at this
  exact this

end Sys2Proof
end

