-- ==== Sys2Proof/Laws/Contexts.lean ====
section
/-! SUPPORT. Which counter a routine asks for after the bits decoded so far: one lemma per routine (R170 to R180). -/

namespace Sys2Proof

open Machine

variable {α β : Type}

theorem bitsValue_foldl (l : List Bool) : ∀ m : Nat, l.foldl (fun v b => 2 * v + b.toNat) m = m * 2 ^ l.length + bitsValue l := by
  induction l with
  | nil => intro m; simp [bitsValue]
  | cons b l ih =>
    intro m
    have h0 := ih (2 * 0 + b.toNat)
    rw [bitsValue, List.foldl_cons, List.foldl_cons, ih, h0, List.length_cons]
    ring

theorem bitsValue_cons (b : Bool) (l : List Bool) : bitsValue (b :: l) = b.toNat * 2 ^ l.length + bitsValue l := by
  simpa [bitsValue] using bitsValue_foldl l b.toNat

/-- After the decoded bits `l`, all of them used, the routine asks `q` next. -/
def Asks (t : Tree α) (l : List Bool) (q : Query) : Prop := ∃ k, t.walk l = (.ask q k, [])

/-- … also where another routine follows it. -/
theorem Asks.bind {t : Tree α} {l : List Bool} {q : Query} (f : α → Tree β) (h : Asks t l q) : Asks (t.bind f) l q := by
  induction l generalizing t with
  | nil =>
    obtain ⟨k, h⟩ := h
    simp at h; subst h; exact ⟨_, rfl⟩
  | cons b l ih =>
    cases t with
    | done a => obtain ⟨k, h⟩ := h; simp at h
    | ask r k => exact ih h
    | noMatchByte => obtain ⟨k, h⟩ := h; simp at h

/-- … and where a routine that has ended came before it. -/
theorem Asks.after {t : Tree α} {l r : List Bool} {q : Query} {a : α} (f : α → Tree β) (ht : t.walk l = (.done a, []))
    (h : Asks (f a) r q) : Asks (t.bind f) (l ++ r) q := by
  obtain ⟨k, h⟩ := h; exact ⟨k, by rw [walk_bind f a r l t ht, h]⟩

theorem bitTreeFrom_asks (base : Nat) : ∀ (l : List Bool) (n m : Nat), l.length < n →
    Asks (bitTreeFrom base n m) l (.counter (base + (m * 2 ^ l.length + bitsValue l)))
  | [], n + 1, m, _ => ⟨_, by simp [bitsValue]; rfl⟩
  | b :: l, n + 1, m, h => by
    have := bitTreeFrom_asks base l n (2 * m + b.toNat) (by simpa using h)
    rw [bitsValue_cons, show m * 2 ^ (b :: l).length + (b.toNat * 2 ^ l.length + bitsValue l) =
      (2 * m + b.toNat) * 2 ^ l.length + bitsValue l by simp only [List.length_cons]; ring]
    exact this

theorem bitTreeDecode_asks (base n : Nat) (l : List Bool) (h : l.length < n) :
    Asks (bitTreeDecode base n) l (.counter (base + treeNode l)) := by
  have := (bitTreeFrom_asks base l n 1 h).bind (fun m => .done (m - 2 ^ n))
  simpa [bitTreeDecode, treeNode] using this

theorem bitTreeReverseFrom_asks (base : Nat) : ∀ (l : List Bool) (n m k sym : Nat), l.length < n →
    Asks (bitTreeReverseFrom base n m k sym) l (.counter (base + (m * 2 ^ l.length + bitsValue l)))
  | [], n + 1, m, k, sym, _ => ⟨_, by simp [bitsValue]; rfl⟩
  | b :: l, n + 1, m, k, sym, h => by
    have := bitTreeReverseFrom_asks base l n (2 * m + b.toNat) (k + 1) (sym + b.toNat * 2 ^ k) (by simpa using h)
    rw [bitsValue_cons, show m * 2 ^ (b :: l).length + (b.toNat * 2 ^ l.length + bitsValue l) =
      (2 * m + b.toNat) * 2 ^ l.length + bitsValue l by simp only [List.length_cons]; ring]
    exact this

theorem bitTreeReverseDecode_asks (base n : Nat) (l : List Bool) (h : l.length < n) :
    Asks (bitTreeReverseDecode base n) l (.counter (base + treeNode l)) := by
  simpa [bitTreeReverseDecode, treeNode] using bitTreeReverseFrom_asks base l n 1 0 0 h

theorem directBitsFrom_asks : ∀ (l : List Bool) (n r : Nat), l.length < n → Asks (directBitsFrom n r) l .direct
  | [], _ + 1, _, _ => ⟨_, rfl⟩
  | _ :: l, n + 1, _, h => directBitsFrom_asks l n _ (by simpa using h)

theorem bitsMsb_bitsValue (l : List Bool) : bitsMsb l.length (bitsValue l) = l := by
  induction l with
  | nil => rfl
  | cons b l ih =>
    have hlt : bitsValue l < 2 ^ l.length := by
      clear ih
      induction l with
      | nil => simp [bitsValue]
      | cons c l ih2 =>
        rw [bitsValue_cons]; simp only [List.length_cons, pow_succ]; cases c <;> simp <;> omega
    have h2 : ∀ n v w, bitsMsb n (w * 2 ^ n + v) = bitsMsb n v := by
      intro n
      induction n with
      | zero => intros; rfl
      | succ n ihn =>
        intro v w
        simp only [bitsMsb]
        have : w * 2 ^ (n + 1) + v = (2 * w) * 2 ^ n + v := by ring
        rw [this, ihn]
        congr 1
        rw [Nat.testBit_eq_decide_div_mod_eq, Nat.testBit_eq_decide_div_mod_eq]
        rw [Nat.add_comm, Nat.add_mul_div_right _ _ (by positivity)]
        congr 1
        rw [eq_iff_iff]; omega
    rw [bitsValue_cons]
    simp only [List.length_cons, bitsMsb, h2, ih]
    congr 1
    rw [Nat.testBit_eq_decide_div_mod_eq, Nat.add_comm, Nat.add_mul_div_right _ _ (by positivity), Nat.div_eq_of_lt hlt]
    cases b <;> simp

/-- A matched literal (R178): the counters of the match bit's half while the decoded bits agree with the match byte. -/
theorem litMatchedFrom_asks (base : Nat) : ∀ (l : List Bool) (n mb sym : Nat), l.length < n → n ≤ 8 →
    Asks (litMatchedFrom base n mb sym) l (.counter
      (if l = (bitsMsb 8 mb).take l.length then
        base + (1 + (mb.testBit (7 - l.length)).toNat) * 256 + (sym * 2 ^ l.length + bitsValue l)
      else base + (sym * 2 ^ l.length + bitsValue l))) := by
  intro l
  induction l with
  | nil =>
    intro n mb sym h hn
    obtain ⟨n, rfl⟩ := Nat.exists_eq_succ_of_ne_zero (show n ≠ 0 by simp at h; omega)
    have h7 : (mb.testBit 7).toNat = mb / 128 % 2 := by
      rw [Nat.testBit_eq_decide_div_mod_eq]
      rcases Nat.mod_two_eq_zero_or_one (mb / 128) with h | h <;> simp [h]
    simp only [List.length_nil, List.take_zero, if_true, Nat.sub_zero, h7, bitsValue, List.foldl_nil, pow_zero, Nat.mul_one, Nat.add_zero]
    exact ⟨_, rfl⟩
  | cons b l ih =>
    intro n mb sym h hn
    obtain ⟨n, rfl⟩ := Nat.exists_eq_succ_of_ne_zero (show n ≠ 0 by simp at h; omega)
    simp only [List.length_cons, Nat.succ_eq_add_one, Nat.add_lt_add_iff_right] at h
    have hw : Asks (litMatchedFrom base (n + 1) mb sym) (b :: l) =
        Asks (if b.toNat = mb / 128 % 2 then litMatchedFrom base n (2 * mb % 256) (2 * sym + b.toNat)
        else bitTreeFrom base n (2 * sym + b.toNat)) l := rfl
    rw [hw, bitsValue_cons, show sym * 2 ^ (b :: l).length + (b.toNat * 2 ^ l.length + bitsValue l) =
      (2 * sym + b.toNat) * 2 ^ l.length + bitsValue l by simp only [List.length_cons]; ring]
    have h7 : mb.testBit 7 = decide (mb / 128 % 2 = 1) := by rw [Nat.testBit_eq_decide_div_mod_eq]
    have hb : (b.toNat = mb / 128 % 2) ↔ b = mb.testBit 7 := by
      rw [h7]; rcases Nat.mod_two_eq_zero_or_one (mb / 128) with h | h <;> cases b <;> simp [h]
    have htb : ∀ j, j < 7 → (2 * mb % 256).testBit (j + 1) = mb.testBit j := by
      intro j hj
      rw [show 256 = 2 ^ 8 by rfl, Nat.testBit_mod_two_pow, show (2 * mb) = mb * 2 by ring, show mb * 2 = mb <<< 1 by simp [Nat.shiftLeft_eq]]
      simp; omega
    have htake : (bitsMsb 8 mb).take (b :: l).length = mb.testBit 7 :: (bitsMsb 8 (2 * mb % 256)).take l.length := by
      have hl : l.length ≤ 7 := by omega
      have e1 : bitsMsb 8 mb = [mb.testBit 7, mb.testBit 6, mb.testBit 5, mb.testBit 4, mb.testBit 3, mb.testBit 2, mb.testBit 1, mb.testBit 0] := rfl
      have e2 : bitsMsb 8 (2 * mb % 256) = [mb.testBit 6, mb.testBit 5, mb.testBit 4, mb.testBit 3, mb.testBit 2, mb.testBit 1, mb.testBit 0, (2 * mb % 256).testBit 0] := by
        have := htb 6 (by omega); have := htb 5 (by omega); have := htb 4 (by omega); have := htb 3 (by omega)
        have := htb 2 (by omega); have := htb 1 (by omega); have := htb 0 (by omega)
        simp [bitsMsb, *]
      rw [e1, e2, List.length_cons, List.take_succ_cons]
      congr 1
      generalize l.length = j at hl
      rcases (show j = 0 ∨ j = 1 ∨ j = 2 ∨ j = 3 ∨ j = 4 ∨ j = 5 ∨ j = 6 ∨ j = 7 by omega) with rfl|rfl|rfl|rfl|rfl|rfl|rfl|rfl <;> rfl
    rw [htake]
    by_cases hc : b = mb.testBit 7
    · rw [if_pos (hb.2 hc)]
      have := ih n (2 * mb % 256) (2 * sym + b.toNat) h (by omega)
      rw [show (2 * mb % 256).testBit (7 - l.length) = mb.testBit (7 - (b :: l).length) by
        have := htb (7 - (b :: l).length) (by simp; omega)
        rw [← this]; congr 1; simp; omega] at this
      rw [← hc]
      simp only [List.cons.injEq, true_and]
      exact this
    · rw [if_neg (fun e => hc (hb.1 e)), if_neg (fun e => hc (List.cons.inj e).1)]
      exact bitTreeFrom_asks base l n _ h

/-- A length (R180). -/
theorem lenDecode_asks (L ps : Nat) :
    Asks (lenDecode L ps) [] (.counter L) ∧ Asks (lenDecode L ps) [true] (.counter (L + 1)) ∧
    (∀ l : List Bool, l.length < 3 → Asks (lenDecode L ps) (false :: l) (.counter (L + 2 + 8 * ps + treeNode l)) ∧
      Asks (lenDecode L ps) (true :: false :: l) (.counter (L + 130 + 8 * ps + treeNode l))) ∧
    ∀ l : List Bool, l.length < 8 → Asks (lenDecode L ps) (true :: true :: l) (.counter (L + 258 + treeNode l)) :=
  ⟨⟨_, rfl⟩, ⟨_, rfl⟩, fun l h => ⟨(bitTreeDecode_asks (L + 2 + 8 * ps) 3 l h).bind _, (bitTreeDecode_asks (L + 130 + 8 * ps) 3 l h).bind _⟩,
    fun l h => (bitTreeDecode_asks (L + 258) 8 l h).bind _⟩

end Sys2Proof
end

