-- ==== Sys2Proof/Laws/Sparse.lean ====
section
/-! SUPPORT. The laws of the sparse RAMs: read after write, and the canonical form. -/

namespace Sys2Proof.Machine

variable {α : Type}

@[simp] theorem sparseGet_nil (d : α) (k : Nat) : sparseGet d [] k = d := rfl

@[simp] theorem sparseGet_cons (d : α) (a : Nat) (v : α) (r : List (Nat × α)) (k : Nat) :
    sparseGet d ((a, v) :: r) k = if a = k then v else sparseGet d r k := rfl

variable [DecidableEq α]

theorem sparseWfFrom_cons (d : α) (lo a : Nat) (v : α) (r : List (Nat × α)) :
    sparseWfFrom d lo ((a, v) :: r) = true ↔ lo ≤ a ∧ v ≠ d ∧ sparseWfFrom d (a + 1) r = true := by
  simp [sparseWfFrom, and_assoc]

theorem sparseWfFrom_mono (d : α) {lo lo' : Nat} (h : lo' ≤ lo) :
    ∀ m : List (Nat × α), sparseWfFrom d lo m = true → sparseWfFrom d lo' m = true
  | [], _ => rfl
  | (a, v) :: r, hm => by
    rw [sparseWfFrom_cons] at hm ⊢
    exact ⟨h.trans hm.1, hm.2⟩

/-- An index below every listed one reads as the default. -/
theorem sparseGet_below (d : α) {lo k : Nat} (h : k < lo) :
    ∀ m : List (Nat × α), sparseWfFrom d lo m = true → sparseGet d m k = d
  | [], _ => rfl
  | (a, v) :: r, hm => by
    rw [sparseWfFrom_cons] at hm
    rw [sparseGet_cons, if_neg (by omega)]
    exact sparseGet_below d (by omega) r hm.2.2

/-- A write leaves every other index as it was (R70, R72). -/
theorem sparseGet_set_other (d : α) {k j : Nat} (h : j ≠ k) (v : α) :
    ∀ m : List (Nat × α), sparseGet d (sparseSet d m k v) j = sparseGet d m j
  | [] => by unfold sparseSet; split <;> simp [h.symm]
  | (a, w) :: r => by
    have ih := sparseGet_set_other d h v r
    unfold sparseSet
    split
    · split <;> simp [h.symm]
    · split
      · next hk => subst hk; split <;> simp [h.symm]
      · simp [ih]

/-- A read after a write to the same index gives the value written (R380, R381). -/
theorem sparseGet_set_same (d : α) (k : Nat) (v : α) :
    ∀ (lo : Nat) (m : List (Nat × α)), sparseWfFrom d lo m = true → sparseGet d (sparseSet d m k v) k = v
  | _, [], _ => by
    unfold sparseSet; split
    · next h => simp [h]
    · simp
  | lo, (a, w) :: r, hm => by
    rw [sparseWfFrom_cons] at hm
    have ih := sparseGet_set_same d k v (a + 1) r hm.2.2
    unfold sparseSet
    split
    · next hk =>
      split
      · next hv =>
        rw [sparseGet_cons, if_neg (by omega), sparseGet_below d (lo := a + 1) (by omega) r hm.2.2, hv]
      · simp
    · split
      · next hk =>
        split
        · next hv => rw [hk, sparseGet_below d (Nat.lt_succ_self a) r hm.2.2, hv]
        · simp
      · next hk => rw [sparseGet_cons, if_neg (by omega), ih]

/-- A write keeps the canonical form. -/
theorem sparseSet_wf (d : α) (k : Nat) (v : α) :
    ∀ (lo : Nat) (m : List (Nat × α)), lo ≤ k → sparseWfFrom d lo m = true → sparseWfFrom d lo (sparseSet d m k v) = true
  | lo, [], h, _ => by
    unfold sparseSet; split
    · rfl
    · next hv => simp [sparseWfFrom, h, hv]
  | lo, (a, w) :: r, h, hm => by
    have hm' := (sparseWfFrom_cons d lo a w r).1 hm
    unfold sparseSet
    split
    · next hk =>
      split
      · exact hm
      · next hv =>
        rw [sparseWfFrom_cons, sparseWfFrom_cons]
        exact ⟨h, hv, by omega, hm'.2⟩
    · split
      · next hk =>
        split
        · exact sparseWfFrom_mono d (by omega) r hm'.2.2
        · next hv => rw [sparseWfFrom_cons]; exact ⟨h, hv, by rw [hk]; exact hm'.2.2⟩
      · rw [sparseWfFrom_cons]
        exact ⟨hm'.1, hm'.2.1, sparseSet_wf d k v (a + 1) r (by omega) hm'.2.2⟩

/-- Dropping entries keeps the canonical form. -/
theorem sparseFilter_wf (d : α) (p : Nat × α → Bool) :
    ∀ (lo : Nat) (m : List (Nat × α)), sparseWfFrom d lo m = true → sparseWfFrom d lo (m.filter p) = true
  | _, [], _ => rfl
  | lo, (a, v) :: r, hm => by
    have hm' := (sparseWfFrom_cons d lo a v r).1 hm
    have ih := sparseFilter_wf d p (a + 1) r hm'.2.2
    rw [List.filter_cons]
    split
    · rw [sparseWfFrom_cons]; exact ⟨hm'.1, hm'.2.1, ih⟩
    · exact sparseWfFrom_mono d (by omega) _ ih

/-- After the start of a decode, the counters below `count` hold 1024 and the others what they held (R200). -/
theorem sparseGet_initCounters (count k : Nat) :
    ∀ m : List (Nat × Counter), sparseGet probDefault (initCounters count m) k =
      if k < count then probDefault else sparseGet probDefault m k
  | [] => by simp [initCounters]
  | (a, v) :: r => by
    have ih := sparseGet_initCounters count k r
    unfold initCounters at ih ⊢
    by_cases ha : count ≤ a
    · rw [List.filter_cons_of_pos (by simpa using ha), sparseGet_cons, ih, sparseGet_cons]
      by_cases hak : a = k
      · rw [if_pos hak, if_neg (by omega), if_pos hak]
      · rw [if_neg hak, if_neg hak]
    · rw [List.filter_cons_of_neg (by simpa using ha), ih, sparseGet_cons]
      by_cases hk : k < count
      · rw [if_pos hk, if_pos hk]
      · rw [if_neg hk, if_neg hk, if_neg (by omega)]

end Sys2Proof.Machine
end

