-- ==== Sys2Proof/Laws/State.lean ====
section
/-! SUPPORT. What each named update of the state changes, field by field. -/

namespace Sys2Proof.Machine

/-! `toPhase`: the LZMA engine's control point, nothing else. -/

@[simp] theorem toPhase_params (p : LzPhase) (s : State) : (toPhase p s).params = s.params := rfl
@[simp] theorem toPhase_ctrl (p : LzPhase) (s : State) : (toPhase p s).ctrl = s.ctrl := rfl
@[simp] theorem toPhase_lz (p : LzPhase) (s : State) : (toPhase p s).lz = { s.lz with phase := p } := rfl
@[simp] theorem toPhase_ps (p : LzPhase) (s : State) : (toPhase p s).ps = s.ps := rfl
@[simp] theorem toPhase_host (p : LzPhase) (s : State) : (toPhase p s).host = s.host := rfl
@[simp] theorem toPhase_nanCount (p : LzPhase) (s : State) : (toPhase p s).nanCount = s.nanCount := rfl

/-! `toPPhase`: the parser's control point, nothing else. -/

@[simp] theorem toPPhase_params (p : PPhase) (s : State) : (toPPhase p s).params = s.params := rfl
@[simp] theorem toPPhase_ctrl (p : PPhase) (s : State) : (toPPhase p s).ctrl = s.ctrl := rfl
@[simp] theorem toPPhase_lz (p : PPhase) (s : State) : (toPPhase p s).lz = s.lz := rfl
@[simp] theorem toPPhase_ps (p : PPhase) (s : State) : (toPPhase p s).ps = { s.ps with phase := p } := rfl
@[simp] theorem toPPhase_host (p : PPhase) (s : State) : (toPPhase p s).host = s.host := rfl
@[simp] theorem toPPhase_nanCount (p : PPhase) (s : State) : (toPPhase p s).nanCount = s.nanCount := rfl

/-! `readField`: the parser stands before a field's first bit. -/

@[simp] theorem readField_lz (f : PField) (s : State) : (readField f s).lz = s.lz := rfl
@[simp] theorem readField_ps (f : PField) (s : State) : (readField f s).ps = { s.ps with phase := .field f 0 0 } := rfl
@[simp] theorem readField_params (f : PField) (s : State) : (readField f s).params = s.params := rfl
@[simp] theorem readField_ctrl (f : PField) (s : State) : (readField f s).ctrl = s.ctrl := rfl
@[simp] theorem readField_host (f : PField) (s : State) : (readField f s).host = s.host := rfl
@[simp] theorem readField_nanCount (f : PField) (s : State) : (readField f s).nanCount = s.nanCount := rfl

/-! `raise`: the engine's code, busy bit and control point (R333). -/

@[simp] theorem raise_params (x : Engine) (e : ErrCode) (s : State) : (raise x e s).params = s.params := by cases x <;> rfl
@[simp] theorem raise_ctrl (x : Engine) (e : ErrCode) (s : State) : (raise x e s).ctrl = s.ctrl := by cases x <;> rfl
@[simp] theorem raise_host (x : Engine) (e : ErrCode) (s : State) : (raise x e s).host = s.host := by cases x <;> rfl
@[simp] theorem raise_nanCount (x : Engine) (e : ErrCode) (s : State) : (raise x e s).nanCount = s.nanCount := by cases x <;> rfl
@[simp] theorem raise_lzma_lz (e : ErrCode) (s : State) :
    (raise .lzma e s).lz = { s.lz with err := some e, busy := false, phase := .idle } := rfl
@[simp] theorem raise_lzma_ps (e : ErrCode) (s : State) : (raise .lzma e s).ps = s.ps := rfl
@[simp] theorem raise_parser_ps (e : ErrCode) (s : State) :
    (raise .parser e s).ps = { s.ps with err := some e, busy := false, phase := .idle } := rfl
@[simp] theorem raise_parser_lz (e : ErrCode) (s : State) : (raise .parser e s).lz = s.lz := rfl

/-! `appended`: one byte written at `win_pos` (R251, R252). -/

@[simp] theorem appended_params (b : Byte) (s : State) : (appended b s).params = s.params := rfl
@[simp] theorem appended_ctrl (b : Byte) (s : State) : (appended b s).ctrl = s.ctrl := rfl
@[simp] theorem appended_ps (b : Byte) (s : State) : (appended b s).ps = s.ps := rfl
@[simp] theorem appended_host (b : Byte) (s : State) : (appended b s).host = s.host := rfl
@[simp] theorem appended_nanCount (b : Byte) (s : State) : (appended b s).nanCount = s.nanCount := rfl
@[simp] theorem appended_lz (b : Byte) (s : State) :
    (appended b s).lz = { s.lz with
      window := sparseSet windowDefault s.lz.window s.lz.winPos.toNat b
      winPos := s.lz.winPos + 1, outPos := s.lz.outPos + 1 } := rfl

/-! `beginFlush`, `endFlush`, `endLit`, `endDecode`: registers of the LZMA engine only. -/

@[simp] theorem beginFlush_lz (c : FlushCont) (s : State) :
    (beginFlush c s).lz = { s.lz with phase := .flush s.lz.streamPos.toNat c } := rfl
@[simp] theorem beginFlush_ps (c : FlushCont) (s : State) : (beginFlush c s).ps = s.ps := rfl
@[simp] theorem beginFlush_params (c : FlushCont) (s : State) : (beginFlush c s).params = s.params := rfl
@[simp] theorem beginFlush_ctrl (c : FlushCont) (s : State) : (beginFlush c s).ctrl = s.ctrl := rfl
@[simp] theorem beginFlush_host (c : FlushCont) (s : State) : (beginFlush c s).host = s.host := rfl
@[simp] theorem beginFlush_nanCount (c : FlushCont) (s : State) : (beginFlush c s).nanCount = s.nanCount := rfl
@[simp] theorem endFlush_lz (s : State) :
    (endFlush s).lz = { s.lz with
      winPos := if s.lz.winPos = s.lz.winSize then 0 else s.lz.winPos
      streamPos := if s.lz.winPos = s.lz.winSize then 0 else s.lz.winPos } := rfl
@[simp] theorem endFlush_ps (s : State) : (endFlush s).ps = s.ps := rfl
@[simp] theorem endFlush_params (s : State) : (endFlush s).params = s.params := rfl
@[simp] theorem endFlush_ctrl (s : State) : (endFlush s).ctrl = s.ctrl := rfl
@[simp] theorem endFlush_host (s : State) : (endFlush s).host = s.host := rfl
@[simp] theorem endFlush_nanCount (s : State) : (endFlush s).nanCount = s.nanCount := rfl
@[simp] theorem endLit_lz (b : Byte) (s : State) :
    (endLit b s).lz = { s.lz with prevByte := b, state := litNext s.lz.state, phase := .loopTop } := rfl
@[simp] theorem endLit_ps (b : Byte) (s : State) : (endLit b s).ps = s.ps := rfl
@[simp] theorem endLit_params (b : Byte) (s : State) : (endLit b s).params = s.params := rfl
@[simp] theorem endLit_ctrl (b : Byte) (s : State) : (endLit b s).ctrl = s.ctrl := rfl
@[simp] theorem endLit_host (b : Byte) (s : State) : (endLit b s).host = s.host := rfl
@[simp] theorem endLit_nanCount (b : Byte) (s : State) : (endLit b s).nanCount = s.nanCount := rfl
@[simp] theorem endDecode_lz (s : State) :
    (endDecode s).lz = { s.lz with eosFlag := s.lz.eos, done := true, busy := false, phase := .idle } := rfl
@[simp] theorem endDecode_ps (s : State) : (endDecode s).ps = s.ps := rfl
@[simp] theorem endDecode_params (s : State) : (endDecode s).params = s.params := rfl
@[simp] theorem endDecode_ctrl (s : State) : (endDecode s).ctrl = s.ctrl := rfl
@[simp] theorem endDecode_host (s : State) : (endDecode s).host = s.host := rfl
@[simp] theorem endDecode_nanCount (s : State) : (endDecode s).nanCount = s.nanCount := rfl

/-! `bumpIndex`: `p_i` only. -/

@[simp] theorem bumpIndex_ps (s : State) : (bumpIndex s).ps = { s.ps with pI := s.ps.pI + 1 } := rfl
@[simp] theorem bumpIndex_lz (s : State) : (bumpIndex s).lz = s.lz := rfl
@[simp] theorem bumpIndex_params (s : State) : (bumpIndex s).params = s.params := rfl
@[simp] theorem bumpIndex_ctrl (s : State) : (bumpIndex s).ctrl = s.ctrl := rfl
@[simp] theorem bumpIndex_host (s : State) : (bumpIndex s).host = s.host := rfl
@[simp] theorem bumpIndex_nanCount (s : State) : (bumpIndex s).nanCount = s.nanCount := rfl

end Sys2Proof.Machine
end

