-- ==== Sys2Proof/Laws/Ops.lean ====
section
/-! SUPPORT. One lemma per shared operation that says everything it can do. -/

namespace Sys2Proof.Machine

variable {α β : Type}

/-- A bound operation ended well: so did both parts. -/
theorem bind_ok {r : Res α} {f : α → State → Res β} {b : β} {t : State} (h : r.bind f = .ok b t) :
    ∃ a u, r = .ok a u ∧ f a u = .ok b t := by
  cases r <;> simp_all [Res.bind]

/-- A bound operation raised: the first part did, or the second. -/
theorem bind_raised {r : Res α} {f : α → State → Res β} {e : ErrCode} {t : State} (h : r.bind f = .raised e t) :
    r = .raised e t ∨ ∃ a u, r = .ok a u ∧ f a u = .raised e t := by
  cases r <;> simp_all [Res.bind]

/-- A bound operation faulted: the first part did, or the second. -/
theorem bind_fault {r : Res α} {f : α → State → Res β} {x : Fault} (h : r.bind f = .fault x) :
    r = .fault x ∨ ∃ a u, r = .ok a u ∧ f a u = .fault x := by
  cases r <;> simp_all [Res.bind]

/-- A turn made of an operation: it went on, raised, or stopped. -/
theorem turn_some {x : Engine} {r : Res α} {k : α → State → Out} {o : Out} (h : r.turn x k = some o) :
    (∃ a t, r = .ok a t ∧ o = k a t) ∨ (∃ e t, r = .raised e t ∧ o = .next (raise x e t)) ∨
      (∃ f, r = .fault f ∧ o = .fault f) ∨ (∃ f, r = .refused f ∧ o = .refused f) := by
  cases r <;> simp_all [Res.turn]

/-- The state after `ReadIn` has taken a byte flagged `last` with `rest` still offered (R75). -/
def afterReadIn (last : Bool) (rest : List (Byte × Bool)) (s : State) : State :=
  { s with lz := { s.lz with inCount := s.lz.inCount + 1, inEnded := last }, host := { s.host with cin := rest } }

/-- `ReadIn` takes the byte at the head of what is offered (R75). -/
theorem readIn_ok {s t : State} {b : Byte} (h : readIn s = .ok b t) :
    ∃ last rest, s.host.cin = (b, last) :: rest ∧ s.lz.inEnded = false ∧ s.lz.inCount ≠ BitVec.allOnes 64 ∧
      t = afterReadIn last rest s := by
  unfold readIn at h
  split at h
  · cases h
  · next he =>
    split at h
    · cases h
    · next last rest hc =>
      split at h
      · cases h
      · next hn => cases h; exact ⟨_, _, hc, by simpa using he, hn, rfl⟩

/-- `ReadIn` raises only `PrematureEndOfInput`, after the last byte, and changes nothing (R75, R332). -/
theorem readIn_raised {s t : State} {e : ErrCode} (h : readIn s = .raised e t) :
    e = .prematureEndOfInput ∧ t = s ∧ s.lz.inEnded = true := by
  unfold readIn at h
  split at h
  · next he => cases h; exact ⟨rfl, rfl, he⟩
  · split at h
    · cases h
    · split at h <;> cases h

theorem readIn_not_fault {s : State} {f : Fault} : readIn s ≠ .fault f := by
  unfold readIn
  split
  · simp
  · split
    · simp
    · split <;> simp

/-- The state after `PinRead` has taken a byte (R78). -/
def afterPinRead (last : Bool) (rest : List (Byte × Bool)) (s : State) : State :=
  { s with ps := { s.ps with ended := last }, host := { s.host with pin := rest } }

/-- `PinRead` takes the byte at the head of what is offered (R78). -/
theorem pinRead_ok {s t : State} {b : Byte} (h : pinRead s = .ok b t) :
    ∃ last rest, s.host.pin = (b, last) :: rest ∧ s.ps.ended = false ∧ t = afterPinRead last rest s := by
  unfold pinRead at h
  split at h
  · cases h
  · next he =>
    split at h
    · cases h
    · next last rest hc => cases h; exact ⟨_, _, hc, by simpa using he, rfl⟩

theorem pinRead_raised {s t : State} {e : ErrCode} (h : pinRead s = .raised e t) :
    e = .prematureEndOfInput ∧ t = s ∧ s.ps.ended = true := by
  unfold pinRead at h
  split at h
  · next he => cases h; exact ⟨rfl, rfl, he⟩
  · split at h <;> cases h

theorem pinRead_not_stop {s : State} : (∀ f, pinRead s ≠ .fault f) ∧ ∀ r, pinRead s ≠ .refused r := by
  unfold pinRead
  split
  · simp
  · split <;> simp

/-- The engine with the range-decoder registers, the counters and the input cursor replaced: all that decoding a bit can
change of it (R152, R153, R155). -/
def Lzma.withDecoder (z : Lzma) (range code : Word) (prob : List (Nat × Counter)) (inCount : DWord) (inEnded : Bool) :
    Lzma :=
  { z with range := range, code := code, prob := prob, inCount := inCount, inEnded := inEnded }

/-- Only the range decoder's registers, its counters, the input cursor and the offered `cin` bytes differ. -/
def DecoderStep (s t : State) : Prop :=
  t = { s with
    lz := s.lz.withDecoder t.lz.range t.lz.code t.lz.prob t.lz.inCount t.lz.inEnded
    host := { s.host with cin := t.host.cin } }

theorem DecoderStep.refl (s : State) : DecoderStep s s := rfl

theorem DecoderStep.trans {s t u : State} (h : DecoderStep s t) (k : DecoderStep t u) : DecoderStep s u := by
  unfold DecoderStep at h k ⊢
  rw [k, h]; rfl

/-- `Normalize` leaves `range` alone, or shifts it and takes one byte (R152). -/
theorem normalize_ok {s t : State} (h : normalize s = .ok () t) :
    (¬ s.lz.range < 0x01000000 ∧ t = s) ∨
      (s.lz.range < 0x01000000 ∧ t.lz.range = s.lz.range <<< 8 ∧ t.lz.prob = s.lz.prob ∧ DecoderStep s t) := by
  unfold normalize at h
  split at h
  · next hr =>
    obtain ⟨b, u, hu, ht⟩ := bind_ok h
    obtain ⟨last, rest, _, _, _, rfl⟩ := readIn_ok hu
    cases ht
    exact .inr ⟨hr, rfl, rfl, rfl⟩
  · next hr => cases h; exact .inl ⟨hr, rfl⟩

/-- `Normalize` raises only where a byte is needed after the last one; `range` is then shifted (R152, R333). -/
theorem normalize_raised {s t : State} {e : ErrCode} (h : normalize s = .raised e t) :
    e = .prematureEndOfInput ∧ s.lz.range < 0x01000000 ∧ t.lz.prob = s.lz.prob ∧ DecoderStep s t := by
  unfold normalize at h
  split at h
  · next hr =>
    rcases bind_raised h with h | ⟨a, u, _, h⟩
    · obtain ⟨rfl, rfl, _⟩ := readIn_raised h; exact ⟨rfl, hr, rfl, rfl⟩
    · cases h
  · cases h

theorem normalize_not_fault {s : State} {f : Fault} : normalize s ≠ .fault f := by
  unfold normalize
  split
  · intro h
    rcases bind_fault h with h | ⟨_, _, _, h⟩
    · exact readIn_not_fault h
    · cases h
  · simp

theorem bitZero_decoderStep (i : Nat) (s : State) : DecoderStep s (bitZero i s) := rfl
theorem bitOne_decoderStep (i : Nat) (s : State) : DecoderStep s (bitOne i s) := rfl

/-- `DecodeBit` decodes 0 or 1 by the comparison of R153, then normalizes. -/
theorem decodeBit_ok {i : Nat} {s t : State} {b : Bool} (h : decodeBit i s = .ok b t) :
    i < probCount s.lz.lc.toNat s.lz.lp.toNat ∧
      ((b = false ∧ s.lz.code < bitBound s.lz.range (probRead i s) ∧ normalize (bitZero i s) = .ok () t) ∨
        (b = true ∧ ¬ s.lz.code < bitBound s.lz.range (probRead i s) ∧ normalize (bitOne i s) = .ok () t)) := by
  unfold decodeBit at h
  split at h
  · next hi =>
    refine ⟨hi, ?_⟩
    split at h
    · next hc => obtain ⟨_, u, hu, ht⟩ := bind_ok h; cases ht; exact .inl ⟨rfl, hc, hu⟩
    · next hc => obtain ⟨_, u, hu, ht⟩ := bind_ok h; cases ht; exact .inr ⟨rfl, hc, hu⟩
  · cases h

/-- `DecodeBit` raises only in its `Normalize`. -/
theorem decodeBit_raised {i : Nat} {s t : State} {e : ErrCode} (h : decodeBit i s = .raised e t) :
    normalize (bitZero i s) = .raised e t ∨ normalize (bitOne i s) = .raised e t := by
  unfold decodeBit at h
  split at h
  · split at h
    · rcases bind_raised h with h | ⟨_, _, _, h⟩
      · exact .inl h
      · cases h
    · rcases bind_raised h with h | ⟨_, _, _, h⟩
      · exact .inr h
      · cases h
  · cases h

/-- The state of one direct bit before its `Normalize` (R155). -/
def directZero (s : State) : State := { s with lz := { s.lz with range := s.lz.range >>> 1 } }

/-- The same for a decoded 1. -/
def directOne (s : State) : State :=
  { s with lz := { s.lz with range := s.lz.range >>> 1, code := s.lz.code - s.lz.range >>> 1 } }

theorem directBit_ok {s t : State} {b : Bool} (h : directBit s = .ok b t) :
    (b = false ∧ s.lz.code < s.lz.range >>> 1 ∧ normalize (directZero s) = .ok () t) ∨
      (b = true ∧ ¬ s.lz.code < s.lz.range >>> 1 ∧ normalize (directOne s) = .ok () t) := by
  unfold directBit at h
  split at h
  · next hc => obtain ⟨_, u, hu, ht⟩ := bind_ok h; cases ht; exact .inl ⟨rfl, hc, hu⟩
  · next hc => obtain ⟨_, u, hu, ht⟩ := bind_ok h; cases ht; exact .inr ⟨rfl, hc, hu⟩

theorem directBit_raised {s t : State} {e : ErrCode} (h : directBit s = .raised e t) :
    normalize (directZero s) = .raised e t ∨ normalize (directOne s) = .raised e t := by
  unfold directBit at h
  split at h
  · rcases bind_raised h with h | ⟨_, _, _, h⟩
    · exact .inl h
    · cases h
  · rcases bind_raised h with h | ⟨_, _, _, h⟩
    · exact .inr h
    · cases h

/-- `Normalize` changes only the range decoder, the input cursor and what is offered on `cin`. -/
theorem normalize_decoderStep {s t : State} (h : normalize s = .ok () t) : DecoderStep s t := by
  rcases normalize_ok h with ⟨_, rfl⟩ | ⟨_, _, _, h⟩
  · exact DecoderStep.refl _
  · exact h

/-- Decoding a bit changes nothing but what `DecoderStep` names. -/
theorem answer_ok {q : Query} {s t : State} {b : Bool} (h : answer q s = .ok b t) : DecoderStep s t := by
  cases q with
  | counter i =>
    obtain ⟨_, ⟨_, _, h⟩ | ⟨_, _, h⟩⟩ := decodeBit_ok h
    · exact (bitZero_decoderStep i s).trans (normalize_decoderStep h)
    · exact (bitOne_decoderStep i s).trans (normalize_decoderStep h)
  | direct =>
    rcases directBit_ok h with ⟨_, _, h⟩ | ⟨_, _, h⟩
    · exact DecoderStep.trans (t := directZero s) rfl (normalize_decoderStep h)
    · exact DecoderStep.trans (t := directOne s) rfl (normalize_decoderStep h)

/-- A raise while a bit is decoded is `PrematureEndOfInput`, and nothing else has changed. -/
theorem answer_raised {q : Query} {s t : State} {e : ErrCode} (h : answer q s = .raised e t) :
    e = .prematureEndOfInput ∧ DecoderStep s t := by
  cases q with
  | counter i =>
    rcases decodeBit_raised h with h | h
    · obtain ⟨rfl, _, _, h⟩ := normalize_raised h; exact ⟨rfl, (bitZero_decoderStep i s).trans h⟩
    · obtain ⟨rfl, _, _, h⟩ := normalize_raised h; exact ⟨rfl, (bitOne_decoderStep i s).trans h⟩
  | direct =>
    rcases directBit_raised h with h | h
    · obtain ⟨rfl, _, _, h⟩ := normalize_raised h
      exact ⟨rfl, DecoderStep.trans (t := directZero s) rfl h⟩
    · obtain ⟨rfl, _, _, h⟩ := normalize_raised h
      exact ⟨rfl, DecoderStep.trans (t := directOne s) rfl h⟩

/-- Only the bit cursor, the offered `pin` bytes and nothing else differ (R271). -/
def CursorStep (s t : State) : Prop :=
  t = { s with
    ps := { s.ps with bitpos := t.ps.bitpos, byte := t.ps.byte, avail := t.ps.avail, ended := t.ps.ended }
    host := { s.host with pin := t.host.pin } }

/-- One bit of `PReadBits` (R271). -/
theorem pReadBit_ok {s t : State} {b : Bool} (h : pReadBit s = .ok b t) :
    t.ps.bitpos = s.ps.bitpos + 1 ∧ CursorStep s t := by
  unfold pReadBit at h
  obtain ⟨_, u, hu, ht⟩ := bind_ok h
  split at hu
  · obtain ⟨c, v, hv, hu⟩ := bind_ok hu
    obtain ⟨last, rest, _, _, rfl⟩ := pinRead_ok hv
    cases hu; cases ht; exact ⟨rfl, rfl⟩
  · cases hu; cases ht; exact ⟨rfl, rfl⟩

theorem pReadBit_raised {s t : State} {e : ErrCode} (h : pReadBit s = .raised e t) :
    e = .prematureEndOfInput ∧ t = s := by
  unfold pReadBit at h
  rcases bind_raised h with h | ⟨_, _, _, h⟩
  · split at h
    · rcases bind_raised h with h | ⟨_, _, _, h⟩
      · obtain ⟨rfl, rfl, _⟩ := pinRead_raised h; exact ⟨rfl, rfl⟩
      · cases h
    · cases h
  · cases h

theorem pReadBit_not_fault {s : State} {f : Fault} : pReadBit s ≠ .fault f := by
  intro h
  unfold pReadBit at h
  rcases bind_fault h with h | ⟨_, _, _, h⟩
  · split at h
    · rcases bind_fault h with h | ⟨_, _, _, h⟩
      · exact pinRead_not_stop.1 _ h
      · cases h
    · cases h
  · cases h

/-- Appending a byte goes on, or stops by the two guards. -/
theorem appendByte_next {b : Byte} {s t : State} {k : State → Out} (h : appendByte b s k = .next t) :
    s.lz.winPos.toNat < s.lz.winSize.toNat ∧ s.lz.outPos ≠ BitVec.allOnes 64 ∧ k (appended b s) = .next t := by
  unfold appendByte at h
  split at h
  · next hw =>
    split at h
    · cases h
    · next ho => exact ⟨hw, ho, h⟩
  · cases h

theorem appendByte_fault {b : Byte} {s : State} {k : State → Out} {f : Fault} (h : appendByte b s k = .fault f) :
    ¬ s.lz.winPos.toNat < s.lz.winSize.toNat ∨ k (appended b s) = .fault f := by
  unfold appendByte at h
  split at h
  · split at h
    · cases h
    · exact .inr h
  · next hw => exact .inl hw

/-- `(range >> 11) * p` is exact in 32 bits (R153). -/
theorem bitBound_toNat (r : Word) (p : Counter) : (bitBound r p).toNat = r.toNat / 2048 * p.toNat := by
  unfold bitBound
  have h1 := r.isLt
  have h2 := p.isLt
  have hm : r.toNat / 2048 * p.toNat < 2 ^ 32 := by
    have : r.toNat / 2048 * p.toNat ≤ (2 ^ 21 - 1) * 2047 := Nat.mul_le_mul (by omega) (by omega)
    omega
  have e : (r >>> 11).toNat = r.toNat / 2048 := by simp [BitVec.toNat_ushiftRight, Nat.shiftRight_eq_div_pow]
  rw [BitVec.toNat_mul, BitVec.toNat_setWidth, e, Nat.mod_eq_of_lt (show p.toNat < 2 ^ 32 by omega), Nat.mod_eq_of_lt hm]

end Sys2Proof.Machine
end

