-- ==== Sys2Proof/Laws/Window.lean ====
section
/-! SUPPORT. What the window routines can do, said once each (43_output_window.md). -/

namespace Sys2Proof.Machine

/-- The engine after `n` bytes were appended, the window holding `w`. -/
def Lzma.wrote (z : Lzma) (n : Nat) (w : List Host.Cell) : Lzma :=
  { z with window := w, winPos := z.winPos + BitVec.ofNat 32 n, outPos := z.outPos + BitVec.ofNat 64 n }

theorem wrote_zero (z : Lzma) : z.wrote 0 z.window = z := by
  simp [Lzma.wrote]

theorem appended_wrote (b : Byte) (s : State) (n : Nat) (w : List Host.Cell) :
    (appended b s).lz.wrote n w = s.lz.wrote (n + 1) w := by
  simp only [appended_lz, Lzma.wrote, BitVec.ofNat_add, Lzma.mk.injEq, true_and, and_true]
  constructor
  · rw [BitVec.add_assoc, BitVec.add_comm 1]; rfl
  · rw [BitVec.add_assoc, BitVec.add_comm 1]; rfl

theorem appended_state (b : Byte) (s : State) (z : Lzma) : { appended b s with lz := z } = { s with lz := z } := rfl

theorem appended_winPos (b : Byte) {s : State} (h : s.lz.winPos.toNat < s.lz.winSize.toNat) :
    (appended b s).lz.winPos.toNat = s.lz.winPos.toNat + 1 := by
  have := s.lz.winSize.isLt
  rw [appended_lz, BitVec.toNat_add]; simp; omega

theorem appended_outPos (b : Byte) {s : State} (h : s.lz.outPos ≠ BitVec.allOnes 64) :
    (appended b s).lz.outPos.toNat = s.lz.outPos.toNat + 1 := by
  have h1 := s.lz.outPos.isLt
  have h2 : s.lz.outPos.toNat ≠ 2 ^ 64 - 1 := by
    intro e; apply h; apply BitVec.eq_of_toNat_eq; simpa using e
  rw [appended_lz, BitVec.toNat_add]; simp; omega

/-- The end of a copy: `prev_byte` is the last byte written (R219). -/
theorem endCopy_next {s t : State} (h : endCopy s = .next t) :
    ∃ b, getByte 0 s = some b ∧ t = { s with lz := { s.lz with prevByte := b, phase := .loopTop } } := by
  unfold endCopy at h
  split at h
  · next b hb => cases h; exact ⟨b, hb, rfl⟩
  · cases h

/-- What the loop of `CopyBlock` does when it goes on: it appends all its bytes, or it appends `n` of them up to the window's
end and waits in a flush with the rest to copy (R252). -/
theorem copyRun_next : ∀ (rem src : Nat) {s t : State}, copyRun rem src s = .next t →
    ∃ n w, n ≤ rem ∧ s.lz.outPos.toNat + n < 2 ^ 64 ∧ (Memory.wf s.lz.window = true → Memory.wf w = true) ∧
      ((n = rem ∧ (0 < rem → s.lz.winPos.toNat + rem < s.lz.winSize.toNat) ∧
          ∃ b, getByte 0 { s with lz := s.lz.wrote n w } = some b ∧
            t = { s with lz := { s.lz.wrote n w with prevByte := b, phase := .loopTop } }) ∨
        (0 < n ∧ s.lz.winPos.toNat + n = s.lz.winSize.toNat ∧ ∃ src',
          t = { s with lz := { s.lz.wrote n w with phase := .flush s.lz.streamPos.toNat (.copy (rem - n) src') } }))
  | 0, src, s, t, h => by
    obtain ⟨b, hb, rfl⟩ := endCopy_next h
    exact ⟨0, s.lz.window, le_rfl, s.lz.outPos.isLt, id, .inl ⟨rfl, by omega, b, by rw [wrote_zero]; exact hb, by rw [wrote_zero]⟩⟩
  | rem + 1, src, s, t, h => by
    rw [copyRun] at h
    split at h
    · cases h
    · next b hb =>
      obtain ⟨hw, ho, h⟩ := appendByte_next h
      have hwp := appended_winPos b hw
      have hop := appended_outPos b ho
      have hlt := (appended b s).lz.outPos.isLt
      have hwf : Memory.wf s.lz.window = true → Memory.wf (appended b s).lz.window = true :=
        sparseSet_wf _ _ _ 0 _ (Nat.zero_le _)
      split at h
      · next hend =>
        cases h
        have he : s.lz.winPos.toNat + 1 = s.lz.winSize.toNat := by rw [← hwp, hend]; rfl
        have e := appended_wrote b s 0 (appended b s).lz.window
        rw [wrote_zero] at e
        refine ⟨1, (appended b s).lz.window, by omega, by omega, hwf, .inr ⟨by omega, he, copySource src s + 1, ?_⟩⟩
        rw [← e]; rfl
      · next hend =>
        have hne : s.lz.winPos.toNat + 1 ≠ s.lz.winSize.toNat := by
          intro e; apply hend; apply BitVec.eq_of_toNat_eq; rw [hwp, e]; rfl
        obtain ⟨n, w, hn, hov, hwf', hcase⟩ := copyRun_next rem _ h
        refine ⟨n + 1, w, by omega, by omega, fun hm => hwf' (hwf hm), ?_⟩
        rw [hwp, appended_wrote, appended_state] at hcase
        rcases hcase with ⟨rfl, hlt', c, hc, rfl⟩ | ⟨h0, hfit, src', rfl⟩
        · refine .inl ⟨rfl, fun _ => ?_, c, hc, rfl⟩
          by_cases hr : 0 < n
          · have := hlt' hr; simp only [appended_lz] at this; omega
          · omega
        · refine .inr ⟨by omega, by simp only [appended_lz] at hfit; omega, src', ?_⟩
          rw [show rem + 1 - (n + 1) = rem - n by omega]; rfl

/-- A copy packet raises by the checks of R211 and R212, or copies (R219). -/
theorem copyStep_next {len : Nat} {s t : State} (h : copyStep len s = .next t) :
    (distanceOk s.lz = false ∧ t = raise .lzma .corruptCompressedStream s) ∨
      (distanceOk s.lz = true ∧ sizeOk len s.lz = false ∧ t = raise .lzma .sizeMismatch s) ∨
        (distanceOk s.lz = true ∧ sizeOk len s.lz = true ∧ 0 ≤ backIndex s.lz.rep0 s ∧
          copyRun len (backIndex s.lz.rep0 s).toNat s = .next t) := by
  unfold copyStep at h
  split at h
  · next hd =>
    split at h
    · next hs =>
      unfold copyBlock at h
      split at h
      · cases h
      · next hb => exact .inr (.inr ⟨hd, hs, not_lt.1 hb, h⟩)
    · next hs => cases h; exact .inr (.inl ⟨hd, by simpa using hs, rfl⟩)
  · next hd => cases h; exact .inl ⟨by simpa using hd, rfl⟩

/-- A literal is written, with the rest of its packet at once or after a flush (R207, R251). -/
theorem putLiteral_next {b : Byte} {s t : State} (h : putLiteral b s = .next t) :
    s.lz.winPos.toNat < s.lz.winSize.toNat ∧ s.lz.outPos ≠ BitVec.allOnes 64 ∧
      ((s.lz.winPos.toNat + 1 = s.lz.winSize.toNat ∧ t = beginFlush (.lit b) (appended b s)) ∨
        (s.lz.winPos.toNat + 1 < s.lz.winSize.toNat ∧ t = endLit b (appended b s))) := by
  obtain ⟨hw, ho, h⟩ := appendByte_next h
  have hwp := appended_winPos b hw
  refine ⟨hw, ho, ?_⟩
  split at h
  · next he => cases h; exact .inl ⟨by rw [← hwp, he]; rfl, rfl⟩
  · next he =>
    cases h
    have : s.lz.winPos.toNat + 1 ≠ s.lz.winSize.toNat := by
      intro e; apply he; apply BitVec.eq_of_toNat_eq; rw [hwp, e]; rfl
    exact .inr ⟨by omega, rfl⟩

/-- A turn inside a flush (R253). -/
theorem flushTurn_next {j : Nat} {c : FlushCont} {s t : State} (h : flushTurn j c s = .next t) :
    (j < s.lz.winPos.toNat ∧ j < s.lz.winSize.toNat ∧
        t = { s with lz := { s.lz with dout := some (sparseGet windowDefault s.lz.window j), phase := .flush (j + 1) c } }) ∨
      (s.lz.winPos.toNat ≤ j ∧ afterFlush c (endFlush s) = .next t) := by
  unfold flushTurn at h
  split at h
  · next hj =>
    split at h
    · next b hb =>
      unfold memRead at hb
      split at hb
      · next hs => cases hb; cases h; exact .inl ⟨hj, hs, rfl⟩
      · cases hb
    · cases h
  · next hj => exact .inr ⟨by omega, h⟩

end Sys2Proof.Machine
end

