-- ==== Sys2Proof/Laws/Step.lean ====
section
/-! SUPPORT. What a turn and a step can do, said once: the inversions that the invariants' proofs cite. -/

namespace Sys2Proof.Machine

/-! ### The meaning of a packet -/

/-- A copy packet is its own update of the distances and the state, then `CopyStep` (R219, R223). -/
theorem exec_copy {i : Instr} {len : Nat} {z : Lzma} {s : State} (h : copyOperands i s.lz = some (len, z)) :
    exec i s = copyStep len { s with lz := z } := by
  cases i <;> simp only [copyOperands, Option.some.injEq, Prod.mk.injEq, reduceCtorEq] at h <;> obtain ⟨rfl, rfl⟩ := h <;> rfl

/-- A copy packet's own update touches the distances and the state only. -/
theorem copyOperands_updates {i : Instr} {len : Nat} {y z : Lzma} (h : copyOperands i y = some (len, z)) :
    z = { y with rep0 := z.rep0, rep1 := z.rep1, rep2 := z.rep2, rep3 := z.rep3, state := z.state } := by
  cases i <;> simp only [copyOperands, Option.some.injEq, Prod.mk.injEq, reduceCtorEq] at h <;> obtain ⟨rfl, rfl⟩ := h <;> rfl

theorem matchNext_value (st : LzState) : 7 ≤ (matchNext st).value := by cases st <;> decide
theorem repNext_value (st : LzState) : 7 ≤ (repNext st).value := by cases st <;> decide
theorem shortRepNext_value (st : LzState) : 7 ≤ (shortRepNext st).value := by cases st <;> decide

/-- A copy packet leaves the automaton in a non-literal state (R202). -/
theorem copyOperands_state {i : Instr} {len : Nat} {y z : Lzma} (h : copyOperands i y = some (len, z)) : 7 ≤ z.state.value := by
  cases i <;> simp only [copyOperands, Option.some.injEq, Prod.mk.injEq, reduceCtorEq] at h <;> obtain ⟨rfl, rfl⟩ := h <;>
    dsimp only <;> first | exact matchNext_value _ | exact repNext_value _ | exact shortRepNext_value _

/-- A literal leaves it in a literal state. -/
theorem litNext_value (st : LzState) : (litNext st).value < 7 := by cases st <;> decide

/-- The end marker raises, or goes to the final flush (R209, R213). -/
theorem execEos_next {len : Nat} {s t : State} (h : exec (.eos len) s = .next t) :
    (s.lz.sizeKnown = true ∧ s.lz.outPos ≠ s.lz.usize ∧
        t = raise .lzma .sizeMismatch { s with lz := { s.lz with eos := true } }) ∨
      ((s.lz.sizeKnown = true → s.lz.outPos = s.lz.usize) ∧
        t = beginFlush .finish { s with lz := { s.lz with eos := true } }) := by
  simp only [exec, execEos] at h
  split at h
  · next hc =>
    simp only [Bool.and_eq_true, decide_eq_true_eq] at hc
    cases h; exact .inl ⟨hc.1, hc.2, rfl⟩
  · next hc =>
    simp only [Bool.and_eq_true, decide_eq_true_eq, not_and, not_not] at hc
    cases h; exact .inr ⟨hc, rfl⟩

/-- A packet is a literal, an end marker or a copy. -/
theorem packet_cases {i : Instr} (h : isPacket i = true) (y : Lzma) :
    (∃ b, i = .lit b) ∨ (∃ len, i = .eos len) ∨ ∃ len z, copyOperands i y = some (len, z) := by
  cases i with
  | lit b => exact .inl ⟨b, rfl⟩
  | eos len => exact .inr (.inl ⟨len, rfl⟩)
  | newMatch len dist => exact .inr (.inr ⟨_, _, rfl⟩)
  | shortRep => exact .inr (.inr ⟨_, _, rfl⟩)
  | rep0 len => exact .inr (.inr ⟨_, _, rfl⟩)
  | rep1 len => exact .inr (.inr ⟨_, _, rfl⟩)
  | rep2 len => exact .inr (.inr ⟨_, _, rfl⟩)
  | rep3 len => exact .inr (.inr ⟨_, _, rfl⟩)
  | startLzma => cases h
  | startParse => cases h
  | clearLzma => cases h
  | clearParse => cases h

/-! ### A turn inside a packet -/

/-- A turn inside a packet performs it, or decodes one more bit, or raises (R200). -/
theorem packetTurn_next {bits : List Bool} {s t : State} (h : packetTurn bits s = some (.next t)) :
    (∃ i r, (packetDecode (ctxOf s)).walk bits = (.done i, r) ∧ exec i s = .next t) ∨
      (∃ q b u, answer q s = .ok b u ∧ t = toPhase (.packet (bits ++ [b])) u) ∨
        ∃ q e u, answer q s = .raised e u ∧ t = raise .lzma e { u with lz := rotateEarly bits u.lz } := by
  unfold packetTurn at h
  split at h
  · next i r hw => exact .inl ⟨i, r, hw, by simpa using h⟩
  · simp at h
  · next q k r hw =>
    split at h
    · next b u hu => exact .inr (.inl ⟨q, b, u, hu, by simpa using h.symm⟩)
    · cases h
    · next e u hu => exact .inr (.inr ⟨q, e, u, hu, by simpa using h.symm⟩)
    · simp at h
    · simp at h

/-! ### A turn of the LZMA engine -/

/-- A next state of a turn that takes one byte: the byte is taken, or the error is raised. -/
theorem readTurn_next {k : Byte → State → Out} {s t : State} (h : (readIn s).turn .lzma k = some (.next t)) :
    (∃ b u, readIn s = .ok b u ∧ k b u = .next t) ∨ (s.lz.inEnded = true ∧ t = raise .lzma .prematureEndOfInput s) := by
  cases hr : readIn s with
  | ok b u => rw [hr] at h; simp only [Res.turn, Option.some.injEq] at h; exact .inl ⟨b, u, rfl, h⟩
  | wait => rw [hr] at h; cases h
  | raised e u =>
    rw [hr] at h
    obtain ⟨rfl, rfl, he⟩ := readIn_raised hr
    simp only [Res.turn, Option.some.injEq, Host.Outcome.next.injEq] at h
    exact .inr ⟨he, h.symm⟩
  | fault f => rw [hr] at h; simp [Res.turn] at h
  | refused f => rw [hr] at h; simp [Res.turn] at h

/-- What a turn of the LZMA engine does when it goes on, by its control point. -/
theorem lzmaTurn_next {s t : State} (h : lzmaTurn s = some (.next t)) :
    s.lz.busy = true ∧ s.lz.dout = none ∧
      ((s.lz.phase = .hdrProps ∧ ∃ d u, readIn s = .ok d u ∧ t = toPhase (.hdrDict d 0 0) u) ∨
        (∃ d k ds, s.lz.phase = .hdrDict d k ds ∧ ∃ b u, readIn s = .ok b u ∧ t = dictByte d k ds b u) ∨
        (∃ k v, s.lz.phase = .hdrSize k v ∧ ∃ b u, readIn s = .ok b u ∧ t = sizeByte k v b u) ∨
        (s.lz.phase = .rcFirst ∧ ∃ b u, readIn s = .ok b u ∧ t = toPhase (.rcCode 0 0) u) ∨
        (∃ k c, s.lz.phase = .rcCode k c ∧ ∃ b u, readIn s = .ok b u ∧ t = codeByte k c b u) ∨
        (s.lz.phase ≠ .idle ∧ inLoop s.lz.phase = false ∧ s.lz.inEnded = true ∧ t = raise .lzma .prematureEndOfInput s) ∨
        (s.lz.phase = .loopTop ∧ t = loopTest s) ∨
        (∃ bits, s.lz.phase = .packet bits ∧ packetTurn bits s = some (.next t)) ∨
        (∃ j c, s.lz.phase = .flush j c ∧ flushTurn j c s = .next t)) := by
  unfold lzmaTurn at h
  split at h
  · next hb =>
    simp only [Bool.and_eq_true, Option.isNone_iff_eq_none] at hb
    refine ⟨hb.1, hb.2, ?_⟩
    split at h
    · cases h
    · next hp =>
      rcases readTurn_next h with ⟨b, u, hr, ht⟩ | ⟨he, ht⟩
      · cases ht; exact .inl ⟨hp, b, u, hr, rfl⟩
      · exact .inr (.inr (.inr (.inr (.inr (.inl ⟨by simp [hp], by simp [hp, inLoop], he, ht⟩)))))
    · next d k ds hp =>
      rcases readTurn_next h with ⟨b, u, hr, ht⟩ | ⟨he, ht⟩
      · cases ht; exact .inr (.inl ⟨d, k, ds, hp, b, u, hr, rfl⟩)
      · exact .inr (.inr (.inr (.inr (.inr (.inl ⟨by simp [hp], by simp [hp, inLoop], he, ht⟩)))))
    · next k v hp =>
      rcases readTurn_next h with ⟨b, u, hr, ht⟩ | ⟨he, ht⟩
      · cases ht; exact .inr (.inr (.inl ⟨k, v, hp, b, u, hr, rfl⟩))
      · exact .inr (.inr (.inr (.inr (.inr (.inl ⟨by simp [hp], by simp [hp, inLoop], he, ht⟩)))))
    · next hp =>
      rcases readTurn_next h with ⟨b, u, hr, ht⟩ | ⟨he, ht⟩
      · cases ht; exact .inr (.inr (.inr (.inl ⟨hp, b, u, hr, rfl⟩)))
      · exact .inr (.inr (.inr (.inr (.inr (.inl ⟨by simp [hp], by simp [hp, inLoop], he, ht⟩)))))
    · next k c hp =>
      rcases readTurn_next h with ⟨b, u, hr, ht⟩ | ⟨he, ht⟩
      · cases ht; exact .inr (.inr (.inr (.inr (.inl ⟨k, c, hp, b, u, hr, rfl⟩))))
      · exact .inr (.inr (.inr (.inr (.inr (.inl ⟨by simp [hp], by simp [hp, inLoop], he, ht⟩)))))
    · next hp =>
      simp only [Option.some.injEq, Host.Outcome.next.injEq] at h
      exact .inr (.inr (.inr (.inr (.inr (.inr (.inl ⟨hp, h.symm⟩))))))
    · next bits hp => exact .inr (.inr (.inr (.inr (.inr (.inr (.inr (.inl ⟨bits, hp, h⟩)))))))
    · next j c hp =>
      simp only [Option.some.injEq] at h
      exact .inr (.inr (.inr (.inr (.inr (.inr (.inr (.inr ⟨j, c, hp, h⟩)))))))
  · cases h

/-! ### A turn of the parser engine -/

/-- A turn inside a field: one more bit, a raise, or the field is complete. -/
theorem fieldTurn_next {f : PField} {k : Nat} {v : Word} {s t : State} (h : fieldTurn f k v s = some (.next t)) :
    (k < fieldWidth s.ps f ∧ ∃ b u, pReadBit s = .ok b u ∧
        t = toPPhase (.field f (k + 1) ((v <<< 1) ||| BitVec.ofNat 32 b.toNat)) u) ∨
      (k < fieldWidth s.ps f ∧ t = raise .parser .prematureEndOfInput s) ∨
        (fieldWidth s.ps f ≤ k ∧ t = fieldDone f v s) := by
  unfold fieldTurn at h
  split at h
  · next hk =>
    cases hr : pReadBit s with
    | ok b u =>
      rw [hr] at h
      simp only [Res.turn, Option.some.injEq, Host.Outcome.next.injEq] at h
      exact .inl ⟨hk, b, u, rfl, h.symm⟩
    | wait => rw [hr] at h; cases h
    | raised e u =>
      rw [hr] at h
      obtain ⟨rfl, rfl⟩ := pReadBit_raised hr
      simp only [Res.turn, Option.some.injEq, Host.Outcome.next.injEq] at h
      exact .inr (.inl ⟨hk, h.symm⟩)
    | fault f => rw [hr] at h; simp [Res.turn] at h
    | refused f => rw [hr] at h; simp [Res.turn] at h
  · next hk =>
    simp only [Option.some.injEq, Host.Outcome.next.injEq] at h
    exact .inr (.inr ⟨by omega, h.symm⟩)

/-- What a turn of the parser engine does when it goes on, by its control point. -/
theorem parserTurn_next {s t : State} (h : parserTurn s = some (.next t)) :
    s.ps.busy = true ∧ parserPortsFree s.ps = true ∧
      ((∃ f k v, s.ps.phase = .field f k v ∧ fieldTurn f k v s = some (.next t)) ∨
        (s.ps.phase = .tempNext ∧ t = nextTemperature (bumpIndex s)) ∨
        (∃ md ti, s.ps.phase = .binHold md ti ∧ t = nextBin (bumpIndex (holdBin md ti s))) ∨
        (s.ps.phase = .binsEnd ∧ t = startLocations s) ∨
        (∃ la lo bi, s.ps.phase = .locHold la lo bi ∧ t = nextLocation (bumpIndex (holdLocation la lo bi s))) ∨
        (s.ps.phase = .locsEnd ∧ t = endParse s)) := by
  unfold parserTurn at h
  split at h
  · next hb =>
    simp only [Bool.and_eq_true] at hb
    refine ⟨hb.1, hb.2, ?_⟩
    split at h
    · cases h
    · next f k v hp => exact .inl ⟨f, k, v, hp, h⟩
    · next hp =>
      simp only [Option.some.injEq, Host.Outcome.next.injEq] at h
      exact .inr (.inl ⟨hp, h.symm⟩)
    · next md ti hp =>
      simp only [Option.some.injEq, Host.Outcome.next.injEq] at h
      exact .inr (.inr (.inl ⟨md, ti, hp, h.symm⟩))
    · next hp =>
      simp only [Option.some.injEq, Host.Outcome.next.injEq] at h
      exact .inr (.inr (.inr (.inl ⟨hp, h.symm⟩)))
    · next la lo bi hp =>
      simp only [Option.some.injEq, Host.Outcome.next.injEq] at h
      exact .inr (.inr (.inr (.inr (.inl ⟨la, lo, bi, hp, h.symm⟩))))
    · next hp =>
      simp only [Option.some.injEq, Host.Outcome.next.injEq] at h
      exact .inr (.inr (.inr (.inr (.inr ⟨hp, h.symm⟩))))
  · cases h

/-! ### What a turn leaves alone (R21) -/

/-- Only the LZMA engine and the bytes offered on `cin` differ. -/
def LzmaOnly (s t : State) : Prop := t = { s with lz := t.lz, host := { s.host with cin := t.host.cin } }

/-- Only the parser engine, the bytes offered on `pin` and the count of free values differ. -/
def ParserOnly (s t : State) : Prop :=
  t = { s with ps := t.ps, host := { s.host with pin := t.host.pin }, nanCount := t.nanCount }

theorem LzmaOnly.of_lz (s : State) (z : Lzma) : LzmaOnly s { s with lz := z } := rfl

theorem LzmaOnly.trans {s t u : State} (h : LzmaOnly s t) (k : LzmaOnly t u) : LzmaOnly s u := by
  unfold LzmaOnly at *; rw [k, h]

theorem ParserOnly.trans {s t u : State} (h : ParserOnly s t) (k : ParserOnly t u) : ParserOnly s u := by
  unfold ParserOnly at *; rw [k, h]

theorem readIn_lzmaOnly {s t : State} {b : Byte} (h : readIn s = .ok b t) : LzmaOnly s t := by
  obtain ⟨last, rest, _, _, _, rfl⟩ := readIn_ok h; rfl

theorem decoderStep_lzmaOnly {s t : State} (h : DecoderStep s t) : LzmaOnly s t := by
  unfold DecoderStep at h; unfold LzmaOnly; rw [h]

theorem copyRun_lzmaOnly {rem src : Nat} {s t : State} (h : copyRun rem src s = .next t) : LzmaOnly s t := by
  obtain ⟨n, w, _, _, _, ⟨_, _, b, _, rfl⟩ | ⟨_, _, src', rfl⟩⟩ := copyRun_next rem src h <;> rfl

theorem copyStep_lzmaOnly {len : Nat} {s t : State} (h : copyStep len s = .next t) : LzmaOnly s t := by
  rcases copyStep_next h with ⟨_, rfl⟩ | ⟨_, _, rfl⟩ | ⟨_, _, _, h⟩
  · rfl
  · rfl
  · exact copyRun_lzmaOnly h

theorem packet_lzmaOnly {i : Instr} (hi : isPacket i = true) {s t : State} (h : exec i s = .next t) : LzmaOnly s t := by
  rcases packet_cases hi s.lz with ⟨b, rfl⟩ | ⟨len, rfl⟩ | ⟨len, z, hz⟩
  · obtain ⟨_, _, ⟨_, rfl⟩ | ⟨_, rfl⟩⟩ := putLiteral_next h <;> rfl
  · rcases execEos_next h with ⟨_, _, rfl⟩ | ⟨_, rfl⟩ <;> rfl
  · rw [exec_copy hz] at h
    exact LzmaOnly.trans (LzmaOnly.of_lz s z) (copyStep_lzmaOnly h)

theorem afterFlush_lzmaOnly {c : FlushCont} {s t : State} (h : afterFlush c s = .next t) : LzmaOnly s t := by
  cases c with
  | lit b => cases h; rfl
  | copy rem src => exact copyRun_lzmaOnly h
  | finish => cases h; rfl

theorem headerCheck_lzmaOnly (d : Byte) (s : State) : LzmaOnly s (headerCheck d s) := by
  unfold headerCheck
  split
  · rfl
  · split
    · rfl
    · split
      · rfl
      · unfold headerAccept; split <;> rfl

/-- A turn of the LZMA engine leaves everything but the engine and `cin` (R21). -/
theorem lzmaTurn_lzmaOnly {s t : State} (h : lzmaTurn s = some (.next t)) : LzmaOnly s t := by
  obtain ⟨_, _, ⟨_, d, u, hr, rfl⟩ | ⟨d, k, ds, _, b, u, hr, rfl⟩ | ⟨k, v, _, b, u, hr, rfl⟩ | ⟨_, b, u, hr, rfl⟩ |
    ⟨k, c, _, b, u, hr, rfl⟩ | ⟨_, _, _, rfl⟩ | ⟨_, rfl⟩ | ⟨bits, _, hp⟩ | ⟨j, c, _, hf⟩⟩ := lzmaTurn_next h
  · exact (readIn_lzmaOnly hr).trans rfl
  · refine (readIn_lzmaOnly hr).trans ?_
    unfold dictByte; split
    · rfl
    · exact LzmaOnly.trans (t := headerValues d _ u) rfl (headerCheck_lzmaOnly _ _)
  · refine (readIn_lzmaOnly hr).trans ?_
    unfold sizeByte; split <;> rfl
  · exact (readIn_lzmaOnly hr).trans rfl
  · refine (readIn_lzmaOnly hr).trans ?_
    unfold codeByte; split <;> rfl
  · rfl
  · unfold loopTest; split <;> rfl
  · rcases packetTurn_next hp with ⟨i, r, hw, he⟩ | ⟨q, b, u, ha, rfl⟩ | ⟨q, e, u, ha, rfl⟩
    · exact packet_lzmaOnly (packet_of_walk hw).1 he
    · exact (decoderStep_lzmaOnly (answer_ok ha)).trans rfl
    · exact (decoderStep_lzmaOnly (answer_raised ha).2).trans rfl
  · rcases flushTurn_next hf with ⟨_, _, rfl⟩ | ⟨_, h⟩
    · rfl
    · exact LzmaOnly.trans (t := endFlush s) rfl (afterFlush_lzmaOnly h)

theorem nextLocation_parserOnly (s : State) : ParserOnly s (nextLocation s) := by
  unfold nextLocation; split
  · rfl
  · split <;> rfl

theorem nextBin_parserOnly (s : State) : ParserOnly s (nextBin s) := by
  unfold nextBin; split
  · rfl
  · split <;> rfl

theorem nextTemperature_parserOnly (s : State) : ParserOnly s (nextTemperature s) := by
  unfold nextTemperature startBins; split
  · rfl
  · exact ParserOnly.trans (t := { s with ps := { s.ps with heldBinValid := false, pI := 0 } }) rfl (nextBin_parserOnly _)

theorem fieldDone_parserOnly (f : PField) (v : Word) (s : State) : ParserOnly s (fieldDone f v s) := by
  cases f <;> unfold fieldDone <;> dsimp only
  case magic k => split; · split <;> rfl
                  · rfl
  case version => split <;> rfl
  case bcBinIndex =>
    unfold checkWidths; split
    · rfl
    · exact ParserOnly.trans (t := { s with ps := { s.ps with bcBinIndex := v.setWidth 8, hdrValid := true, pI := 0 } }) rfl
        (nextTemperature_parserOnly _)
  case tempCode => unfold offerTemperature; split <;> rfl
  case binTempIndex md => unfold offerBin; split <;> rfl
  case locBinIndex la lo => unfold offerLocation; split <;> rfl
  all_goals rfl

theorem cursorStep_parserOnly {s t : State} (h : CursorStep s t) : ParserOnly s t := by
  unfold CursorStep at h; unfold ParserOnly; rw [h]

/-- A turn of the parser engine leaves everything but the engine, `pin` and the count of free values (R21, R293). -/
theorem parserTurn_parserOnly {s t : State} (h : parserTurn s = some (.next t)) : ParserOnly s t := by
  obtain ⟨_, _, ⟨f, k, v, _, hf⟩ | ⟨_, rfl⟩ | ⟨md, ti, _, rfl⟩ | ⟨_, rfl⟩ | ⟨la, lo, bi, _, rfl⟩ | ⟨_, rfl⟩⟩ := parserTurn_next h
  · rcases fieldTurn_next hf with ⟨_, b, u, hb, rfl⟩ | ⟨_, rfl⟩ | ⟨_, rfl⟩
    · exact (cursorStep_parserOnly (pReadBit_ok hb).2).trans rfl
    · rfl
    · exact fieldDone_parserOnly f v s
  · exact ParserOnly.trans (t := bumpIndex s) rfl (nextTemperature_parserOnly _)
  · exact ParserOnly.trans (t := bumpIndex (holdBin md ti s)) rfl (nextBin_parserOnly _)
  · exact ParserOnly.trans (t := { s with ps := { s.ps with heldLocValid := false, pI := 0 } }) rfl (nextLocation_parserOnly _)
  · exact ParserOnly.trans (t := bumpIndex (holdLocation la lo bi s)) rfl (nextLocation_parserOnly _)
  · rfl

/-! ### A step -/

/-- A property of the block alone: the host's own side does not matter to it. -/
def IgnoresHost (P : State → Prop) : Prop := ∀ s h, P s → P { s with host := h }

/-- Commands one after another keep what each command keeps. -/
theorem runCommands_kept {P : State → Prop} {is : List Instr} (hall : ∀ i ∈ is, isPacket i = false)
    (hc : ∀ i s t, isPacket i = false → P s → exec i s = .next t → P t) :
    ∀ {s t : State}, P s → runCommands is s = .next t → P t := by
  induction is with
  | nil => intro s t hp h; cases h; exact hp
  | cons i is ih =>
    intro s t hp h
    rw [runCommands] at h
    cases he : exec i s with
    | next u =>
      rw [he] at h
      exact ih (fun j hj => hall j (List.mem_cons_of_mem _ hj)) (hc i s u (hall i List.mem_cons_self) hp he) h
    | fault f => rw [he] at h; cases h
    | refused f => rw [he] at h; cases h

theorem decodeCommands_isPacket (v : Word) : ∀ i ∈ decodeCommands v, isPacket i = false := by
  intro i hi
  simp only [decodeCommands, List.mem_append] at hi
  rcases hi with ((hi | hi) | hi) | hi <;> split at hi <;> simp at hi <;> subst hi <;> rfl

/-- An invariant of the block: it is enough to look at a turn of each engine, a command, a CTRL write, a taken item and reset. -/
theorem kept_by_turns {P : State → Prop} (hh : IgnoresHost P)
    (hl : ∀ s t, P s → lzmaTurn s = some (.next t) → P t)
    (hp : ∀ s t, P s → parserTurn s = some (.next t) → P t)
    (hc : ∀ i s t, isPacket i = false → P s → exec i s = .next t → P t)
    (hctrl : ∀ s c, P s → P { s with ctrl := c })
    (hd : ∀ s, P s → P { s with lz := { s.lz with dout := none } })
    (ht : ∀ s, P s → P { s with ps := { s.ps with tempOut := none } })
    (hb : ∀ s, P s → P { s with ps := { s.ps with binOut := none } })
    (hlo : ∀ s, P s → P { s with ps := { s.ps with locOut := none } })
    (hr : ∀ s, P s → P (resetBlock s)) : KeptByStep P := by
  have hd' : ∀ s, P s → P (takeDout s) := by
    intro s hs; unfold takeDout; split
    · exact hh _ _ (hd s hs)
    · exact hs
  have ht' : ∀ s, P s → P (takeTemp s) := by
    intro s hs; unfold takeTemp; split
    · exact hh _ _ (ht s hs)
    · exact hs
  have hb' : ∀ s, P s → P (takeBin s) := by
    intro s hs; unfold takeBin; split
    · exact hh _ _ (hb s hs)
    · exact hs
  have hlo' : ∀ s, P s → P (takeLoc s) := by
    intro s hs; unfold takeLoc; split
    · exact hh _ _ (hlo s hs)
    · exact hs
  have hl' : ∀ s t, P s → (lzmaTurn s).getD (.next s) = .next t → P t := by
    intro s t hs h
    cases he : lzmaTurn s with
    | none => rw [he] at h; cases h; exact hs
    | some o => rw [he] at h; simp only [Option.getD_some] at h; subst h; exact hl s t hs he
  have hp' : ∀ s t, P s → (parserTurn s).getD (.next s) = .next t → P t := by
    intro s t hs h
    cases he : parserTurn s with
    | none => rw [he] at h; cases h; exact hs
    | some o => rw [he] at h; simp only [Option.getD_some] at h; subst h; exact hp s t hs he
  intro s hs t h
  unfold step anyTurn at h
  split at h
  · unfold autoTurn at h
    split at h
    · cases h; exact hlo' _ (hb' _ (ht' _ (hd' _ hs)))
    · cases he : lzmaTurn s with
      | none => rw [he] at h; exact hp' s t hs h
      | some o => rw [he] at h; simp only [Option.getD_some] at h; subst h; exact hl s t hs he
  · next turn rest _ =>
    have hs' := hh s { s.host with schedule := rest } hs
    generalize ({ s with host := { s.host with schedule := rest } } : State) = u at h hs'
    cases turn with
    | host a =>
      cases a with
      | csrWrite off v =>
        simp only [runTurn, hostTurn, csrWrite] at h
        split at h
        · cases h; exact hctrl _ _ hs'
        · exact runCommands_kept (decodeCommands_isPacket v) hc hs' h
        · cases h; exact hs'
      | csrRead off => cases h; exact hh _ _ hs'
      | offerCin b l => cases h; exact hh _ _ hs'
      | offerPin b l => cases h; exact hh _ _ hs'
      | withdrawCin => cases h; exact hh _ _ hs'
      | withdrawPin => cases h; exact hh _ _ hs'
      | takeDout => cases h; exact hd' _ hs'
      | takeTemp => cases h; exact ht' _ hs'
      | takeBin => cases h; exact hb' _ hs'
      | takeLoc => cases h; exact hlo' _ hs'
      | rst => cases h; exact hr _ hs'
    | lzma => exact hl' _ _ hs' h
    | parser => exact hp' _ _ hs' h

/-- A command either is START_LZMA, or leaves the LZMA engine alone, or clears its status bits. -/
theorem command_lz {i : Instr} (hi : isPacket i = false) {s t : State} (h : exec i s = .next t) :
    i = .startLzma ∨ t.lz = s.lz ∨
      (s.lz.busy = false ∧ t.lz = { s.lz with done := false, eosFlag := false, err := none }) := by
  cases i with
  | startLzma => exact .inl rfl
  | startParse => simp only [exec, execStartParse] at h; split at h <;> cases h <;> exact .inr (.inl rfl)
  | clearLzma =>
    simp only [exec, execClearLzma] at h
    split at h
    · cases h; exact .inr (.inl rfl)
    · next hb => cases h; exact .inr (.inr ⟨by simpa using hb, rfl⟩)
  | clearParse => simp only [exec, execClearParse] at h; split at h <;> cases h <;> exact .inr (.inl rfl)
  | _ => cases hi

/-- A command either is START_PARSE, or leaves the parser engine alone, or clears its status bits. -/
theorem command_ps {i : Instr} (hi : isPacket i = false) {s t : State} (h : exec i s = .next t) :
    i = .startParse ∨ t.ps = s.ps ∨ (s.ps.busy = false ∧ t.ps = { s.ps with done := false, err := none }) := by
  cases i with
  | startLzma => simp only [exec, execStartLzma] at h; split at h <;> cases h <;> exact .inr (.inl rfl)
  | startParse => exact .inl rfl
  | clearLzma => simp only [exec, execClearLzma] at h; split at h <;> cases h <;> exact .inr (.inl rfl)
  | clearParse =>
    simp only [exec, execClearParse] at h
    split at h
    · cases h; exact .inr (.inl rfl)
    · next hb => cases h; exact .inr (.inr ⟨by simpa using hb, rfl⟩)
  | _ => cases hi

/-- An invariant of the LZMA engine's own state. -/
theorem kept_of_lzma {P : Lzma → Prop} (hl : ∀ s t, P s.lz → lzmaTurn s = some (.next t) → P t.lz)
    (hstart : ∀ s t, P s.lz → exec .startLzma s = .next t → P t.lz)
    (hclear : ∀ z, P z → z.busy = false → P { z with done := false, eosFlag := false, err := none })
    (hd : ∀ z, P z → P { z with dout := none }) (hr : ∀ z, P z → P (Lzma.resetWith z.prob z.window)) :
    KeptByStep (fun s => P s.lz) := by
  refine kept_by_turns (P := fun s => P s.lz) (fun _ _ h => h) hl ?_ ?_ (fun _ _ h => h) (fun s h => hd _ h) (fun _ h => h)
    (fun _ h => h) (fun _ h => h) (fun s h => hr _ h)
  · intro s t hs h
    have := parserTurn_parserOnly h
    unfold ParserOnly at this
    rw [this]; exact hs
  · intro i s t hi hs h
    rcases command_lz hi h with rfl | e | ⟨hb, e⟩
    · exact hstart s t hs h
    · rw [e]; exact hs
    · rw [e]; exact hclear _ hs hb

/-- An invariant of the parser engine's own state. -/
theorem kept_of_parser {P : Parser → Prop} (hp : ∀ s t, P s.ps → parserTurn s = some (.next t) → P t.ps)
    (hstart : ∀ s t, P s.ps → exec .startParse s = .next t → P t.ps)
    (hclear : ∀ p, P p → p.busy = false → P { p with done := false, err := none })
    (ht : ∀ p, P p → P { p with tempOut := none }) (hb : ∀ p, P p → P { p with binOut := none })
    (hl : ∀ p, P p → P { p with locOut := none }) (hr : P Parser.reset) :
    KeptByStep (fun s => P s.ps) := by
  refine kept_by_turns (P := fun s => P s.ps) (fun _ _ h => h) ?_ hp ?_ (fun _ _ h => h) (fun _ h => h) (fun s h => ht _ h)
    (fun s h => hb _ h) (fun s h => hl _ h) (fun _ _ => hr)
  · intro s t hs h
    have := lzmaTurn_lzmaOnly h
    unfold LzmaOnly at this
    rw [this]; exact hs
  · intro i s t hi hs h
    rcases command_ps hi h with rfl | e | ⟨hb, e⟩
    · exact hstart s t hs h
    · rw [e]; exact hs
    · rw [e]; exact hclear _ hs hb

end Sys2Proof.Machine
end

