-- ==== Sys2Proof/Laws/Copy.lean ====
section
/-! SUPPORT. What a copy writes, byte by byte (43_output_window.md R252, 70_reset_and_hazards.md R380). -/

namespace Sys2Proof.Machine

/-- The remainder of a number between one and two moduli. -/
theorem mod_sub_one {a W : Nat} (h1 : W ≤ a) (h2 : a < 2 * W) : a % W = a - W := by
  rw [Nat.mod_eq_sub_mod h1, Nat.mod_eq_of_lt (by omega)]

/-- The loop of `CopyBlock` from a source `dist + 1` back copies byte by byte up to the window's end, whatever the overlap (R252). -/
theorem copyRun_copies (dist : Nat) : ∀ (rem src : Nat) (s : State), s.lz.winPos.toNat < s.lz.winSize.toNat →
    Memory.wf s.lz.window = true → dist < s.lz.winSize.toNat →
    copySource src s = (s.lz.winPos.toNat + s.lz.winSize.toNat - dist - 1) % s.lz.winSize.toNat →
    s.lz.outPos.toNat + rem < 2 ^ 64 → Copies dist rem s.lz s (copyRun rem src s)
  | 0, src, s, hlt, hwf, hd, hsrc, ho => by
    have hW := s.lz.winSize.isLt
    unfold copyRun endCopy
    have hg : getByte 0 s = some (ramByte s.lz ((s.lz.winPos.toNat + 0 + s.lz.winSize.toNat - 1) % s.lz.winSize.toNat)) := by
      unfold getByte backIndex
      rw [show ((0 : Word).toNat : Int) = 0 from rfl]
      by_cases h0 : s.lz.winPos.toNat = 0
      · rw [if_pos (show ((s.lz.winPos.toNat : Int) - 0 - 1) < 0 by omega), if_neg (by omega)]
        unfold memRead
        rw [show (s.lz.winPos.toNat + 0 + s.lz.winSize.toNat - 1) % s.lz.winSize.toNat = s.lz.winSize.toNat - 1 from by
          rw [h0, Nat.mod_eq_of_lt (by omega)]; omega]
        rw [show ((s.lz.winPos.toNat : Int) - 0 - 1 + s.lz.winSize.toNat).toNat = s.lz.winSize.toNat - 1 by omega]
        rw [if_pos (by omega)]; rfl
      · rw [if_neg (show ¬ ((s.lz.winPos.toNat : Int) - 0 - 1) < 0 by omega), if_neg (by omega)]
        unfold memRead
        rw [show (s.lz.winPos.toNat + 0 + s.lz.winSize.toNat - 1) % s.lz.winSize.toNat = s.lz.winPos.toNat - 1 from by
          rw [mod_sub_one (by omega) (by omega)]; omega]
        rw [show ((s.lz.winPos.toNat : Int) - 0 - 1).toNat = s.lz.winPos.toNat - 1 by omega]
        rw [if_pos (by omega)]; rfl
    rw [hg]
    refine ⟨s.lz.window, ?_, hwf, fun a _ => rfl, fun k hk => ?_⟩
    · unfold copiedLzma; rw [if_pos (by omega)]; simp only [ramByte]
      congr 2
      simp
    · simp [copyCount] at hk
  | rem + 1, src, s, hlt, hwf, hd, hsrc, ho => by
    have hW := s.lz.winSize.isLt
    rw [copyRun]
    have hsl : copySource src s < s.lz.winSize.toNat := by rw [hsrc]; exact Nat.mod_lt _ (by omega)
    have hm : memRead (copySource src s) s = some (ramByte s.lz (copySource src s)) := by unfold memRead; rw [if_pos hsl]; rfl
    rw [hm]
    have hne : s.lz.outPos ≠ BitVec.allOnes 64 := by
      intro e; rw [e] at ho; simp at ho; omega
    simp only [appendByte, if_pos hlt, if_neg hne]
    set b := ramByte s.lz (copySource src s) with hb
    have hwp := appended_winPos b hlt
    have hop := appended_outPos b hne
    have hwf1 : Memory.wf (appended b s).lz.window = true := sparseSet_wf _ _ _ 0 _ (Nat.zero_le _) hwf
    have hsame : sparseGet windowDefault (appended b s).lz.window s.lz.winPos.toNat = b := sparseGet_set_same _ _ _ 0 _ hwf
    have hoth : ∀ a, a ≠ s.lz.winPos.toNat → sparseGet windowDefault (appended b s).lz.window a = ramByte s.lz a :=
      fun a ha => sparseGet_set_other _ ha _ _
    have hWeq : (appended b s).lz.winSize = s.lz.winSize := rfl
    by_cases hend : (appended b s).lz.winPos = (appended b s).lz.winSize
    · rw [if_pos hend]
      have he : s.lz.winPos.toNat + 1 = s.lz.winSize.toNat := by rw [← hwp, hend]; rfl
      have hcc : copyCount (rem + 1) s.lz = 1 := by unfold copyCount; omega
      refine ⟨(appended b s).lz.window, ?_, hwf1, fun a ha => hoth a (by rw [hcc] at ha; omega), fun k hk => ?_⟩
      · unfold copiedLzma; rw [if_neg (by omega), hcc]
        have hs : (2 * s.lz.winSize.toNat - dist - 2) % s.lz.winSize.toNat = copySource src s := by
          rw [hsrc]; congr 1; omega
        rw [hs]
        simp only [beginFlush, Host.Outcome.next.injEq, appended] at hend ⊢
        rw [hend]; rfl
      · rw [hcc] at hk
        have : k = 0 := by omega
        subst this
        rw [if_neg (by omega), Nat.add_zero, hsame, hb, hsrc]; rfl
    · rw [if_neg hend]
      have hlt1 : s.lz.winPos.toNat + 1 < s.lz.winSize.toNat := by
        have : (appended b s).lz.winPos.toNat ≠ (appended b s).lz.winSize.toNat := fun e => hend (BitVec.eq_of_toNat_eq e)
        rw [hwp, hWeq] at this; omega
      have hsrc1 : copySource (copySource src s + 1) (appended b s) =
          ((appended b s).lz.winPos.toNat + (appended b s).lz.winSize.toNat - dist - 1) % (appended b s).lz.winSize.toNat := by
        rw [hwp, hWeq]
        generalize copySource src s = x at hsrc hsl
        unfold copySource
        rw [hWeq]
        rw [show s.lz.winPos.toNat + 1 + s.lz.winSize.toNat - dist - 1 = (s.lz.winPos.toNat + s.lz.winSize.toNat - dist - 1) + 1 by omega]
        rw [Nat.add_mod, Nat.mod_eq_of_lt (show 1 < s.lz.winSize.toNat by omega), ← hsrc]
        split
        · next h2 => exact (Nat.mod_eq_of_lt h2).symm
        · next h2 => rw [show x + 1 = s.lz.winSize.toNat by omega]; simp
      obtain ⟨w, ho', hw', hout, hin⟩ := copyRun_copies dist rem _ (appended b s) (by rw [hwp, hWeq]; exact hlt1) hwf1 (by rw [hWeq]; exact hd) hsrc1 (by rw [hop]; omega)
      have hcc : copyCount (rem + 1) s.lz = copyCount rem (appended b s).lz + 1 := by
        unfold copyCount; rw [hwp, hWeq]; omega
      refine ⟨w, ?_, hw', ?_, ?_⟩
      · rw [ho']
        have : copiedLzma dist rem (appended b s).lz w = copiedLzma dist (rem + 1) s.lz w := by
          unfold copiedLzma
          rw [hwp, hWeq]
          by_cases hc : s.lz.winPos.toNat + 1 + rem < s.lz.winSize.toNat
          · rw [if_pos hc, if_pos (by omega)]
            have e1 : s.lz.winPos + 1 + BitVec.ofNat 32 rem = s.lz.winPos + BitVec.ofNat 32 (rem + 1) := by
              rw [BitVec.ofNat_add, BitVec.add_assoc, BitVec.add_comm 1]; rfl
            have e2 : s.lz.outPos + 1 + BitVec.ofNat 64 rem = s.lz.outPos + BitVec.ofNat 64 (rem + 1) := by
              rw [BitVec.ofNat_add, BitVec.add_assoc, BitVec.add_comm 1]; rfl
            have e3 : s.lz.winPos.toNat + 1 + rem + s.lz.winSize.toNat - 1 = s.lz.winPos.toNat + (rem + 1) + s.lz.winSize.toNat - 1 := by omega
            simp only [appended, e1, e2, e3]
          · rw [if_neg hc, if_neg (by omega), hcc]
            have e2 : s.lz.outPos + 1 + BitVec.ofNat 64 (copyCount rem (appended b s).lz) = s.lz.outPos + BitVec.ofNat 64 (copyCount rem (appended b s).lz + 1) := by
              rw [BitVec.ofNat_add, BitVec.add_assoc, BitVec.add_comm 1]; rfl
            have e4 : rem + 1 - (copyCount rem (appended b s).lz + 1) = rem - copyCount rem (appended b s).lz := by omega
            rw [e4, ← e2]; rfl
        rw [this]; rfl
      · intro a ha
        rw [hcc] at ha
        have := hout a (by rw [hwp]; omega)
        rw [this]; exact hoth a (by omega)
      · intro k hk
        rw [hcc] at hk
        cases k with
        | zero =>
          rw [if_neg (by omega), Nat.add_zero]
          rw [hout _ (.inl (by rw [hwp]; omega))]
          show sparseGet _ _ _ = _
          rw [hsame, hb, hsrc]; rfl
        | succ k =>
          have := hin k (by omega)
          rw [hwp, hWeq] at this
          rw [show s.lz.winPos.toNat + (k + 1) = s.lz.winPos.toNat + 1 + k by omega, this]
          by_cases h1 : dist < k
          · rw [if_pos h1, if_pos (by omega)]; congr 1; omega
          · rw [if_neg h1]
            by_cases h2 : dist = k
            · rw [if_pos (by omega)]
              rw [show s.lz.winPos.toNat + (k + 1 - dist - 1) = s.lz.winPos.toNat by omega]
              rw [hout _ (.inl (by rw [hwp]; omega))]
              rw [show s.lz.winPos.toNat + 1 + s.lz.winSize.toNat + k - dist - 1 = s.lz.winPos.toNat + s.lz.winSize.toNat by omega]
              rw [Nat.add_mod_right, Nat.mod_eq_of_lt hlt]
            · rw [if_neg (by omega)]
              rw [show s.lz.winPos.toNat + 1 + s.lz.winSize.toNat + k - dist - 1 = s.lz.winPos.toNat + s.lz.winSize.toNat + (k + 1) - dist - 1 by omega]
              apply hoth
              intro e
              by_cases h3 : s.lz.winSize.toNat ≤ s.lz.winPos.toNat + s.lz.winSize.toNat + (k + 1) - dist - 1
              · rw [mod_sub_one h3 (by omega)] at e; omega
              · rw [Nat.mod_eq_of_lt (by omega)] at e; omega

/-- `CopyStep` of an accepted copy (R219). -/
theorem copyStep_copies (len : Nat) (s : State) (hr : WindowReady s.lz) (ha : CopyAccepted len s.lz) :
    Copies s.lz.rep0.toNat len s.lz s (copyStep len s) := by
  obtain ⟨hwf, hlt, hdc⟩ := hr
  obtain ⟨h1, h2, h3, h4⟩ := ha
  unfold copyStep
  rw [if_pos (by simp [distanceOk, h1, h2]), if_pos (by
    simp only [sizeOk, Bool.or_eq_true, Bool.not_eq_true', decide_eq_true_eq]
    cases hk : s.lz.sizeKnown
    · exact .inl rfl
    · exact .inr (h3 hk))]
  unfold copyBlock
  have hb : ¬ backIndex s.lz.rep0 s < 0 := by unfold backIndex; split <;> omega
  rw [if_neg hb]
  apply copyRun_copies _ _ _ _ hlt hwf (by omega) _ h4
  unfold copySource
  have : (backIndex s.lz.rep0 s).toNat = (s.lz.winPos.toNat + s.lz.winSize.toNat - s.lz.rep0.toNat - 1) % s.lz.winSize.toNat := by
    unfold backIndex
    split
    · rw [Nat.mod_eq_of_lt (by omega)]; omega
    · rw [mod_sub_one (by omega) (by omega)]; omega
  rw [this, if_pos (Nat.mod_lt _ (by omega))]

/-- Every copy packet (R208, R210, R214, R215, R217, R218). -/
theorem exec_copies (i : Instr) (len : Nat) (s : State) (z : Lzma) (h : copyOperands i s.lz = some (len, z))
    (hr : WindowReady s.lz) (ha : CopyAccepted len z) :
    Copies z.rep0.toNat len z s (exec i s) := by
  rw [exec_copy h]
  have hz := copyOperands_updates h
  have := copyStep_copies len { s with lz := z } (by rw [hz]; exact hr) ha
  exact this

end Sys2Proof.Machine
end

