-- ==== Sys2Proof/Laws/Float.lean ====
section
/-! SUPPORT. The dequantizer's arithmetic over the rational numbers: what each operation rounds to (R282, R283, R289). -/

namespace Sys2Proof.Machine

/-- The magnitude `m * 2^e`. -/
def mag (m : Nat) (e : Int) : ℚ := m * 2 ^ e

theorem apart_cast (a b : Nat) : ((apart a b : Nat) : ℚ) = |(a : ℚ) - b| := by
  unfold apart
  rcases le_total a b with h | h
  · rw [Nat.sub_eq_zero_of_le h, Nat.zero_add, Nat.cast_sub h, abs_of_nonpos (by simpa using h)]; ring
  · rw [Nat.sub_eq_zero_of_le h, Nat.add_zero, Nat.cast_sub h, abs_of_nonneg (by simpa using h)]

/-- `n / d` in units of `2^q`. -/
theorem scaleDown_spec (n d : Nat) (q : Int) (hd : 0 < d) :
    0 < (scaleDown n d q).2 ∧ ((scaleDown n d q).1 : ℚ) / (scaleDown n d q).2 = (n : ℚ) / d * 2 ^ (-q) := by
  unfold scaleDown
  have hd' : (d : ℚ) ≠ 0 := by positivity
  split
  · next h =>
    obtain ⟨k, rfl⟩ := Int.eq_ofNat_of_zero_le h
    refine ⟨by positivity, ?_⟩
    simp only [Int.toNat_natCast, Nat.cast_mul, Nat.cast_pow, Nat.cast_ofNat, zpow_neg, zpow_natCast]
    field_simp
  · next h =>
    obtain ⟨k, hk⟩ := Int.eq_ofNat_of_zero_le (show 0 ≤ -q by omega)
    refine ⟨hd, ?_⟩
    rw [hk]
    simp only [Int.toNat_natCast, Nat.cast_mul, Nat.cast_pow, Nat.cast_ofNat, zpow_natCast]
    field_simp

/-- The exponent of `n / d`. -/
theorem ratLog2_spec (n d : Nat) (hn : 0 < n) (hd : 0 < d) :
    (2 : ℚ) ^ ratLog2 n d ≤ (n : ℚ) / d ∧ (n : ℚ) / d < 2 ^ (ratLog2 n d + 1) := by
  have hd' : (0 : ℚ) < d := by positivity
  have hn1 : (2 : ℚ) ^ (n.log2 : ℤ) ≤ n := by
    rw [zpow_natCast]; exact_mod_cast Nat.log2_self_le (by omega)
  have hn2 : (n : ℚ) < 2 ^ ((n.log2 : ℤ) + 1) := by
    rw [← Nat.cast_succ, zpow_natCast]; exact_mod_cast Nat.lt_log2_self
  have hd1 : (2 : ℚ) ^ (d.log2 : ℤ) ≤ d := by
    rw [zpow_natCast]; exact_mod_cast Nat.log2_self_le (by omega)
  have hd2 : (d : ℚ) < 2 ^ ((d.log2 : ℤ) + 1) := by
    rw [← Nat.cast_succ, zpow_natCast]; exact_mod_cast Nat.lt_log2_self
  have hlo : (2 : ℚ) ^ ((n.log2 : ℤ) - d.log2 - 1) < n / d := by
    rw [lt_div_iff₀ hd']
    calc (2 : ℚ) ^ ((n.log2 : ℤ) - d.log2 - 1) * d < 2 ^ ((n.log2 : ℤ) - d.log2 - 1) * 2 ^ ((d.log2 : ℤ) + 1) :=
          mul_lt_mul_of_pos_left hd2 (by positivity)
      _ = 2 ^ (n.log2 : ℤ) := by rw [← zpow_add₀ (by norm_num)]; congr 1; ring
      _ ≤ n := hn1
  have hhi : (n : ℚ) / d < 2 ^ ((n.log2 : ℤ) - d.log2 + 1) := by
    rw [div_lt_iff₀ hd']
    calc (n : ℚ) < 2 ^ ((n.log2 : ℤ) + 1) := hn2
      _ = 2 ^ ((n.log2 : ℤ) - d.log2 + 1) * 2 ^ (d.log2 : ℤ) := by rw [← zpow_add₀ (by norm_num)]; congr 1; ring
      _ ≤ _ := mul_le_mul_of_nonneg_left hd1 (by positivity)
  obtain ⟨hD, hS⟩ := scaleDown_spec n d ((n.log2 : ℤ) - d.log2) hd
  have hD' : (0 : ℚ) < (scaleDown n d ((n.log2 : ℤ) - d.log2)).2 := by exact_mod_cast hD
  unfold ratLog2
  split
  · next h =>
    refine ⟨?_, hhi⟩
    have h1 : (1 : ℚ) ≤ (n : ℚ) / d * 2 ^ (-((n.log2 : ℤ) - d.log2)) := by
      rw [← hS, le_div_iff₀ hD', one_mul]; exact_mod_cast h
    rw [zpow_neg, ← div_eq_mul_inv, le_div_iff₀ (by positivity), one_mul] at h1
    exact h1
  · next h =>
    refine ⟨hlo.le, ?_⟩
    have h1 : (n : ℚ) / d * 2 ^ (-((n.log2 : ℤ) - d.log2)) < 1 := by
      rw [← hS, div_lt_iff₀ hD', one_mul]; exact_mod_cast (not_le.1 h)
    rw [zpow_neg, ← div_eq_mul_inv, div_lt_iff₀ (by positivity), one_mul] at h1
    rw [sub_add_cancel]; exact h1

/-- The nearest natural number, ties to even. -/
theorem roundNearestEven_spec (n d : Nat) (hd : 0 < d) (c : ℤ) :
    |(roundNearestEven n d : ℚ) - n / d| ≤ |(c : ℚ) - n / d| ∧
      (|(roundNearestEven n d : ℚ) - n / d| = |(c : ℚ) - n / d| → c = roundNearestEven n d ∨ roundNearestEven n d % 2 = 0) := by
  have hd' : (0 : ℚ) < d := by positivity
  have hdm := Nat.div_add_mod n d
  have hlt := Nat.mod_lt n hd
  set k := n / d
  set r := n % d
  have hx : (n : ℚ) / d = k + r / d := by
    rw [← hdm]; push_cast; field_simp
  have hr0 : (0 : ℚ) ≤ r / d := by positivity
  have hr1 : (r : ℚ) / d < 1 := by rw [div_lt_one hd']; exact_mod_cast hlt
  have hcase : c ≤ k ∨ (k : ℤ) + 1 ≤ c := by omega
  have hcc : (c : ℚ) ≤ k ∨ (k : ℚ) + 1 ≤ c := by
    rcases hcase with h | h
    · left; exact_mod_cast h
    · right; exact_mod_cast h
  have hce : (c : ℚ) = k → c = k := fun h => by exact_mod_cast h
  have hce1 : (c : ℚ) = k + 1 → c = k + 1 := fun h => by exact_mod_cast h
  rw [hx]
  unfold roundNearestEven
  show |(((if 2 * r < d then k else if d < 2 * r then k + 1 else if k % 2 = 0 then k else k + 1 : Nat)) : ℚ) - _| ≤ _ ∧ _
  have near : ∀ y : ℚ, y = r / d → ((2 * r < d → y < 1 / 2) ∧ (d < 2 * r → 1 / 2 < y) ∧ (2 * r = d → y = 1 / 2)) := by
    rintro y rfl
    refine ⟨fun h => ?_, fun h => ?_, fun h => ?_⟩
    · rw [div_lt_div_iff₀ hd' (by norm_num)]; have : (2 * r : ℚ) < d := by exact_mod_cast h
      linarith
    · rw [div_lt_div_iff₀ (by norm_num) hd']; have : (d : ℚ) < 2 * r := by exact_mod_cast h
      linarith
    · rw [div_eq_div_iff hd'.ne' (by norm_num)]; have : (2 * r : ℚ) = d := by exact_mod_cast h
      linarith
  obtain ⟨n1, n2, n3⟩ := near _ rfl
  generalize (r : ℚ) / d = y at *
  have habsc : |(c : ℚ) - (k + y)| = (if (c : ℚ) ≤ k then k + y - c else c - (k + y)) := by
    split
    · next h => rw [abs_of_nonpos (by linarith)]; ring
    · next h =>
      rcases hcc with h' | h'
      · exact absurd h' h
      · rw [abs_of_nonneg (by linarith)]
  have e0 : |(k : ℚ) - (k + y)| = y := by rw [abs_of_nonpos (by linarith)]; ring
  have e1 : |((k + 1 : Nat) : ℚ) - (k + y)| = 1 - y := by push_cast; rw [abs_of_nonneg (by linarith)]; ring
  rw [habsc]
  by_cases c1 : 2 * r < d
  · have := n1 c1
    rw [if_pos c1, e0]
    split
    · next h => exact ⟨by linarith, fun h' => .inl (hce (by linarith))⟩
    · next h =>
      have h' := hcc.resolve_left h
      exact ⟨by linarith, fun h'' => by linarith⟩
  · rw [if_neg c1]
    by_cases c2 : d < 2 * r
    · have := n2 c2
      rw [if_pos c2, e1]
      split
      · next h => exact ⟨by linarith, fun h' => by linarith⟩
      · next h =>
        have h' := hcc.resolve_left h
        exact ⟨by linarith, fun h'' => .inl (by push_cast; exact hce1 (by linarith))⟩
    · have := n3 (by omega)
      rw [if_neg c2]
      by_cases c3 : k % 2 = 0
      · rw [if_pos c3, e0]
        refine ⟨?_, fun _ => .inr c3⟩
        split
        · linarith
        · next h => have h' := hcc.resolve_left h; linarith
      · rw [if_neg c3, e1]
        refine ⟨?_, fun _ => .inr (by omega)⟩
        split
        · linarith
        · next h => have h' := hcc.resolve_left h; linarith

/-- Rounding to a format of `p` bits: the nearest datum, ties to even (R289). -/
theorem roundRat_spec (p : Nat) (hp : 1 ≤ p) (qmin : Int) (n d : Nat) (hn : 0 < n) (hd : 0 < d) :
    (roundRat p qmin n d).1 ≤ 2 ^ p ∧ qmin ≤ (roundRat p qmin n d).2 ∧
      ((roundRat p qmin n d).1 < 2 ^ (p - 1) → (roundRat p qmin n d).2 = qmin) ∧
      ∀ k f, k < 2 ^ p → qmin ≤ f →
        |mag (roundRat p qmin n d).1 (roundRat p qmin n d).2 - n / d| ≤ |mag k f - n / d| ∧
          (|mag (roundRat p qmin n d).1 (roundRat p qmin n d).2 - n / d| = |mag k f - n / d| →
            mag k f = mag (roundRat p qmin n d).1 (roundRat p qmin n d).2 ∨ (roundRat p qmin n d).1 % 2 = 0) := by
  obtain ⟨hl1, hl2⟩ := ratLog2_spec n d hn hd
  unfold roundRat
  set q := lastPlace p qmin n d with hq
  obtain ⟨hD, hS⟩ := scaleDown_spec n d q hd
  have hspec := roundNearestEven_spec (scaleDown n d q).1 (scaleDown n d q).2 hD
  rw [hS] at hspec
  set r := roundNearestEven (scaleDown n d q).1 (scaleDown n d q).2
  have hq1 : ratLog2 n d - (p - 1) ≤ q := le_max_left _ _
  have hq2 : qmin ≤ q := le_max_right _ _
  have hq3 : q = ratLog2 n d - (p - 1) ∨ q = qmin := by
    rcases max_choice (ratLog2 n d - ((p : ℤ) - 1)) qmin with h | h
    · left; exact h
    · right; exact h
  set x := (n : ℚ) / d
  have hpow : (0 : ℚ) < 2 ^ (-q) := by positivity
  have hpowq : (0 : ℚ) < 2 ^ q := by positivity
  have hy2 : x * 2 ^ (-q) < 2 ^ p := by
    calc x * 2 ^ (-q) < 2 ^ (ratLog2 n d + 1) * 2 ^ (-q) := mul_lt_mul_of_pos_right hl2 hpow
      _ = 2 ^ (ratLog2 n d + 1 - q) := by rw [← zpow_add₀ (by norm_num)]; rfl
      _ ≤ 2 ^ (p : ℤ) := zpow_le_zpow_right₀ (by norm_num) (by omega)
      _ = 2 ^ p := zpow_natCast _ _
  have hy1 : q = ratLog2 n d - (p - 1) → (2 : ℚ) ^ (p - 1) ≤ x * 2 ^ (-q) := by
    intro h
    calc (2 : ℚ) ^ (p - 1) = 2 ^ (ratLog2 n d - q) := by
          rw [← zpow_natCast]; congr 1; rw [h]; push_cast [hp]; ring
      _ = 2 ^ ratLog2 n d * 2 ^ (-q) := by rw [← zpow_add₀ (by norm_num)]; rfl
      _ ≤ _ := mul_le_mul_of_nonneg_right hl1 hpow.le
  have hscale : ∀ a : ℚ, |a * 2 ^ q - x| = |a - x * 2 ^ (-q)| * 2 ^ q := by
    intro a
    rw [← abs_of_pos hpowq, ← abs_mul, abs_of_pos hpowq]
    congr 1
    rw [sub_mul, mul_assoc, ← zpow_add₀ (by norm_num)]; simp
  refine ⟨?_, hq2, ?_, fun k f hk hf => ?_⟩
  · have h := (hspec (2 ^ p : ℤ)).1
    push_cast at h
    by_contra hc
    have hc : (2 : ℚ) ^ p + 1 ≤ r := by exact_mod_cast (not_le.1 hc)
    rw [abs_of_nonneg (by linarith), abs_of_nonneg (by linarith)] at h
    linarith
  · intro hr
    rcases hq3 with h | h
    · exfalso
      have h1 := hy1 h
      have h := (hspec (2 ^ (p - 1) : ℤ)).1
      push_cast at h
      have hr : (r : ℚ) + 1 ≤ 2 ^ (p - 1) := by exact_mod_cast hr
      rw [abs_of_nonpos (by linarith), abs_of_nonpos (by linarith)] at h
      linarith
    · exact h
  · show |(r : ℚ) * 2 ^ q - x| ≤ |(k : ℚ) * 2 ^ f - x| ∧ (_ → (k : ℚ) * 2 ^ f = (r : ℚ) * 2 ^ q ∨ _)
    rw [hscale]
    rcases le_or_gt q f with hqf | hqf
    · obtain ⟨j, hj⟩ := Int.eq_ofNat_of_zero_le (show 0 ≤ f - q by omega)
      have hkf : (k : ℚ) * 2 ^ f = ((k * 2 ^ j : ℤ) : ℚ) * 2 ^ q := by
        push_cast
        rw [mul_assoc, ← zpow_natCast, ← zpow_add₀ (by norm_num)]
        congr 2; omega
      obtain ⟨h1, h2⟩ := hspec (k * 2 ^ j)
      rw [hkf, hscale]
      refine ⟨mul_le_mul_of_nonneg_right h1 hpowq.le, fun h => ?_⟩
      change |(r : ℚ) * 2 ^ q - x| = |(k : ℚ) * 2 ^ f - x| at h
      rw [hkf, hscale, hscale] at h
      rcases h2 (mul_right_cancel₀ hpowq.ne' h) with h | h
      · left; rw [h]; push_cast; rfl
      · right; exact h
    · have hqe : q = ratLog2 n d - (p - 1) := by rcases hq3 with h | h <;> [exact h; omega]
      have h1 := hy1 hqe
      have h2 := (hspec (2 ^ (p - 1) : ℤ)).1
      push_cast at h2
      have hk' : (k : ℚ) * 2 ^ f < 2 ^ (p - 1) * 2 ^ q := by
        calc (k : ℚ) * 2 ^ f < 2 ^ p * 2 ^ f := mul_lt_mul_of_pos_right (by exact_mod_cast hk) (by positivity)
          _ = 2 ^ (p - 1) * 2 ^ (f + 1) := by
              rw [zpow_add₀ (by norm_num), zpow_one, show p = p - 1 + 1 by omega, pow_succ]; simp; ring
          _ ≤ _ := mul_le_mul_of_nonneg_left (zpow_le_zpow_right₀ (by norm_num) (by omega)) (by positivity)
      have hx1 : (2 : ℚ) ^ (p - 1) * 2 ^ q ≤ x := by
        calc (2 : ℚ) ^ (p - 1) * 2 ^ q ≤ x * 2 ^ (-q) * 2 ^ q := mul_le_mul_of_nonneg_right h1 hpowq.le
          _ = x := by rw [mul_assoc, ← zpow_add₀ (by norm_num)]; simp
      have key : |(r : ℚ) - x * 2 ^ (-q)| * 2 ^ q < |(k : ℚ) * 2 ^ f - x| := by
        calc |(r : ℚ) - x * 2 ^ (-q)| * 2 ^ q ≤ |(2 : ℚ) ^ (p - 1) - x * 2 ^ (-q)| * 2 ^ q :=
              mul_le_mul_of_nonneg_right h2 hpowq.le
          _ = |(2 : ℚ) ^ (p - 1) * 2 ^ q - x| := (hscale _).symm
          _ < _ := by rw [abs_of_nonpos (by linarith), abs_of_nonpos (by linarith)]; linarith
      refine ⟨key.le, fun h => ?_⟩
      change |(r : ℚ) * 2 ^ q - x| = |(k : ℚ) * 2 ^ f - x| at h
      rw [hscale] at h
      exact absurd h key.ne

/-! ### binary64 -/

/-- `m * 2^e` is a binary64 magnitude nearest to `x`, ties to even. -/
def NearQ (x : ℚ) (m : Nat) (e : Int) : Prop :=
  m ≤ 2 ^ 53 ∧ -1074 ≤ e ∧ ∀ k (f : Int), k < 2 ^ 53 → -1074 ≤ f →
    |mag m e - x| ≤ |mag k f - x| ∧ (|mag m e - x| = |mag k f - x| → mag k f = mag m e ∨ m % 2 = 0)

theorem mag_scaled (K m : Nat) (e : Int) (he : -(K : ℤ) ≤ e) : ((m * 2 ^ (e + K).toNat : Nat) : ℚ) = mag m e * 2 ^ K := by
  obtain ⟨j, hj⟩ := Int.eq_ofNat_of_zero_le (show 0 ≤ e + K by omega)
  unfold mag
  rw [hj, show e = (j : ℤ) - K by omega, zpow_sub₀ (by norm_num), Int.toNat_natCast, zpow_natCast, zpow_natCast]
  push_cast
  field_simp

theorem mag_shift (m : Nat) (e : Int) (he : -1074 ≤ e) : ((m * 2 ^ (e + 1074).toNat : Nat) : ℚ) = mag m e * 2 ^ 1074 :=
  mag_scaled 1074 m e he

theorem nearestF64_iff (num den m : Nat) (e : Int) (hd : 0 < den) : NearestF64 num den m e ↔ NearQ ((num : ℚ) / den) m e := by
  unfold NearestF64 NearQ
  refine and_congr_right fun _ => and_congr_right fun he => forall_congr' fun k => forall_congr' fun f => forall_congr' fun hk =>
    forall_congr' fun hf => ?_
  have hd' : (0 : ℚ) < den := by exact_mod_cast hd
  have key : ∀ (k : Nat) (f : Int), -1074 ≤ f →
      ((apart (k * 2 ^ (f + 1074).toNat * den) (num * 2 ^ 1074) : Nat) : ℚ) = |mag k f - (num : ℚ) / den| * (den * 2 ^ 1074) := by
    intro k f hf
    have hpos : (0 : ℚ) < den * 2 ^ 1074 := by positivity
    rw [apart_cast, Nat.cast_mul (k * _), mag_shift k f hf, Nat.cast_mul num, Nat.cast_pow, Nat.cast_ofNat]
    generalize (2 : ℚ) ^ 1074 = c at *
    have e : mag k f * c * den - num * c = (mag k f - (num : ℚ) / den) * (den * c) := by field_simp
    rw [e, abs_mul, abs_of_pos hpos]
  have hpos : (0 : ℚ) < den * 2 ^ 1074 := by positivity
  have hm : ∀ (k : Nat) (f : Int), -1074 ≤ f → (k * 2 ^ (f + 1074).toNat = m * 2 ^ (e + 1074).toNat ↔ mag k f = mag m e) := by
    intro k f hf
    rw [← Nat.cast_inj (R := ℚ), mag_shift k f hf, mag_shift m e he]
    constructor
    · intro h; exact mul_right_cancel₀ (by positivity) h
    · intro h; rw [h]
  rw [← Nat.cast_le (α := ℚ), ← Nat.cast_inj (R := ℚ), key m e he, key k f hf, hm k f hf]
  rw [mul_le_mul_iff_left₀ hpos, mul_left_inj' hpos.ne']

theorem nearQ_zero : NearQ 0 0 0 := by
  refine ⟨by norm_num, by norm_num, fun k f _ _ => ⟨?_, fun _ => .inr rfl⟩⟩
  simp only [mag, Nat.cast_zero, zero_mul, sub_zero, abs_zero]
  positivity

/-- A value of the format is its own nearest. -/
theorem NearQ.exact {x : ℚ} {m : Nat} {e : Int} (h : NearQ x m e) {k : Nat} {f : Int} (hk : k < 2 ^ 53) (hf : -1074 ≤ f)
    (hx : x = mag k f) : mag m e = x := by
  have := (h.2.2 k f hk hf).1
  rw [hx, sub_self, abs_zero] at this
  rw [hx]
  have := abs_eq_zero.1 (le_antisymm this (abs_nonneg _))
  linarith

/-- A finite result of the rounding is nearest (R289). -/
theorem f64Round_fin {neg : Bool} {n d : Nat} (hd : 0 < d) {s : Bool} {m : Nat} {e : Int} (h : f64Round neg n d = .fin s m e) :
    s = neg ∧ NearQ ((n : ℚ) / d) m e := by
  unfold f64Round at h
  split at h
  · next h0 => cases h; subst h0; refine ⟨rfl, ?_⟩; simpa using nearQ_zero
  · next h0 =>
    split at h
    · cases h
    · cases h
      obtain ⟨a, b, _, c⟩ := roundRat_spec 53 (by norm_num) (-1074) n d (by omega) hd
      exact ⟨rfl, a, b, fun k f hk hf => c k f hk hf⟩

/-- Nothing up to `2^200` overflows. -/
theorem f64Round_finite {neg : Bool} {n d : Nat} (hd : 0 < d) (hx : (n : ℚ) / d ≤ 2 ^ 200) : ∃ m e, f64Round neg n d = .fin neg m e := by
  unfold f64Round
  split
  · exact ⟨_, _, rfl⟩
  · next h0 =>
    obtain ⟨a, b, hsub, c⟩ := roundRat_spec 53 (by norm_num) (-1074) n d (by omega) hd
    have h := (c 0 0 (by norm_num) (by norm_num)).1
    have h1 : mag 0 0 = 0 := by simp [mag]
    have hx0 : (0 : ℚ) < n / d := by have : (0:ℚ) < n := by exact_mod_cast Nat.pos_of_ne_zero h0
                                     have : (0:ℚ) < d := by exact_mod_cast hd
                                     positivity
    rw [h1, zero_sub, abs_neg, abs_of_pos hx0] at h
    have h2 := abs_sub_le_iff.1 h
    have h3 : mag (roundRat 53 (-1074) n d).1 (roundRat 53 (-1074) n d).2 ≤ 2 ^ (201 : ℤ) := by
      have e : (2 : ℚ) ^ (201 : ℤ) = 2 * 2 ^ 200 := by
        rw [show (201 : ℤ) = (200 : ℕ) + 1 by norm_num, zpow_add₀ (by norm_num), zpow_natCast, zpow_one]; ring
      rw [e]
      generalize (2 : ℚ) ^ 1000 = C at *
      linarith [h2.1]
    rw [if_neg]
    · exact ⟨_, _, rfl⟩
    · intro hc
      generalize roundRat 53 (-1074) n d = r at *
      by_cases hr : r.1 = 0
      · rw [hsub (by rw [hr]; norm_num), hr, Nat.log2_zero] at hc
        norm_num at hc
      have hl : (2 : ℚ) ^ (r.1.log2 : ℤ) ≤ r.1 := by
        rw [zpow_natCast]; exact_mod_cast Nat.log2_self_le hr
      have : (2 : ℚ) ^ (1024 : ℤ) ≤ mag r.1 r.2 := by
        calc (2 : ℚ) ^ (1024 : ℤ) ≤ 2 ^ ((r.1.log2 : ℤ) + r.2) := zpow_le_zpow_right₀ (by norm_num) hc
          _ = 2 ^ (r.1.log2 : ℤ) * 2 ^ r.2 := zpow_add₀ (by norm_num) _ _
          _ ≤ _ := mul_le_mul_of_nonneg_right hl (by positivity)
      have h4 : (2 : ℚ) ^ (1024 : ℤ) ≤ 2 ^ (201 : ℤ) := this.trans h3
      have := (zpow_le_zpow_iff_right₀ (by norm_num : (1 : ℚ) < 2)).1 h4
      omega

theorem f64RoundScaled_eq (neg : Bool) (m : Nat) (e : Int) : ∃ n d, 0 < d ∧ f64RoundScaled neg m e = f64Round neg n d ∧ (n : ℚ) / d = mag m e := by
  unfold f64RoundScaled mag
  split
  · next h =>
    obtain ⟨k, rfl⟩ := Int.eq_ofNat_of_zero_le h
    exact ⟨_, _, by norm_num, rfl, by simp⟩
  · next h =>
    obtain ⟨k, hk⟩ := Int.eq_ofNat_of_zero_le (show 0 ≤ -e by omega)
    refine ⟨_, _, by positivity, rfl, ?_⟩
    rw [hk, show e = -(k : ℤ) by omega]
    simp [div_eq_mul_inv]

theorem f64RoundScaled_fin {neg : Bool} {k : Nat} {f : Int} {s : Bool} {m : Nat} {e : Int}
    (h : f64RoundScaled neg k f = .fin s m e) : s = neg ∧ NearQ (mag k f) m e := by
  obtain ⟨n, d, hd, he, hv⟩ := f64RoundScaled_eq neg k f
  rw [he] at h
  rw [← hv]; exact f64Round_fin hd h

theorem f64RoundScaled_finite {neg : Bool} {k : Nat} {f : Int} (hx : mag k f ≤ 2 ^ 200) :
    ∃ m e, f64RoundScaled neg k f = .fin neg m e := by
  obtain ⟨n, d, hd, he, hv⟩ := f64RoundScaled_eq neg k f
  rw [he]; exact f64Round_finite hd (by rw [hv]; exact hx)

/-! ### The operations on finite data -/

/-- The value of a finite datum. -/
def val (n : Bool) (m : Nat) (e : Int) : ℚ := (if n then -1 else 1) * mag m e

theorem mag_nonneg (m : Nat) (e : Int) : 0 ≤ mag m e := by unfold mag; positivity

theorem abs_val (n : Bool) (m : Nat) (e : Int) : |val n m e| = mag m e := by
  unfold val; rw [abs_mul, abs_of_nonneg (mag_nonneg m e)]; cases n <;> simp

theorem mag_eq_zero {m : Nat} {e : Int} : mag m e = 0 ↔ m = 0 := by
  unfold mag
  have : (2 : ℚ) ^ e ≠ 0 := by positivity
  simp [this]

theorem f64Mul_fin {n1 n2 n : Bool} {m1 m2 m : Nat} {e1 e2 e : Int} (h : f64Mul (.fin n1 m1 e1) (.fin n2 m2 e2) = .fin n m e) :
    n = (n1 != n2) ∧ NearQ (mag m1 e1 * mag m2 e2) m e := by
  have e0 : mag m1 e1 * mag m2 e2 = mag (m1 * m2) (e1 + e2) := by
    unfold mag; rw [zpow_add₀ (by norm_num)]; push_cast; ring
  rw [e0]; exact f64RoundScaled_fin h

theorem f64Mul_finite (n1 n2 : Bool) (m1 m2 : Nat) (e1 e2 : Int) (hx : mag m1 e1 * mag m2 e2 ≤ 2 ^ 200) :
    ∃ m e, f64Mul (.fin n1 m1 e1) (.fin n2 m2 e2) = .fin (n1 != n2) m e := by
  have e0 : mag m1 e1 * mag m2 e2 = mag (m1 * m2) (e1 + e2) := by
    unfold mag; rw [zpow_add₀ (by norm_num)]; push_cast; ring
  exact f64RoundScaled_finite (by rw [← e0]; exact hx)

theorem div_scaled (m1 m2 : Nat) (e1 e2 : Int) :
    ((m1 * 2 ^ (e1 - min e1 e2).toNat : Nat) : ℚ) / (m2 * 2 ^ (e2 - min e1 e2).toNat : Nat) = mag m1 e1 / mag m2 e2 := by
  have key : ∀ (m : Nat) (e : Int), min e1 e2 ≤ e → ((m * 2 ^ (e - min e1 e2).toNat : Nat) : ℚ) = mag m e * 2 ^ (-(min e1 e2)) := by
    intro m e h
    obtain ⟨j, hj⟩ := Int.eq_ofNat_of_zero_le (show 0 ≤ e - min e1 e2 by omega)
    unfold mag
    rw [hj, Int.toNat_natCast, mul_assoc, ← zpow_add₀ (by norm_num), show e + -min e1 e2 = j by omega, zpow_natCast]
    push_cast; rfl
  rw [key _ _ (min_le_left _ _), key _ _ (min_le_right _ _)]
  rw [mul_div_mul_right _ _ (by positivity)]

theorem f64Div_fin {n1 n2 n : Bool} {m1 m2 m : Nat} {e1 e2 e : Int} (h2 : m2 ≠ 0)
    (h : f64Div (.fin n1 m1 e1) (.fin n2 m2 e2) = .fin n m e) : n = (n1 != n2) ∧ NearQ (mag m1 e1 / mag m2 e2) m e := by
  rw [← div_scaled]
  simp only [f64Div, if_neg h2] at h
  exact f64Round_fin (by positivity) h

theorem f64Div_finite (n1 n2 : Bool) (m1 : Nat) {m2 : Nat} (e1 e2 : Int) (h2 : m2 ≠ 0) (hx : mag m1 e1 / mag m2 e2 ≤ 2 ^ 200) :
    ∃ m e, f64Div (.fin n1 m1 e1) (.fin n2 m2 e2) = .fin (n1 != n2) m e := by
  simp only [f64Div, if_neg h2]
  exact f64Round_finite (by positivity) (by rw [div_scaled]; exact hx)

theorem exactSum_cast (n1 : Bool) (m1 : Nat) (e1 : Int) (n2 : Bool) (m2 : Nat) (e2 : Int) :
    ((exactSum n1 m1 e1 n2 m2 e2 : ℤ) : ℚ) * 2 ^ (min e1 e2) = val n1 m1 e1 + val n2 m2 e2 := by
  have key : ∀ (n : Bool) (m : Nat) (e : Int), min e1 e2 ≤ e →
      ((signed n (m * 2 ^ (e - min e1 e2).toNat) : ℤ) : ℚ) * 2 ^ (min e1 e2) = val n m e := by
    intro n m e h
    obtain ⟨j, hj⟩ := Int.eq_ofNat_of_zero_le (show 0 ≤ e - min e1 e2 by omega)
    have : (2 : ℚ) ^ e = 2 ^ j * 2 ^ (min e1 e2) := by
      rw [← zpow_natCast, ← zpow_add₀ (by norm_num)]; congr 1; omega
    unfold val mag signed
    rw [hj, Int.toNat_natCast, this]
    cases n <;> push_cast <;> simp <;> ring
  unfold exactSum
  push_cast
  rw [add_mul, key _ _ _ (min_le_left _ _), key _ _ _ (min_le_right _ _)]

/-- The sign of a sum. -/
def sumSign (n1 n2 : Bool) (x : ℚ) : Bool := if x = 0 then n1 && n2 else decide (x < 0)

/-- A sum of finite data: an exact zero, or the exact sum rounded. -/
theorem f64Add_cases (n1 n2 : Bool) (m1 m2 : Nat) (e1 e2 : Int) :
    (val n1 m1 e1 + val n2 m2 e2 = 0 ∧ f64Add (.fin n1 m1 e1) (.fin n2 m2 e2) = .fin (n1 && n2) 0 0) ∨
      (val n1 m1 e1 + val n2 m2 e2 ≠ 0 ∧ ∃ k f, mag k f = |val n1 m1 e1 + val n2 m2 e2| ∧
        f64Add (.fin n1 m1 e1) (.fin n2 m2 e2) = f64RoundScaled (decide (val n1 m1 e1 + val n2 m2 e2 < 0)) k f) := by
  have hs := exactSum_cast n1 m1 e1 n2 m2 e2
  have hp : (0 : ℚ) < 2 ^ (min e1 e2) := by positivity
  simp only [f64Add]
  generalize exactSum n1 m1 e1 n2 m2 e2 = S at *
  rw [← hs]
  split
  · next h => left; rw [h]; simp
  · next h =>
    right
    have h' : (S : ℚ) ≠ 0 := by exact_mod_cast h
    refine ⟨mul_ne_zero h' hp.ne', S.natAbs, min e1 e2, ?_, ?_⟩
    · unfold mag; rw [abs_mul, abs_of_pos hp]; simp
    · congr 1
      rw [decide_eq_decide]
      rw [mul_neg_iff]
      simp [hp, not_lt.2 hp.le]

theorem f64Add_fin {n1 n2 n : Bool} {m1 m2 m : Nat} {e1 e2 e : Int} (h : f64Add (.fin n1 m1 e1) (.fin n2 m2 e2) = .fin n m e) :
    n = sumSign n1 n2 (val n1 m1 e1 + val n2 m2 e2) ∧ NearQ |val n1 m1 e1 + val n2 m2 e2| m e := by
  unfold sumSign
  rcases f64Add_cases n1 n2 m1 m2 e1 e2 with ⟨h0, h1⟩ | ⟨h0, k, f, hk, h1⟩
  · rw [h1] at h; cases h; rw [h0, if_pos rfl, abs_zero]; exact ⟨rfl, nearQ_zero⟩
  · rw [h1] at h; rw [if_neg h0, ← hk]; exact f64RoundScaled_fin h

theorem f64Add_finite (n1 n2 : Bool) (m1 m2 : Nat) (e1 e2 : Int) (hx : |val n1 m1 e1 + val n2 m2 e2| ≤ 2 ^ 200) :
    ∃ m e, f64Add (.fin n1 m1 e1) (.fin n2 m2 e2) = .fin (sumSign n1 n2 (val n1 m1 e1 + val n2 m2 e2)) m e := by
  unfold sumSign
  rcases f64Add_cases n1 n2 m1 m2 e1 e2 with ⟨h0, h1⟩ | ⟨h0, k, f, hk, h1⟩
  · rw [h1, if_pos h0]; exact ⟨_, _, rfl⟩
  · rw [h1, if_neg h0]; exact f64RoundScaled_finite (by rw [hk]; exact hx)

/-! ### binary32 -/

theorem f32Units_lt {x : Word} (h : isFinitePattern x) : f32Units x < 2 ^ 24 * 2 ^ 253 := by
  unfold isFinitePattern at h
  unfold f32Units
  have : x.toNat / 2 ^ 23 % 256 < 255 := by omega
  split
  · exact lt_of_lt_of_le (Nat.mod_lt _ (by norm_num)) (by norm_num : 2 ^ 23 ≤ 2 ^ 24 * 2 ^ 253)
  · calc (2 ^ 23 + x.toNat % 2 ^ 23) * 2 ^ (x.toNat / 2 ^ 23 % 256 - 1) < 2 ^ 24 * 2 ^ (x.toNat / 2 ^ 23 % 256 - 1) :=
        Nat.mul_lt_mul_of_pos_right (by omega) (by positivity)
      _ ≤ 2 ^ 24 * 2 ^ 253 := Nat.mul_le_mul_left _ (Nat.pow_le_pow_right (by norm_num) (by omega))

theorem f64FromF32_finite {x : Word} (h : isFinitePattern x) :
    ∃ m e, f64FromF32 x = .fin (x.getLsbD 31) m e ∧ m < 2 ^ 24 ∧ -149 ≤ e ∧ mag m e = f32Units x * 2 ^ (-149 : ℤ) := by
  unfold isFinitePattern at h
  unfold f64FromF32 f32Units mag
  rw [if_neg h]
  split
  · exact ⟨_, _, rfl, by omega, by norm_num, rfl⟩
  · next h0 =>
    refine ⟨_, _, rfl, by omega, by omega, ?_⟩
    obtain ⟨j, hj⟩ : ∃ j, x.toNat / 2 ^ 23 % 256 = j + 1 := ⟨x.toNat / 2 ^ 23 % 256 - 1, by omega⟩
    rw [hj, Nat.add_sub_cancel, show ((j + 1 : Nat) : ℤ) - 150 = j + -149 by push_cast; ring, zpow_add₀ (by norm_num), zpow_natCast]
    push_cast; ring

/-- `x` units of `2^(-149)` narrow to the pattern `w`. -/
def NearQ32 (x : ℚ) (w : Word) : Prop :=
  if (2 ^ 25 - 1) * 2 ^ 252 ≤ x then isInfPattern w
  else isFinitePattern w ∧ ∀ y, isFinitePattern y →
    |(f32Units w : ℚ) - x| ≤ |(f32Units y : ℚ) - x| ∧
      (|(f32Units w : ℚ) - x| = |(f32Units y : ℚ) - x| → f32Units y = f32Units w ∨ w.toNat % 2 = 0)

theorem nearestF32_iff (num den : Nat) (w : Word) (hd : 0 < den) : NearestF32 num den w ↔ NearQ32 ((num : ℚ) / den) w := by
  have hd' : (0 : ℚ) < den := by exact_mod_cast hd
  have hc : ((2 ^ 25 - 1) * 2 ^ 252 * den ≤ num) ↔ ((2 ^ 25 - 1) * 2 ^ 252 ≤ (num : ℚ) / den) := by
    rw [le_div_iff₀ hd', ← Nat.cast_le (α := ℚ)]
    push_cast
    norm_num
  unfold NearestF32 NearQ32
  by_cases h : (2 ^ 25 - 1) * 2 ^ 252 * den ≤ num
  · rw [if_pos h, if_pos (hc.1 h)]
  · rw [if_neg h, if_neg (mt hc.2 h)]
    refine and_congr_right fun _ => forall_congr' fun y => forall_congr' fun _ => ?_
    have key : ∀ y, ((apart (f32Units y * den) num : Nat) : ℚ) = |(f32Units y : ℚ) - (num : ℚ) / den| * den := by
      intro y
      have e : ((f32Units y * den : Nat) : ℚ) - num = ((f32Units y : ℚ) - (num : ℚ) / den) * den := by push_cast; field_simp
      rw [apart_cast, e, abs_mul, abs_of_pos hd']
    rw [← Nat.cast_le (α := ℚ), ← Nat.cast_inj (R := ℚ), key, key, mul_le_mul_iff_left₀ hd', mul_left_inj' hd'.ne']

theorem f32Pattern_facts (n : Bool) (b : Nat) (hb : b < 2 ^ 31) :
    (f32Pattern n b).getLsbD 31 = n ∧ (f32Pattern n b).toNat % 2 ^ 31 = b ∧ (f32Pattern n b).toNat / 2 ^ 23 % 256 = b / 2 ^ 23 ∧
      (f32Pattern n b).toNat % 2 ^ 23 = b % 2 ^ 23 ∧ (f32Pattern n b).toNat % 2 = b % 2 := by
  have e : (f32Pattern n b).toNat = b + (if n then 2 ^ 31 else 0) := by
    unfold f32Pattern; rw [BitVec.toNat_ofNat, Nat.mod_eq_of_lt]; split <;> omega
  refine ⟨?_, ?_, ?_, ?_, ?_⟩
  · rw [← BitVec.testBit_toNat, Nat.testBit_eq_decide_div_mod_eq, e]
    cases n <;> simp <;> omega
  all_goals rw [e]; cases n <;> simp <;> omega

/-- The rounded mantissa and exponent of a binary32 and its pattern. -/
theorem f32Magnitude_spec (n : Bool) (r : Nat) (q : Int) (hr : r ≤ 2 ^ 24) (hq : -149 ≤ q) (hs : r < 2 ^ 23 → q = -149) :
    (f32Pattern n (f32Magnitude (r, q))).getLsbD 31 = n ∧
      (if 2 ^ 24 * 2 ^ 253 ≤ r * 2 ^ (q + 149).toNat then isInfPattern (f32Pattern n (f32Magnitude (r, q)))
       else isFinitePattern (f32Pattern n (f32Magnitude (r, q))) ∧
         f32Units (f32Pattern n (f32Magnitude (r, q))) = r * 2 ^ (q + 149).toNat ∧
         (f32Pattern n (f32Magnitude (r, q))).toNat % 2 = r % 2) := by
  obtain ⟨j, hj⟩ := Int.eq_ofNat_of_zero_le (show 0 ≤ q + 149 by omega)
  have hm : f32Magnitude (r, q) = min (r + j * 2 ^ 23) 0x7F800000 := by unfold f32Magnitude; rw [hj]; rfl
  have hs' : r < 2 ^ 23 → j = 0 := fun h => by have := hs h; omega
  have hlt : f32Magnitude (r, q) < 2 ^ 31 := by rw [hm]; omega
  obtain ⟨f1, f2, f3, f4, f5⟩ := f32Pattern_facts n _ hlt
  refine ⟨f1, ?_⟩
  rw [hj, Int.toNat_natCast]
  have big : 2 ^ 24 * 2 ^ 253 ≤ r * 2 ^ j ↔ 0x7F800000 ≤ r + j * 2 ^ 23 := by
    by_cases h1 : r < 2 ^ 23
    · have := hs' h1; subst this
      constructor
      · intro h; simp only [pow_zero, Nat.mul_one] at h
        have : 2 ^ 23 ≤ 2 ^ 24 * 2 ^ 253 := by norm_num
        omega
      · intro h; omega
    · by_cases h2 : r = 2 ^ 24
      · subst h2
        rw [Nat.mul_le_mul_left_iff (by norm_num), Nat.pow_le_pow_iff_right (by norm_num)]; omega
      · have e : r + j * 2 ^ 23 < 0x7F800000 ↔ j < 254 := by omega
        constructor
        · intro h; by_contra hc
          have hj : j ≤ 253 := by omega
          have : r * 2 ^ j < 2 ^ 24 * 2 ^ 253 :=
            lt_of_lt_of_le (Nat.mul_lt_mul_of_pos_right (by omega) (by positivity)) (Nat.mul_le_mul_left _ (Nat.pow_le_pow_right (by norm_num) hj))
          omega
        · intro h
          have hj : 254 ≤ j := by omega
          calc 2 ^ 24 * 2 ^ 253 = 2 ^ 23 * 2 ^ 254 := by norm_num
            _ ≤ r * 2 ^ j := Nat.mul_le_mul (by omega) (Nat.pow_le_pow_right (by norm_num) hj)
  by_cases hb : 0x7F800000 ≤ r + j * 2 ^ 23
  · rw [if_pos (big.2 hb)]
    unfold isInfPattern
    rw [f2, hm]; omega
  · rw [if_neg (mt big.1 hb)]
    rw [hm, Nat.min_eq_left (by omega)] at f2 f3 f4 f5 ⊢
    refine ⟨?_, ?_, ?_⟩
    · unfold isFinitePattern; rw [f3]; omega
    · unfold f32Units
      rw [f3, f4]
      by_cases h1 : r < 2 ^ 23
      · have := hs' h1; subst this
        rw [if_pos (by omega)]; simp; omega
      · rw [if_neg (by omega)]
        by_cases h2 : r = 2 ^ 24
        · subst h2
          rw [show (2 ^ 24 + j * 2 ^ 23) % 2 ^ 23 = 0 by omega, show (2 ^ 24 + j * 2 ^ 23) / 2 ^ 23 - 1 = j + 1 by omega, pow_succ]
          ring
        · rw [show (r + j * 2 ^ 23) % 2 ^ 23 = r - 2 ^ 23 by omega, show (r + j * 2 ^ 23) / 2 ^ 23 - 1 = j by omega]
          rw [show 2 ^ 23 + (r - 2 ^ 23) = r by omega]
    · rw [f5]; omega

theorem f32Units_mag {y : Word} (hy : isFinitePattern y) : ∃ k f, k < 2 ^ 24 ∧ -149 ≤ f ∧ mag k f = f32Units y * 2 ^ (-149 : ℤ) := by
  obtain ⟨m, e, _, a, b, c⟩ := f64FromF32_finite hy
  exact ⟨m, e, a, b, c⟩

/-- Narrowing (R289). -/
theorem f32FromF64_fin (n : Bool) (m : Nat) (e : Int) :
    ∃ w, f32FromF64 (.fin n m e) = some w ∧ w.getLsbD 31 = n ∧ NearQ32 (mag m e * 2 ^ 149) w := by
  by_cases h0 : m = 0
  · subst h0
    refine ⟨f32Pattern n 0, by simp [f32FromF64], (f32Pattern_facts n 0 (by norm_num)).1, ?_⟩
    have hz : f32Units (f32Pattern n 0) = 0 := by cases n <;> rfl
    unfold NearQ32
    rw [show mag 0 e = 0 from mag_eq_zero.2 rfl, zero_mul, if_neg (by norm_num)]
    refine ⟨by cases n <;> (unfold isFinitePattern; decide), fun y _ => ⟨?_, fun _ => .inr (by cases n <;> rfl)⟩⟩
    rw [hz]; simp
  · obtain ⟨N, D, hD, hN, hv, he⟩ : ∃ N D : Nat, 0 < D ∧ 0 < N ∧ (N : ℚ) / D = mag m e ∧
        f32FromF64 (.fin n m e) = some (f32Pattern n (f32Magnitude (roundRat 24 (-149) N D))) := by
      by_cases hs : 0 ≤ e
      · obtain ⟨k, rfl⟩ := Int.eq_ofNat_of_zero_le hs
        exact ⟨m * 2 ^ k, 1, by norm_num, by positivity, by simp [mag], by simp [f32FromF64, h0]⟩
      · obtain ⟨k, hk⟩ := Int.eq_ofNat_of_zero_le (show 0 ≤ -e by omega)
        refine ⟨m, 2 ^ k, by positivity, by omega, ?_, ?_⟩
        · rw [show e = -(k : ℤ) by omega]; simp [mag, div_eq_mul_inv]
        · simp only [f32FromF64, if_neg h0, if_neg hs, hk, Int.toNat_natCast]
    obtain ⟨a, b, c, d⟩ := roundRat_spec 24 (by norm_num) (-149) N D hN hD
    rw [he, ← hv]
    generalize hx : (N : ℚ) / D = x at *
    generalize roundRat 24 (-149) N D = rq at *
    obtain ⟨r, q⟩ := rq
    simp only at a b c d
    obtain ⟨s1, s2⟩ := f32Magnitude_spec n r q a b c
    refine ⟨_, rfl, s1, ?_⟩
    have hP : (0 : ℚ) < 2 ^ 149 := by positivity
    have hV : mag r q * 2 ^ 149 = ((r * 2 ^ (q + 149).toNat : Nat) : ℚ) := (mag_scaled 149 r q b).symm
    -- everything in units
    have d' : ∀ k f, k < 2 ^ 24 → -149 ≤ f →
        |((r * 2 ^ (q + 149).toNat : Nat) : ℚ) - x * 2 ^ 149| ≤ |mag k f * 2 ^ 149 - x * 2 ^ 149| ∧
          (|((r * 2 ^ (q + 149).toNat : Nat) : ℚ) - x * 2 ^ 149| = |mag k f * 2 ^ 149 - x * 2 ^ 149| →
            mag k f * 2 ^ 149 = ((r * 2 ^ (q + 149).toNat : Nat) : ℚ) ∨ r % 2 = 0) := by
      intro k f hk hf
      rw [← hV, ← sub_mul, ← sub_mul, abs_mul, abs_mul, abs_of_pos hP, mul_le_mul_iff_left₀ hP, mul_left_inj' hP.ne', mul_left_inj' hP.ne']
      exact d k f hk hf
    have hr24 : r < 2 ^ 23 → (q + 149).toNat = 0 := fun h => by have := c (by simpa using h); omega
    generalize (q + 149).toNat = j at *
    generalize x * 2 ^ 149 = X at *
    -- the two candidates around the limit
    have c1 := d' (2 ^ 24 - 1) 104 (by norm_num) (by norm_num)
    have c2 := d' (2 ^ 23) 105 (by norm_num) (by norm_num)
    have m1 : mag (2 ^ 24 - 1) 104 * 2 ^ 149 = (2 ^ 24 - 1) * 2 ^ 253 := by unfold mag; norm_num
    have m2 : mag (2 ^ 23) 105 * 2 ^ 149 = 2 ^ 24 * 2 ^ 253 := by unfold mag; norm_num
    rw [m1] at c1
    rw [m2] at c2
    have hVcase : 2 ^ 24 * 2 ^ 253 ≤ r * 2 ^ j ∨ (r * 2 ^ j ≤ (2 ^ 24 - 1) * 2 ^ 253 ∧ (r * 2 ^ j = (2 ^ 24 - 1) * 2 ^ 253 → r % 2 = 1)) := by
      by_cases h1 : r < 2 ^ 23
      · right
        rw [hr24 h1]
        have : 2 ^ 23 ≤ (2 ^ 24 - 1) * 2 ^ 253 := by norm_num
        refine ⟨by omega, fun h => by omega⟩
      · by_cases h2 : 254 ≤ j
        · left
          calc 2 ^ 24 * 2 ^ 253 = 2 ^ 23 * 2 ^ 254 := by norm_num
            _ ≤ r * 2 ^ j := Nat.mul_le_mul (by omega) (Nat.pow_le_pow_right (by norm_num) h2)
        · by_cases h3 : r = 2 ^ 24
          · subst h3
            by_cases h4 : j = 253
            · left; subst h4; exact le_rfl
            · right
              have : 2 ^ 24 * 2 ^ j ≤ 2 ^ 24 * 2 ^ 252 := Nat.mul_le_mul_left _ (Nat.pow_le_pow_right (by norm_num) (by omega))
              have e : 2 ^ 24 * 2 ^ 252 < (2 ^ 24 - 1) * 2 ^ 253 := by norm_num
              exact ⟨by omega, fun h => by omega⟩
          · right
            by_cases h4 : j = 253
            · subst h4
              refine ⟨Nat.mul_le_mul_right _ (by omega), fun h => ?_⟩
              have := Nat.eq_of_mul_eq_mul_right (by positivity) h
              omega
            · have : r * 2 ^ j ≤ (2 ^ 24 - 1) * 2 ^ 252 := Nat.mul_le_mul (by omega) (Nat.pow_le_pow_right (by norm_num) (by omega))
              have e : (2 ^ 24 - 1) * 2 ^ 252 < (2 ^ 24 - 1) * 2 ^ 253 := by norm_num
              exact ⟨by omega, fun h => by omega⟩
    have hpar : r % 2 = 1 → ¬ r % 2 = 0 := by omega
    unfold NearQ32
    have nT : ((2 : ℚ) ^ 25 - 1) * 2 ^ 252 * 2 = (2 ^ 24 - 1) * 2 ^ 253 + 2 ^ 24 * 2 ^ 253 := by norm_num
    have nM : ((2 : ℚ) ^ 24 - 1) * 2 ^ 253 < 2 ^ 24 * 2 ^ 253 := by norm_num
    by_cases hbig : 2 ^ 24 * 2 ^ 253 ≤ r * 2 ^ j
    · rw [if_pos hbig] at s2
      rw [if_pos]
      · exact s2
      · have hb : (2 : ℚ) ^ 24 * 2 ^ 253 ≤ ((r * 2 ^ j : Nat) : ℚ) := by exact_mod_cast hbig
        generalize ((r * 2 ^ j : Nat) : ℚ) = V at *
        generalize ((2 : ℚ) ^ 25 - 1) * 2 ^ 252 = T at *
        generalize ((2 : ℚ) ^ 24 - 1) * 2 ^ 253 = M at *
        generalize (2 : ℚ) ^ 24 * 2 ^ 253 = B at *
        by_contra hc
        rw [not_le] at hc
        have h := c1.1
        rw [abs_of_nonneg (by linarith)] at h
        rcases le_total X M with hx' | hx'
        · rw [abs_of_nonneg (by linarith)] at h; linarith
        · rw [abs_of_nonpos (by linarith)] at h; linarith
    · rw [if_neg hbig] at s2
      obtain ⟨t1, t2, t3⟩ := s2
      obtain ⟨hle, hodd⟩ := hVcase.resolve_left hbig
      have hleq : ((r * 2 ^ j : Nat) : ℚ) ≤ (2 ^ 24 - 1) * 2 ^ 253 := by
        have : ((r * 2 ^ j : Nat) : ℚ) ≤ (((2 ^ 24 - 1) * 2 ^ 253 : Nat) : ℚ) := Nat.cast_le.2 hle
        refine this.trans (le_of_eq ?_); push_cast; norm_num
      have hoddq : ((r * 2 ^ j : Nat) : ℚ) = (2 ^ 24 - 1) * 2 ^ 253 → r % 2 = 1 := by
        intro h
        apply hodd
        have : ((r * 2 ^ j : Nat) : ℚ) = (((2 ^ 24 - 1) * 2 ^ 253 : Nat) : ℚ) := by rw [h]; push_cast; norm_num
        exact_mod_cast this
      rw [if_neg]
      · refine ⟨t1, fun y hy => ?_⟩
        obtain ⟨k, f, hk, hf, hkv⟩ := f32Units_mag hy
        have hyu : mag k f * 2 ^ 149 = f32Units y := by
          rw [hkv, mul_assoc, ← zpow_natCast, ← zpow_add₀ (by norm_num)]; norm_num
        have := d' k f hk hf
        rw [hyu] at this
        rw [t2, t3]
        refine ⟨this.1, fun h => ?_⟩
        rcases this.2 h with h | h
        · left; exact_mod_cast h
        · right; exact h
      · intro hc
        generalize ((r * 2 ^ j : Nat) : ℚ) = V at *
        generalize ((2 : ℚ) ^ 25 - 1) * 2 ^ 252 = T at *
        generalize ((2 : ℚ) ^ 24 - 1) * 2 ^ 253 = M at *
        generalize (2 : ℚ) ^ 24 * 2 ^ 253 = B at *
        have h := c2.1
        have h' := c2.2
        rw [abs_of_nonpos (show V - X ≤ 0 by linarith)] at h h'
        rcases le_total B X with hx' | hx'
        · rw [abs_of_nonpos (by linarith)] at h; linarith
        · rw [abs_of_nonneg (by linarith)] at h h'
          have hVM : V = M := by linarith
          have e1 : -(V - X) = B - X := by linarith
          rcases h' e1 with h2 | h2
          · linarith
          · exact hpar (hoddq hVM) h2

theorem signed_val (n : Bool) (m : Nat) (e : Int) (he : -1074 ≤ e) :
    ((signed n (m * 2 ^ (e + 1074).toNat) : ℤ) : ℚ) = val n m e * 2 ^ 1074 := by
  have := mag_shift m e he
  unfold signed val
  cases n
  · simp only [Bool.false_eq_true, if_false, one_mul]; rw [← this]; norm_cast
  · simp only [if_true, Int.cast_neg, Int.cast_natCast]; rw [this]; ring

/-! ### The operations on values of binary32 -/

/-- The magnitude determines the pattern but for its sign. -/
theorem f32Units_inj {x y : Word} (h : f32Units x = f32Units y) : x.toNat % 2 ^ 31 = y.toNat % 2 ^ 31 := by
  unfold f32Units at h
  have hx31 : x.toNat % 2 ^ 31 = (x.toNat / 2 ^ 23 % 256) * 2 ^ 23 + x.toNat % 2 ^ 23 := by omega
  have hy31 : y.toNat % 2 ^ 31 = (y.toNat / 2 ^ 23 % 256) * 2 ^ 23 + y.toNat % 2 ^ 23 := by omega
  rw [hx31, hy31]
  have fx := Nat.mod_lt x.toNat (show 0 < 2 ^ 23 by norm_num)
  have fy := Nat.mod_lt y.toNat (show 0 < 2 ^ 23 by norm_num)
  generalize x.toNat / 2 ^ 23 % 256 = ex at *
  generalize y.toNat / 2 ^ 23 % 256 = ey at *
  generalize x.toNat % 2 ^ 23 = a at *
  generalize y.toNat % 2 ^ 23 = b at *
  have mono : ∀ (e1 e2 a b : Nat), a < 2 ^ 23 → e1 ≠ 0 → e1 < e2 → (2 ^ 23 + a) * 2 ^ (e1 - 1) < (2 ^ 23 + b) * 2 ^ (e2 - 1) := by
    intro e1 e2 a b ha h1 h2
    calc (2 ^ 23 + a) * 2 ^ (e1 - 1) < 2 ^ 24 * 2 ^ (e1 - 1) := Nat.mul_lt_mul_of_pos_right (by omega) (by positivity)
      _ = 2 ^ 23 * 2 ^ e1 := by rw [show e1 = (e1 - 1) + 1 by omega, pow_succ]; simp; ring
      _ ≤ _ := Nat.mul_le_mul (by omega) (Nat.pow_le_pow_right (by norm_num) (by omega))
  have ge : ∀ (e a : Nat), 2 ^ 23 ≤ (2 ^ 23 + a) * 2 ^ e := fun e a => by
    calc 2 ^ 23 = 2 ^ 23 * 1 := by ring
      _ ≤ _ := Nat.mul_le_mul (by omega) (Nat.one_le_two_pow)
  by_cases h1 : ex = 0 <;> by_cases h2 : ey = 0
  · rw [if_pos h1, if_pos h2] at h; rw [h1, h2, h]
  · rw [if_pos h1, if_neg h2] at h; have := ge (ey - 1) b; omega
  · rw [if_neg h1, if_pos h2] at h; have := ge (ex - 1) a; omega
  · rw [if_neg h1, if_neg h2] at h
    rcases lt_trichotomy ex ey with h3 | h3 | h3
    · have := mono ex ey a b fx h1 h3; omega
    · subst h3
      have := Nat.eq_of_mul_eq_mul_right (by positivity) h
      omega
    · have := mono ey ex b a fy h2 h3; omega

theorem word_ext_of_sign {x y : Word} (h : x.toNat % 2 ^ 31 = y.toNat % 2 ^ 31) (hs : x.getLsbD 31 = y.getLsbD 31) : x = y := by
  apply BitVec.eq_of_toNat_eq
  have hx := x.isLt
  have hy := y.isLt
  rw [← BitVec.testBit_toNat, ← BitVec.testBit_toNat, Nat.testBit_eq_decide_div_mod_eq, Nat.testBit_eq_decide_div_mod_eq, decide_eq_decide] at hs
  omega

/-- Narrowing a value of binary32 gives it. -/
theorem f32FromF64_exact {n : Bool} {m : Nat} {e : Int} {y : Word} (hy : isFinitePattern y) (hm : mag m e = f32Units y * 2 ^ (-149 : ℤ))
    (hn : n = y.getLsbD 31) : f32FromF64 (.fin n m e) = some y := by
  obtain ⟨w, h1, h2, h3⟩ := f32FromF64_fin n m e
  have hv : mag m e * 2 ^ 149 = f32Units y := by
    rw [hm, mul_assoc, ← zpow_natCast, ← zpow_add₀ (by norm_num)]; norm_num
  rw [hv] at h3
  unfold NearQ32 at h3
  rw [if_neg] at h3
  · obtain ⟨a, b⟩ := h3
    have := (b y hy).1
    rw [sub_self, abs_zero] at this
    have e0 := abs_eq_zero.1 (le_antisymm this (abs_nonneg _))
    have : f32Units w = f32Units y := by
      have : (f32Units w : ℚ) = f32Units y := by linarith
      exact_mod_cast this
    rw [h1, word_ext_of_sign (f32Units_inj this) (by rw [h2, hn])]
  · rw [not_le]
    have hlt : f32Units y ≤ (2 ^ 24 - 1) * 2 ^ 253 := by
      unfold isFinitePattern at hy
      unfold f32Units
      split
      · have : 2 ^ 23 ≤ (2 ^ 24 - 1) * 2 ^ 253 := by norm_num
        omega
      · exact Nat.mul_le_mul (by omega) (Nat.pow_le_pow_right (by norm_num) (by omega))
    have : (f32Units y : ℚ) ≤ (((2 ^ 24 - 1) * 2 ^ 253 : Nat) : ℚ) := Nat.cast_le.2 hlt
    refine lt_of_le_of_lt this ?_
    push_cast; norm_num

/-- A sum that is a value of binary32 narrows to it, a zero with the sign of IEEE 754. -/
theorem f64Add_exact32 {n1 n2 : Bool} {m1 m2 : Nat} {e1 e2 : Int} {y : Word} (hy : isFinitePattern y)
    (hv : val n1 m1 e1 + val n2 m2 e2 = (if y.getLsbD 31 then -1 else 1) * (f32Units y * 2 ^ (-149 : ℤ))) :
    f32FromF64 (f64Add (.fin n1 m1 e1) (.fin n2 m2 e2)) =
      some (if f32Units y = 0 then (if n1 && n2 then 0x80000000 else 0) else y) := by
  have hu : (0 : ℚ) ≤ f32Units y * 2 ^ (-149 : ℤ) := by positivity
  have habs : |val n1 m1 e1 + val n2 m2 e2| = f32Units y * 2 ^ (-149 : ℤ) := by
    rw [hv, abs_mul, abs_of_nonneg hu]; cases y.getLsbD 31 <;> simp
  have hfin : (f32Units y : ℚ) * 2 ^ (-149 : ℤ) ≤ 2 ^ 200 := by
    have h1 : (f32Units y : ℚ) ≤ ((2 ^ 24 * 2 ^ 253 : Nat) : ℚ) := Nat.cast_le.2 (f32Units_lt hy).le
    calc (f32Units y : ℚ) * 2 ^ (-149 : ℤ) ≤ ((2 ^ 24 * 2 ^ 253 : Nat) : ℚ) * 2 ^ (-149 : ℤ) := mul_le_mul_of_nonneg_right h1 (by positivity)
      _ ≤ _ := by push_cast; norm_num
  obtain ⟨m, e, h⟩ := f64Add_finite n1 n2 m1 m2 e1 e2 (by rw [habs]; exact hfin)
  obtain ⟨_, hn⟩ := f64Add_fin h
  obtain ⟨k, f, hk, hf, hkv⟩ := f32Units_mag hy
  have hm := hn.exact (k := k) (f := f) (by omega) (by omega) (by rw [habs, hkv])
  rw [habs] at hm
  rw [h]
  unfold sumSign
  have hp : (0 : ℚ) < 2 ^ (-149 : ℤ) := by positivity
  by_cases h0 : f32Units y = 0
  · rw [if_pos h0]
    have : val n1 m1 e1 + val n2 m2 e2 = 0 := by rw [hv, h0]; simp
    rw [if_pos this]
    rw [h0, Nat.cast_zero, zero_mul, mag_eq_zero] at hm
    subst hm
    cases n1 <;> cases n2 <;> rfl
  · rw [if_neg h0]
    have hpos : (0 : ℚ) < f32Units y := by exact_mod_cast Nat.pos_of_ne_zero h0
    have hu' := mul_pos hpos hp
    have : val n1 m1 e1 + val n2 m2 e2 ≠ 0 := by
      intro h; rw [h, abs_zero] at habs; linarith
    rw [if_neg this]
    apply f32FromF64_exact hy hm
    rw [hv]
    have hy0 : 0 < f32Units y := Nat.pos_of_ne_zero h0
    cases y.getLsbD 31 <;> simp [hy0]

theorem f32Units_eq_zero {x : Word} : f32Units x = 0 ↔ x = 0 ∨ x = 0x80000000 := by
  constructor
  · intro h
    have h2 := f32Units_inj (y := 0) (by rw [h]; rfl)
    cases hs : x.getLsbD 31
    · left; exact word_ext_of_sign h2 (by rw [hs]; rfl)
    · right; exact word_ext_of_sign (by rw [h2]; rfl) (by rw [hs]; rfl)
  · rintro (rfl | rfl) <;> rfl

theorem f64FromF32_val {x : Word} (hx : isFinitePattern x) :
    ∃ m e, f64FromF32 x = .fin (x.getLsbD 31) m e ∧ mag m e = f32Units x * 2 ^ (-149 : ℤ) ∧
      val (x.getLsbD 31) m e = f32Signed x * 2 ^ (-149 : ℤ) := by
  obtain ⟨m, e, h, _, _, hv⟩ := f64FromF32_finite hx
  refine ⟨m, e, h, hv, ?_⟩
  unfold val f32Signed signed
  rw [hv]
  cases x.getLsbD 31 <;> simp

theorem f32Signed_cast (x : Word) : ((f32Signed x : ℤ) : ℚ) = (if x.getLsbD 31 then -1 else 1) * f32Units x := by
  unfold f32Signed signed; cases x.getLsbD 31 <;> simp

/-- The quotient of a code by the greatest code (R282). -/
theorem codeRatio_spec {w c : Nat} (hw : 1 ≤ w) (hw2 : w ≤ 32) (hc : c < 2 ^ w) :
    ∃ m e, f64Div (f64OfNat c) (f64OfNat (2 ^ w - 1)) = .fin false m e ∧ NearQ ((c : ℚ) / (2 ^ w - 1 : Nat)) m e ∧
      (m = 0 ↔ c = 0) ∧ mag m e ≤ 2 := by
  have h2 : 2 ≤ 2 ^ w := by calc 2 = 2 ^ 1 := rfl
                             _ ≤ _ := Nat.pow_le_pow_right (by norm_num) hw
  have hD : 2 ^ w - 1 ≠ 0 := by omega
  have hD' : (0 : ℚ) < ((2 ^ w - 1 : Nat) : ℚ) := by exact_mod_cast Nat.pos_of_ne_zero hD
  have hmag : ∀ k : Nat, mag k 0 = k := by intro k; simp [mag]
  have hle : (c : ℚ) / (2 ^ w - 1 : Nat) ≤ 1 := by
    rw [div_le_one hD']; exact_mod_cast (show c ≤ 2 ^ w - 1 by omega)
  have h0 : (0 : ℚ) ≤ (c : ℚ) / (2 ^ w - 1 : Nat) := by positivity
  obtain ⟨m, e, h⟩ := f64Div_finite false false c 0 0 hD (by rw [hmag, hmag]; exact hle.trans (by norm_num))
  obtain ⟨_, hn⟩ := f64Div_fin hD h
  rw [hmag, hmag] at hn
  have hz : mag m e ≤ 2 := by
    have := (hn.2.2 0 0 (by norm_num) (by norm_num)).1
    rw [mag_eq_zero.2 rfl, zero_sub, abs_neg, abs_of_nonneg h0] at this
    have := (abs_sub_le_iff.1 this).1
    linarith
  refine ⟨m, e, h, hn, ⟨fun hm => ?_, fun hc0 => ?_⟩, hz⟩
  · by_contra hc0
    have hp : (0 : ℚ) < (c : ℚ) := by exact_mod_cast Nat.pos_of_ne_zero hc0
    have hx : (2 : ℚ) ^ (-32 : ℤ) ≤ (c : ℚ) / (2 ^ w - 1 : Nat) := by
      rw [le_div_iff₀ hD']
      have h1 : ((2 ^ w - 1 : Nat) : ℚ) ≤ 2 ^ 32 := by
        have : 2 ^ w - 1 ≤ 2 ^ 32 := by have := Nat.pow_le_pow_right (show 0 < 2 by norm_num) hw2; omega
        exact_mod_cast this
      have h3 : (1 : ℚ) ≤ c := by exact_mod_cast Nat.one_le_iff_ne_zero.2 hc0
      calc (2 : ℚ) ^ (-32 : ℤ) * ((2 ^ w - 1 : Nat) : ℚ) ≤ 2 ^ (-32 : ℤ) * 2 ^ 32 := mul_le_mul_of_nonneg_left h1 (by positivity)
        _ = 1 := by norm_num
        _ ≤ c := h3
    have := (hn.2.2 1 (-32) (by norm_num) (by norm_num)).1
    rw [mag_eq_zero.2 hm, zero_sub, abs_neg, abs_of_nonneg h0] at this
    have e1 : mag 1 (-32) = 2 ^ (-32 : ℤ) := by simp [mag]
    rw [e1, abs_of_nonpos (by linarith)] at this
    have : (0 : ℚ) < 2 ^ (-32 : ℤ) := by positivity
    linarith
  · subst hc0
    have := hn.exact (k := 0) (f := 0) (by norm_num) (by norm_num) (by simp [mag])
    simp at this
    exact mag_eq_zero.1 this

theorem f64FromF32_inf {x : Word} (h : isInfPattern x) : f64FromF32 x = .inf (x.getLsbD 31) := by
  unfold isInfPattern at h
  unfold f64FromF32
  rw [if_pos (by omega), if_pos (by omega)]

theorem f64FromF32_nan {x : Word} (h : isNanPattern x) : f64FromF32 x = .nan := by
  unfold isNanPattern at h
  unfold f64FromF32
  rw [if_pos h.1, if_neg h.2]

theorem finite_or_inf_or_nan (x : Word) : isFinitePattern x ∨ isInfPattern x ∨ isNanPattern x := by
  unfold isFinitePattern isInfPattern isNanPattern; omega

theorem sumSign_zero (a b : Bool) : sumSign a b 0 = (a && b) := by unfold sumSign; rw [if_pos rfl]

theorem sumSign_ne (a b : Bool) {x : ℚ} (h : x ≠ 0) : sumSign a b x = decide (x < 0) := by unfold sumSign; rw [if_neg h]

end Sys2Proof.Machine
end

