-- ==== Sys2Proof/Laws/Moves.lean ====
section
/-! SUPPORT. Every change one turn can make to the LZMA engine, as one relation with a constructor per kind of change. -/

namespace Sys2Proof.Machine

/-! ### Counters (R31, R153) -/

/-- The RAM `m` may become `m'` by decoding one bit: one counter moves by the rule of R153, or none does. -/
def CounterMove (m m' : List (Nat × Counter)) : Prop :=
  m' = m ∨ ∃ i, m' = sparseSet probDefault m i (probUp (sparseGet probDefault m i)) ∨
    m' = sparseSet probDefault m i (probDown (sparseGet probDefault m i))

/-! ### Moves -/

/-- A turn of the LZMA engine takes `z` to the second argument. -/
inductive LzmaMove (z : Lzma) : Lzma → Prop where
  /-- An error is raised; before it the packet may have decoded bits and updated its distances, its state or `eos`. -/
  | stops (e : ErrCode) (y : Lzma) (hp : z.phase ≠ .idle)
      (he : e = .invalidStreamProperties ∨ e = .prematureEndOfInput ∨ e = .corruptCompressedStream ∨ e = .sizeMismatch)
      (hw : y.window = z.window) (hc : CounterMove z.prob y.prob) (hd : y.done = z.done) (hf : y.eosFlag = z.eosFlag) (ho : y.outPos = z.outPos)
      (hn : z.inCount.toNat ≤ y.inCount.toNat) :
      LzmaMove z { y with err := some e, busy := false, phase := .idle }
  /-- A header byte before the dictionary size is complete. -/
  | dict (n : DWord) (l : Bool) (d : Byte) (k : Nat) (ds : Word) (hp : z.phase ≠ .idle)
      (ha : headerAccepted z.phase = false) (hn : z.inCount.toNat ≤ n.toNat) :
      LzmaMove z { z with inCount := n, inEnded := l, phase := .hdrDict d k ds }
  /-- The properties are accepted (R204 to R206). -/
  | accepts (n : DWord) (l : Bool) (d : Byte) (ds : Word) (x : Word) (u : DWord) (kn : Bool) (p : LzPhase)
      (hp : z.phase ≠ .idle) (ha : headerAccepted z.phase = false) (hv : propsValid d = true)
      (hq : p = .hdrSize 0 0 ∨ p = .rcFirst) (hn : z.inCount.toNat ≤ n.toNat) :
      LzmaMove z { z with
        inCount := n, inEnded := l, dictSize := ds, lc := propsLc d, lp := propsLp d, pb := propsPb d
        dictCheck := dictCheckOf ds, winSize := winSizeOf ds, props := x, usize := u, sizeKnown := kn, phase := p }
  /-- A byte of the size field or a start byte. -/
  | size (n : DWord) (l : Bool) (x : Word) (u : DWord) (kn : Bool) (p : LzPhase)
      (ha : headerAccepted z.phase = true) (hl : inLoop z.phase = false) (ha' : headerAccepted p = true)
      (hl' : inLoop p = false) (hn : z.inCount.toNat ≤ n.toNat) :
      LzmaMove z { z with inCount := n, inEnded := l, props := x, usize := u, sizeKnown := kn, phase := p }
  /-- The last start byte: the loop is entered. -/
  | starts (n : DWord) (l : Bool) (c : Word) (ha : headerAccepted z.phase = true) (hl : inLoop z.phase = false)
      (hn : z.inCount.toNat ≤ n.toNat) :
      LzmaMove z { z with
        inCount := n, inEnded := l, code := c, range := 0xFFFFFFFF
        prob := initCounters (probCount z.lc.toNat z.lp.toNat) z.prob
        state := .litLit, rep0 := 0, rep1 := 0, rep2 := 0, rep3 := 0, prevByte := 0, phase := .loopTop }
  /-- The loop test (R220). -/
  | finishes (hp : z.phase = .loopTop) (hk : z.sizeKnown = true) (hu : z.usize.toNat ≤ z.outPos.toNat) :
      LzmaMove z { z with phase := .flush z.streamPos.toNat .finish }
  | opens (hp : z.phase = .loopTop) (hu : z.sizeKnown = true → z.outPos.toNat < z.usize.toNat) :
      LzmaMove z { z with phase := .packet [] }
  /-- One more decoded bit. -/
  | bit (q : Query) (b : Bool) (bits : List Bool) (s t : State) (hs : s.lz = z) (hp : z.phase = .packet bits)
      (ha : answer q s = .ok b t) :
      LzmaMove z { z.withDecoder t.lz.range t.lz.code t.lz.prob t.lz.inCount t.lz.inEnded with phase := .packet (bits ++ [b]) }
  /-- A literal below the window's end. -/
  | lit (b : Byte) (w : List Host.Cell) (bits : List Bool) (hp : z.phase = .packet bits)
      (hw : z.winPos.toNat + 1 < z.winSize.toNat) (ho : z.outPos.toNat + 1 < 2 ^ 64)
      (hm : Memory.wf z.window = true → Memory.wf w = true) :
      LzmaMove z { z.wrote 1 w with prevByte := b, state := litNext z.state, phase := .loopTop }
  /-- A literal at the window's end. -/
  | litFull (b : Byte) (w : List Host.Cell) (bits : List Bool) (hp : z.phase = .packet bits)
      (hw : z.winPos.toNat + 1 = z.winSize.toNat) (ho : z.outPos.toNat + 1 < 2 ^ 64)
      (hm : Memory.wf z.window = true → Memory.wf w = true) :
      LzmaMove z { z.wrote 1 w with phase := .flush z.streamPos.toNat (.lit b) }
  /-- An accepted end marker. -/
  | marker (bits : List Bool) (hp : z.phase = .packet bits) (hk : z.sizeKnown = true → z.outPos = z.usize) :
      LzmaMove z { z with eos := true, phase := .flush z.streamPos.toNat .finish }
  /-- A copy packet that ends below the window's end; `y` is the engine with its distances and state updated. -/
  | copies (i : Instr) (len : Nat) (y : Lzma) (bits : List Bool) (w : List Host.Cell) (b : Byte) (hp : z.phase = .packet bits)
      (hy : copyOperands i z = some (len, y)) (hd : distanceOk y = true) (hs : sizeOk len y = true) (hl : 0 < len)
      (hw : z.winPos.toNat + len < z.winSize.toNat) (ho : z.outPos.toNat + len < 2 ^ 64)
      (hm : Memory.wf z.window = true → Memory.wf w = true) :
      LzmaMove z { y.wrote len w with prevByte := b, phase := .loopTop }
  /-- A copy packet that reaches the window's end. -/
  | copiesFull (i : Instr) (len n src : Nat) (y : Lzma) (bits : List Bool) (w : List Host.Cell) (hp : z.phase = .packet bits)
      (hy : copyOperands i z = some (len, y)) (hd : distanceOk y = true) (hs : sizeOk len y = true) (h0 : 0 < n) (hn : n ≤ len)
      (hw : z.winPos.toNat + n = z.winSize.toNat) (ho : z.outPos.toNat + n < 2 ^ 64)
      (hm : Memory.wf z.window = true → Memory.wf w = true) :
      LzmaMove z { y.wrote n w with phase := .flush z.streamPos.toNat (.copy (len - n) src) }
  /-- A flush offers its next byte. -/
  | emits (j : Nat) (c : FlushCont) (hp : z.phase = .flush j c) (hj : j < z.winPos.toNat) :
      LzmaMove z { z with dout := some (sparseGet windowDefault z.window j), phase := .flush (j + 1) c }
  /-- The final flush is over (R216). -/
  | ends (j : Nat) (v : Word) (hp : z.phase = .flush j .finish) (hj : z.winPos.toNat ≤ j)
      (hv : v = if z.winPos = z.winSize then 0 else z.winPos) (hd : z.dout = none) :
      LzmaMove z { z with winPos := v, streamPos := v, eosFlag := z.eos, done := true, busy := false, phase := .idle }
  /-- A flush inside a literal is over. -/
  | litGoesOn (j : Nat) (b : Byte) (v : Word) (hp : z.phase = .flush j (.lit b)) (hj : z.winPos.toNat ≤ j)
      (hv : v = if z.winPos = z.winSize then 0 else z.winPos) :
      LzmaMove z { z with winPos := v, streamPos := v, prevByte := b, state := litNext z.state, phase := .loopTop }
  /-- A flush inside a copy is over and the copy ends below the window's end. -/
  | copyGoesOn (j rem src : Nat) (v : Word) (w : List Host.Cell) (b : Byte) (hp : z.phase = .flush j (.copy rem src))
      (hj : z.winPos.toNat ≤ j) (hv : v = if z.winPos = z.winSize then 0 else z.winPos)
      (hw : 0 < rem → v.toNat + rem < z.winSize.toNat) (ho : z.outPos.toNat + rem < 2 ^ 64)
      (hm : Memory.wf z.window = true → Memory.wf w = true) :
      LzmaMove z { ({ z with winPos := v, streamPos := v } : Lzma).wrote rem w with prevByte := b, phase := .loopTop }
  /-- It reaches the window's end again. -/
  | copyGoesOnFull (j rem src n src' : Nat) (v : Word) (w : List Host.Cell) (hp : z.phase = .flush j (.copy rem src))
      (hj : z.winPos.toNat ≤ j) (hv : v = if z.winPos = z.winSize then 0 else z.winPos) (h0 : 0 < n) (hn : n ≤ rem)
      (hw : v.toNat + n = z.winSize.toNat) (ho : z.outPos.toNat + n < 2 ^ 64)
      (hm : Memory.wf z.window = true → Memory.wf w = true) :
      LzmaMove z { ({ z with winPos := v, streamPos := v } : Lzma).wrote n w with
        phase := .flush v.toNat (.copy (rem - n) src') }

/-- `ReadIn` counts the byte. -/
theorem readIn_inCount {s t : State} {b : Byte} (h : readIn s = .ok b t) :
    ∃ n l, s.lz.inCount.toNat ≤ n.toNat ∧ t.lz = { s.lz with inCount := n, inEnded := l } := by
  obtain ⟨last, rest, _, _, hn, rfl⟩ := readIn_ok h
  refine ⟨s.lz.inCount + 1, last, ?_, rfl⟩
  have h1 := s.lz.inCount.isLt
  have h2 : s.lz.inCount.toNat ≠ 2 ^ 64 - 1 := by
    intro e; apply hn; apply BitVec.eq_of_toNat_eq; simpa using e
  rw [BitVec.toNat_add]; simp; omega

theorem normalize_inCount {s t : State} (h : Machine.normalize s = .ok () t) : s.lz.inCount.toNat ≤ t.lz.inCount.toNat := by
  unfold Machine.normalize at h
  split at h
  · obtain ⟨b, u, hu, ht⟩ := bind_ok h
    obtain ⟨n, l, hn, e⟩ := readIn_inCount hu
    cases ht
    simp only [e]; exact hn
  · cases h; exact le_rfl

/-- Decoding a bit counts the byte it takes. -/
theorem answer_inCount {q : Query} {s t : State} {b : Bool} (h : answer q s = .ok b t) :
    s.lz.inCount.toNat ≤ t.lz.inCount.toNat := by
  cases q with
  | counter i =>
    obtain ⟨_, ⟨_, _, h⟩ | ⟨_, _, h⟩⟩ := decodeBit_ok h
    · exact normalize_inCount (s := bitZero i s) h
    · exact normalize_inCount (s := bitOne i s) h
  | direct =>
    rcases directBit_ok h with ⟨_, _, h⟩ | ⟨_, _, h⟩
    · exact normalize_inCount (s := directZero s) h
    · exact normalize_inCount (s := directOne s) h

theorem normalize_prob {s t : State} (h : Machine.normalize s = .ok () t) : t.lz.prob = s.lz.prob := by
  rcases normalize_ok h with ⟨_, rfl⟩ | ⟨_, _, h, _⟩
  · rfl
  · exact h

theorem answer_prob {q : Query} {s t : State} {b : Bool} (h : answer q s = .ok b t) : CounterMove s.lz.prob t.lz.prob := by
  cases q with
  | counter i =>
    obtain ⟨_, ⟨_, _, h⟩ | ⟨_, _, h⟩⟩ := decodeBit_ok h
    · exact .inr ⟨i, .inl (normalize_prob h)⟩
    · exact .inr ⟨i, .inr (normalize_prob h)⟩
  | direct =>
    rcases directBit_ok h with ⟨_, _, h⟩ | ⟨_, _, h⟩
    · exact .inl (normalize_prob (s := directZero s) h)
    · exact .inl (normalize_prob (s := directOne s) h)

theorem answer_raised_prob {q : Query} {s t : State} {e : ErrCode} (h : answer q s = .raised e t) :
    CounterMove s.lz.prob t.lz.prob := by
  cases q with
  | counter i =>
    rcases decodeBit_raised h with h | h
    · exact .inr ⟨i, .inl (normalize_raised h).2.2.1⟩
    · exact .inr ⟨i, .inr (normalize_raised h).2.2.1⟩
  | direct =>
    rcases directBit_raised h with h | h
    · exact .inl (normalize_raised (s := directZero s) h).2.2.1
    · exact .inl (normalize_raised (s := directOne s) h).2.2.1

theorem normalize_raised_inCount {s t : State} {e : ErrCode} (h : Machine.normalize s = .raised e t) :
    t.lz.inCount = s.lz.inCount := by
  unfold Machine.normalize at h
  split at h
  · rcases bind_raised h with h | ⟨_, _, _, h⟩
    · obtain ⟨_, rfl, _⟩ := readIn_raised h; rfl
    · cases h
  · cases h

theorem answer_raised_inCount {q : Query} {s t : State} {e : ErrCode} (h : answer q s = .raised e t) :
    t.lz.inCount = s.lz.inCount := by
  cases q with
  | counter i =>
    rcases decodeBit_raised h with h | h
    · exact normalize_raised_inCount (s := bitZero i s) h
    · exact normalize_raised_inCount (s := bitOne i s) h
  | direct =>
    rcases directBit_raised h with h | h
    · exact normalize_raised_inCount (s := directZero s) h
    · exact normalize_raised_inCount (s := directOne s) h

theorem CounterMove.wf {m m' : List (Nat × Counter)} (h : CounterMove m m') (hm : probWf m = true) : probWf m' = true := by
  rcases h with rfl | ⟨i, rfl | rfl⟩
  · exact hm
  · exact sparseSet_wf _ _ _ 0 _ (Nat.zero_le _) hm
  · exact sparseSet_wf _ _ _ 0 _ (Nat.zero_le _) hm

theorem probUp_toNat {p : Counter} : (probUp p).toNat = p.toNat + (2048 - p.toNat) / 32 := by
  have := p.isLt
  rw [probUp, BitVec.toNat_ofNat, Nat.mod_eq_of_lt (by omega)]

theorem probDown_toNat {p : Counter} : (probDown p).toNat = p.toNat - p.toNat / 32 := by
  have := p.isLt
  have h : (p >>> 5).toNat = p.toNat / 32 := by simp [Nat.shiftRight_eq_div_pow]
  rw [probDown, BitVec.toNat_sub_of_le (by rw [BitVec.le_def, h]; omega), h]

/-- A counter in 31..2017 stays there (R31). -/
theorem counterOk_up {p : Counter} (h : counterOk p) : counterOk (probUp p) := by
  unfold counterOk at *; rw [probUp_toNat]; omega

theorem counterOk_down {p : Counter} (h : counterOk p) : counterOk (probDown p) := by
  unfold counterOk at *; rw [probDown_toNat]; omega

theorem CounterMove.bounded {m m' : List (Nat × Counter)} (h : CounterMove m m') (hw : probWf m = true)
    (hm : ∀ i, counterOk (sparseGet probDefault m i)) (i : Nat) : counterOk (sparseGet probDefault m' i) := by
  have key : ∀ (j : Nat) (v : Counter), counterOk v → counterOk (sparseGet probDefault (sparseSet probDefault m j v) i) := by
    intro j v hv
    by_cases hij : i = j
    · subst hij; rw [sparseGet_set_same _ _ _ 0 _ hw]; exact hv
    · rw [sparseGet_set_other _ hij]; exact hm i
  rcases h with rfl | ⟨j, rfl | rfl⟩
  · exact hm i
  · exact key j _ (counterOk_up (hm j))
  · exact key j _ (counterOk_down (hm j))

/-! ### Every turn is a move -/

theorem header_move {d : Byte} {ds : Word} {s : State} {z : Lzma} {n : DWord} {l : Bool} (hp : z.phase ≠ .idle)
    (ha : headerAccepted z.phase = false) (hn : z.inCount.toNat ≤ n.toNat)
    (hs : s.lz = { z with inCount := n, inEnded := l }) : LzmaMove z (headerCheck d (headerValues d ds s)).lz := by
  have hlz : (headerValues d ds s).lz = { z with
      inCount := n, inEnded := l, props := propsSetRaw d z.props, dictSize := ds
      lc := propsLc d, lp := propsLp d, pb := propsPb d, dictCheck := dictCheckOf ds, winSize := winSizeOf ds } := by
    simp only [headerValues, hs]
  have bad : LzmaMove z (raise .lzma .invalidStreamProperties (headerValues d ds s)).lz := by
    rw [raise_lzma_lz, hlz]
    exact .stops .invalidStreamProperties _ hp (.inl rfl) rfl (.inl rfl) rfl rfl rfl hn
  unfold headerCheck
  split
  · exact bad
  · next hv =>
    have hv : propsValid d = true := by simpa using hv
    split
    · exact bad
    · split
      · exact bad
      · unfold headerAccept
        split
        · simp only [hlz]
          exact .accepts n l d ds _ z.usize z.sizeKnown _ hp ha hv (.inl rfl) hn
        · generalize BitVec.allOnes 64 = u
          unfold headerSize
          rw [hlz]
          exact .accepts n l d ds _ u _ _ hp ha hv (.inr rfl) hn

theorem copyStep_move {i : Instr} {len : Nat} {y : Lzma} {bits : List Bool} {s t : State} (hp : s.lz.phase = .packet bits)
    (hy : copyOperands i s.lz = some (len, y)) (hl : 0 < len) (h : copyStep len { s with lz := y } = .next t) :
    LzmaMove s.lz t.lz := by
  have hu := copyOperands_updates hy
  have e1 : y.winPos = s.lz.winPos := by rw [hu]
  have e2 : y.winSize = s.lz.winSize := by rw [hu]
  have e3 : y.outPos = s.lz.outPos := by rw [hu]
  have e4 : y.window = s.lz.window := by rw [hu]
  have e5 : y.streamPos = s.lz.streamPos := by rw [hu]
  rcases copyStep_next h with ⟨_, rfl⟩ | ⟨_, _, rfl⟩ | ⟨hd, hs, _, h⟩
  · exact .stops .corruptCompressedStream y (by simp [hp]) (.inr (.inr (.inl rfl))) e4 (.inl (by rw [hu])) (by rw [hu])
      (by rw [hu]) e3 (by rw [hu])
  · exact .stops .sizeMismatch y (by simp [hp]) (.inr (.inr (.inr rfl))) e4 (.inl (by rw [hu])) (by rw [hu])
      (by rw [hu]) e3 (by rw [hu])
  · obtain ⟨n, w, hn, ho, hm, ⟨rfl, hw, b, _, rfl⟩ | ⟨h0, hw, src, rfl⟩⟩ := copyRun_next _ _ h
    · simp only [e1, e2, e3, e4] at hw ho hm
      exact .copies i n y bits w b hp hy hd hs hl (hw hl) ho hm
    · simp only [e1, e2, e3, e4] at hw ho hm
      have := LzmaMove.copiesFull i len n src y bits w hp hy hd hs h0 hn hw ho hm
      rw [← e5] at this
      exact this

theorem wf_len {i : Instr} (hi : i.wf = true) {len : Nat} {y z : Lzma} (hy : copyOperands i z = some (len, y)) : 0 < len := by
  cases i <;> simp only [copyOperands, Option.some.injEq, Prod.mk.injEq, reduceCtorEq] at hy <;> obtain ⟨rfl, rfl⟩ := hy <;>
    simp [Instr.wf, lenOk] at hi <;> omega

theorem packet_move {i : Instr} {bits : List Bool} {s t : State} (hp : s.lz.phase = .packet bits) (hi : isPacket i = true)
    (hwf : i.wf = true) (h : exec i s = .next t) : LzmaMove s.lz t.lz := by
  rcases packet_cases hi s.lz with ⟨b, rfl⟩ | ⟨len, rfl⟩ | ⟨len, y, hy⟩
  · obtain ⟨hw, ho, hc⟩ := putLiteral_next h
    have hop := appended_outPos b ho
    have hlt := (appended b s).lz.outPos.isLt
    have hm : Memory.wf s.lz.window = true → Memory.wf (appended b s).lz.window = true :=
      sparseSet_wf _ _ _ 0 _ (Nat.zero_le _)
    have e : (appended b s).lz = s.lz.wrote 1 (appended b s).lz.window := by
      have := appended_wrote b s 0 (appended b s).lz.window
      rw [wrote_zero] at this
      exact this
    rcases hc with ⟨he, rfl⟩ | ⟨he, rfl⟩
    · rw [beginFlush_lz, e]
      exact .litFull b _ bits hp he (by omega) hm
    · rw [endLit_lz, e]
      exact .lit b _ bits hp he (by omega) hm
  · rcases execEos_next h with ⟨_, _, rfl⟩ | ⟨hk, rfl⟩
    · exact .stops .sizeMismatch { s.lz with eos := true } (by simp [hp]) (.inr (.inr (.inr rfl))) rfl (.inl rfl) rfl rfl rfl le_rfl
    · exact .marker bits hp hk
  · rw [exec_copy hy] at h
    exact copyStep_move hp hy (wf_len hwf hy) h

/-- Every turn of the LZMA engine that goes on is a move. -/
theorem lzmaTurn_move {s t : State} (h : lzmaTurn s = some (.next t)) : LzmaMove s.lz t.lz := by
  obtain ⟨_, hdo, ⟨hp, d, u, hr, rfl⟩ | ⟨d, k, ds, hp, b, u, hr, rfl⟩ | ⟨k, v, hp, b, u, hr, rfl⟩ | ⟨hp, b, u, hr, rfl⟩ |
    ⟨k, c, hp, b, u, hr, rfl⟩ | ⟨hp, hl, _, rfl⟩ | ⟨hp, rfl⟩ | ⟨bits, hp, ht⟩ | ⟨j, c, hp, hf⟩⟩ := lzmaTurn_next h
  · obtain ⟨n, l, hn, hu⟩ := readIn_inCount hr
    rw [toPhase_lz, hu]
    exact .dict _ _ d 0 0 (by simp [hp]) (by simp [hp, headerAccepted]) hn
  · obtain ⟨n, l, hn, hu⟩ := readIn_inCount hr
    unfold dictByte
    split
    · rw [toPhase_lz, hu]
      exact .dict _ _ d _ _ (by simp [hp]) (by simp [hp, headerAccepted]) hn
    · exact header_move (by simp [hp]) (by simp [hp, headerAccepted]) hn hu
  · obtain ⟨n, l, hn, hu⟩ := readIn_inCount hr
    unfold sizeByte
    split
    · rw [toPhase_lz, hu]
      exact .size _ _ _ _ _ _ (by simp [hp, headerAccepted]) (by simp [hp, inLoop]) rfl rfl hn
    · simp only [headerSize, hu]
      exact .size _ _ _ _ _ _ (by simp [hp, headerAccepted]) (by simp [hp, inLoop]) rfl rfl hn
  · obtain ⟨n, l, hn, hu⟩ := readIn_inCount hr
    rw [toPhase_lz, hu]
    exact .size _ _ _ _ _ _ (by simp [hp, headerAccepted]) (by simp [hp, inLoop]) rfl rfl hn
  · obtain ⟨n, l, hn, hu⟩ := readIn_inCount hr
    unfold codeByte
    split
    · rw [toPhase_lz, hu]
      exact .size _ _ _ _ _ _ (by simp [hp, headerAccepted]) (by simp [hp, inLoop]) rfl rfl hn
    · simp only [startPackets, hu]
      exact .starts _ _ _ (by simp [hp, headerAccepted]) (by simp [hp, inLoop]) hn
  · exact .stops .prematureEndOfInput s.lz hp (.inr (.inl rfl)) rfl (.inl rfl) rfl rfl rfl le_rfl
  · unfold loopTest
    split
    · next hc =>
      simp only [Bool.and_eq_true, decide_eq_true_eq] at hc
      exact .finishes hp hc.1 hc.2
    · next hc =>
      simp only [Bool.and_eq_true, decide_eq_true_eq, not_and, not_le] at hc
      exact .opens hp hc
  · rcases packetTurn_next ht with ⟨i, r, hw, he⟩ | ⟨q, b, u, ha, rfl⟩ | ⟨q, e, u, ha, rfl⟩
    · exact packet_move hp (packet_of_walk hw).1 (packet_of_walk hw).2 he
    · have hd := answer_ok ha
      have : (toPhase (.packet (bits ++ [b])) u).lz =
          { s.lz.withDecoder u.lz.range u.lz.code u.lz.prob u.lz.inCount u.lz.inEnded with phase := .packet (bits ++ [b]) } := by
        rw [toPhase_lz]
        conv_lhs => rw [hd]
      rw [this]
      exact .bit q b bits s u rfl hp ha
    · obtain ⟨rfl, hd⟩ := answer_raised ha
      have hc := answer_raised_prob ha
      have hn := answer_raised_inCount ha
      have hz : u.lz = s.lz.withDecoder u.lz.range u.lz.code u.lz.prob u.lz.inCount u.lz.inEnded := by
        conv_lhs => rw [hd]
      rw [raise_lzma_lz]
      have hrot : ∀ x : Lzma, rotateEarly bits x = { x with
          rep0 := (rotateEarly bits x).rep0, rep1 := (rotateEarly bits x).rep1
          rep2 := (rotateEarly bits x).rep2, rep3 := (rotateEarly bits x).rep3 } := by
        intro x; unfold rotateEarly; split <;> rfl
      have g := hrot u.lz
      refine .stops .prematureEndOfInput (rotateEarly bits u.lz) (by simp [hp]) (.inr (.inl rfl)) ?_ ?_ ?_ ?_ ?_ ?_
      · rw [g, hz]; rfl
      · rw [g]; exact hc
      · rw [g, hz]; rfl
      · rw [g, hz]; rfl
      · rw [g, hz]; rfl
      · rw [g]; exact le_of_eq (congrArg BitVec.toNat hn.symm)
  · rcases flushTurn_next hf with ⟨hj, _, rfl⟩ | ⟨hj, h⟩
    · exact .emits j c hp hj
    · cases c with
      | lit b =>
        cases h
        rw [endLit_lz, endFlush_lz]
        exact .litGoesOn j b _ hp hj rfl
      | finish =>
        cases h
        rw [endDecode_lz, endFlush_lz]
        exact .ends j _ hp hj rfl hdo
      | copy rem src =>
        obtain ⟨n, w, hn, ho, hm, ⟨rfl, hw, b, _, rfl⟩ | ⟨h0, hw, src', rfl⟩⟩ := copyRun_next _ _ (show copyRun rem src _ = .next t from h)
        · exact .copyGoesOn j n src _ w b hp hj rfl hw ho hm
        · exact .copyGoesOnFull j rem src n src' _ w hp hj rfl h0 hn hw ho hm

end Sys2Proof.Machine
end

