-- ==== Sys2Proof/Laws/Parser.lean ====
section
/-! SUPPORT. What the loop tests of the record arrays and a completed field do to the parser's status and cursor. -/

namespace Sys2Proof.Machine

/-- Status, cursor, header registers and held entries' end: what no loop test of the record arrays touches, and that the parser
runs on. -/
def RecordStep (s t : State) : Prop :=
  t.ps.err = s.ps.err ∧ t.ps.done = s.ps.done ∧ t.ps.busy = s.ps.busy ∧ t.ps.hdrValid = s.ps.hdrValid ∧
    t.ps.bitpos = s.ps.bitpos ∧ t.ps.bcTemperature = s.ps.bcTemperature ∧ t.ps.bcTemperatureIndex = s.ps.bcTemperatureIndex ∧
    t.ps.bcMonthDelta = s.ps.bcMonthDelta ∧ t.ps.bcBinIndex = s.ps.bcBinIndex ∧ t.ps.phase ≠ .idle ∧
    inHeader t.ps.phase = false

theorem nextLocation_record (s : State) : RecordStep s (nextLocation s) := by
  unfold nextLocation readField; split
  · simp [RecordStep, inHeader, headerField]
  · split <;> simp [RecordStep, inHeader]

theorem startLocations_record (s : State) : RecordStep s (startLocations s) := by
  have h := nextLocation_record { s with ps := { s.ps with heldLocValid := false, pI := 0 } }
  exact h

theorem nextBin_record (s : State) : RecordStep s (nextBin s) := by
  unfold nextBin readField; split
  · simp [RecordStep, inHeader, headerField]
  · split <;> simp [RecordStep, inHeader]

theorem startBins_record (s : State) : RecordStep s (startBins s) := by
  have h := nextBin_record { s with ps := { s.ps with heldBinValid := false, pI := 0 } }
  exact h

theorem nextTemperature_record (s : State) : RecordStep s (nextTemperature s) := by
  unfold nextTemperature; split
  · simp [RecordStep, readField, inHeader, headerField]
  · exact startBins_record s

/-- A completed field goes on with the status as it was, or raises one of three errors (R275, R276, R278). -/
theorem fieldDone_status (f : PField) (v : Word) (s : State) :
    ((fieldDone f v s).ps.err = s.ps.err ∧ (fieldDone f v s).ps.done = s.ps.done ∧ (fieldDone f v s).ps.busy = s.ps.busy ∧
        (fieldDone f v s).ps.phase ≠ .idle) ∨
      ∃ e u, (e = .magicMismatch ∨ e = .unsupportedVersion ∨ e = .invalidFieldWidth) ∧
        fieldDone f v s = raise .parser e u ∧ u.ps.done = s.ps.done := by
  cases f <;> unfold fieldDone <;> dsimp only
  case magic k =>
    split
    · split <;> simp [readField]
    · exact .inr ⟨_, _, .inl rfl, rfl, rfl⟩
  case version =>
    split
    · simp [readField]
    · exact .inr ⟨_, _, .inr (.inl rfl), rfl, rfl⟩
  case bcBinIndex =>
    unfold checkWidths; split
    · exact .inr ⟨_, _, .inr (.inr rfl), rfl, rfl⟩
    · obtain ⟨h1, h2, h3, _, _, _, _, _, _, h4, _⟩ :=
        nextTemperature_record { s with ps := { s.ps with bcBinIndex := v.setWidth 8, hdrValid := true, pI := 0 } }
      exact .inl ⟨h1, h2, h3, h4⟩
  case tempCode => left; unfold offerTemperature; split <;> simp
  case binTempIndex md => left; unfold offerBin; split <;> simp
  case locBinIndex la lo => left; unfold offerLocation; split <;> simp
  all_goals (left; simp [readField])

end Sys2Proof.Machine
end

