-- ==== Sys2Proof/Laws/Output.lean ====
section
/-! SUPPORT. What the window routines do to the decoded sequence and to what of it is delivered (R224, R253, R257). -/

namespace Sys2Proof.Machine

/-- The window law depends on the window, its size, its position and `out_pos` only. -/
theorem windowHolds_congr {out : List Byte} {s t : State} (h1 : t.lz.outPos = s.lz.outPos) (h2 : t.lz.winSize = s.lz.winSize)
    (h3 : t.lz.winPos = s.lz.winPos) (h4 : t.lz.window = s.lz.window) (h : WindowHolds out s) : WindowHolds out t := by
  refine ⟨by rw [h1]; exact h.1, fun d hd hw => ?_⟩
  have := h.2 d hd (by rw [← h2]; exact hw)
  simpa [getByte, backIndex, memRead, h2, h3, h4] using this

/-- An appended byte becomes the last of the decoded sequence. -/
theorem windowHolds_append {out : List Byte} {s : State} (b : Byte) (hw : Memory.wf s.lz.window = true)
    (hlt : s.lz.winPos.toNat < s.lz.winSize.toNat)
    (ho : s.lz.outPos ≠ BitVec.allOnes 64) (h : WindowHolds out s) : WindowHolds (out ++ [b]) (appended b s) := by
  have hwp := appended_winPos b hlt
  have hop := appended_outPos b ho
  have hW := s.lz.winSize.isLt
  have hws : (appended b s).lz.winSize = s.lz.winSize := rfl
  refine ⟨by rw [List.length_append, hop, h.1]; rfl, fun d hd hdw => ?_⟩
  rw [hws] at hdw
  simp only [List.length_append, List.length_singleton] at hd
  have hsame : sparseGet windowDefault (appended b s).lz.window s.lz.winPos.toNat = b := sparseGet_set_same _ _ _ 0 _ hw
  have hoth : ∀ a, a ≠ s.lz.winPos.toNat → sparseGet windowDefault (appended b s).lz.window a = sparseGet windowDefault s.lz.window a :=
    fun a ha => sparseGet_set_other _ ha _ _
  by_cases h0 : d.toNat = 0
  · unfold getByte backIndex
    rw [hwp, h0]
    rw [if_neg (show ¬ (((s.lz.winPos.toNat + 1 : Nat) : Int) - (0 : Nat) - 1 < 0) by omega), if_neg (by omega)]
    unfold memRead
    rw [show (((s.lz.winPos.toNat + 1 : Nat) : Int) - (0 : Nat) - 1).toNat = s.lz.winPos.toNat by omega, hws, if_pos hlt, hsame]
    simp
  · have := h.2 (d - 1)
    have hd1 : (d - 1).toNat = d.toNat - 1 := by
      rw [BitVec.toNat_sub_of_le (by rw [BitVec.le_def]; simp; omega)]; rfl
    rw [hd1] at this
    have := this (by omega) (by omega)
    rw [List.length_append, List.length_singleton, List.getElem?_append_left (by omega)]
    rw [show out.length + 1 - d.toNat - 1 = out.length - (d.toNat - 1) - 1 by omega, ← this]
    unfold getByte
    have hb : backIndex d (appended b s) = backIndex (d - 1) s := by
      unfold backIndex; rw [hwp, hd1, hws];
      by_cases hc : (s.lz.winPos.toNat : Int) - ((d.toNat - 1 : Nat) : Int) - 1 < 0
      · rw [if_pos hc, if_pos (by omega)]; omega
      · rw [if_neg hc, if_neg (by omega)]; omega
    rw [hb]
    split
    · rfl
    · next hn =>
      unfold memRead
      rw [hws]
      split
      · rw [hoth]
        unfold backIndex
        rw [hd1]
        split <;> omega
      · rfl

/-- A copy only appends to the decoded sequence. -/
theorem copyRun_holds : ∀ (rem src : Nat) {s t : State} {out : List Byte}, Memory.wf s.lz.window = true → WindowHolds out s →
    copyRun rem src s = .next t → ∃ more, WindowHolds (out ++ more) t
  | 0, src, s, t, out, hw, h, he => by
    rw [copyRun] at he
    obtain ⟨b, _, rfl⟩ := endCopy_next he
    exact ⟨[], by rw [List.append_nil]; exact windowHolds_congr rfl rfl rfl rfl h⟩
  | rem + 1, src, s, t, out, hw, h, he => by
    rw [copyRun] at he
    split at he
    · cases he
    · next b hb =>
      obtain ⟨hlt, ho, he⟩ := appendByte_next he
      have h1 := windowHolds_append b hw hlt ho h
      have hw1 : Memory.wf (appended b s).lz.window = true := sparseSet_wf _ _ _ 0 _ (Nat.zero_le _) hw
      split at he
      · cases he
        exact ⟨[b], windowHolds_congr rfl rfl rfl rfl h1⟩
      · obtain ⟨more, hm⟩ := copyRun_holds rem _ hw1 h1 he
        exact ⟨b :: more, by simpa using hm⟩

/-- The end of a flush loses nothing of it (R253). -/
theorem endFlush_holds {s : State} {out : List Byte} (h : WindowHolds out s) : WindowHolds out (endFlush s) := by
  by_cases hc : s.lz.winPos = s.lz.winSize
  · refine ⟨h.1, fun d hd hdw => ?_⟩
    have hdw' : d.toNat < s.lz.winSize.toNat := hdw
    have := h.2 d hd hdw'
    rw [← this]
    unfold getByte
    have e : backIndex d (endFlush s) = backIndex d s := by
      unfold backIndex
      have e1 : (endFlush s).lz.winPos = 0 := by rw [endFlush_lz, if_pos hc]
      have e2 : (endFlush s).lz.winSize = s.lz.winSize := rfl
      rw [e1, e2, hc]
      rw [if_pos (show (((0 : Word).toNat : Int) - d.toNat - 1 < 0) by simp; omega), if_neg (by omega)]
      simp; omega
    rw [e]; rfl
  · exact windowHolds_congr (s := s) rfl rfl (by rw [endFlush_lz, if_neg hc]) rfl h

theorem delivered_congr {given out : List Byte} {s t : State} (hz : t.lz = s.lz) (hh : t.host.doutLog = s.host.doutLog)
    (h : Delivered given out s) : Delivered given out t := by
  obtain ⟨a, b, c⟩ := h
  exact ⟨windowHolds_congr (by rw [hz]) (by rw [hz]) (by rw [hz]) (by rw [hz]) a, by rw [hz]; exact b, by rw [hz, hh]; exact c⟩

theorem delivered_takeDout {given out : List Byte} {s : State} (h : Delivered given out s) : Delivered given out (takeDout s) := by
  unfold takeDout
  split
  · next b hb =>
    obtain ⟨a, c, d⟩ := h
    refine ⟨windowHolds_congr rfl rfl rfl rfl a, c, ?_⟩
    rw [hb] at d
    simpa [unflushed] using d
  · exact h

/-- A move inside the loop that starts with nothing offered: it offers the flush's next byte, or it offers none and as many bytes of
the decoded sequence are flushed after it as before. -/
theorem lzmaMove_delivers {z y : Lzma} (h : LzmaMove z y) (hg : inLoop z.phase = true → pointersOk z)
    (hl : inLoop z.phase = true) (hl' : inLoop y.phase = true) (hd : z.dout = none)
    (hu : unflushed z ≤ z.outPos.toNat) :
    (y.dout = none ∧ unflushed y ≤ y.outPos.toNat ∧ y.outPos.toNat - unflushed y = z.outPos.toNat - unflushed z ∧
      z.outPos.toNat ≤ y.outPos.toNat) ∨
      ∃ j c, z.phase = .flush j c ∧ j < z.winPos.toNat ∧ y = { z with
        dout := some (sparseGet windowDefault z.window j), phase := .flush (j + 1) c } := by
  have hW := z.winSize.isLt
  have hp := hg hl
  have hO := z.outPos.isLt
  cases h with
  | stops e y hp he hw hc hd hf ho hn => simp [inLoop] at hl'
  | dict n l d k ds hp ha hn => simp [inLoop] at hl'
  | accepts n l d ds x u kn p hp ha hv hq hn => rcases hq with rfl | rfl <;> simp [inLoop] at hl'
  | size n l x u kn p ha hl2 => rw [hl] at hl2; cases hl2
  | starts n l c ha hl2 => rw [hl] at hl2; cases hl2
  | finishes hph hk hu2 => left; refine ⟨hd, ?_⟩; simp_all [unflushed]
  | opens hph hu2 => left; refine ⟨hd, ?_⟩; simp_all [unflushed]
  | bit q b bits s t hs hph ha => left; refine ⟨hd, ?_⟩; simp_all [unflushed, Lzma.withDecoder]
  | lit b w bits hph hw ho hm =>
    left; refine ⟨hd, ?_⟩
    simp only [unflushed, pointersOk, hph, Lzma.wrote, BitVec.toNat_add, BitVec.toNat_ofNat] at hu hp ⊢
    rw [Nat.mod_eq_of_lt (show z.winPos.toNat + 1 % 2^32 < 2^32 by omega), Nat.mod_eq_of_lt (show z.outPos.toNat + 1 % 2^64 < 2^64 by omega)]
    omega
  | litFull b w bits hph hw ho hm =>
    left; refine ⟨hd, ?_⟩
    simp only [unflushed, pointersOk, hph, Lzma.wrote, BitVec.toNat_add, BitVec.toNat_ofNat] at hu hp ⊢
    rw [Nat.mod_eq_of_lt (show z.winPos.toNat + 1 % 2^32 < 2^32 by omega), Nat.mod_eq_of_lt (show z.outPos.toNat + 1 % 2^64 < 2^64 by omega)]
    omega
  | marker bits hph hk => left; refine ⟨hd, ?_⟩; simp_all [unflushed]
  | copies i len y bits w b hph hy hd2 hs hl0 hw ho hm =>
    have := copyOperands_updates hy
    have e1 : y.winPos = z.winPos := by rw [this]
    have e2 : y.outPos = z.outPos := by rw [this]
    have e3 : y.streamPos = z.streamPos := by rw [this]
    have e4 : y.dout = z.dout := by rw [this]
    left; refine ⟨e4.trans hd, ?_⟩
    simp only [unflushed, pointersOk, hph, Lzma.wrote, BitVec.toNat_add, BitVec.toNat_ofNat, e1, e2, e3] at hu hp ⊢
    rw [Nat.mod_eq_of_lt (show len < 2^32 by omega), Nat.mod_eq_of_lt (show len < 2^64 by omega),
      Nat.mod_eq_of_lt (show z.winPos.toNat + len < 2^32 by omega), Nat.mod_eq_of_lt (show z.outPos.toNat + len < 2^64 by omega)]
    omega
  | copiesFull i len n src y bits w hph hy hd2 hs h0 hn hw ho hm =>
    have := copyOperands_updates hy
    have e1 : y.winPos = z.winPos := by rw [this]
    have e2 : y.outPos = z.outPos := by rw [this]
    have e3 : y.streamPos = z.streamPos := by rw [this]
    have e4 : y.dout = z.dout := by rw [this]
    left; refine ⟨e4.trans hd, ?_⟩
    simp only [unflushed, pointersOk, hph, Lzma.wrote, BitVec.toNat_add, BitVec.toNat_ofNat, e1, e2, e3] at hu hp ⊢
    rw [Nat.mod_eq_of_lt (show n < 2^32 by omega), Nat.mod_eq_of_lt (show n < 2^64 by omega),
      Nat.mod_eq_of_lt (show z.winPos.toNat + n < 2^32 by omega), Nat.mod_eq_of_lt (show z.outPos.toNat + n < 2^64 by omega)]
    omega
  | emits j c hph hj => right; exact ⟨j, c, hph, hj, rfl⟩
  | ends => simp [inLoop] at hl'
  | litGoesOn j b v hph hj hv =>
    left; refine ⟨hd, ?_⟩
    simp only [unflushed, hph] at hu ⊢; omega
  | copyGoesOn j rem src v w b hph hj hv hw ho hm =>
    left; refine ⟨hd, ?_⟩
    have hvl : v.toNat + rem < 2^32 := by
      rcases Nat.eq_zero_or_pos rem with rfl | h0
      · have := v.isLt; omega
      · have := hw h0; omega
    simp only [unflushed, hph, Lzma.wrote, BitVec.toNat_add, BitVec.toNat_ofNat] at hu ⊢
    rw [Nat.mod_eq_of_lt (show rem < 2^32 by omega), Nat.mod_eq_of_lt (show rem < 2^64 by omega),
      Nat.mod_eq_of_lt (show v.toNat + rem < 2^32 by omega), Nat.mod_eq_of_lt (show z.outPos.toNat + rem < 2^64 by omega)]
    omega
  | copyGoesOnFull j rem src n src' v w hph hj hv h0 hn hw ho hm =>
    left; refine ⟨hd, ?_⟩
    simp only [unflushed, hph, Lzma.wrote, BitVec.toNat_add, BitVec.toNat_ofNat] at hu ⊢
    rw [Nat.mod_eq_of_lt (show n < 2^32 by omega), Nat.mod_eq_of_lt (show n < 2^64 by omega),
      Nat.mod_eq_of_lt (show v.toNat + n < 2^32 by omega), Nat.mod_eq_of_lt (show z.outPos.toNat + n < 2^64 by omega)]
    omega

end Sys2Proof.Machine
end

