-- ==== Sys2Proof/Laws/PerInstr.lean ====
section
/-! SUPPORT. The per-instruction family `WordShape`: the word of a well-formed instruction opens with the prefix of R106 and
has at most 48 bits, or is the one CMD bit of R38. -/

namespace Sys2Proof

theorem encodeLen_length (len : Nat) : (encodeLen len).length ≤ 10 := by
  unfold encodeLen; split
  · simp [bitsMsb_length]
  · split <;> simp [bitsMsb_length]

theorem slotExtraBits_le {slot : Nat} (h : slot < 64) : slotExtraBits slot ≤ 30 := by
  unfold slotExtraBits; split <;> omega

theorem encodeDist_length (dist : Nat) (h : dist < 2 ^ 32) : (encodeDist dist).length ≤ 36 := by
  have hs := (slotOf_spec dist h).1
  have he := slotExtraBits_le hs
  unfold encodeDist
  simp only
  split
  · simp [bitsMsb_length, bitsLsb_length]; omega
  · next h14 =>
    have : 4 ≤ slotExtraBits (slotOf dist) := by unfold slotExtraBits; rw [if_neg (by omega)]; omega
    simp [bitsMsb_length, bitsLsb_length]; omega

/-- A packet's word: the prefix, then a payload, 48 bits at most. -/
def packetShape (pre : List Bool) (c : Code) : Prop := ∃ r : List Bool, c = .bits (pre ++ r) ∧ (pre ++ r).length ≤ 48

theorem repShape (pre : List Bool) (hp : pre.length ≤ 5) (len : Nat) : packetShape pre (.bits (pre ++ encodeLen len)) :=
  ⟨encodeLen len, rfl, by have := encodeLen_length len; simp; omega⟩

end Sys2Proof

namespace Sys2Proof.Laws.WordShape

/-- The shape of the word of `i` (R106, R38). -/
def Statement (i : Instr) : Prop :=
  i.wf = true →
    match i with
    | .lit _ => packetShape [false] (encode i)
    | .newMatch _ _ => packetShape [true, false] (encode i)
    | .eos _ => packetShape [true, false] (encode i)
    | .shortRep => packetShape [true, true, false, false] (encode i)
    | .rep0 _ => packetShape [true, true, false, true] (encode i)
    | .rep1 _ => packetShape [true, true, true, false] (encode i)
    | .rep2 _ => packetShape [true, true, true, true, false] (encode i)
    | .rep3 _ => packetShape [true, true, true, true, true] (encode i)
    | .startLzma => encode i = .cmd 1 ∧ decodeCommands 1 = [.startLzma]
    | .startParse => encode i = .cmd 2 ∧ decodeCommands 2 = [.startParse]
    | .clearLzma => encode i = .cmd 4 ∧ decodeCommands 4 = [.clearLzma]
    | .clearParse => encode i = .cmd 8 ∧ decodeCommands 8 = [.clearParse]

theorem distShape (len dist : Nat) (h : dist < 2 ^ 32) :
    packetShape [true, false] (.bits (true :: false :: encodeLen len ++ encodeDist dist)) :=
  ⟨encodeLen len ++ encodeDist dist, by simp, by
    have := encodeLen_length len; have := encodeDist_length dist h; simp; omega⟩

theorem lit (b : Byte) : Statement (.lit b) := fun _ => ⟨bitsMsb 8 b.toNat, rfl, by simp [bitsMsb_length]⟩
theorem newMatch (len : Nat) (dist : Word) : Statement (.newMatch len dist) := fun _ => distShape len _ dist.isLt
theorem eos (len : Nat) : Statement (.eos len) := fun _ => distShape len _ eosDistance.isLt
theorem shortRep : Statement .shortRep := fun _ => ⟨[], rfl, by simp⟩
theorem rep0 (len : Nat) : Statement (.rep0 len) := fun _ => repShape _ (by simp) len
theorem rep1 (len : Nat) : Statement (.rep1 len) := fun _ => repShape _ (by simp) len
theorem rep2 (len : Nat) : Statement (.rep2 len) := fun _ => repShape _ (by simp) len
theorem rep3 (len : Nat) : Statement (.rep3 len) := fun _ => repShape _ (by simp) len
theorem startLzma : Statement .startLzma := fun _ => ⟨rfl, by decide⟩
theorem startParse : Statement .startParse := fun _ => ⟨rfl, by decide⟩
theorem clearLzma : Statement .clearLzma := fun _ => ⟨rfl, by decide⟩
theorem clearParse : Statement .clearParse := fun _ => ⟨rfl, by decide⟩

end Sys2Proof.Laws.WordShape
end

