-- ==== Sys2Proof/Laws/Refusals.lean ====
section
/-! SUPPORT. When an operation or a turn is refused, said once each (10_state.md section 2, log 9). -/

namespace Sys2Proof.Machine

theorem eq_allOnes_iff (o : DWord) : o = BitVec.allOnes 64 ↔ o.toNat = 2 ^ 64 - 1 := by
  constructor
  · rintro rfl; simp
  · intro h; apply BitVec.eq_of_toNat_eq; simpa using h

/-- A refused copy would have brought `out_pos` to 2^64. -/
theorem copyRun_refused : ∀ (rem src : Nat) (s : State) (r : Refusal), copyRun rem src s = .refused r →
    r = .counterLimit ∧ 2 ^ 64 ≤ s.lz.outPos.toNat + min rem (s.lz.winSize.toNat - s.lz.winPos.toNat)
  | 0, src, s, r, h => by
    rw [copyRun, endCopy] at h; split at h <;> cases h
  | rem + 1, src, s, r, h => by
    have := s.lz.winSize.isLt
    rw [copyRun] at h
    split at h
    · cases h
    · next b hb =>
      unfold appendByte at h
      split at h
      · next hlt =>
        split at h
        · next ho =>
          cases h
          rw [eq_allOnes_iff] at ho
          exact ⟨rfl, by omega⟩
        · next ho =>
          dsimp only at h
          split at h
          · cases h
          · next he =>
            obtain ⟨h1, h2⟩ := copyRun_refused rem _ _ r h
            rw [appended_winPos b hlt, appended_outPos b ho] at h2
            have : (appended b s).lz.winSize = s.lz.winSize := rfl
            rw [this] at h2
            exact ⟨h1, by omega⟩
      · cases h

/-- A copy that would bring `out_pos` to 2^64 is refused. -/
theorem copyRun_refuses : ∀ (rem src : Nat) (s : State), s.lz.winPos.toNat < s.lz.winSize.toNat →
    2 ^ 64 ≤ s.lz.outPos.toNat + min rem (s.lz.winSize.toNat - s.lz.winPos.toNat) →
    copyRun rem src s = .refused .counterLimit
  | 0, src, s, h0, h => by have := s.lz.outPos.isLt; simp at h; omega
  | rem + 1, src, s, h0, h => by
    have hW := s.lz.winSize.isLt
    have hm : memRead (copySource src s) s = some (ramByte s.lz (copySource src s)) := by
      unfold memRead
      rw [if_pos (by unfold copySource; split <;> omega)]; rfl
    rw [copyRun, hm]
    simp only [appendByte, if_pos h0]
    split
    · rfl
    · next ho =>
      have ho1 := mt (eq_allOnes_iff _).2 ho
      have hwp := appended_winPos (ramByte s.lz (copySource src s)) h0
      have hop := appended_outPos (ramByte s.lz (copySource src s)) ho
      have hL := s.lz.outPos.isLt
      have hWe : (appended (ramByte s.lz (copySource src s)) s).lz.winSize = s.lz.winSize := rfl
      split
      · next he =>
        have : s.lz.winPos.toNat + 1 = s.lz.winSize.toNat := by rw [← hwp, he]; rfl
        omega
      · next he =>
        have hne : (appended (ramByte s.lz (copySource src s)) s).lz.winPos.toNat ≠
          (appended (ramByte s.lz (copySource src s)) s).lz.winSize.toNat := fun e => he (BitVec.eq_of_toNat_eq e)
        rw [hwp, hWe] at hne
        apply copyRun_refuses
        · rw [hwp, hWe]; omega
        · rw [hwp, hop, hWe]; omega

theorem readIn_refused {s : State} {r : Refusal} (h : readIn s = .refused r) :
    r = .counterLimit ∧ s.lz.inCount = BitVec.allOnes 64 ∧ s.lz.inEnded = false ∧ s.host.cin ≠ [] := by
  unfold readIn at h
  split at h
  · cases h
  · next he =>
    split at h
    · cases h
    · next b l rest hc =>
      split at h
      · next hi => cases h; exact ⟨rfl, hi, by simpa using he, by simp [hc]⟩
      · cases h

theorem normalize_refused {s : State} {r : Refusal} (h : Machine.normalize s = .refused r) :
    r = .counterLimit ∧ s.lz.inCount = BitVec.allOnes 64 ∧ s.lz.inEnded = false ∧ s.host.cin ≠ [] := by
  unfold Machine.normalize at h
  split at h
  · generalize hr : readIn _ = x at h
    cases x <;> simp [Res.bind] at h
    subst h
    have := readIn_refused hr
    exact this
  · cases h

theorem answer_refused {q : Query} {s : State} {r : Refusal} (h : answer q s = .refused r) :
    r = .counterLimit ∧ s.lz.inCount = BitVec.allOnes 64 ∧ s.lz.inEnded = false ∧ s.host.cin ≠ [] := by
  have key : ∀ (u : State) (b : Bool), (Machine.normalize u).bind (fun _ t => Res.ok b t) = .refused r →
      Machine.normalize u = .refused r := by
    intro u b h
    cases hn : Machine.normalize u <;> rw [hn] at h <;> simp_all [Res.bind]
  cases q with
  | counter i =>
    simp only [answer, decodeBit] at h
    split at h
    · split at h
      · exact normalize_refused (s := bitZero i s) (key _ _ h)
      · exact normalize_refused (s := bitOne i s) (key _ _ h)
    · cases h
  | direct =>
    simp only [answer, directBit] at h
    split at h
    · exact normalize_refused (s := directZero s) (key _ _ h)
    · exact normalize_refused (s := directOne s) (key _ _ h)

theorem lit_refused {b : Byte} {s : State} {r : Refusal} (h : exec (.lit b) s = .refused r) :
    r = .counterLimit ∧ s.lz.outPos = BitVec.allOnes 64 := by
  simp only [exec, execLit, putLiteral, appendByte] at h
  split at h
  · split at h
    · next ho => cases h; exact ⟨rfl, ho⟩
    · split at h <;> cases h
  · cases h

theorem copyStep_refused {len : Nat} {s : State} {r : Refusal} (h : copyStep len s = .refused r) :
    r = .counterLimit ∧ 2 ^ 64 ≤ s.lz.outPos.toNat + copyCount len s.lz := by
  unfold copyStep at h
  split at h
  · split at h
    · unfold copyBlock at h
      split at h
      · cases h
      · exact copyRun_refused _ _ _ _ h
    · cases h
  · cases h

/-- A refused turn of the LZMA engine had a counter at its limit. -/
theorem lzmaTurn_refused {s : State} {r : Refusal} (h : lzmaTurn s = some (.refused r)) : r = .counterLimit ∧
      ((s.lz.inCount = BitVec.allOnes 64 ∧ s.lz.inEnded = false ∧ s.host.cin ≠ []) ∨
        (∃ bits b, s.lz.phase = .packet bits ∧ PacketComplete (ctxOf s) bits (.lit b) ∧ s.lz.outPos = BitVec.allOnes 64) ∨
        (∃ bits i len z, s.lz.phase = .packet bits ∧ PacketComplete (ctxOf s) bits i ∧
          copyOperands i s.lz = some (len, z) ∧ 2 ^ 64 ≤ s.lz.outPos.toNat + copyCount len z) ∨
        ∃ j rem src, s.lz.phase = .flush j (.copy rem src) ∧ 2 ^ 64 ≤ s.lz.outPos.toNat + rem) := by
  have rd : ∀ k : Byte → State → Out, (∀ b u x, k b u ≠ .refused x) → (readIn s).turn .lzma k = some (.refused r) →
      r = .counterLimit ∧ s.lz.inCount = BitVec.allOnes 64 ∧ s.lz.inEnded = false ∧ s.host.cin ≠ [] := by
    intro k hk h
    cases hr : readIn s with
    | ok b u => rw [hr] at h; simp [Res.turn] at h; exact absurd h (hk b u r)
    | wait => rw [hr] at h; cases h
    | raised e u => rw [hr] at h; simp [Res.turn] at h
    | fault f => rw [hr] at h; simp [Res.turn] at h
    | refused f => rw [hr] at h; simp [Res.turn] at h; subst h; exact readIn_refused hr
  unfold lzmaTurn at h
  split at h
  · split at h
    · cases h
    · obtain ⟨a, b⟩ := rd _ (by simp) h; exact ⟨a, .inl b⟩
    · obtain ⟨a, b⟩ := rd _ (by simp) h; exact ⟨a, .inl b⟩
    · obtain ⟨a, b⟩ := rd _ (by simp) h; exact ⟨a, .inl b⟩
    · obtain ⟨a, b⟩ := rd _ (by simp) h; exact ⟨a, .inl b⟩
    · obtain ⟨a, b⟩ := rd _ (by simp) h; exact ⟨a, .inl b⟩
    · simp at h
    · next bits hp =>
      unfold packetTurn at h
      split at h
      · next i rr hw =>
        simp only [Option.some.injEq] at h
        have hpk := (packet_of_walk hw).1
        rcases packet_cases hpk s.lz with ⟨b, rfl⟩ | ⟨len, rfl⟩ | ⟨len, z, hz⟩
        · obtain ⟨a, b2⟩ := lit_refused h
          exact ⟨a, .inr (.inl ⟨bits, b, hp, by unfold PacketComplete; rw [hw], b2⟩)⟩
        · simp only [exec, execEos] at h; split at h <;> cases h
        · have e := exec_copy (s := s) hz
          rw [e] at h
          obtain ⟨a, b2⟩ := copyStep_refused h
          refine ⟨a, .inr (.inr (.inl ⟨bits, i, len, z, hp, by unfold PacketComplete; rw [hw], hz, ?_⟩))⟩
          have := copyOperands_updates hz
          have e3 : z.outPos = s.lz.outPos := by rw [this]
          rw [← e3]; exact b2
      · simp at h
      · next q k rr hw =>
        split at h <;> simp at h
        next r2 hr =>
        subst h
        obtain ⟨a, b⟩ := answer_refused hr
        exact ⟨a, .inl b⟩
    · next j c hp =>
      simp only [Option.some.injEq] at h
      unfold flushTurn at h
      split at h
      · split at h <;> cases h
      · cases c with
        | lit b => cases h
        | finish => cases h
        | copy rem src =>
          obtain ⟨a, b⟩ := copyRun_refused _ _ _ _ (show copyRun rem src (endFlush s) = .refused r from h)
          refine ⟨a, .inr (.inr (.inr ⟨j, rem, src, hp, ?_⟩))⟩
          have e : (endFlush s).lz.outPos = s.lz.outPos := rfl
          rw [e] at b; omega
  · cases h

theorem parserTurn_not_refused {s : State} {r : Refusal} : parserTurn s ≠ some (.refused r) := by
  intro h
  unfold parserTurn at h
  split at h
  · split at h <;> try (simp at h; done)
    unfold fieldTurn at h
    split at h
    · have : ∀ (r : Refusal), pReadBit s ≠ .refused r := by
        intro r h
        unfold pReadBit pinRead at h
        split at h
        · split at h
          · simp [Res.bind] at h
          · split at h <;> simp [Res.bind] at h
        · simp [Res.bind] at h
      cases hr : pReadBit s with
      | ok b u => rw [hr] at h; simp [Res.turn] at h
      | wait => rw [hr] at h; cases h
      | raised e u => rw [hr] at h; simp [Res.turn] at h
      | fault f => rw [hr] at h; simp [Res.turn] at h
      | refused f => exact this _ hr
    · simp at h
  · cases h

theorem runCommands_not_refused : ∀ (is : List Instr) (s : State) (r : Refusal),
    (∀ i ∈ is, isPacket i = false) → runCommands is s ≠ .refused r
  | [], s, r, _, h => by cases h
  | i :: is, s, r, ha, h => by
    rw [runCommands] at h
    split at h
    · exact runCommands_not_refused is _ r (fun j hj => ha j (List.mem_cons_of_mem _ hj)) h
    · cases h
    · next hx =>
      have hi := ha i List.mem_cons_self
      cases i <;> simp [isPacket] at hi
      · simp only [exec, execStartLzma] at hx; split at hx <;> cases hx
      · simp only [exec, execStartParse] at hx; split at hx <;> cases hx
      · simp only [exec, execClearLzma] at hx; split at hx <;> cases hx
      · simp only [exec, execClearParse] at hx; split at hx <;> cases hx

end Sys2Proof.Machine
end

