-- ==== Sys2Proof/Tests/Slice0.lean ====
section
/-! SUPPORT. The model's own tests: what the checks refuse, words written out from the encodings, single steps with results from
the spec, and for each statement with hypotheses a state that meets them. -/

namespace Sys2Proof.Tests

open Sys2Proof.Machine

/-! ### Well-formedness (R110, R114, R141) -/

theorem test_wf_length_too_short : Instr.wf (.newMatch 1 0) = false := by decide
theorem test_wf_length_too_long : Instr.wf (.newMatch 274 0) = false := by decide
theorem test_wf_distance_of_the_end_marker : Instr.wf (.newMatch 2 0xFFFFFFFF) = false := by decide
theorem test_wf_eos_length : Instr.wf (.eos 1) = false ∧ Instr.wf (.eos 274) = false := by decide
theorem test_wf_rep0_length : Instr.wf (.rep0 1) = false ∧ Instr.wf (.rep0 274) = false := by decide
theorem test_wf_rep1_length : Instr.wf (.rep1 0) = false ∧ Instr.wf (.rep1 274) = false := by decide
theorem test_wf_rep2_length : Instr.wf (.rep2 1) = false ∧ Instr.wf (.rep2 300) = false := by decide
theorem test_wf_rep3_length : Instr.wf (.rep3 1) = false ∧ Instr.wf (.rep3 274) = false := by decide
theorem test_wf_accepts :
    (.newMatch 2 0xFFFFFFFE : Instr).wf = true ∧ (.rep3 273 : Instr).wf = true ∧ (.lit 0xFF : Instr).wf = true := by decide

/-! ### Decoding words written out from the spec's encodings -/

/-- Decoded bits written as digits, first decoded bit first (R106). -/
def bitsOf (s : String) : List Bool := (s.toList.filter (fun c => c = '0' || c = '1')).map (fun c => c = '1')

/-- Decode a packet's bits in a context of a literal state. -/
def word (s : String) : Except DecodeError Instr := decode Ctx.blank (.bits (bitsOf s))

/-- The instruction of a decoded word. -/
def okInstr (r : Except DecodeError Instr) : Option Instr :=
  match r with
  | .ok i => some i
  | .error _ => none

/-- The reason a word is refused. -/
def badWord (r : Except DecodeError Instr) : Option DecodeError :=
  match r with
  | .ok _ => none
  | .error e => some e

/-- R106, R116: `0` and 8 bits, most significant first. -/
theorem test_decode_lit : okInstr (word "0 01000001") = some (.lit 0x41) := by decide
/-- R106, R109, R111, R112: low length 2 + 2, slot 1. -/
theorem test_decode_match : okInstr (word "10 0 010 000001") = some (.newMatch 4 1) := by decide
/-- R112: slot 9, base 24, three bits least significant first: 0, 1, 1 is 6. -/
theorem test_decode_match_modelled_bits : okInstr (word "10 10 000 001001 011") = some (.newMatch 10 30) := by decide
/-- R112, R113: slot 14, base 0x80, direct bits 01, align bits 1, 1, 0, 1 least significant first (11). -/
theorem test_decode_match_direct_bits :
    okInstr (word "10 11 11111111 001110 01 1101") = some (.newMatch 273 0x9B) := by decide
/-- R114: slot 63 with all 26 direct and 4 align bits 1. -/
theorem test_decode_eos :
    okInstr (word "10 0 000 111111 11111111111111111111111111 1111") = some (.eos 2) := by decide
/-- R114: one align bit 0 is an ordinary distance. -/
theorem test_decode_largest_distance :
    okInstr (word "10 0 000 111111 11111111111111111111111111 0111") = some (.newMatch 2 0xFFFFFFFE) := by decide
/-- R106. -/
theorem test_decode_shortRep : okInstr (word "1100") = some .shortRep := by decide
/-- R106, R109. -/
theorem test_decode_rep0 : okInstr (word "1101 0 001") = some (.rep0 3) := by decide
theorem test_decode_rep1 : okInstr (word "1110 0 111") = some (.rep1 9) := by decide
theorem test_decode_rep2 : okInstr (word "11110 11 00000000") = some (.rep2 18) := by decide
theorem test_decode_rep3 : okInstr (word "11111 10 111") = some (.rep3 17) := by decide
/-- R38: bits 31:4 are ignored. -/
theorem test_decode_startLzma : okInstr (decode Ctx.blank (.cmd 0x1)) = some .startLzma := by decide
theorem test_decode_startParse : okInstr (decode Ctx.blank (.cmd 0x80000012)) = some .startParse := by decide
theorem test_decode_clearLzma : okInstr (decode Ctx.blank (.cmd 0x4)) = some .clearLzma := by decide
theorem test_decode_clearParse : okInstr (decode Ctx.blank (.cmd 0xFFFFFFF8)) = some .clearParse := by decide

theorem test_decode_refuses_incomplete : badWord (word "10 0 010 00000") = some .incomplete := by decide
theorem test_decode_refuses_empty : badWord (word "") = some .incomplete := by decide
theorem test_decode_refuses_trailing : badWord (word "1100 0") = some .trailingBits := by decide
theorem test_decode_refuses_no_command : badWord (decode Ctx.blank (.cmd 0xFFFFFFF0)) = some .noCommand := by decide
theorem test_decode_refuses_several_commands : badWord (decode Ctx.blank (.cmd 0x3)) = some .severalCommands := by decide
/-- R315: the order in which a CMD write performs its commands. -/
theorem test_command_order :
    decodeCommands 0xF = [.clearLzma, .clearParse, .startLzma, .startParse] := by decide
theorem test_decode_refuses_missing_match_byte :
    badWord (decode { Ctx.blank with state := 7 } (.bits (bitsOf "0 01000001"))) = some .noMatchByte := by decide

/-- The encoder agrees with the words above (R106, R112). -/
theorem test_encode_match : encode (.newMatch 273 0x9B) = .bits (bitsOf "10 11 11111111 001110 01 1101") := by decide
theorem test_encode_eos :
    encode (.eos 2) = .bits (bitsOf "10 0 000 111111 11111111111111111111111111 1111") := by decide

/-! ### Which counter decodes which bit -/

/-- The questions a routine asks along decoded bits. -/
def asked {α : Type} (t : Tree α) (bits : List Bool) : List Query :=
  match bits with
  | [] => []
  | b :: bs =>
    match t with
    | .ask q k => q :: asked (k b) bs
    | .done _ => []
    | .noMatchByte => []
termination_by structural bits

/-- R178's example: match byte 0x41, decoded byte 0x43. -/
theorem test_matched_literal_counters :
    asked (litMatched 0 0x41) (bitsOf "01000011") =
      [0x101, 0x202, 0x105, 0x10A, 0x114, 0x128, 0x150, 0x0A1].map Query.counter := by decide
/-- R183's example: slot 9 reads through `P[703..709]`. -/
theorem test_specPos_counters :
    asked (distDecode 9) (bitsOf "110") = [703, 705, 709].map Query.counter ∧
      asked (distDecode 4) (bitsOf "0") = [Query.counter 688] ∧ asked (distDecode 13) (bitsOf "0") = [Query.counter 771] := by
  decide
/-- R126, R113: slot 14 has two direct bits, then the align tree. -/
theorem test_align_counters :
    asked (distDecode 14) (bitsOf "01 1011") =
      [Query.direct, Query.direct, Query.counter 803, Query.counter 805, Query.counter 808, Query.counter 815] := by decide
/-- R180, R127, R128: choice, choice2, the low and mid trees of `ps`, the shared high tree. -/
theorem test_length_counters :
    asked (lenDecode 818 3) (bitsOf "0 000") = [818, 845, 846, 848].map Query.counter ∧
      asked (lenDecode 1332 3) (bitsOf "10 111") = [1332, 1333, 1487, 1489, 1493].map Query.counter ∧
      asked (lenDecode 818 3) (bitsOf "11 00") = [818, 819, 1077, 1078].map Query.counter := by decide
/-- R121 to R124: the prefix of a REP3 in state 5, position state 2, and a slot tree. -/
theorem test_prefix_counters :
    asked (packetDecode { Ctx.blank with state := 5, ps := 2 }) (bitsOf "11111 0") =
        [82, 197, 209, 221, 233, 1332].map Query.counter ∧
      asked (packetDecode { Ctx.blank with state := 5, ps := 2 }) (bitsOf "1100") =
        [82, 197, 209, 322].map Query.counter ∧
      asked (slotDecode 4) (bitsOf "10") = [561, 563].map Query.counter ∧
      asked (slotDecode 273) (bitsOf "1") = [Query.counter 625] := by decide

/-! ### Table words (log 3) -/

theorem test_table_words :
    (decodeTableWord 8 0).isSome = true ∧ (decodeTableWord 8 2).isSome = true ∧
      decodeTableWord 8 12 = some .shortRep ∧ decodeTableWord 8 13 = some (.rep0 2) ∧
      decodeTableWord 8 14 = some (.rep1 2) ∧ decodeTableWord 8 30 = some (.rep2 2) ∧
      decodeTableWord 8 31 = some (.rep3 2) ∧ decodeTableWord 8 0 = some (.lit 0) ∧
      decodeTableWord 8 2 = some (.newMatch 2 0) := by decide
theorem test_table_commands :
    decodeTableWord 32 1 = some .startLzma ∧ decodeTableWord 32 2 = some .startParse ∧
      decodeTableWord 32 4 = some .clearLzma ∧ decodeTableWord 32 8 = some .clearParse := by decide

/-! ### States to test on -/

/-- What a test reads of an outcome that goes on. -/
def nextField {α : Type} (o : Out) (f : State → α) : Option α :=
  match o with
  | .next t => some (f t)
  | .fault _ => none
  | .refused _ => none

/-- What a test reads of an operation's value and state. -/
def resField {α β : Type} (r : Res α) (f : α → State → β) : Option β :=
  match r with
  | .ok a t => some (f a t)
  | .wait => none
  | .raised _ _ => none
  | .fault _ => none
  | .refused _ => none

/-- An engine inside a packet of a stream of unknown size, with the bytes 41 42 43 decoded. -/
def eng : Lzma :=
  { Lzma.resetWith [] [] with
    busy := true, phase := .packet [], dictSize := 4096, dictCheck := 4096, winSize := 4096
    usize := BitVec.allOnes 64, range := 0xFFFFFFFF, outPos := 3, winPos := 3, prevByte := 0x43
    window := [(0, 0x41), (1, 0x42), (2, 0x43)] }

/-- The machine with a given LZMA engine. -/
def withLz (z : Lzma) : State := { State.reset with lz := z }

/-- The machine with a given parser engine. -/
def withPs (p : Parser) : State := { State.reset with ps := p }

/-- A parser that runs. -/
def psr : Parser := { Parser.reset with busy := true }

/-- The machine with bytes offered on `cin`. -/
def offering (z : Lzma) (bytes : List (Byte × Bool)) : State :=
  { withLz z with host := { HostSide.quiet with cin := bytes } }

/-- The machine with bytes offered on `pin`. -/
def feeding (p : Parser) (bytes : List (Byte × Bool)) : State :=
  { withPs p with host := { HostSide.quiet with pin := bytes } }

/-! ### The range decoder -/

/-- R153's example. -/
theorem test_decodeBit_zero :
    resField (decodeBit 0 (withLz { eng with code := 0x12345678 }))
        (fun b t => (b, t.lz.range, t.lz.code, probRead 0 t)) =
      some (false, 0x7FFFFC00, 0x12345678, 1056) := by decide
/-- R153: a decoded 1 takes `bound` from both registers and `p >> 5` from the counter; the edge `code = bound`. -/
theorem test_decodeBit_one :
    resField (decodeBit 5 (withLz { eng with code := 0x7FFFFC00 }))
        (fun b t => (b, t.lz.range, t.lz.code, probRead 5 t)) =
      some (true, 0x800003FF, 0, 992) := by decide
/-- R153's corner cases: 31 goes to 94 or stays, 2017 stays or goes to 1954. -/
theorem test_counter_bounds :
    probUp 31 = 94 ∧ probDown 31 = 31 ∧ probUp 2017 = 2017 ∧ probDown 2017 = 1954 := by decide
/-- R152's example. -/
theorem test_normalize :
    resField (Machine.normalize (offering { eng with range := 0x00800000 } [(0xAB, false)]))
        (fun _ t => (t.lz.range, t.lz.code, t.lz.inCount, t.host.cin)) =
      some (0x80000000, 0xAB, 1, []) := by decide
/-- R155's example: two direct bits, both 1. -/
theorem test_directBits :
    resField ((directBit (withLz { eng with code := 0xC0000000 })).bind (fun _ t => directBit t))
        (fun b t => (b, t.lz.range, t.lz.code, t.lz.inCount)) =
      some (true, 0x3FFFFFFF, 2, 0) := by decide

/-- The range decoder answers the questions of a routine. -/
def answerAll {α : Type} (fuel : Nat) (t : Tree α) (s : State) : Option (α × State) :=
  match fuel with
  | 0 => none
  | fuel + 1 =>
    match t with
    | .done a => some (a, s)
    | .noMatchByte => none
    | .ask q k =>
      match answer q s with
      | .ok b s => answerAll fuel (k b) s
      | _ => none

/-- R170's example. -/
theorem test_bitTree :
    (answerAll 4 (bitTreeDecode 0 3) (withLz eng)).map
        (fun r => (r.1, r.2.lz.range, probRead 1 r.2, probRead 2 r.2, probRead 4 r.2)) =
      some (0, 0x1FFFFC00, 1056, 1056, 1056) := by decide
/-- R171's example: value 1, and 4 by the forward tree. -/
theorem test_reverse_tree :
    (answerAll 4 (bitTreeReverseDecode 0 3) (withLz { eng with code := 0x9E000000 })).map Prod.fst = some 1 ∧
      (answerAll 4 (bitTreeDecode 0 3) (withLz { eng with code := 0x9E000000 })).map Prod.fst = some 4 := by decide
/-- R177's example: the start bytes 00 40 FF FC 00 decode to the literal 0x41. -/
theorem test_literal :
    (answerAll 9 (litNormal 1846) (withLz { eng with code := 0x40FFFC00 })).map Prod.fst = some 0x41 := by decide
/-- R130: context packing; `lc = 0` uses no bit of the previous byte. -/
theorem test_literal_context :
    litContext { eng with lc := 3, lp := 2, outPos := 6, prevByte := 0xA1 } = 2 * 8 + 5 ∧
      litContext { eng with lc := 0, lp := 0, prevByte := 0xFF } = 0 ∧
      litContext { eng with lc := 8, lp := 0, prevByte := 0xA1 } = 0xA1 := by decide
/-- R221. -/
theorem test_position_state : posState { eng with pb := 2, outPos := 7 } = 3 ∧ posState { eng with pb := 0, outPos := 7 } = 0 := by
  decide

/-! ### Packets, one step each -/

/-- R207: the byte stands at `win_pos`; R202: 10 goes to 4. -/
theorem test_exec_lit :
    nextField (exec (.lit 0x44) (withLz { eng with state := .nonLitMatch }))
        (fun t => (t.lz.window, t.lz.winPos, t.lz.outPos, t.lz.prevByte, t.lz.state.value)) =
      some ([(0, 0x41), (1, 0x42), (2, 0x43), (3, 0x44)], 4, 4, 0x44, 4) := by decide
/-- R251's example: the last index triggers a flush of everything from `stream_pos`. -/
theorem test_exec_lit_at_the_end :
    nextField (exec (.lit 0x41) (withLz { eng with winPos := 4095, outPos := 4095 }))
        (fun t => (t.lz.winPos, t.lz.phase)) = some (4096, .flush 0 (.lit 0x41)) := by decide
/-- R252's example: window 41 42, distance 1, length 4; R208: rotation and state 7. -/
theorem test_exec_match :
    nextField (exec (.newMatch 4 1) (withLz { eng with
          window := [(0, 0x41), (1, 0x42)], winPos := 2, outPos := 2, rep0 := 9, rep1 := 8, rep2 := 7, rep3 := 6 }))
        (fun t => (t.lz.window, t.lz.winPos, t.lz.prevByte, t.lz.state.value, [t.lz.rep0, t.lz.rep1, t.lz.rep2, t.lz.rep3])) =
      some ([(0, 0x41), (1, 0x42), (2, 0x41), (3, 0x42), (4, 0x41), (5, 0x42)], 6, 0x42, 7, [1, 9, 8, 7]) := by decide
/-- R211: a distance equal to `out_pos` is refused, with the distances already rotated. -/
theorem test_exec_match_refused :
    nextField (exec (.newMatch 4 3) (withLz eng)) (fun t => (t.lz.err, t.lz.busy, t.lz.rep0, t.lz.outPos)) =
      some (some .corruptCompressedStream, false, 3, 3) := by decide
/-- R209, R216: an unknown size ends in the final flush; state and distances stay. -/
theorem test_exec_eos :
    nextField (exec (.eos 5) (withLz { eng with state := .litMatch, rep0 := 1 }))
        (fun t => (t.lz.eos, t.lz.phase, t.lz.state.value, t.lz.rep0, t.lz.err)) =
      some (true, .flush 0 .finish, 7, 1, none) := by decide
/-- R213. -/
theorem test_exec_eos_before_the_size :
    nextField (exec (.eos 2) (withLz { eng with sizeKnown := true, usize := 4 })) (fun t => (t.lz.err, t.lz.busy)) =
      some (some .sizeMismatch, false) := by decide
/-- R210: after a match (state 7) the state is 11; one byte at `rep0 = 1`. -/
theorem test_exec_shortRep :
    nextField (exec .shortRep (withLz { eng with state := .litMatch, rep0 := 1 }))
        (fun t => (t.lz.window, t.lz.state.value, t.lz.prevByte)) =
      some ([(0, 0x41), (1, 0x42), (2, 0x43), (3, 0x42)], 11, 0x42) := by decide
/-- R214's example: `LIT 0x61`, `REP0 3` gives aaaa, state 8. -/
theorem test_exec_rep0 :
    nextField (exec (.rep0 3) (withLz { eng with window := [(0, 0x61)], winPos := 1, outPos := 1 }))
        (fun t => (t.lz.window, t.lz.state.value)) =
      some ([(0, 0x61), (1, 0x61), (2, 0x61), (3, 0x61)], 8) := by decide
/-- R215's example: (2, 0) goes to (0, 2) and copies at distance 0. -/
theorem test_exec_rep1 :
    nextField (exec (.rep1 2) (withLz { eng with rep0 := 2, rep1 := 0, rep2 := 5, rep3 := 6 }))
        (fun t => ([t.lz.rep0, t.lz.rep1, t.lz.rep2, t.lz.rep3], t.lz.window)) =
      some ([0, 2, 5, 6], [(0, 0x41), (1, 0x42), (2, 0x43), (3, 0x43), (4, 0x43)]) := by decide
/-- R217's example: (2, 1, 0, 0) goes to (0, 2, 1, 0). -/
theorem test_exec_rep2 :
    nextField (exec (.rep2 2) (withLz { eng with rep0 := 2, rep1 := 1, rep2 := 0, rep3 := 0 }))
        (fun t => (t.lz.rep0, t.lz.rep1, t.lz.rep2, t.lz.rep3)) = some (0, 2, 1, 0) := by decide
/-- R218's example: (3, 2, 1, 0) goes to (0, 3, 2, 1). -/
theorem test_exec_rep3 :
    nextField (exec (.rep3 2) (withLz { eng with rep0 := 3, rep1 := 2, rep2 := 1, rep3 := 0 }))
        (fun t => (t.lz.rep0, t.lz.rep1, t.lz.rep2, t.lz.rep3)) = some (0, 3, 2, 1) := by decide
/-- R212: a copy past the known size is refused. -/
theorem test_exec_rep_past_the_size :
    nextField (exec (.rep0 3) (withLz { eng with sizeKnown := true, usize := 5 })) (fun t => (t.lz.err, t.lz.outPos)) =
      some (some .sizeMismatch, 3) := by decide
/-- R254's example. -/
theorem test_getByte : getByte 0 (withLz eng) = some 0x43 ∧ getByte 2 (withLz eng) = some 0x41 := by decide
/-- R254: around the window's end. -/
theorem test_getByte_wraps :
    getByte 0 (withLz { eng with winPos := 0, outPos := 4096, window := [(4095, 0x5A)] }) = some 0x5A := by decide

/-! ### Commands, STATUS, control registers -/

/-- R311's example, as a whole step: a CMD write of 1 at reset. -/
theorem test_exec_startLzma :
    nextField (exec .startLzma (withLz (Lzma.resetWith [] []))) statusWord = some 0x00000001 := by decide
/-- R312's example. -/
theorem test_exec_startParse : nextField (exec .startParse (withPs Parser.reset)) statusWord = some 0x00000100 := by decide
/-- R313's example: STATUS 0x00010006 becomes 0. -/
theorem test_exec_clearLzma :
    statusWord (withLz { Lzma.resetWith [] [] with done := true, eosFlag := true }) = 0x00010006 ∧
      nextField (exec .clearLzma (withLz { Lzma.resetWith [] [] with done := true, eosFlag := true })) statusWord =
        some 0 := by decide
/-- R314's example: STATUS 0x00010600 becomes 0x00000400. -/
theorem test_exec_clearParse :
    statusWord (withPs { Parser.reset with done := true, hdrValid := true }) = 0x00010600 ∧
      nextField (exec .clearParse (withPs { Parser.reset with done := true, hdrValid := true })) statusWord =
        some 0x00000400 := by decide
/-- R316. -/
theorem test_busy_ignores : nextField (exec .startLzma (withLz eng)) (fun t => t.lz) = some eng := by decide
/-- R315: CMD 0x3 starts both engines; CMD 0x5 clears, then starts. -/
theorem test_several_commands :
    nextField (csrWrite 4 3 State.reset) statusWord = some 0x00000101 ∧
      nextField (csrWrite 4 5 (withLz { Lzma.resetWith [] [] with err := some .sizeMismatch })) statusWord =
        some 0x00000001 := by decide
/-- R37, R50: CTRL stores bits 1:0, offset bits 1:0 are ignored; R36: read-only registers ignore writes. -/
theorem test_register_writes :
    nextField (csrWrite 3 0xFFFFFFFE State.reset) (csrRead 1) = some 2 ∧
      nextField (csrWrite 0x10 5 State.reset) (csrRead 0x10) = some 0 ∧ csrRead 0xFF State.reset = 0 := by decide
/-- R46, R48, R49. -/
theorem test_register_reads :
    csrRead 0x38 (withPs { psr with minYear := 0x07E0, minMonth := 0xAB }) = 0x00AB07E0 ∧
      csrRead 0x48 (withPs { psr with bcTemperature := 1, bcTemperatureIndex := 2, bcMonthDelta := 3, bcBinIndex := 4 }) =
        0x04030201 ∧
      csrRead 0x50 (withPs { psr with bitpos := 0x123456789 }) = 1 ∧
      csrRead 0x4C (withPs { psr with bitpos := 0x123456789 }) = 0x23456789 := by decide
/-- R40: the properties byte 0x5D is lc 3, lp 0, pb 2 (R102). -/
theorem test_props_register :
    propsLc 0x5D = 3 ∧ propsLp 0x5D = 0 ∧ propsPb 0x5D = 2 ∧
      propsSetKnown true (propsSetValid 3 0 2 (propsSetRaw 0x5D 0)) = 0x5D030203 := by decide
/-- R330, R340: LZ_ERR is bits 7:4, P_ERR bits 15:12; `irq` follows IRQ_EN. -/
theorem test_error_fields :
    statusWord (withLz { Lzma.resetWith [] [] with err := some .sizeMismatch }) = 0x00010060 ∧
      statusWord (withPs { Parser.reset with err := some .invalidFieldWidth }) = 0x00017000 ∧
      irq { withPs { Parser.reset with done := true } with ctrl := 2 } = true ∧
      irq (withPs { Parser.reset with done := true }) = false := by decide
/-- R370, R371. -/
theorem test_reset_status :
    csrRead 0 State.reset = 1 ∧ csrRead 8 State.reset = 0 ∧
      nextField (hostTurn .rst (withLz eng)) (fun t => (csrRead 0 t, csrRead 8 t, csrRead 0x1C t, t.lz.window)) =
        some (1, 0, 0, eng.window) := by decide

/-! ### Header, loop, flush -/

/-- R101. -/
theorem test_sizes :
    dictCheckOf 0 = 1 ∧ winSizeOf 0 = 4096 ∧ winSizeOf 4096 = 4096 ∧ winSizeOf 4097 = 4097 := by decide
/-- R205: 225 is refused at the last dictionary byte, with a 5-byte stream (R335). -/
theorem test_invalid_properties :
    nextField (lzmaTurns 1 (offering { eng with phase := .hdrDict 0xE1 3 0 } [(0, true)])) (fun t => (statusWord t, t.lz.inCount)) =
      some (0x00010030, 1) := by decide
/-- R150's example: 00 12 34 56 78. -/
theorem test_rcInit :
    nextField (lzmaTurns 5 (offering { eng with phase := .rcFirst }
        [(0, false), (0x12, false), (0x34, false), (0x56, false), (0x78, false)])) (fun t => (t.lz.code, t.lz.range, t.lz.inCount)) =
      some (0x12345678, 0xFFFFFFFF, 5) := by decide
/-- R220: a known size of 0 decodes no packet. -/
theorem test_loop_test :
    (loopTest (withLz { eng with sizeKnown := true, usize := 3 })).lz.phase = .flush 0 .finish ∧
      (loopTest (withLz { eng with sizeKnown := true, usize := 4 })).lz.phase = .packet [] := by decide
/-- R253: one byte offered, then the end: `stream_pos` is `win_pos`; at the window's end both are 0. -/
theorem test_flush :
    nextField (flushTurn 1 .finish (withLz eng)) (fun t => (t.lz.dout, t.lz.phase)) = some (some 0x42, .flush 2 .finish) ∧
      nextField (flushTurn 3 .finish (withLz eng)) (fun t => (t.lz.streamPos, t.lz.done, t.lz.busy)) =
        some (3, true, false) ∧
      nextField (flushTurn 4096 (.lit 1) (withLz { eng with winPos := 4096 })) (fun t => (t.lz.winPos, t.lz.streamPos)) =
        some (0, 0) := by decide
/-- R333, log 12: an error inside the length of a REP1 finds its rotation made. -/
theorem test_raise_inside_rep1 :
    ((packetTurn (bitsOf "1110") (withLz { eng with range := 0x01000000, inEnded := true, rep0 := 5, rep1 := 7 })).bind
        (fun o => nextField o (fun t => (t.lz.err, t.lz.rep0, t.lz.rep1)))) =
      some (some .prematureEndOfInput, 7, 5) := by decide

/-! ### The parser -/

/-- R271's example: A5 3C read as 4, 8 and 4 bits. -/
theorem test_bit_cursor :
    bitsField (offeredBits [(0xA5, false), (0x3C, true)]) 0 4 = 0xA ∧
      bitsField (offeredBits [(0xA5, false), (0x3C, true)]) 4 8 = 0x53 ∧
      nextField (parserTurns 4 (feeding { psr with phase := .field .tempCode 0 0, bcTemperature := 4 } [(0xA5, false), (0x3C, true)]))
          (fun t => (t.ps.phase, t.ps.bitpos, t.ps.avail, t.host.pin)) =
        some (.field .tempCode 4 0xA, 4, 4, [(0x3C, true)]) := by decide
/-- R275's example: 43 43 46. -/
theorem test_magic_mismatch :
    nextField (parserTurns 27 (feeding { psr with phase := .field (.magic 0) 0 0 } [(0x43, false), (0x43, false), (0x46, false)]))
        (fun t => (statusWord t, t.ps.bitpos)) = some (0x00011000, 24) := by decide
/-- R276's example: 43 43 45 02. -/
theorem test_unsupported_version :
    nextField (parserTurns 36 (feeding { psr with phase := .field (.magic 0) 0 0 }
        [(0x43, false), (0x43, false), (0x45, false), (0x02, false)])) (fun t => (statusWord t, t.ps.bitpos)) =
      some (0x00012000, 32) := by decide
/-- R275: 43 43 flagged last. -/
theorem test_premature_end_of_dataset :
    nextField (parserTurns 19 (feeding { psr with phase := .field (.magic 0) 0 0 } [(0x43, false), (0x43, true)]))
        (fun t => (statusWord t, t.ps.bitpos)) = some (0x00014000, 16) := by decide
/-- R282's example: code 255 of 8 bits with bounds -10 and 30 is 30. -/
theorem test_dequant : dequant 8 255 0xC1200000 0x41F00000 = some 0x41F00000 := by decide
/-- R283: `temp_min = -0` with `temp_max >= 0` and code 0 gives `+0`; an infinite bound gives a NaN at code 0. -/
theorem test_dequant_corners :
    dequant 8 0 0x80000000 0x3F800000 = some 0 ∧ dequant 8 0 0 0x7F800000 = none ∧
      dequant 8 1 0 0x7F800000 = some 0x7F800000 := by decide
/-- R285's example: `(5, 0)` held, `(6, 2)` read, 3 temperatures. -/
theorem test_bins :
    (offerBin 6 2 (withPs { psr with heldBinMd := 5, heldBinTi := 0, heldBinValid := true })).ps.binOut =
        some { monthDelta := 5, tidxMin := 0, tidxEnd := 2 } ∧
      (nextBin (bumpIndex (holdBin 6 2 (withPs { psr with countBins := 2, countTemperatures := 3, pI := 1 })))).ps.binOut =
        some { monthDelta := 6, tidxMin := 2, tidxEnd := 3 } := by decide
/-- R286's example: one location with one bin. -/
theorem test_locations :
    (nextLocation (bumpIndex (holdLocation 0x4240CCCD 0x4182F5C3 0 (withPs { psr with countLocations := 1, countBins := 1 })))).ps.locOut =
      some { lat := 0x4240CCCD, lon := 0x4182F5C3, bidxMin := 0, bidxEnd := 1 } := by decide

/-! ### Whole steps on table words, from reset -/

theorem test_step_runs_lit :
    nextField (step (State.reset.withFetchWord 8 0)) (fun t => (t.lz.window, t.lz.outPos, t.lz.phase)) =
      some ([], 1, .loopTop) := by decide
theorem test_step_runs_match :
    nextField (step (State.reset.withFetchWord 8 2)) (fun t => (t.lz.err, t.lz.rep0, t.lz.state.value)) =
      some (some .corruptCompressedStream, 0, 7) := by decide
theorem test_step_runs_repeats :
    nextField (step (State.reset.withFetchWord 8 12)) (fun t => t.lz.state.value) = some 9 ∧
      nextField (step (State.reset.withFetchWord 8 13)) (fun t => t.lz.state.value) = some 8 ∧
      nextField (step (State.reset.withFetchWord 8 31)) (fun t => t.lz.state.value) = some 8 := by decide
theorem test_step_runs_commands :
    nextField (step (State.reset.withFetchWord 32 1)) statusWord = some 1 ∧
      nextField (step (State.reset.withFetchWord 32 2)) statusWord = some 0x100 ∧
      nextField (step (State.reset.withFetchWord 32 4)) statusWord = some 0 ∧
      nextField (step (State.reset.withFetchWord 32 8)) statusWord = some 0 := by decide

/-! ### States that meet the hypotheses of the statements -/

/-- The engine with its window full but for one byte. -/
def engEnd : Lzma := { eng with winPos := 4095, outPos := 4095 }

/-- A parser reading the first location's bin index of a dataset of one location, one bin and no temperature. -/
def psrLoc : Parser :=
  { psr with countLocations := 1, countBins := 1, bcBinIndex := 8, bcMonthDelta := 4, bcTemperatureIndex := 4, hdrValid := true }

theorem ready_eng : WindowReady eng := ⟨by decide, by decide, by decide⟩
theorem ready_engEnd : WindowReady engEnd := ⟨by decide, by decide, by decide⟩

theorem counters_eng (p : LzPhase) : CountersBounded (withLz { eng with phase := p }) := fun _ => by
  show 31 ≤ (1024 : Counter).toNat ∧ (1024 : Counter).toNat ≤ 2017
  decide

theorem geometry_eng (p : LzPhase) (h : pointersOk { eng with phase := p }) : WindowGeometry (withLz { eng with phase := p }) :=
  fun _ => ⟨rfl, rfl, show (0 : BitVec 4).toNat ≤ 8 by decide, show (0 : BitVec 3).toNat ≤ 4 by decide,
    show (0 : BitVec 3).toNat ≤ 4 by decide, h⟩

theorem holds_eng (p : LzPhase) : WindowHolds [0x41, 0x42, 0x43] (withLz { eng with phase := p }) := by
  refine ⟨rfl, fun d h _ => ?_⟩
  have h : d.toNat < 3 := h
  obtain rfl | rfl | rfl : d = 0 ∨ d = 1 ∨ d = 2 := by
    rcases (by omega : d.toNat = 0 ∨ d.toNat = 1 ∨ d.toNat = 2) with h | h | h
    · exact .inl (BitVec.eq_of_toNat_eq h)
    · exact .inr (.inl (BitVec.eq_of_toNat_eq h))
    · exact .inr (.inr (BitVec.eq_of_toNat_eq h))
  all_goals rfl

/-- The engine of `eng` at a control point, where the host was given these bytes. -/
def given (p : LzPhase) (log : List Byte) : State :=
  { withLz { eng with phase := p } with host := { HostSide.quiet with doutLog := log } }

/-! Encodings. -/

theorem witness_EncodeThenDecode :
    ∃ (c d : Ctx) (i : Instr), c.state < 7 ∧ 7 ≤ d.state ∧ i.wf = true ∧
      (7 ≤ c.state → c.matchByte ≠ none) ∧ (7 ≤ d.state → d.matchByte ≠ none) :=
  ⟨Ctx.blank, { Ctx.blank with state := 7, matchByte := some 0x41 }, .rep3 273, by decide, by decide, by decide, by decide, by decide⟩
theorem witness_EveryBitSequenceBeginsWithAPacket :
    ∃ (c : Ctx) (l : List Bool), (7 ≤ c.state → c.matchByte ≠ none) ∧ 48 ≤ l.length :=
  ⟨{ Ctx.blank with state := 11, matchByte := some 0 }, List.replicate 48 true, by decide, by decide⟩
/-- `lc` at its largest; a literal in each half of the states, the decoded bits those of the match byte or not; each length coder's
place; the slots at the ends of their ranges, with as many bits decoded as leave one. -/
theorem witness_PacketBitsUseTheirCounters :
    (∃ s : State, s.lz.lc.toNat ≤ 8 ∧ s.lz.lc = 8) ∧
      (∃ (c d : Ctx) (l m : List Bool), (l.length < 8 ∧ m.length < 8) ∧ c.state < 7 ∧ 7 ≤ d.state ∧
        d.matchByte = some (0x41 : Byte) ∧ l = (bitsMsb 8 (0x41 : Byte).toNat).take l.length ∧
        m ≠ (bitsMsb 8 (0x41 : Byte).toNat).take m.length) ∧
      (([true, false], 818) ∈ [([true, false], 818), ([true, true, false, true], 1332), ([true, true, true, false], 1332),
        ([true, true, true, true, false], 1332), ([true, true, true, true, true], 1332)] ∧
        ([true, true] : List Bool).length < 3 ∧ (List.replicate 7 true).length < 8) ∧
      (2 ≤ 2 ∧ 2 ≤ 273 ∧ 2 ≤ 273 ∧ 273 ≤ 273 ∧ (List.replicate 5 true).length < 6) ∧
      (4 ≤ 4 ∧ 4 < 14 ∧ ([] : List Bool).length < 4 / 2 - 1) ∧ (4 ≤ 13 ∧ 13 < 14 ∧ (List.replicate 4 true).length < 13 / 2 - 1) ∧
      (14 ≤ 14 ∧ 14 < 64 ∧ ([true] : List Bool).length < 14 / 2 - 5) ∧
      (14 ≤ 63 ∧ 63 < 64 ∧ (List.replicate 26 true).length = 63 / 2 - 5 ∧ (List.replicate 3 true).length < 4) :=
  ⟨⟨withLz { eng with lc := 8 }, by decide, rfl⟩,
    ⟨Ctx.blank, { Ctx.blank with state := 11, matchByte := some 0x41 }, bitsOf "0100000", bitsOf "0100001",
      by decide, by decide, by decide, rfl, by decide, by decide⟩,
    by decide, by decide, by decide, by decide, by decide, by decide⟩
theorem witness_CommandsRunInOrder : ∃ a b : BitVec 8, a.toNat / 4 = 1 ∧ b.toNat / 4 = 1 ∧ a ≠ b := ⟨4, 7, by decide, by decide, by decide⟩

/-! A step runs the decoded instruction. -/

theorem witness_StepRunsTheDecodedInstruction_planned :
    ∃ (s : State) (bits : List Bool) (rest : List Turn), s.lz.busy = true ∧ s.lz.dout = none ∧ s.lz.phase = .packet bits ∧
      decode (ctxOf s) (.bits bits) = .ok .shortRep ∧ s.host.schedule = .lzma :: rest :=
  ⟨{ withLz { eng with phase := .packet (bitsOf "1100") } with host := { HostSide.quiet with schedule := [.lzma, .parser] } },
    bitsOf "1100", [.parser], rfl, rfl, rfl, rfl, rfl⟩
theorem witness_StepRunsTheDecodedInstruction_unplanned :
    ∃ (s : State) (bits : List Bool), s.lz.busy = true ∧ s.lz.dout = none ∧ s.lz.phase = .packet bits ∧
      decode (ctxOf s) (.bits bits) = .ok (.lit 0x41) ∧ s.host.schedule = [] ∧ (s.host.takes && itemOffered s) = false :=
  ⟨withLz { eng with phase := .packet (bitsOf "0 01000001") }, bitsOf "0 01000001", rfl, rfl, rfl, rfl, rfl, rfl⟩
/-- A packet's first bit, with no byte needed; and a bit that waits for a byte. -/
theorem witness_StepRunsTheDecodedInstruction_incomplete :
    ∃ (s t u : State) (bits : List Bool) (b : Bool), (s.lz.busy = true ∧ s.lz.dout = none ∧ s.lz.phase = .packet bits ∧
        NextBit (ctxOf s) bits (.counter 192) ∧ answer (.counter 192) s = .ok b t) ∧
      (u.lz.busy = true ∧ u.lz.dout = none ∧ u.lz.phase = .packet bits ∧ NextBit (ctxOf u) bits (.counter 192) ∧
        answer (.counter 192) u = .wait) :=
  ⟨withLz { eng with phase := .packet [true] }, _, withLz { eng with phase := .packet [true], range := 0x01000000 },
    [true], false, ⟨rfl, rfl, rfl, ⟨_, rfl⟩, rfl⟩, rfl, rfl, rfl, ⟨_, rfl⟩, rfl⟩
theorem witness_StepRunsTheDecodedInstruction_command :
    ∃ (s : State) (off : BitVec 8) (v : Word) (c : Ctx) (rest : List Turn), s.host.schedule = .host (.csrWrite off v) :: rest ∧
      off.toNat / 4 = 1 ∧ decode c (.cmd v) = .ok .startLzma :=
  ⟨{ State.reset with host := { HostSide.quiet with schedule := [.host (.csrWrite 4 1)] } }, 4, 1, Ctx.blank, [], rfl, rfl, rfl⟩

/-! Packets. -/

theorem witness_LitAppendsItsByte :
    (WindowReady eng ∧ eng.outPos ≠ BitVec.allOnes 64 ∧ eng.winPos.toNat + 1 < eng.winSize.toNat) ∧
      (WindowReady engEnd ∧ engEnd.outPos ≠ BitVec.allOnes 64 ∧ ¬ engEnd.winPos.toNat + 1 < engEnd.winSize.toNat) :=
  ⟨⟨ready_eng, by decide, by decide⟩, ready_engEnd, by decide, by decide⟩
/-- The shortest length at the nearest distance, the longest at the farthest. -/
theorem witness_MatchRotatesAndCopies :
    WindowReady eng ∧ CopyAccepted 2 { eng with rep0 := 0, rep1 := eng.rep0, rep2 := eng.rep1, rep3 := eng.rep2, state := matchNext eng.state } ∧
      CopyAccepted 273 { eng with rep0 := 2, rep1 := eng.rep0, rep2 := eng.rep1, rep3 := eng.rep2, state := matchNext eng.state } :=
  ⟨ready_eng, ⟨by decide, by decide, nofun, by decide⟩, ⟨by decide, by decide, nofun, by decide⟩⟩
theorem witness_ShortRepCopiesOneByte :
    ∃ s : State, WindowReady s.lz ∧ CopyAccepted 1 { s.lz with state := shortRepNext s.lz.state } :=
  ⟨withLz { engEnd with sizeKnown := true, usize := 4096 }, ⟨by decide, by decide, by decide⟩,
    ⟨by decide, by decide, fun _ => by decide, by decide⟩⟩
theorem witness_RepeatsRotateAndCopy :
    ∃ s : State, WindowReady s.lz ∧ CopyAccepted 273 { s.lz with state := repNext s.lz.state } ∧
      CopyAccepted 2 { s.lz with rep0 := s.lz.rep1, rep1 := s.lz.rep0, state := repNext s.lz.state } ∧
      CopyAccepted 2 { s.lz with rep0 := s.lz.rep2, rep1 := s.lz.rep0, rep2 := s.lz.rep1, state := repNext s.lz.state } ∧
      CopyAccepted 273
        { s.lz with rep0 := s.lz.rep3, rep1 := s.lz.rep0, rep2 := s.lz.rep1, rep3 := s.lz.rep2, state := repNext s.lz.state } :=
  ⟨withLz { engEnd with rep0 := 4094, rep1 := 2, rep2 := 1, rep3 := 0 }, ⟨by decide, by decide, by decide⟩,
    ⟨by decide, by decide, nofun, by decide⟩, ⟨by decide, by decide, nofun, by decide⟩,
    ⟨by decide, by decide, nofun, by decide⟩, ⟨by decide, by decide, nofun, by decide⟩⟩
theorem witness_FlushResumesTheCopy :
    ∃ (s : State) (j dist rem src : Nat) (z : Lzma), s.lz.busy = true ∧ s.lz.dout = none ∧
      s.lz.phase = .flush j (.copy rem src) ∧ s.lz.winPos.toNat ≤ j ∧ s.lz.winPos = s.lz.winSize ∧
      z = { s.lz with winPos := 0, streamPos := 0 } ∧ Memory.wf z.window = true ∧ dist < z.winSize.toNat ∧
      copySource src s = z.winSize.toNat - dist - 1 ∧ z.outPos.toNat + rem < 2 ^ 64 :=
  ⟨withLz { eng with winPos := 4096, outPos := 4096, phase := .flush 4096 (.copy 3 4095) }, 4096, 0, 3, 4095, _,
    rfl, rfl, rfl, by decide, rfl, rfl, by decide, by decide, by decide, by decide⟩
theorem witness_EosEndsTheStreamOrStops :
    ∃ s t u : State, s.lz.sizeKnown = false ∧ (t.lz.sizeKnown = true ∧ t.lz.outPos = t.lz.usize) ∧
      (u.lz.sizeKnown = true ∧ u.lz.outPos ≠ u.lz.usize) :=
  ⟨withLz eng, withLz { eng with sizeKnown := true, usize := 3 }, withLz { eng with sizeKnown := true, usize := 4 },
    rfl, ⟨rfl, rfl⟩, rfl, by decide⟩
/-- A distance equal to `out_pos`, a distance equal to `dict_check`, a copy one byte past the size. -/
theorem witness_RefusedCopyWritesNothing :
    ∃ (s t u : State) (z y x : Lzma),
      (copyOperands (.newMatch 2 3) s.lz = some (2, z) ∧
        ¬ (z.rep0.toNat < z.outPos.toNat ∧ z.rep0.toNat < z.dictCheck.toNat)) ∧
      (copyOperands (.rep0 2) t.lz = some (2, y) ∧
        ¬ (y.rep0.toNat < y.outPos.toNat ∧ y.rep0.toNat < y.dictCheck.toNat)) ∧
      (copyOperands (.rep0 2) u.lz = some (2, x) ∧ x.rep0.toNat < x.outPos.toNat ∧ x.rep0.toNat < x.dictCheck.toNat ∧
        x.sizeKnown = true ∧ x.usize.toNat < x.outPos.toNat + 2) :=
  ⟨withLz eng, withLz { eng with dictCheck := 1, rep0 := 1 }, withLz { eng with sizeKnown := true, usize := 4 }, _, _, _,
    ⟨rfl, by decide⟩, ⟨rfl, by decide⟩, rfl, by decide, by decide, rfl, by decide⟩
theorem witness_CounterLimitRefuses_lit :
    ∃ s : State, WindowReady s.lz ∧ s.lz.outPos = BitVec.allOnes 64 :=
  ⟨withLz { eng with outPos := BitVec.allOnes 64 }, ⟨by decide, by decide, by decide⟩, rfl⟩
/-- A copy of two bytes one byte below the limit; the rest of a copy there. -/
theorem witness_CounterLimitRefuses_copy :
    ∃ (s t : State) (z : Lzma), (copyOperands (.rep0 2) s.lz = some (2, z) ∧ WindowReady s.lz ∧
        z.rep0.toNat < z.outPos.toNat ∧ z.rep0.toNat < z.dictCheck.toNat ∧
        (z.sizeKnown = true → z.outPos.toNat + 2 ≤ z.usize.toNat) ∧ 2 ^ 64 ≤ z.outPos.toNat + copyCount 2 z) ∧
      (t.lz.busy = true ∧ t.lz.dout = none ∧ t.lz.phase = .flush 4096 (.copy 2 0) ∧ t.lz.winPos.toNat ≤ 4096 ∧
        t.lz.winPos = t.lz.winSize ∧ 0 < t.lz.winSize.toNat ∧ 2 ^ 64 ≤ t.lz.outPos.toNat + min 2 t.lz.winSize.toNat) :=
  ⟨withLz { eng with outPos := BitVec.allOnes 64 - 1 },
    withLz { eng with outPos := BitVec.allOnes 64 - 1, winPos := 4096, phase := .flush 4096 (.copy 2 0) }, _,
    ⟨rfl, ⟨by decide, by decide, by decide⟩, by decide, by decide, nofun, by decide⟩,
    rfl, rfl, rfl, by decide, rfl, by decide, by decide⟩
theorem witness_CounterLimitRefuses_readIn :
    ∃ (s : State) (b : Byte) (l : Bool) (rest : List (Byte × Bool)), s.lz.inEnded = false ∧ s.host.cin = (b, l) :: rest ∧
      s.lz.inCount = BitVec.allOnes 64 :=
  ⟨offering { eng with inCount := BitVec.allOnes 64 } [(0x41, true)], 0x41, true, [], rfl, rfl, rfl⟩
/-- A refused byte, a refused LIT, a refused copy and a refused rest of a copy. -/
theorem witness_CounterLimitRefuses_step :
    ∃ s t u v : State, step s = .refused .counterLimit ∧ step t = .refused .counterLimit ∧ step u = .refused .counterLimit ∧
      step v = .refused .counterLimit :=
  ⟨offering { eng with phase := .rcFirst, inCount := BitVec.allOnes 64 } [(0x41, true)],
    withLz { eng with phase := .packet (bitsOf "0 01000001"), outPos := BitVec.allOnes 64 },
    withLz { eng with phase := .packet (bitsOf "1101 0 000"), outPos := BitVec.allOnes 64 - 1 },
    withLz { eng with outPos := BitVec.allOnes 64 - 1, winPos := 4096, phase := .flush 4096 (.copy 2 0) }, rfl, rfl, rfl, rfl⟩

/-! The decoded sequence and the window. -/

theorem witness_PacketsExtendTheOutput :
    ∃ (out : List Byte) (s : State) (z : Lzma), WindowReady s.lz ∧ WindowHolds out s ∧ GoesOn (exec (.lit 0x44) s) ∧
      copyOperands (.newMatch 2 1) s.lz = some (2, z) ∧ CopyAccepted 2 z ∧ GoesOn (exec (.newMatch 2 1) s) :=
  ⟨[0x41, 0x42, 0x43], withLz eng, _, ready_eng, holds_eng (.packet []), ⟨_, rfl⟩, rfl,
    ⟨by decide, by decide, nofun, by decide⟩, ⟨_, rfl⟩⟩
theorem witness_WindowLawIsKept :
    ∃ (out : List Byte) (s t : State), RamsCanonical s ∧ WindowGeometry s ∧ inLoop s.lz.phase = true ∧ WindowHolds out s ∧
      lzmaTurn s = some (.next t) ∧ inLoop t.lz.phase = true :=
  ⟨[0x41, 0x42, 0x43], withLz { eng with phase := .packet (bitsOf "0 01000001") }, _, ⟨by decide, by decide⟩,
    geometry_eng _ ⟨by decide, by decide⟩, rfl, holds_eng _, rfl, rfl⟩

/-! Input, range decoder, header. -/

theorem witness_ReadInTakesOneByte :
    ∃ s t u : State, s.lz.inEnded = true ∧ (t.lz.inEnded = false ∧ t.host.cin = []) ∧
      (u.lz.inEnded = false ∧ u.host.cin = [(0x41, true)] ∧ u.lz.inCount ≠ BitVec.allOnes 64) :=
  ⟨withLz { eng with inEnded := true }, withLz eng, offering { eng with inCount := BitVec.allOnes 64 - 1 } [(0x41, true)],
    rfl, ⟨rfl, rfl⟩, rfl, rfl, by decide⟩
theorem witness_EndOfInputStopsAnEngine_lzma :
    ∃ s t : State, (s.lz.busy = true ∧ s.lz.dout = none ∧ s.lz.phase ≠ .idle ∧ inLoop s.lz.phase = false ∧ s.lz.inEnded = true) ∧
      (inLoop t.lz.phase = false ∧ t.lz.inEnded = false ∧ t.host.cin = []) :=
  ⟨withLz { eng with phase := .rcCode 3 0, inEnded := true }, withLz { eng with phase := .hdrProps },
    ⟨rfl, rfl, by decide, rfl, rfl⟩, rfl, rfl, rfl⟩
/-- Inside a REP1's length: the bit's own update leaves `range` below 2^24, and the byte is missing or not offered yet. -/
theorem witness_EndOfInputStopsAnEngine_packet :
    ∃ (s t u v : State) (bits : List Bool) (b : Bool), (s.lz.busy = true ∧ s.lz.dout = none ∧ s.lz.phase = .packet bits ∧
        NextBit (ctxOf s) bits (.counter 1332) ∧
        answer (.counter 1332) s = (Machine.normalize u).bind (fun _ x => .ok b x) ∧
        u.lz.range.toNat < 2 ^ 24 ∧ u.lz.inEnded = true) ∧
      (t.lz.busy = true ∧ t.lz.dout = none ∧ t.lz.phase = .packet bits ∧ NextBit (ctxOf t) bits (.counter 1332) ∧
        answer (.counter 1332) t = (Machine.normalize v).bind (fun _ x => .ok b x) ∧
        v.lz.range.toNat < 2 ^ 24 ∧ v.lz.inEnded = false ∧ v.host.cin = []) :=
  ⟨withLz { eng with phase := .packet (bitsOf "1110"), range := 0x01000000, inEnded := true },
    withLz { eng with phase := .packet (bitsOf "1110"), range := 0x01000000 },
    bitZero 1332 (withLz { eng with phase := .packet (bitsOf "1110"), range := 0x01000000, inEnded := true }),
    bitZero 1332 (withLz { eng with phase := .packet (bitsOf "1110"), range := 0x01000000 }), bitsOf "1110", false,
    ⟨rfl, rfl, rfl, ⟨_, rfl⟩, rfl, by decide, rfl⟩, rfl, rfl, rfl, ⟨_, rfl⟩, rfl, by decide, rfl, rfl⟩
theorem witness_EndOfInputStopsAnEngine_parser :
    ∃ s t : State, (s.ps.phase = .field .locLat 31 0 ∧ 31 < fieldWidth s.ps .locLat ∧ s.ps.avail = 0 ∧ s.ps.busy = true ∧
        parserPortsFree s.ps = true ∧ s.ps.ended = true) ∧
      (t.ps.phase = .field .tempCode 0 0 ∧ 0 < fieldWidth t.ps .tempCode ∧ t.ps.avail = 0 ∧ t.ps.ended = false ∧ t.host.pin = []) :=
  ⟨withPs { psr with phase := .field .locLat 31 0, ended := true },
    withPs { psr with phase := .field .tempCode 0 0, bcTemperature := 1 },
    ⟨rfl, by decide, rfl, rfl, rfl, rfl⟩, rfl, by decide, rfl, rfl, rfl⟩
theorem witness_NormalizeShiftsOneByte :
    ∃ s t u : State, 2 ^ 24 ≤ s.lz.range.toNat ∧ (u.lz.range.toNat < 2 ^ 24 ∧ u.lz.inEnded = true) ∧ (t.lz.range.toNat < 2 ^ 24 ∧ t.lz.inEnded = false ∧
      t.host.cin = [(0xAB, true)] ∧ t.lz.inCount ≠ BitVec.allOnes 64) :=
  ⟨withLz { eng with range := 0x01000000 }, offering { eng with range := 0x00FFFFFF } [(0xAB, true)],
    withLz { eng with range := 0, inEnded := true }, by decide, ⟨by decide, rfl⟩, by decide, rfl, rfl, by decide⟩
theorem witness_DecodeBitFollowsItsCounter :
    ∃ s t : State, (RamsCanonical s ∧ CountersBounded s ∧ 0 < 1846 + 768 * 2 ^ (s.lz.lc.toNat + s.lz.lp.toNat) ∧
        false = decide (s.lz.range.toNat / 2048 * (probRead 0 s).toNat ≤ s.lz.code.toNat)) ∧
      (RamsCanonical t ∧ CountersBounded t ∧ 2613 < 1846 + 768 * 2 ^ (t.lz.lc.toNat + t.lz.lp.toNat) ∧
        true = decide (t.lz.range.toNat / 2048 * (probRead 2613 t).toNat ≤ t.lz.code.toNat)) :=
  ⟨withLz eng, withLz { eng with code := 0x7FFFFC00 },
    ⟨⟨by decide, by decide⟩, counters_eng (.packet []), by decide, by decide⟩,
    ⟨by decide, by decide⟩, fun _ => by show 31 ≤ (1024 : Counter).toNat ∧ (1024 : Counter).toNat ≤ 2017; decide,
    by decide, by decide⟩
theorem witness_DirectBitHalvesTheRange :
    ∃ s t : State, false = decide (s.lz.range.toNat / 2 ≤ s.lz.code.toNat) ∧
      true = decide (t.lz.range.toNat / 2 ≤ t.lz.code.toNat) :=
  ⟨withLz { eng with code := 0x7FFFFFFE }, withLz { eng with code := 0x7FFFFFFF }, by decide, by decide⟩
theorem witness_StartBytesStartTheDecoder :
    ∃ s : State, s.lz.busy = true ∧ s.lz.dout = none ∧ s.lz.phase = .rcFirst ∧ s.lz.inEnded = false ∧
      s.lz.inCount.toNat + 5 < 2 ^ 64 ∧
      s.host.cin = (0xFF, false) :: (0xFF, false) :: (0xFF, false) :: (0xFF, false) :: (0xFF, true) :: [] :=
  ⟨offering { eng with phase := .rcFirst, inCount := BitVec.ofNat 64 (2 ^ 64 - 6) }
      [(0xFF, false), (0xFF, false), (0xFF, false), (0xFF, false), (0xFF, true)], rfl, rfl, rfl, rfl, by decide, rfl⟩

/-- An engine at the first header byte. -/
def engHeader : Lzma := { Lzma.resetWith [] [] with busy := true, phase := .hdrProps }

/-- Five header bytes. -/
def fiveBytes (d e0 e1 e2 e3 : Byte) : List (Byte × Bool) := [(d, false), (e0, false), (e1, false), (e2, false), (e3, true)]

theorem witness_HeaderIsReadAndChecked (d e0 e1 e2 e3 : Byte) :
    ∃ s : State, s.lz.busy = true ∧ s.lz.dout = none ∧ s.lz.phase = .hdrProps ∧ s.lz.inEnded = false ∧ s.lz.props = 0 ∧
      s.lz.inCount.toNat + 5 < 2 ^ 64 ∧
      s.host.cin = (d, false) :: (e0, false) :: (e1, false) :: (e2, false) :: (e3, true) :: [] :=
  ⟨offering engHeader (fiveBytes d e0 e1 e2 e3), rfl, rfl, rfl, rfl, rfl, show (0 : DWord).toNat + 5 < 2 ^ 64 by decide, rfl⟩
/-- Each of the three checks of R205 at its edge, and a header that passes them. -/
theorem witness_HeaderIsReadAndChecked_checks :
    (225 ≤ (0xE1 : Byte).toNat) ∧ (4096 < max (max 4097 1) 4096) ∧ (11 < (propsLc 0x2C).toNat + (propsLp 0x2C).toNat) ∧
      ¬ (225 ≤ (0xE0 : Byte).toNat ∨ Params.largest.windowCapacity < max (max 0xFFFFFFFF 1) 4096 ∨
          Params.largest.litCtxBitsCapacity < (propsLc 0xE0).toNat + (propsLp 0xE0).toNat) := by decide
theorem witness_SizeFieldIsRead :
    ∃ s : State, s.lz.busy = true ∧ s.lz.dout = none ∧ s.lz.phase = .hdrSize 0 0 ∧ s.lz.inEnded = false ∧
      s.lz.inCount.toNat + 8 < 2 ^ 64 ∧
      s.host.cin = (0xFF, false) :: (0xFF, false) :: (0xFF, false) :: (0xFF, false) :: (0xFF, false) :: (0xFF, false) ::
        (0xFF, false) :: (0xFF, true) :: [] :=
  ⟨offering { engHeader with phase := .hdrSize 0 0 } [(0xFF, false), (0xFF, false), (0xFF, false), (0xFF, false), (0xFF, false),
      (0xFF, false), (0xFF, false), (0xFF, true)], rfl, rfl, rfl, rfl, by decide, rfl⟩

/-! Loop, flush, end of a decode. -/

theorem witness_LoopTestEndsAtTheSize :
    ∃ s t : State, (s.lz.busy = true ∧ s.lz.dout = none ∧ s.lz.phase = .loopTop ∧ SizeRespected s ∧ s.lz.sizeKnown = true ∧
        s.lz.usize.toNat ≤ s.lz.outPos.toNat) ∧
      (t.lz.busy = true ∧ t.lz.dout = none ∧ t.lz.phase = .loopTop ∧ t.lz.sizeKnown = false) :=
  ⟨withLz { eng with phase := .loopTop, sizeKnown := true, usize := 3 }, withLz { eng with phase := .loopTop },
    ⟨rfl, rfl, rfl, fun _ _ => Nat.le_refl 3, rfl, by decide⟩, rfl, rfl, rfl, rfl⟩
theorem witness_FlushDeliversTheBytes :
    ∃ s : State, s.lz.busy = true ∧ s.lz.dout = none ∧ s.lz.phase = .flush 0 .finish ∧ 0 ≤ s.lz.winPos.toNat ∧
      s.lz.winPos.toNat ≤ s.lz.winSize.toNat ∧ s.host.schedule = [] ∧ s.host.takes = true ∧ parserPortsFree s.ps = true :=
  ⟨withLz { eng with phase := .flush 0 .finish }, rfl, rfl, rfl, by decide, by decide, rfl, rfl, rfl⟩
theorem witness_FlushEndsThenItsRoutineGoesOn :
    ∃ s t : State, (s.lz.busy = true ∧ s.lz.dout = none ∧ s.lz.winPos.toNat ≤ 3 ∧ s.lz.phase = .flush 3 .finish) ∧
      (t.lz.busy = true ∧ t.lz.dout = none ∧ t.lz.winPos.toNat ≤ 4096 ∧ t.lz.phase = .flush 4096 (.lit 0x41) ∧
        t.lz.winPos = t.lz.winSize) :=
  ⟨withLz { eng with phase := .flush 3 .finish }, withLz { eng with winPos := 4096, phase := .flush 4096 (.lit 0x41) },
    ⟨rfl, rfl, by decide, rfl⟩, rfl, rfl, by decide, rfl, rfl⟩
theorem witness_DoneMeansEverythingDelivered :
    ∃ s t : State, s.lz.done = false ∧ step s = .next t ∧ t.lz.done = true :=
  ⟨withLz { eng with phase := .flush 3 .finish }, _, rfl, rfl, rfl⟩
/-- A decode that enters its loop; a literal kept for the flush; a byte offered; the end, with all three bytes delivered. -/
theorem witness_DoneMeansEverythingDelivered_start :
    ∃ s t : State, NothingBeforeLoop s ∧ inLoop s.lz.phase = false ∧ step s = .next t ∧ inLoop t.lz.phase = true :=
  ⟨offering { Lzma.resetWith [] [] with busy := true, phase := .rcCode 4 0 } [(0, false)], _, fun _ _ => ⟨rfl, rfl, rfl⟩, rfl, rfl, rfl⟩
theorem witness_DoneMeansEverythingDelivered_loop :
    ∃ (s t : State) (u v : State) (w x : State),
      (RamsCanonical s ∧ WindowGeometry s ∧ inLoop s.lz.phase = true ∧ Delivered [0x55] [0x41, 0x42, 0x43] s ∧
        step s = .next t ∧ inLoop t.lz.phase = true ∧ t.lz.outPos = 4) ∧
      (RamsCanonical u ∧ WindowGeometry u ∧ inLoop u.lz.phase = true ∧ Delivered [0x55] [0x41, 0x42, 0x43] u ∧
        step u = .next v ∧ inLoop v.lz.phase = true ∧ v.lz.dout = some 0x42) ∧
      (RamsCanonical w ∧ WindowGeometry w ∧ inLoop w.lz.phase = true ∧ Delivered [0x55] [0x41, 0x42, 0x43] w ∧
        step w = .next x ∧ w.lz.done = false ∧ x.lz.done = true) :=
  ⟨given (.packet (bitsOf "0 01000001")) [0x55], _, given (.flush 1 .finish) [0x55, 0x41], _,
    given (.flush 3 .finish) [0x55, 0x41, 0x42, 0x43], _,
    ⟨⟨by decide, by decide⟩, geometry_eng (.packet []) ⟨by decide, by decide⟩, rfl,
      ⟨holds_eng (.packet []), by decide, rfl⟩, rfl, rfl, rfl⟩,
    ⟨⟨by decide, by decide⟩, geometry_eng (.flush 1 .finish) ⟨by decide, by decide, by decide⟩, rfl,
      ⟨holds_eng (.packet []), by decide, rfl⟩, rfl, rfl, rfl⟩,
    ⟨by decide, by decide⟩, geometry_eng (.flush 3 .finish) ⟨by decide, by decide, by decide⟩, rfl,
      ⟨holds_eng (.packet []), by decide, rfl⟩, rfl, rfl, rfl⟩
theorem witness_CountersOnlyIncrease : ∃ s t : State, lzmaTurn s = some (.next t) :=
  ⟨offering { eng with phase := .rcFirst } [(0, false)], _, rfl⟩
/-- Kept, taken, withdrawn; and an item of each of the parser's ports. -/
theorem witness_OfferedItemsStayOffered :
    ∃ s t u s' t' u' : State, (s.lz.dout = some 0x41 ∧ step s = .next s' ∧ s'.lz.dout = some 0x41) ∧
      (t.lz.dout = some 0x41 ∧ step t = .next t' ∧ t'.host.doutLog = [0x41]) ∧
      (u.lz.dout = some 0x41 ∧ step u = .next u' ∧ u'.lz.dout = none) :=
  ⟨{ withLz { eng with dout := some 0x41 } with host := { HostSide.quiet with schedule := [.lzma] } },
    withLz { eng with dout := some 0x41 },
    { withLz { eng with dout := some 0x41 } with host := { HostSide.quiet with schedule := [.host .rst] } }, _, _, _,
    ⟨rfl, rfl, rfl⟩, ⟨rfl, rfl, rfl⟩, rfl, rfl, rfl⟩
theorem witness_OfferedItemsStayOffered_parser :
    ∃ s t u s' t' u' : State, (s.ps.tempOut = some 1 ∧ step s = .next s') ∧
      (t.ps.binOut = some ⟨1, 2, 3⟩ ∧ step t = .next t') ∧ (u.ps.locOut = some ⟨1, 2, 3, 4⟩ ∧ step u = .next u') :=
  ⟨withPs { psr with tempOut := some 1 }, withPs { psr with binOut := some ⟨1, 2, 3⟩ }, withPs { psr with locOut := some ⟨1, 2, 3, 4⟩ },
    _, _, _, ⟨rfl, rfl⟩, ⟨rfl, rfl⟩, rfl, rfl⟩

/-! The parser. -/

/-- A field of 32 bits over five bytes, and one of no bit. -/
theorem witness_FieldReadsItsBits :
    ∃ s t : State, (s.ps.busy = true ∧ parserPortsFree s.ps = true ∧ s.ps.phase = .field .locLat 0 0 ∧
        32 = fieldWidth s.ps .locLat ∧ 32 ≤ (pendingBits s).length) ∧
      (t.ps.busy = true ∧ parserPortsFree t.ps = true ∧ t.ps.phase = .field .tempCode 0 0 ∧ 0 = fieldWidth t.ps .tempCode) :=
  ⟨feeding { psr with phase := .field .locLat 0 0, avail := 1 } [(1, false), (2, false), (3, false), (4, true)],
    withPs { psr with phase := .field .tempCode 0 0 }, ⟨rfl, rfl, rfl, rfl, by decide⟩, rfl, rfl, rfl, rfl⟩
theorem witness_DatasetHeaderIsChecked :
    ∃ s t u w : State, (s.ps.busy = true ∧ parserPortsFree s.ps = true ∧ s.ps.phase = .field (.magic 0) 8 0x43) ∧
      (t.ps.busy = true ∧ parserPortsFree t.ps = true ∧ t.ps.phase = .field (.magic 2) 8 0x46) ∧
      (u.ps.busy = true ∧ parserPortsFree u.ps = true ∧ u.ps.phase = .field .version 8 3) ∧
      (w.ps.busy = true ∧ parserPortsFree w.ps = true ∧ w.ps.phase = .field .bcBinIndex 8 33 ∧
        (32 < w.ps.bcTemperature.toNat ∨ 32 < w.ps.bcTemperatureIndex.toNat ∨ 32 < w.ps.bcMonthDelta.toNat ∨
          32 < (33 : Word).toNat % 256)) :=
  ⟨withPs { psr with phase := .field (.magic 0) 8 0x43 }, withPs { psr with phase := .field (.magic 2) 8 0x46 },
    withPs { psr with phase := .field .version 8 3 }, withPs { psr with phase := .field .bcBinIndex 8 33 },
    ⟨rfl, rfl, rfl⟩, ⟨rfl, rfl, rfl⟩, ⟨rfl, rfl, rfl⟩, rfl, rfl, rfl, by decide⟩

/-- A header with counts 1, 2, 3, dates 2000-01 and 2016-12, bounds -10 and 30, and widths 32, 0, 5, 32. -/
def headerBytes : List (Byte × Bool) :=
  ([0x43, 0x43, 0x45, 3, 0, 0, 0, 1, 0, 0, 0, 2, 0, 0, 0, 3, 0x07, 0xD0, 1, 0x07, 0xE0, 12] ++
    [0xC1, 0x20, 0, 0, 0x41, 0xF0, 0, 0, 32, 0, 5, 32]).map (fun b => (b, false))

set_option maxRecDepth 4000 in
theorem witness_HeaderRegistersHoldTheirFields :
    ∃ (s : State) (l : List Bool), s.ps.busy = true ∧ parserPortsFree s.ps = true ∧ s.ps.phase = .field (.magic 0) 0 0 ∧
      l = pendingBits s ∧ 272 ≤ l.length ∧ bitsField l 0 24 = 0x434345 ∧ bitsField l 24 8 = 3 ∧
      bitsField l 240 8 ≤ 32 ∧ bitsField l 248 8 ≤ 32 ∧ bitsField l 256 8 ≤ 32 ∧ bitsField l 264 8 ≤ 32 :=
  ⟨feeding { psr with phase := .field (.magic 0) 0 0 } headerBytes, _, rfl, rfl, rfl, rfl,
    by decide, by decide, by decide, by decide, by decide, by decide, by decide⟩
theorem witness_TemperatureIsOffered :
    ∃ (s t : State) (x : Word), (s.ps.busy = true ∧ parserPortsFree s.ps = true ∧
        s.ps.phase = .field .tempCode s.ps.bcTemperature.toNat 255 ∧
        dequant s.ps.bcTemperature.toNat 255 s.ps.tempMin s.ps.tempMax = some x) ∧
      (t.ps.busy = true ∧ parserPortsFree t.ps = true ∧ t.ps.phase = .field .tempCode t.ps.bcTemperature.toNat 0 ∧
        dequant t.ps.bcTemperature.toNat 0 t.ps.tempMin t.ps.tempMax = none) :=
  ⟨withPs { psr with phase := .field .tempCode 8 255, bcTemperature := 8, tempMin := 0xC1200000, tempMax := 0x41F00000 },
    withPs { psr with phase := .field .tempCode 0 0 }, 0x41F00000, ⟨rfl, rfl, rfl, by decide⟩, rfl, rfl, rfl, by decide⟩
/-- Each operation on finite data with a finite result: an inexact product, a quotient, a sum that is zero and one that is not;
the largest finite value and a subnormal one. -/
theorem witness_DequantizerScenarioAndWidthZero :
    (∃ (n : Bool) (m : Nat) (e : Int), f64Mul (.fin false (2 ^ 53 - 1) (-60)) (.fin true 3 (-90)) = .fin n m e) ∧
      (∃ (n : Bool) (m : Nat) (e : Int), (3 : Nat) ≠ 0 ∧ f64Div (.fin false 1 0) (.fin false 3 0) = .fin n m e) ∧
      (∃ (n : Bool) (m : Nat) (e : Int), f64Add (.fin true 1 (-1074)) (.fin false 1 (-1074)) = .fin n m e ∧
        signed true 1 + signed false 1 = 0) ∧
      (∃ (n : Bool) (m : Nat) (e : Int), f64Add (.fin true 1 0) (.fin false 1 53) = .fin n m e) ∧
      isFinitePattern 0x7F7FFFFF ∧ isFinitePattern 0x80000001 :=
  ⟨⟨_, _, _, rfl⟩, ⟨_, _, _, by decide, rfl⟩, ⟨_, _, _, rfl, by decide⟩, ⟨_, _, _, rfl⟩, by unfold isFinitePattern; decide,
    by unfold isFinitePattern; decide⟩
/-- Every corner of R283 has bounds that meet it; of the last code, one exact subtraction. -/
theorem witness_CodeZeroGivesTheMinimum_corners :
    (∃ tmin tmax : Word, isFinitePattern tmin ∧ isFinitePattern tmax ∧
      ∃ m k, m < 2 ^ 53 ∧ (f32Signed tmax - f32Signed tmin).natAbs = m * 2 ^ k) ∧
      (∃ tmin tmax : Word, isFinitePattern tmin ∧ isInfPattern tmax) ∧
      (∃ x y : Word, isInfPattern x ∧ isNanPattern y) ∧ 1 ≤ 32 ∧ 2 ^ 32 - 1 < 2 ^ 32 :=
  ⟨⟨0xC1200000, 0x41F00000, by unfold isFinitePattern; decide, by unfold isFinitePattern; decide, 40, 149, by decide, by decide⟩,
    ⟨0x80000000, 0xFF800000, by unfold isFinitePattern; decide, by unfold isInfPattern; decide⟩,
    ⟨0x7F800000, 0x7F800001, by unfold isInfPattern; decide, by unfold isNanPattern; decide⟩, by decide, by decide⟩
theorem witness_CodeZeroGivesTheMinimum :
    ∃ tmin tmax tneg : Word, 1 ≤ 1 ∧ 32 ≤ 32 ∧ isFinitePattern tmin ∧ isFinitePattern tmax ∧ isFinitePattern tneg ∧
      (tneg = 0x80000000 ∧ tmax ≤ 0x80000000) ∧ ¬ (tmin = 0x80000000 ∧ tmax ≤ 0x80000000) :=
  ⟨0xFF7FFFFF, 0x7F7FFFFF, 0x80000000, by decide, by decide, by unfold isFinitePattern; decide,
    by unfold isFinitePattern; decide, by unfold isFinitePattern; decide, by decide, by decide⟩
theorem witness_RecordsCarryTheirRanges :
    ∃ s t u v : State, (s.ps.busy = true ∧ parserPortsFree s.ps = true ∧
        s.ps.phase = .field (.binTempIndex 5) s.ps.bcTemperatureIndex.toNat 2) ∧
      (t.ps.busy = true ∧ parserPortsFree t.ps = true ∧ t.ps.phase = .binHold 5 2) ∧
      (u.ps.busy = true ∧ parserPortsFree u.ps = true ∧ u.ps.phase = .field (.locBinIndex 1 2) u.ps.bcBinIndex.toNat 3) ∧
      (v.ps.busy = true ∧ parserPortsFree v.ps = true ∧ v.ps.phase = .locHold 1 2 3) :=
  ⟨withPs { psrLoc with phase := .field (.binTempIndex 5) 4 2 }, withPs { psrLoc with phase := .binHold 5 2 },
    withPs { psrLoc with phase := .field (.locBinIndex 1 2) 8 3 }, withPs { psrLoc with phase := .locHold 1 2 3 },
    ⟨rfl, rfl, rfl⟩, ⟨rfl, rfl, rfl⟩, ⟨rfl, rfl, rfl⟩, rfl, rfl, rfl⟩
/-- The header's last field with the largest width, with and without temperatures; the other control points. -/
theorem witness_RecordsCarryTheirRanges_order :
    ∃ s t u v w x y : State, (s.ps.busy = true ∧ parserPortsFree s.ps = true ∧ s.ps.phase = .field .bcBinIndex 8 32 ∧
        s.ps.bcTemperature.toNat ≤ 32 ∧ s.ps.bcTemperatureIndex.toNat ≤ 32 ∧ s.ps.bcMonthDelta.toNat ≤ 32 ∧
        (32 : Word).toNat % 256 ≤ 32 ∧ 0 < s.ps.countTemperatures) ∧
      (t.ps.phase = .field .bcBinIndex 8 32 ∧ ¬ 0 < t.ps.countTemperatures) ∧
      (u.ps.phase = .tempNext ∧ u.ps.pI + 1 < u.ps.countTemperatures) ∧
      v.ps.phase = .field .binMonthDelta v.ps.bcMonthDelta.toNat 5 ∧ (w.ps.phase = .binsEnd ∧ 0 < w.ps.countLocations) ∧
      x.ps.phase = .field .locLat 32 1 ∧ y.ps.phase = .field (.locLon 1) 32 2 :=
  ⟨withPs { psrLoc with phase := .field .bcBinIndex 8 32, countTemperatures := 2, bcTemperature := 32 },
    withPs { psrLoc with phase := .field .bcBinIndex 8 32 }, withPs { psrLoc with phase := .tempNext, countTemperatures := 2 },
    withPs { psrLoc with phase := .field .binMonthDelta 4 5 }, withPs { psrLoc with phase := .binsEnd },
    withPs { psrLoc with phase := .field .locLat 32 1 }, withPs { psrLoc with phase := .field (.locLon 1) 32 2 },
    ⟨rfl, rfl, rfl, by decide, by decide, by decide, by decide, by decide⟩, ⟨rfl, by decide⟩, ⟨rfl, by decide⟩, rfl,
    ⟨rfl, by decide⟩, rfl, rfl⟩
theorem witness_ParseEndsAfterItsBits :
    ∃ s : State, BitPositionFollowsLayout s ∧ s.ps.busy = true ∧ parserPortsFree s.ps = true ∧ s.ps.phase = .locsEnd :=
  ⟨withPs { psrLoc with phase := .locsEnd, bitpos := 352 }, by show (352 : DWord).toNat = 352; decide, rfl, rfl, rfl⟩

/-! Commands and control registers. -/

theorem witness_StartCommandsStartTheirEngine :
    State.reset.lz.busy = false ∧ State.reset.ps.busy = false := by decide
theorem witness_ClearClearsTheStatus :
    ∃ s : State, s.lz.busy = false ∧ s.lz.done = true ∧ s.ps.busy = false ∧ s.ps.err = some .magicMismatch :=
  ⟨{ withLz { Lzma.resetWith [] [] with done := true } with ps := { Parser.reset with err := some .magicMismatch } },
    rfl, rfl, rfl, rfl⟩
theorem witness_OnlyResetStopsARunningEngine :
    ∃ (s t : State) (a : HostAct), s.lz.busy = true ∧ s.ps.busy = true ∧ a ≠ .rst ∧ hostTurn a s = .next t :=
  ⟨{ withLz eng with ps := psr }, _, .csrWrite 4 0xF, rfl, rfl, by decide, rfl⟩
theorem witness_RegisterAccessRules :
    ∃ a b c d : BitVec 8, 0x54 ≤ a.toNat ∧ 8 ≤ b.toNat ∧ c.toNat < 4 ∧ d.toNat = 0xFF :=
  ⟨0x54, 8, 3, 0xFF, by decide, by decide, by decide, by decide⟩
theorem witness_ResetSetsTheRegisters :
    ∃ s t : State, hostTurn .rst s = .next t ∧ (4 ≤ (4 : BitVec 8).toNat) := ⟨withLz eng, _, rfl, by decide⟩
theorem witness_EnginesAreIsolated :
    ∃ (s : State) (h k : HostSide), h.cin = s.host.cin ∧ k.pin = s.host.pin :=
  ⟨offering eng [(0x41, true)], { HostSide.quiet with cin := [(0x41, true)], takes := false }, { HostSide.quiet with rdata := 1 },
    rfl, rfl⟩
theorem witness_ParametersNeverChange : ∃ s t : State, step s = .next t :=
  ⟨withLz { eng with phase := .loopTop }, _, rfl⟩

/-! Invariants: a state inside a run, with its step. -/

theorem witness_RamsStayCanonical :
    ∃ s t : State, RamsCanonical s ∧ step s = .next t ∧ t.lz.window ≠ s.lz.window :=
  ⟨withLz { eng with phase := .packet (bitsOf "0 01000001") }, _, ⟨by decide, by decide⟩, rfl, by decide⟩
theorem witness_RangeStaysNormal :
    ∃ s t : State, RamsCanonical s ∧ CountersBounded s ∧ RangeNormal s ∧ step s = .next t ∧ t.lz.range ≠ s.lz.range :=
  ⟨withLz eng, _, ⟨by decide, by decide⟩, counters_eng (.packet []), fun _ => by decide, rfl, by decide⟩
theorem witness_StatusStaysExclusive :
    ∃ s t : State, StatusExclusive s ∧ ErrorsOfEngine s ∧ step s = .next t ∧ t.lz.done ≠ s.lz.done :=
  ⟨withLz { eng with phase := .flush 3 .finish }, _,
    ⟨by decide, by decide, fun _ => ⟨rfl, rfl⟩, nofun, nofun, nofun⟩, ⟨.inl rfl, .inl rfl⟩, rfl, by decide⟩
theorem witness_WindowFollowsOutputIsKept :
    ∃ s t : State, NothingBeforeLoop s ∧ WindowGeometry s ∧ WindowFollowsOutput s ∧ step s = .next t ∧ t.lz.outPos ≠ s.lz.outPos :=
  ⟨withLz { eng with phase := .packet (bitsOf "0 01000001") }, _, fun _ h => absurd h (by decide),
    geometry_eng _ ⟨by decide, by decide⟩, fun _ => ⟨rfl, rfl⟩, rfl, by decide⟩
theorem witness_SizeIsRespected :
    ∃ s t : State, NothingBeforeLoop s ∧ SizeRespected s ∧ s.lz.sizeKnown = true ∧ step s = .next t ∧ t.lz.outPos = s.lz.usize :=
  ⟨withLz { eng with phase := .packet (bitsOf "0 01000001"), sizeKnown := true, usize := 4 }, _,
    fun _ h => absurd h (by decide), fun _ _ => by show (3 : DWord).toNat < (4 : DWord).toNat; decide, rfl, rfl, by decide⟩
theorem witness_ValidHeaderHasLegalWidths :
    ∃ s t : State, HeaderValidMeansWidths s ∧ step s = .next t ∧ t.ps.hdrValid = true :=
  ⟨withPs { psr with phase := .field .bcBinIndex 8 32 }, _, ⟨fun _ => rfl, nofun⟩, rfl, rfl⟩
theorem witness_BitPositionFollowsTheLayout :
    ∃ s t : State, BitPositionFollowsLayout s ∧ step s = .next t ∧ t.ps.bitpos ≠ s.ps.bitpos :=
  ⟨feeding { psrLoc with phase := .field (.locBinIndex 1 2) 0 0, bitpos := 344 } [(7, true)], _,
    ⟨show (0 : Word).toNat < (1 : Word).toNat by decide, by decide, by decide⟩, rfl, by decide⟩
theorem witness_NoStepFaults :
    ∃ s t : State, NothingBeforeLoop s ∧ WindowGeometry s ∧ MatchByteExists s ∧ 7 ≤ s.lz.state.value ∧ step s = .next t :=
  ⟨withLz { eng with state := .litMatch, rep0 := 2 }, _, fun _ h => absurd h (by decide),
    fun _ => ⟨rfl, rfl, by decide, by decide, by decide, ⟨by decide, by decide⟩⟩,
    fun _ _ => ⟨by decide, by decide⟩, by decide, rfl⟩

end Sys2Proof.Tests
end

section
/-! The control registers as words, and the obligations on what the host reads and writes (10_state.md R36 to R50). -/

namespace Sys2Proof.Machine

/-! ### Fields of a word -/

@[simp] theorem flag_true : flag true = 1 := rfl
@[simp] theorem flag_false : flag false = 0 := rfl

theorem flag_le_one (b : Bool) : flag b ≤ 1 := by cases b <;> decide

/-- Bit `i` of a register is the flag whose number stands at that place of its value. -/
theorem getLsbD_of_flag {v : Word} {i : Nat} {b : Bool} (h : v.toNat / 2 ^ i % 2 = flag b) : v.getLsbD i = b := by
  rw [BitVec.getLsbD, Nat.testBit_eq_decide_div_mod_eq, h]
  cases b <;> rfl

/-- The codes fit the 4 bits of an error field (R39, R330). -/
theorem errField_lt (e : Option ErrCode) : errField e < 8 := by
  cases e with
  | none => decide
  | some c => cases c <;> decide

/-- An error field is 0 exactly where there is no error: no error has code 0 (R330). -/
theorem errField_bne_zero (e : Option ErrCode) : (errField e != 0) = e.isSome := by
  cases e with
  | none => rfl
  | some c => cases c <;> rfl

/-! ### What the packed registers hold -/

/-- No field of STATUS overflows into the next (R39). -/
theorem statusWord_toNat (s : State) : (statusWord s).toNat =
    flag s.lz.busy + 2 * flag s.lz.done + 4 * flag s.lz.eosFlag + 16 * errField s.lz.err +
      256 * flag s.ps.busy + 512 * flag s.ps.done + 1024 * flag s.ps.hdrValid + 4096 * errField s.ps.err +
      65536 * flag (irqPending s) := by
  have hflag := flag_le_one
  have hl := errField_lt s.lz.err
  have hp := errField_lt s.ps.err
  rw [statusWord, BitVec.toNat_ofNat]
  refine Nat.mod_eq_of_lt ?_
  linarith [hflag s.lz.busy, hflag s.lz.done, hflag s.lz.eosFlag, hflag s.ps.busy, hflag s.ps.done, hflag s.ps.hdrValid,
    hflag (irqPending s)]

/-- A 64-bit register is its two halves (R42 to R44, R49). -/
theorem highWord_lowWord (x : DWord) : (highWord x).toNat * 2 ^ 32 + (lowWord x).toNat = x.toNat := by
  have hx := x.isLt
  rw [highWord, lowWord, BitVec.toNat_setWidth, BitVec.toNat_setWidth, BitVec.toNat_ushiftRight, Nat.shiftRight_eq_div_pow]
  omega

theorem dateWord_toNat (y : BitVec 16) (m : Byte) : (dateWord y m).toNat = y.toNat + 65536 * m.toNat := by
  rw [dateWord, BitVec.toNat_ofNat]
  omega

theorem widthsWord_toNat (p : Parser) : (widthsWord p).toNat =
    p.bcTemperature.toNat + 256 * p.bcTemperatureIndex.toNat + 65536 * p.bcMonthDelta.toNat + 16777216 * p.bcBinIndex.toNat := by
  rw [widthsWord, BitVec.toNat_ofNat]
  omega

/-! ### Offsets -/

/-- Masking bits 1:0 of an offset leaves the register number (R50). -/
theorem offset_and_mask (off : BitVec 8) : (off &&& 0xFC).toNat / 4 = off.toNat / 4 := by
  have hmask : off.toNat / 4 &&& 63 = off.toNat / 4 % 64 := Nat.and_two_pow_sub_one_eq_mod _ 6
  calc (off &&& 0xFC).toNat / 4
      = (off.toNat &&& 252) >>> 2 := by rw [BitVec.toNat_and, Nat.shiftRight_eq_div_pow]; rfl
    _ = off.toNat / 4 &&& 63 := by rw [Nat.shiftRight_and_distrib, Nat.shiftRight_eq_div_pow]; rfl
    _ = off.toNat / 4 := by omega

/-- Beyond the last register the window reads 0 (R50). -/
theorem csrRegister_unmapped {n : Nat} (h : 21 ≤ n) (s : State) : csrRegister n s = 0 := by
  obtain ⟨k, rfl⟩ := Nat.exists_eq_add_of_le' h
  rfl

theorem csrWrite_ctrl {off : BitVec 8} (h : off.toNat / 4 = 0) (v : Word) (s : State) :
    csrWrite off v s = .next { s with ctrl := v.setWidth 2 } := by
  simp only [csrWrite, h]

/-- Every register but CTRL and CMD ignores a write (R310). -/
theorem csrWrite_ignored {off : BitVec 8} (h : 2 ≤ off.toNat / 4) (v : Word) (s : State) : csrWrite off v s = .next s := by
  obtain ⟨k, hk⟩ := Nat.exists_eq_add_of_le' h
  simp only [csrWrite, hk]

/-! ### The obligations -/

/-- Settles O46: the STATUS word's value as a sum of fields that do not overlap, read off bit by bit. -/
theorem statusWordFields : Obligations.StatusWordFields := by
  refine ⟨by decide, ?_⟩
  rintro s v rfl
  have hv := statusWord_toNat s
  have h0 := flag_le_one s.lz.busy
  have h1 := flag_le_one s.lz.done
  have h2 := flag_le_one s.lz.eosFlag
  have h8 := flag_le_one s.ps.busy
  have h9 := flag_le_one s.ps.done
  have h10 := flag_le_one s.ps.hdrValid
  have h16 := flag_le_one (irqPending s)
  have hl := errField_lt s.lz.err
  have hp := errField_lt s.ps.err
  have hirq : (statusWord s).getLsbD 16 = irqPending s := getLsbD_of_flag (by omega)
  have hread : csrRead 0x08 s = statusWord s := rfl
  rw [hread, hirq, errField_bne_zero, errField_bne_zero]
  exact ⟨getLsbD_of_flag (by omega), getLsbD_of_flag (by omega), getLsbD_of_flag (by omega),
    getLsbD_of_flag (by rw [flag_false]; omega), by omega, getLsbD_of_flag (by omega), getLsbD_of_flag (by omega),
    getLsbD_of_flag (by omega), getLsbD_of_flag (by rw [flag_false]; omega), by omega, rfl, by omega, rfl⟩

/-- Settles O48: an access depends on the register number only, which the two low bits do not change. -/
theorem registerAccessRules : Obligations.RegisterAccessRules := by
  intro off v s
  refine ⟨?_, ?_, fun h => ?_, fun h => ?_, fun h => ?_⟩
  · rw [csrRead, csrRead, offset_and_mask]
  · rw [csrWrite, csrWrite, offset_and_mask]
  · exact csrRegister_unmapped (by omega) s
  · exact csrWrite_ignored (by omega) v s
  · exact csrWrite_ctrl (by omega) v s

/-- Settles O47: each offset selects its register; the packed and the 64-bit registers by their values above. -/
theorem registerWindowMap : Obligations.RegisterWindowMap := fun s =>
  ⟨rfl, rfl, rfl, rfl, highWord_lowWord s.lz.usize, highWord_lowWord s.lz.outPos, highWord_lowWord s.lz.inCount,
    rfl, rfl, rfl, dateWord_toNat _ _, dateWord_toNat _ _, rfl, rfl, widthsWord_toNat s.ps, highWord_lowWord s.ps.bitpos⟩

end Sys2Proof.Machine
end

section
/-! What a step does with the items offered on the output ports (10_state.md R52, 60_exceptions.md R77, R79). -/

namespace Sys2Proof.Machine

/-! ### One port -/

/-- What was offered on a port (`old`) is offered still, or it stands at the end of the host's log of that port. -/
def OfferKept {α : Type} (old new : Option α) (log log' : List α) : Prop :=
  ∀ x, old = some x → new = some x ∨ (new = none ∧ log' = log ++ [x])

theorem OfferKept.same {α : Type} {old new : Option α} {log log' : List α} (h : new = old) : OfferKept old new log log' :=
  fun _ hx => .inl (h.trans hx)

theorem OfferKept.taken {α : Type} (old : Option α) (log : List α) : OfferKept old none log (log ++ old.toList) :=
  fun x hx => .inr ⟨rfl, by rw [hx]; rfl⟩

theorem OfferKept.of_none {α : Type} {old new : Option α} {log log' : List α} (h : old = none) : OfferKept old new log log' := by
  rintro x rfl
  cases h

/-! ### The four ports -/

/-- Each of the four ports keeps its offer from `s` to `t`, or the host has taken it. -/
structure OffersKept (s t : State) : Prop where
  dout : OfferKept s.lz.dout t.lz.dout s.host.doutLog t.host.doutLog
  temp : OfferKept s.ps.tempOut t.ps.tempOut s.host.tempLog t.host.tempLog
  bin : OfferKept s.ps.binOut t.ps.binOut s.host.binLog t.host.binLog
  loc : OfferKept s.ps.locOut t.ps.locOut s.host.locLog t.host.locLog

/-- The four ports of `s` and `t` offer the same. -/
structure SameOffers (s t : State) : Prop where
  dout : t.lz.dout = s.lz.dout
  temp : t.ps.tempOut = s.ps.tempOut
  bin : t.ps.binOut = s.ps.binOut
  loc : t.ps.locOut = s.ps.locOut

theorem SameOffers.refl (s : State) : SameOffers s s := ⟨rfl, rfl, rfl, rfl⟩

theorem SameOffers.trans {s t u : State} (h : SameOffers s t) (k : SameOffers t u) : SameOffers s u :=
  ⟨k.dout.trans h.dout, k.temp.trans h.temp, k.bin.trans h.bin, k.loc.trans h.loc⟩

theorem SameOffers.offersKept {s t : State} (h : SameOffers s t) : OffersKept s t :=
  ⟨.same h.dout, .same h.temp, .same h.bin, .same h.loc⟩

theorem OffersKept.refl (s : State) : OffersKept s s := (SameOffers.refl s).offersKept

/-! ### The engine that offers waits -/

/-- The LZMA engine has no turn while a byte is offered on `dout` (R77). -/
theorem lzmaTurn_of_dout {s : State} {b : Byte} (h : s.lz.dout = some b) : lzmaTurn s = none := by
  simp [lzmaTurn, h]

/-- The parser engine has no turn while one of its ports is not free (R79). -/
theorem parserTurn_of_ports {s : State} (h : parserPortsFree s.ps = false) : parserTurn s = none := by
  simp [parserTurn, h]

/-- A turn of the LZMA engine found nothing offered on `dout`, and leaves the parser's ports. -/
theorem lzmaTurn_offersKept {s t : State} (h : lzmaTurn s = some (.next t)) : OffersKept s t := by
  obtain ⟨_, hdout, _⟩ := lzmaTurn_next h
  have hps : t.ps = s.ps := by rw [lzmaTurn_lzmaOnly h]
  exact ⟨.of_none hdout, .same (by rw [hps]), .same (by rw [hps]), .same (by rw [hps])⟩

/-- A turn of the parser engine found its three ports free, and leaves `dout`. -/
theorem parserTurn_offersKept {s t : State} (h : parserTurn s = some (.next t)) : OffersKept s t := by
  obtain ⟨_, hfree, _⟩ := parserTurn_next h
  simp only [parserPortsFree, Bool.and_eq_true, Option.isNone_iff_eq_none] at hfree
  obtain ⟨⟨htemp, hbin⟩, hloc⟩ := hfree
  have hlz : t.lz = s.lz := by rw [parserTurn_parserOnly h]
  exact ⟨.same (by rw [hlz]), .of_none htemp, .of_none hbin, .of_none hloc⟩

/-- A turn that an idle or waiting engine may leave unused: it was used, or nothing changed. -/
theorem getD_next {o : Option Out} {s t : State} (h : o.getD (.next s) = .next t) : o = some (.next t) ∨ t = s := by
  cases o with
  | none => cases h; exact .inr rfl
  | some o => exact .inl (congrArg some h)

/-! ### The host's turns -/

/-- A command writes no port. -/
theorem command_sameOffers {i : Instr} (hi : isPacket i = false) {s t : State} (h : exec i s = .next t) : SameOffers s t := by
  cases i with
  | startLzma => simp only [exec, execStartLzma] at h; split at h <;> cases h <;> exact ⟨rfl, rfl, rfl, rfl⟩
  | startParse => simp only [exec, execStartParse] at h; split at h <;> cases h <;> exact ⟨rfl, rfl, rfl, rfl⟩
  | clearLzma => simp only [exec, execClearLzma] at h; split at h <;> cases h <;> exact ⟨rfl, rfl, rfl, rfl⟩
  | clearParse => simp only [exec, execClearParse] at h; split at h <;> cases h <;> exact ⟨rfl, rfl, rfl, rfl⟩
  | _ => cases hi

/-- A register write puts nothing on a port and takes nothing from one. -/
theorem csrWrite_sameOffers {off : BitVec 8} {v : Word} {s t : State} (h : csrWrite off v s = .next t) : SameOffers s t := by
  unfold csrWrite at h
  split at h
  · cases h; exact ⟨rfl, rfl, rfl, rfl⟩
  · exact runCommands_kept (P := SameOffers s) (decodeCommands_isPacket v)
      (fun _ _ _ hi hs he => hs.trans (command_sameOffers hi he)) (.refl s) h
  · cases h; exact .refl s

/-- Taking from `dout` empties the port into the host's log, whether or not a byte was offered. -/
theorem takeDout_eq (s : State) : takeDout s =
    { s with lz := { s.lz with dout := none }, host := { s.host with doutLog := s.host.doutLog ++ s.lz.dout.toList } } := by
  unfold takeDout
  split
  · next b h => rw [h]; rfl
  · next h =>
    have hlz : { s.lz with dout := none } = s.lz := by rw [← h]
    rw [hlz, h, Option.toList_none, List.append_nil]

theorem takeTemp_eq (s : State) : takeTemp s =
    { s with ps := { s.ps with tempOut := none }, host := { s.host with tempLog := s.host.tempLog ++ s.ps.tempOut.toList } } := by
  unfold takeTemp
  split
  · next v h => rw [h]; rfl
  · next h =>
    have hps : { s.ps with tempOut := none } = s.ps := by rw [← h]
    rw [hps, h, Option.toList_none, List.append_nil]

theorem takeBin_eq (s : State) : takeBin s =
    { s with ps := { s.ps with binOut := none }, host := { s.host with binLog := s.host.binLog ++ s.ps.binOut.toList } } := by
  unfold takeBin
  split
  · next v h => rw [h]; rfl
  · next h =>
    have hps : { s.ps with binOut := none } = s.ps := by rw [← h]
    rw [hps, h, Option.toList_none, List.append_nil]

theorem takeLoc_eq (s : State) : takeLoc s =
    { s with ps := { s.ps with locOut := none }, host := { s.host with locLog := s.host.locLog ++ s.ps.locOut.toList } } := by
  unfold takeLoc
  split
  · next v h => rw [h]; rfl
  · next h =>
    have hps : { s.ps with locOut := none } = s.ps := by rw [← h]
    rw [hps, h, Option.toList_none, List.append_nil]

theorem takeAll_offersKept (s : State) : OffersKept s (takeAll s) := by
  rw [takeAll, takeDout_eq, takeTemp_eq, takeBin_eq, takeLoc_eq]
  exact ⟨.taken _ _, .taken _ _, .taken _ _, .taken _ _⟩

/-- No action of the host but `rst` withdraws an item. -/
theorem hostTurn_offersKept {a : HostAct} (ha : a ≠ .rst) {s t : State} (h : hostTurn a s = .next t) : OffersKept s t := by
  cases a with
  | csrWrite off v => exact (csrWrite_sameOffers h).offersKept
  | takeDout => cases h; rw [takeDout_eq]; exact ⟨.taken _ _, .same rfl, .same rfl, .same rfl⟩
  | takeTemp => cases h; rw [takeTemp_eq]; exact ⟨.same rfl, .taken _ _, .same rfl, .same rfl⟩
  | takeBin => cases h; rw [takeBin_eq]; exact ⟨.same rfl, .same rfl, .taken _ _, .same rfl⟩
  | takeLoc => cases h; rw [takeLoc_eq]; exact ⟨.same rfl, .same rfl, .same rfl, .taken _ _⟩
  | rst => exact absurd rfl ha
  | _ => cases h; exact SameOffers.offersKept ⟨rfl, rfl, rfl, rfl⟩

/-! ### A step -/

theorem runTurn_offersKept {turn : Turn} (hr : turn ≠ .host .rst) {s t : State} (h : runTurn turn s = .next t) :
    OffersKept s t := by
  cases turn with
  | host a => exact hostTurn_offersKept (fun ha => hr (congrArg Turn.host ha)) h
  | lzma =>
    rcases getD_next h with h | rfl
    · exact lzmaTurn_offersKept h
    · exact .refl t
  | parser =>
    rcases getD_next h with h | rfl
    · exact parserTurn_offersKept h
    · exact .refl t

theorem autoTurn_offersKept {s t : State} (h : autoTurn s = .next t) : OffersKept s t := by
  unfold autoTurn at h
  split at h
  · cases h; exact takeAll_offersKept s
  · cases hl : lzmaTurn s with
    | some o => rw [hl, Option.getD_some] at h; exact lzmaTurn_offersKept (h ▸ hl)
    | none => exact runTurn_offersKept (turn := .parser) nofun (by rwa [hl] at h)

/-- A step keeps every offer, or is the reset that withdraws them (R52, R370). -/
theorem step_offersKept {s t : State} (h : step s = .next t) :
    (∃ rest, s.host.schedule = .host .rst :: rest) ∨ OffersKept s t := by
  unfold step anyTurn at h
  split at h
  · exact .inr (autoTurn_offersKept h)
  · next turn rest hs =>
    by_cases hr : turn = .host .rst
    · exact .inl ⟨rest, hr ▸ hs⟩
    · obtain ⟨hdout, htemp, hbin, hloc⟩ := runTurn_offersKept hr h
      exact .inr ⟨hdout, htemp, hbin, hloc⟩

/-- The same for one port: offered still, taken, or withdrawn by `rst`. -/
theorem step_offer {s t : State} (h : step s = .next t) {α : Type} {old new : Option α} {log log' : List α}
    (port : OffersKept s t → OfferKept old new log log') {x : α} (hx : old = some x) :
    new = some x ∨ (new = none ∧ log' = log ++ [x]) ∨ ∃ rest, s.host.schedule = .host .rst :: rest := by
  rcases step_offersKept h with hrst | hkept
  · exact .inr (.inr hrst)
  · exact (port hkept x hx).imp_right .inl

/-- Settles O33: an offer blocks its engine, and of the turns that are left only `rst` withdraws it. -/
theorem offeredItemsStayOffered : Obligations.OfferedItemsStayOffered := by
  intro s t h
  exact ⟨fun _ hb => ⟨lzmaTurn_of_dout hb, step_offer h OffersKept.dout hb⟩,
    fun _ hx => ⟨parserTurn_of_ports (by simp [parserPortsFree, hx]), step_offer h OffersKept.temp hx⟩,
    fun _ hx => ⟨parserTurn_of_ports (by simp [parserPortsFree, hx]), step_offer h OffersKept.bin hx⟩,
    fun _ hx => ⟨parserTurn_of_ports (by simp [parserPortsFree, hx]), step_offer h OffersKept.loc hx⟩⟩

end Sys2Proof.Machine
end

section
/-! The STATUS fields of the two engines along every step (10_state.md R29, R39; 60_exceptions.md R330). -/

namespace Sys2Proof.Machine

/-! ### The status of one engine -/

/-- What R39 and R29 relate in one engine: BUSY, DONE, the error, and whether its control point is idle. -/
structure Status where
  busy : Bool
  done : Bool
  err : Option ErrCode
  idle : Bool

def Lzma.status (z : Lzma) : Status := ⟨z.busy, z.done, z.err, decide (z.phase = .idle)⟩

def Parser.status (p : Parser) : Status := ⟨p.busy, p.done, p.err, decide (p.phase = .idle)⟩

/-- The status after reset (R371). -/
def Status.reset : Status := ⟨false, false, none, true⟩

/-- BUSY exactly while a routine runs, and at most one of BUSY, DONE and an error (R39, R29). -/
def Status.Exclusive (a : Status) : Prop :=
  (a.busy = true ↔ a.idle = false) ∧ (a.busy = true → a.done = false ∧ a.err = none) ∧ (a.done = true → a.err = none)

theorem Status.reset_exclusive : Status.reset.Exclusive := ⟨by simp [Status.reset], nofun, nofun⟩

/-- The error, if there is one, is among `errs`. -/
def Status.ErrIn (errs : ErrCode → Prop) (a : Status) : Prop := ∀ e, a.err = some e → errs e

/-- What a turn of a running engine or a command for an idle one can do to the engine's status; `errs` are the errors that R330
gives the engine. -/
inductive StatusMove (errs : ErrCode → Prop) (a : Status) : Status → Prop where
  | goesOn : StatusMove errs a a
  | raises {e : ErrCode} {d : Bool} (hb : a.busy = true) (he : errs e) (hd : d = a.done) :
      StatusMove errs a ⟨false, d, some e, true⟩
  | ends (hb : a.busy = true) : StatusMove errs a ⟨false, true, a.err, true⟩
  | starts : StatusMove errs a ⟨true, false, none, false⟩
  | clears (hb : a.busy = false) : StatusMove errs a ⟨a.busy, false, none, a.idle⟩

theorem StatusMove.of_eq {errs : ErrCode → Prop} {a b : Status} (h : b = a) : StatusMove errs a b := h ▸ .goesOn

theorem StatusMove.exclusive {errs : ErrCode → Prop} {a b : Status} (h : StatusMove errs a b) (ha : a.Exclusive) :
    b.Exclusive := by
  obtain ⟨hidle, hbusy, hdone⟩ := ha
  cases h with
  | goesOn => exact ⟨hidle, hbusy, hdone⟩
  | raises hb _ hd => exact ⟨by simp, nofun, fun h => absurd h (by simp [hd, (hbusy hb).1])⟩
  | ends hb => exact ⟨by simp, nofun, fun _ => (hbusy hb).2⟩
  | starts => exact ⟨by simp, fun _ => ⟨rfl, rfl⟩, nofun⟩
  | clears _ => exact ⟨hidle, fun _ => ⟨rfl, rfl⟩, nofun⟩

theorem StatusMove.errIn {errs : ErrCode → Prop} {a b : Status} (h : StatusMove errs a b) (ha : a.ErrIn errs) :
    b.ErrIn errs := by
  cases h with
  | goesOn => exact ha
  | raises _ he _ => rintro _ ⟨⟩; exact he
  | ends _ => exact ha
  | starts => exact nofun
  | clears _ => exact nofun

/-! ### The LZMA engine -/

/-- The errors of the LZMA engine (R330). -/
def lzmaErr (e : ErrCode) : Prop :=
  e = .invalidStreamProperties ∨ e = .prematureEndOfInput ∨ e = .corruptCompressedStream ∨ e = .sizeMismatch

/-- Two running engines with the same status fields have the same status. -/
theorem Lzma.status_eq {z y : Lzma} (hb : y.busy = z.busy) (hd : y.done = z.done) (he : y.err = z.err)
    (hz : z.phase ≠ .idle) (hy : y.phase ≠ .idle) : y.status = z.status := by
  simp [Lzma.status, hb, hd, he, hz, hy]

/-- A control point in the header or later is not idle. -/
theorem ne_idle_of_headerAccepted {p : LzPhase} (h : headerAccepted p = true) : p ≠ .idle := by
  rintro rfl
  cases h

theorem LzmaMove.status {z y : Lzma} (h : LzmaMove z y) (hb : z.busy = true) : StatusMove lzmaErr z.status y.status := by
  have same : ∀ {x : Lzma}, x.busy = z.busy → x.done = z.done → x.err = z.err → z.phase ≠ .idle → x.phase ≠ .idle →
      StatusMove lzmaErr z.status x.status := fun hb hd he hz hx => .of_eq (Lzma.status_eq hb hd he hz hx)
  cases h with
  | stops e y hp he hw hc hd hf ho hn =>
    exact StatusMove.raises (errs := lzmaErr) (a := z.status) hb he hd
  | ends j v hp hj hv hd => exact StatusMove.ends (a := z.status) hb
  | dict n l d k ds hp => exact same rfl rfl rfl hp nofun
  | accepts n l d ds x u kn p hp ha hv hq hn => exact same rfl rfl rfl hp (by rcases hq with rfl | rfl <;> exact nofun)
  | size n l x u kn p ha hl ha' => exact same rfl rfl rfl (ne_idle_of_headerAccepted ha) (ne_idle_of_headerAccepted ha')
  | starts n l c ha => exact same rfl rfl rfl (ne_idle_of_headerAccepted ha) nofun
  | bit q b bits s t hs hp => exact same rfl rfl rfl (by simp [hp]) nofun
  | copies i len y bits w b hp hy =>
    rw [copyOperands_updates hy]; exact same rfl rfl rfl (by simp [hp]) nofun
  | copiesFull i len n src y bits w hp hy =>
    rw [copyOperands_updates hy]; exact same rfl rfl rfl (by simp [hp]) nofun
  | _ => exact same rfl rfl rfl (by simp [*]) nofun

/-- What the moves of an engine's status and reset keep, the LZMA engine's status keeps along every step. -/
theorem keptByStep_lzmaStatus {Q : Status → Prop} (hmove : ∀ {a b}, StatusMove lzmaErr a b → Q a → Q b)
    (hreset : Q Status.reset) : KeptByStep (fun s => Q s.lz.status) := by
  refine kept_of_lzma (P := fun z => Q z.status) (fun s t hq h => ?_) (fun s t hq h => ?_) (fun z hq hb => ?_)
    (fun z hq => hq) (fun z hq => hreset)
  · exact hmove ((lzmaTurn_move h).status (lzmaTurn_next h).1) hq
  · simp only [exec, execStartLzma] at h
    split at h
    · cases h; exact hq
    · cases h; exact hmove .starts hq
  · exact hmove (.clears hb) hq

/-! ### The parser engine -/

/-- The errors of the parser engine (R330). -/
def parserErr (e : ErrCode) : Prop :=
  e = .magicMismatch ∨ e = .unsupportedVersion ∨ e = .prematureEndOfInput ∨ e = .invalidFieldWidth

theorem Parser.status_eq {p q : Parser} (hb : q.busy = p.busy) (hd : q.done = p.done) (he : q.err = p.err)
    (hp : p.phase ≠ .idle) (hq : q.phase ≠ .idle) : q.status = p.status := by
  simp [Parser.status, hb, hd, he, hp, hq]

theorem RecordStep.status {s t : State} (h : RecordStep s t) (hs : s.ps.phase ≠ .idle) : t.ps.status = s.ps.status := by
  obtain ⟨herr, hdone, hbusy, _, _, _, _, _, _, hphase, _⟩ := h
  exact Parser.status_eq hbusy hdone herr hs hphase

theorem fieldTurn_status {f : PField} {k : Nat} {v : Word} {s t : State} (hs : s.ps.busy = true) (hp : s.ps.phase ≠ .idle)
    (h : fieldTurn f k v s = some (.next t)) : StatusMove parserErr s.ps.status t.ps.status := by
  rcases fieldTurn_next h with ⟨_, b, u, hu, rfl⟩ | ⟨_, rfl⟩ | ⟨_, rfl⟩
  · have hcursor := (pReadBit_ok hu).2
    rw [hcursor]
    exact .of_eq (Parser.status_eq (p := s.ps) rfl rfl rfl hp (fun h => nomatch h))
  · exact StatusMove.raises (errs := parserErr) (a := s.ps.status) hs (.inr (.inr (.inl rfl))) rfl
  · rcases fieldDone_status f v s with ⟨herr, hdone, hbusy, hphase⟩ | ⟨e, u, he, hraise, hdone⟩
    · exact .of_eq (Parser.status_eq hbusy hdone herr hp hphase)
    · have hmem : parserErr e := by rcases he with rfl | rfl | rfl <;> simp [parserErr]
      rw [hraise]
      exact StatusMove.raises (a := s.ps.status) hs hmem hdone

theorem parserTurn_status {s t : State} (h : parserTurn s = some (.next t)) : StatusMove parserErr s.ps.status t.ps.status := by
  have goesOn : ∀ {u : State}, RecordStep u t → u.ps.status = s.ps.status → u.ps.phase ≠ .idle →
      StatusMove parserErr s.ps.status t.ps.status := fun hr hu hp => .of_eq ((hr.status hp).trans hu)
  obtain ⟨hb, _, ⟨f, k, v, hp, hf⟩ | ⟨hp, rfl⟩ | ⟨md, ti, hp, rfl⟩ | ⟨hp, rfl⟩ | ⟨la, lo, bi, hp, rfl⟩ | ⟨hp, rfl⟩⟩ :=
    parserTurn_next h
  · exact fieldTurn_status hb (by simp [hp]) hf
  · exact goesOn (nextTemperature_record _) rfl (by simp [hp])
  · exact goesOn (nextBin_record _) rfl (by simp [hp, holdBin])
  · exact goesOn (startLocations_record _) rfl (by simp [hp])
  · exact goesOn (nextLocation_record _) rfl (by simp [hp, holdLocation])
  · exact StatusMove.ends (a := s.ps.status) hb

/-- What the moves of an engine's status and reset keep, the parser engine's status keeps along every step. -/
theorem keptByStep_parserStatus {Q : Status → Prop} (hmove : ∀ {a b}, StatusMove parserErr a b → Q a → Q b)
    (hreset : Q Status.reset) : KeptByStep (fun s => Q s.ps.status) := by
  refine kept_of_parser (P := fun p => Q p.status) (fun s t hq h => ?_) (fun s t hq h => ?_) (fun p hq hb => ?_)
    (fun p hq => hq) (fun p hq => hq) (fun p hq => hq) hreset
  · exact hmove (parserTurn_status h) hq
  · simp only [exec, execStartParse] at h
    split at h
    · cases h; exact hq
    · cases h; exact hmove .starts hq
  · exact hmove (.clears hb) hq

/-! ### Both engines -/

theorem KeptByStep.and {P Q : State → Prop} (hP : KeptByStep P) (hQ : KeptByStep Q) : KeptByStep (fun s => P s ∧ Q s) :=
  fun s hs t ht => ⟨hP s hs.1 t ht, hQ s hs.2 t ht⟩

theorem KeptByStep.congr {P Q : State → Prop} (h : ∀ s, P s ↔ Q s) (hP : KeptByStep P) : KeptByStep Q :=
  fun s hs t ht => (h t).1 (hP s ((h s).2 hs) t ht)

theorem statusExclusive_iff (s : State) : s.lz.status.Exclusive ∧ s.ps.status.Exclusive ↔ StatusExclusive s := by
  simp only [Status.Exclusive, StatusExclusive, Lzma.status, Parser.status, decide_eq_false_iff_not]
  exact ⟨fun ⟨⟨a, b, c⟩, d, e, f⟩ => ⟨a, d, b, c, e, f⟩, fun ⟨a, d, b, c, e, f⟩ => ⟨⟨a, b, c⟩, d, e, f⟩⟩

theorem errorsOfEngine_iff (s : State) : s.lz.status.ErrIn lzmaErr ∧ s.ps.status.ErrIn parserErr ↔ ErrorsOfEngine s := by
  simp only [Status.ErrIn, ErrorsOfEngine, Lzma.status, Parser.status]
  refine and_congr ?_ ?_
  · cases s.lz.err <;> simp [lzmaErr]
  · cases s.ps.err <;> simp [parserErr]

/-- Settles O54: a turn goes on, raises one of its engine's errors or ends the routine; a command starts the engine or clears its
status; and each of these keeps both properties of the engine's status. -/
theorem statusStaysExclusive : Obligations.StatusStaysExclusive :=
  ⟨((keptByStep_lzmaStatus StatusMove.exclusive Status.reset_exclusive).and
      (keptByStep_parserStatus StatusMove.exclusive Status.reset_exclusive)).congr statusExclusive_iff,
    ((keptByStep_lzmaStatus StatusMove.errIn nofun).and (keptByStep_parserStatus StatusMove.errIn nofun)).congr
      errorsOfEngine_iff⟩

end Sys2Proof.Machine
end

section
/-! Each engine's turn seen from two states that agree on what the engine may read (10_state.md R21, 44_dataset_parser.md R293). -/

namespace Sys2Proof.Machine

/-! ### An operation's answer in another surrounding -/

/-- The answer of an operation with `f` applied to the state in it. -/
def Res.mapState {α : Type} (f : State → State) : Res α → Res α
  | .ok a s => .ok a (f s)
  | .wait => .wait
  | .raised e s => .raised e (f s)
  | .fault x => .fault x
  | .refused x => .refused x

/-- The operation `g` gives the same answer where `f` has replaced what it has no access to. -/
def Res.Blind {α : Type} (f : State → State) (g : State → Res α) : Prop := ∀ s, g (f s) = (g s).mapState f

/-- The same for a continuation, a turn without waiting. -/
def OutBlind (f : State → State) (g : State → Out) : Prop := ∀ s, g (f s) = mapNext f (g s)

/-- The same for an update of the state. -/
def StateBlind (f g : State → State) : Prop := ∀ s, g (f s) = f (g s)

theorem Res.bind_mapState {α β : Type} {f : State → State} {k : α → State → Res β} (hk : ∀ a, Res.Blind f (k a)) (r : Res α) :
    (r.mapState f).bind k = (r.bind k).mapState f := by
  cases r with
  | ok a s => exact hk a s
  | _ => rfl

theorem Res.turn_mapState {α : Type} {f : State → State} {x : Engine} (hraise : ∀ e, StateBlind f (raise x e))
    {k : α → State → Out} (hk : ∀ a, OutBlind f (k a)) (r : Res α) :
    (r.mapState f).turn x k = (r.turn x k).map (mapNext f) := by
  cases r with
  | ok a s => exact congrArg some (hk a s)
  | raised e s => exact congrArg (fun t => some (Host.Outcome.next t)) (hraise e s)
  | _ => rfl

/-! ### The LZMA engine -/

/-- The block `u` around the LZMA engine, the parameters and the `cin` bytes of `s`: all that a turn of the LZMA engine may
use of `s` (R21). -/
def State.aroundLzma (u s : State) : State :=
  { u with params := s.params, lz := s.lz, host := { u.host with cin := s.host.cin } }

section

variable (u : State)

@[simp] theorem aroundLzma_lz (s : State) : (u.aroundLzma s).lz = s.lz := rfl
@[simp] theorem aroundLzma_params (s : State) : (u.aroundLzma s).params = s.params := rfl
@[simp] theorem aroundLzma_cin (s : State) : (u.aroundLzma s).host.cin = s.host.cin := rfl

theorem readIn_blind : Res.Blind u.aroundLzma readIn := by
  intro s
  unfold readIn
  rw [aroundLzma_lz, aroundLzma_cin]
  split
  · rfl
  · split
    · rfl
    · split <;> rfl

theorem normalize_blind : Res.Blind u.aroundLzma normalize := by
  intro s
  unfold normalize
  rw [aroundLzma_lz]
  split
  · exact (congrArg (Res.bind · _) (readIn_blind u { s with lz := { s.lz with range := s.lz.range <<< 8 } })).trans
      (Res.bind_mapState (fun _ _ => rfl) _)
  · rfl

/-- The end of decoding a bit: `Normalize`, then the bit as the value. -/
theorem normalize_bind_blind (b : Bool) (s : State) :
    (normalize (u.aroundLzma s)).bind (fun _ t => Res.ok b t) =
      ((normalize s).bind (fun _ t => Res.ok b t)).mapState u.aroundLzma := by
  rw [normalize_blind u s]
  exact Res.bind_mapState (fun _ _ => rfl) _

theorem answer_blind (q : Query) : Res.Blind u.aroundLzma (answer q) := by
  intro s
  cases q with
  | counter i =>
    simp only [answer, decodeBit]
    rw [aroundLzma_lz, show probRead i (u.aroundLzma s) = probRead i s from rfl]
    split
    · split
      · exact normalize_bind_blind u false (bitZero i s)
      · exact normalize_bind_blind u true (bitOne i s)
    · rfl
  | direct =>
    simp only [answer, directBit]
    rw [aroundLzma_lz]
    split
    · exact normalize_bind_blind u false (directZero s)
    · exact normalize_bind_blind u true (directOne s)

theorem appendByte_blind (b : Byte) {k k' : State → Out} {s : State}
    (hk : k (u.aroundLzma (appended b s)) = mapNext u.aroundLzma (k' (appended b s))) :
    appendByte b (u.aroundLzma s) k = mapNext u.aroundLzma (appendByte b s k') := by
  unfold appendByte
  rw [aroundLzma_lz]
  split
  · split
    · rfl
    · exact hk
  · rfl

theorem endCopy_blind : OutBlind u.aroundLzma endCopy := by
  intro s
  unfold endCopy
  rw [show getByte 0 (u.aroundLzma s) = getByte 0 s from rfl]
  split <;> rfl

theorem copyRun_blind (rem : Nat) : ∀ src, OutBlind u.aroundLzma (copyRun rem src) := by
  induction rem with
  | zero => exact fun _ => endCopy_blind u
  | succ rem ih =>
    intro src s
    rw [copyRun, copyRun]
    rw [show memRead (copySource src (u.aroundLzma s)) (u.aroundLzma s) = memRead (copySource src s) s from rfl]
    split
    · rfl
    · refine appendByte_blind u _ ?_
      rw [aroundLzma_lz]
      split
      · rfl
      · exact ih _ _

theorem copyStep_blind (len : Nat) : OutBlind u.aroundLzma (copyStep len) := by
  intro s
  unfold copyStep copyBlock
  rw [aroundLzma_lz, show backIndex s.lz.rep0 (u.aroundLzma s) = backIndex s.lz.rep0 s from rfl]
  split
  · split
    · split
      · rfl
      · exact copyRun_blind u _ _ s
    · rfl
  · rfl

theorem putLiteral_blind (b : Byte) : OutBlind u.aroundLzma (putLiteral b) := by
  intro s
  refine appendByte_blind u b ?_
  rw [aroundLzma_lz]
  split <;> rfl

theorem execEos_blind (len : Nat) : OutBlind u.aroundLzma (execEos len) := by
  intro s
  unfold execEos
  rw [aroundLzma_lz]
  split <;> rfl

/-- A packet, unlike START_LZMA, does not read CTRL. -/
theorem packet_blind {i : Instr} (hi : isPacket i = true) : OutBlind u.aroundLzma (exec i) := by
  intro s
  rcases packet_cases hi s.lz with ⟨b, rfl⟩ | ⟨len, rfl⟩ | ⟨len, z, hz⟩
  · exact putLiteral_blind u b s
  · exact execEos_blind u len s
  · rw [exec_copy hz, exec_copy (s := u.aroundLzma s) hz]
    exact copyStep_blind u len { s with lz := z }

theorem afterFlush_blind (c : FlushCont) : OutBlind u.aroundLzma (afterFlush c) := by
  cases c with
  | lit b => exact fun _ => rfl
  | copy rem src => exact copyRun_blind u rem src
  | finish => exact fun _ => rfl

theorem flushTurn_blind (j : Nat) (c : FlushCont) : OutBlind u.aroundLzma (flushTurn j c) := by
  intro s
  unfold flushTurn
  rw [aroundLzma_lz, show memRead j (u.aroundLzma s) = memRead j s from rfl]
  split
  · split <;> rfl
  · exact afterFlush_blind u c (endFlush s)

theorem headerAccept_blind : StateBlind u.aroundLzma headerAccept := by
  intro s
  unfold headerAccept
  rw [aroundLzma_lz]
  split <;> rfl

theorem headerCheck_blind (d : Byte) : StateBlind u.aroundLzma (headerCheck d) := by
  intro s
  unfold headerCheck
  rw [aroundLzma_lz, aroundLzma_params]
  split
  · rfl
  · split
    · rfl
    · split
      · rfl
      · exact headerAccept_blind u s

theorem dictByte_blind (d : Byte) (k : Nat) (ds : Word) (b : Byte) : StateBlind u.aroundLzma (dictByte d k ds b) := by
  intro s
  unfold dictByte
  split
  · rfl
  · exact headerCheck_blind u d (headerValues d _ s)

theorem sizeByte_blind (k : Nat) (v : DWord) (b : Byte) : StateBlind u.aroundLzma (sizeByte k v b) := by
  intro s
  unfold sizeByte
  split <;> rfl

theorem codeByte_blind (k : Nat) (c : Word) (b : Byte) : StateBlind u.aroundLzma (codeByte k c b) := by
  intro s
  unfold codeByte
  split <;> rfl

theorem loopTest_blind : StateBlind u.aroundLzma loopTest := by
  intro s
  unfold loopTest
  rw [aroundLzma_lz]
  split <;> rfl

theorem packetTurn_blind (bits : List Bool) (s : State) :
    packetTurn bits (u.aroundLzma s) = (packetTurn bits s).map (mapNext u.aroundLzma) := by
  unfold packetTurn
  rw [show ctxOf (u.aroundLzma s) = ctxOf s from rfl]
  split
  · next hw => exact congrArg some (packet_blind u (packet_of_walk hw).1 s)
  · rfl
  · next q _ _ _ =>
    rw [answer_blind u q s]
    cases answer q s <;> rfl

/-- A turn that takes one byte and goes on with an update of the state. -/
theorem readTurn_blind (g : Byte → State → State) (hg : ∀ b, StateBlind u.aroundLzma (g b)) (s : State) :
    (readIn (u.aroundLzma s)).turn .lzma (fun b t => .next (g b t)) =
      ((readIn s).turn .lzma (fun b t => .next (g b t))).map (mapNext u.aroundLzma) := by
  rw [readIn_blind u s]
  exact Res.turn_mapState (fun _ _ => rfl) (k := fun b t => .next (g b t)) (fun b t => congrArg Host.Outcome.next (hg b t)) _

/-- A turn of the LZMA engine is the same turn in any other block around it. -/
theorem lzmaTurn_blind (s : State) : lzmaTurn (u.aroundLzma s) = (lzmaTurn s).map (mapNext u.aroundLzma) := by
  unfold lzmaTurn
  rw [aroundLzma_lz]
  split
  · split
    · rfl
    · exact readTurn_blind u (fun d => toPhase (.hdrDict d 0 0)) (fun _ _ => rfl) s
    · exact readTurn_blind u (dictByte _ _ _) (dictByte_blind u _ _ _) s
    · exact readTurn_blind u (sizeByte _ _) (sizeByte_blind u _ _) s
    · exact readTurn_blind u (fun _ => toPhase (.rcCode 0 0)) (fun _ _ => rfl) s
    · exact readTurn_blind u (codeByte _ _) (codeByte_blind u _ _) s
    · exact congrArg (fun t => some (Host.Outcome.next t)) (loopTest_blind u s)
    · exact packetTurn_blind u _ s
    · exact congrArg some (flushTurn_blind u _ _ s)
  · rfl

end

/-! ### The parser engine -/

/-- The block `u` around the parser engine, the count of free values and the `pin` bytes of `s`: all that a turn of the parser
engine may use of `s` (R21, R293). -/
def State.aroundParser (u s : State) : State :=
  { u with ps := s.ps, nanCount := s.nanCount, host := { u.host with pin := s.host.pin } }

section

variable (u : State)

@[simp] theorem aroundParser_ps (s : State) : (u.aroundParser s).ps = s.ps := rfl
@[simp] theorem aroundParser_pin (s : State) : (u.aroundParser s).host.pin = s.host.pin := rfl

theorem pinRead_blind : Res.Blind u.aroundParser pinRead := by
  intro s
  unfold pinRead
  rw [aroundParser_ps, aroundParser_pin]
  split
  · rfl
  · split <;> rfl

theorem pReadBit_blind : Res.Blind u.aroundParser pReadBit := by
  intro s
  unfold pReadBit
  rw [aroundParser_ps, pinRead_blind u s]
  split
  · rw [Res.bind_mapState (fun _ _ => rfl)]
    exact Res.bind_mapState (fun _ _ => rfl) _
  · rfl

theorem nextLocation_blind : StateBlind u.aroundParser nextLocation := by
  intro s
  unfold nextLocation
  rw [aroundParser_ps]
  split
  · rfl
  · split <;> rfl

theorem startLocations_blind : StateBlind u.aroundParser startLocations := fun s =>
  nextLocation_blind u { s with ps := { s.ps with heldLocValid := false, pI := 0 } }

theorem nextBin_blind : StateBlind u.aroundParser nextBin := by
  intro s
  unfold nextBin
  rw [aroundParser_ps]
  split
  · rfl
  · split <;> rfl

theorem startBins_blind : StateBlind u.aroundParser startBins := fun s =>
  nextBin_blind u { s with ps := { s.ps with heldBinValid := false, pI := 0 } }

theorem nextTemperature_blind : StateBlind u.aroundParser nextTemperature := by
  intro s
  unfold nextTemperature
  rw [aroundParser_ps]
  split
  · rfl
  · exact startBins_blind u s

theorem checkWidths_blind : StateBlind u.aroundParser checkWidths := by
  intro s
  unfold checkWidths
  rw [aroundParser_ps]
  split
  · rfl
  · exact nextTemperature_blind u { s with ps := { s.ps with hdrValid := true, pI := 0 } }

theorem offerTemperature_blind (c : Word) : StateBlind u.aroundParser (offerTemperature c) := by
  intro s
  unfold offerTemperature
  rw [aroundParser_ps]
  split <;> rfl

theorem offerBin_blind (md ti : Word) : StateBlind u.aroundParser (offerBin md ti) := by
  intro s
  unfold offerBin
  rw [aroundParser_ps]
  split <;> rfl

theorem offerLocation_blind (la lo bi : Word) : StateBlind u.aroundParser (offerLocation la lo bi) := by
  intro s
  unfold offerLocation
  rw [aroundParser_ps]
  split <;> rfl

theorem fieldDone_blind (f : PField) (v : Word) : StateBlind u.aroundParser (fieldDone f v) := by
  intro s
  cases f with
  | magic k =>
    simp only [fieldDone]
    split
    · split <;> rfl
    · rfl
  | version => simp only [fieldDone]; split <;> rfl
  | bcBinIndex => exact checkWidths_blind u { s with ps := { s.ps with bcBinIndex := v.setWidth 8 } }
  | tempCode => exact offerTemperature_blind u v s
  | binTempIndex md => exact offerBin_blind u md v s
  | locBinIndex la lo => exact offerLocation_blind u la lo v s
  | _ => rfl

theorem fieldTurn_blind (f : PField) (k : Nat) (v : Word) (s : State) :
    fieldTurn f k v (u.aroundParser s) = (fieldTurn f k v s).map (mapNext u.aroundParser) := by
  unfold fieldTurn
  rw [aroundParser_ps, pReadBit_blind u s]
  split
  · exact Res.turn_mapState (fun _ _ => rfl) (fun _ _ => rfl) _
  · exact congrArg (fun t => some (Host.Outcome.next t)) (fieldDone_blind u f v s)

/-- A turn of the parser engine is the same turn in any other block around it. -/
theorem parserTurn_blind (s : State) : parserTurn (u.aroundParser s) = (parserTurn s).map (mapNext u.aroundParser) := by
  unfold parserTurn
  rw [aroundParser_ps]
  split
  · split
    · rfl
    · exact fieldTurn_blind u _ _ _ s
    · exact congrArg (fun t => some (Host.Outcome.next t)) (nextTemperature_blind u (bumpIndex s))
    · exact congrArg (fun t => some (Host.Outcome.next t)) (nextBin_blind u (bumpIndex (holdBin _ _ s)))
    · exact congrArg (fun t => some (Host.Outcome.next t)) (startLocations_blind u s)
    · exact congrArg (fun t => some (Host.Outcome.next t)) (nextLocation_blind u (bumpIndex (holdLocation _ _ _ s)))
    · rfl
  · rfl

end

/-! ### The obligation -/

/-- Settles O50: with the offered bytes the same, the replaced state is the new surroundings around the old engine, and each
operation of an engine commutes with exchanging its surroundings. -/
theorem enginesAreIsolated : Obligations.EnginesAreIsolated := by
  constructor
  · intro s p c n h hcin
    have hs : { s with ps := p, ctrl := c, nanCount := n, host := h } =
        State.aroundLzma { s with ps := p, ctrl := c, nanCount := n, host := h } s := by rw [State.aroundLzma, ← hcin]
    exact (congrArg lzmaTurn hs).trans (lzmaTurn_blind _ s)
  · intro s z c pm h hpin
    have hs : { s with lz := z, ctrl := c, params := pm, host := h } =
        State.aroundParser { s with lz := z, ctrl := c, params := pm, host := h } s := by rw [State.aroundParser, ← hpin]
    exact (congrArg parserTurn hs).trans (parserTurn_blind _ s)

end Sys2Proof.Machine
end

section
/-! What a step does with the decoded bytes: kept in the window, offered on `dout`, given to the host (43_output_window.md R253,
R257; 42_lzma_fsm.md R216). -/

namespace Sys2Proof.Machine

/-! ### The window law along the turns of the loop (R257) -/

/-- What leaves the window and `out_pos` alone appends nothing to the decoded sequence. -/
theorem windowHolds_same {out : List Byte} {s t : State} (h1 : t.lz.outPos = s.lz.outPos) (h2 : t.lz.winSize = s.lz.winSize)
    (h3 : t.lz.winPos = s.lz.winPos) (h4 : t.lz.window = s.lz.window) (h : WindowHolds out s) :
    ∃ more, WindowHolds (out ++ more) t :=
  ⟨[], by rw [List.append_nil]; exact windowHolds_congr h1 h2 h3 h4 h⟩

theorem putLiteral_holds {b : Byte} {s t : State} {out : List Byte} (hw : Memory.wf s.lz.window = true)
    (h : WindowHolds out s) (he : putLiteral b s = .next t) : WindowHolds (out ++ [b]) t := by
  obtain ⟨hlt, ho, ⟨_, rfl⟩ | ⟨_, rfl⟩⟩ := putLiteral_next he <;>
    exact windowHolds_congr rfl rfl rfl rfl (windowHolds_append b hw hlt ho h)

/-- A packet that does not raise only appends to the decoded sequence. -/
theorem packet_holds {i : Instr} (hi : isPacket i = true) {s t : State} {out : List Byte} (hw : Memory.wf s.lz.window = true)
    (h : WindowHolds out s) (he : exec i s = .next t) (hl : inLoop t.lz.phase = true) : ∃ more, WindowHolds (out ++ more) t := by
  rcases packet_cases hi s.lz with ⟨b, rfl⟩ | ⟨len, rfl⟩ | ⟨len, z, hz⟩
  · exact ⟨[b], putLiteral_holds hw h he⟩
  · rcases execEos_next he with ⟨_, _, rfl⟩ | ⟨_, rfl⟩
    · cases hl
    · exact windowHolds_same rfl rfl rfl rfl h
  · rw [exec_copy hz] at he
    have hu := copyOperands_updates hz
    rcases copyStep_next he with ⟨_, rfl⟩ | ⟨_, _, rfl⟩ | ⟨_, _, _, hr⟩
    · cases hl
    · cases hl
    · refine copyRun_holds _ _ ?_ ?_ hr
      · rw [hu]; exact hw
      · rw [hu]; exact windowHolds_congr rfl rfl rfl rfl h

theorem afterFlush_holds {c : FlushCont} {s t : State} {out : List Byte} (hw : Memory.wf s.lz.window = true)
    (h : WindowHolds out s) (he : afterFlush c s = .next t) : ∃ more, WindowHolds (out ++ more) t := by
  cases c with
  | lit b => cases he; exact windowHolds_same rfl rfl rfl rfl h
  | copy rem src => exact copyRun_holds rem src hw h he
  | finish => cases he; exact windowHolds_same rfl rfl rfl rfl h

/-- A turn inside the loop only appends to the decoded sequence. -/
theorem lzmaTurn_holds {s t : State} {out : List Byte} (hw : Memory.wf s.lz.window = true) (h : WindowHolds out s)
    (hl : inLoop s.lz.phase = true) (he : lzmaTurn s = some (.next t)) (hl' : inLoop t.lz.phase = true) :
    ∃ more, WindowHolds (out ++ more) t := by
  obtain ⟨_, _, ⟨hp, _⟩ | ⟨_, _, _, hp, _⟩ | ⟨_, _, hp, _⟩ | ⟨hp, _⟩ | ⟨_, _, hp, _⟩ | ⟨_, hn, _⟩ | ⟨_, rfl⟩ |
    ⟨bits, _, ht⟩ | ⟨j, c, _, hf⟩⟩ := lzmaTurn_next he
  iterate 5 · rw [hp] at hl; cases hl
  · rw [hn] at hl; cases hl
  · unfold loopTest
    split <;> exact windowHolds_same rfl rfl rfl rfl h
  · rcases packetTurn_next ht with ⟨i, r, hi, hx⟩ | ⟨q, b, u, ha, rfl⟩ | ⟨q, e, u, ha, rfl⟩
    · exact packet_holds (packet_of_walk hi).1 hw h hx hl'
    · rw [answer_ok ha]; exact windowHolds_same rfl rfl rfl rfl h
    · cases hl'
  · rcases flushTurn_next hf with ⟨_, _, rfl⟩ | ⟨_, hx⟩
    · exact windowHolds_same rfl rfl rfl rfl h
    · exact afterFlush_holds (s := endFlush s) hw (endFlush_holds h) hx

/-! ### What a step is to the LZMA engine and to the host's log of `dout` -/

/-- What every step but a turn of the LZMA engine is to that engine: it leaves the engine outside the loop and not done
(START_LZMA, `rst`); or it changes at most its status, where LZ_DONE does not rise, and hands a byte offered on `dout` to the host. -/
inductive NoLzmaTurn (s t : State) : Prop where
  | leaves (hp : inLoop t.lz.phase = false) (hd : t.lz.done = false)
  | rests (done eosFlag : Bool) (err : Option ErrCode) (dout : Option Byte)
      (hlz : t.lz = { s.lz with done := done, eosFlag := eosFlag, err := err, dout := dout })
      (hd : done = true → s.lz.done = true)
      (hlog : t.host.doutLog ++ dout.toList = s.host.doutLog ++ s.lz.dout.toList)

theorem NoLzmaTurn.same {s t : State} (hlz : t.lz = s.lz) (hlog : t.host.doutLog = s.host.doutLog) : NoLzmaTurn s t :=
  .rests s.lz.done s.lz.eosFlag s.lz.err s.lz.dout hlz id (by rw [hlog])

theorem NoLzmaTurn.trans {s t u : State} (h : NoLzmaTurn s t) (k : NoLzmaTurn t u) : NoLzmaTurn s u := by
  cases k with
  | leaves hp hd => exact .leaves hp hd
  | rests d e r o hz hd hl =>
    cases h with
    | leaves hp hd' =>
      have hdone : d ≠ true := fun h => by simp [hd h] at hd'
      exact .leaves (by rw [hz]; exact hp) (by rw [hz]; simpa using hdone)
    | rests d' e' r' o' hz' hd' hl' =>
      rw [hz'] at hz hd hl
      exact .rests d e r o hz (fun h => hd' (hd h)) (hl.trans hl')

theorem takeDout_noLzmaTurn (s : State) : NoLzmaTurn s (takeDout s) := by
  rw [takeDout_eq]
  exact .rests s.lz.done s.lz.eosFlag s.lz.err none rfl id (by simp)

theorem takeAll_noLzmaTurn (s : State) : NoLzmaTurn s (takeAll s) := by
  rw [takeAll, takeLoc_eq, takeBin_eq, takeTemp_eq]
  exact (takeDout_noLzmaTurn s).trans (.same rfl rfl)

theorem command_host {i : Instr} (hi : isPacket i = false) {s t : State} (h : exec i s = .next t) : t.host = s.host := by
  cases i with
  | startLzma => simp only [exec, execStartLzma] at h; split at h <;> cases h <;> rfl
  | startParse => simp only [exec, execStartParse] at h; split at h <;> cases h <;> rfl
  | clearLzma => simp only [exec, execClearLzma] at h; split at h <;> cases h <;> rfl
  | clearParse => simp only [exec, execClearParse] at h; split at h <;> cases h <;> rfl
  | _ => cases hi

theorem command_noLzmaTurn {i : Instr} (hi : isPacket i = false) {s t : State} (h : exec i s = .next t) : NoLzmaTurn s t := by
  have hlog := congrArg HostSide.doutLog (command_host hi h)
  rcases command_lz hi h with rfl | hlz | ⟨_, hlz⟩
  · simp only [exec, execStartLzma] at h
    split at h
    · cases h; exact .same rfl rfl
    · cases h; exact .leaves rfl rfl
  · exact .same hlz hlog
  · exact .rests false false none s.lz.dout hlz nofun (by rw [hlog])

theorem hostTurn_noLzmaTurn {a : HostAct} {s t : State} (h : hostTurn a s = .next t) : NoLzmaTurn s t := by
  cases a with
  | csrWrite off v =>
    simp only [hostTurn, csrWrite] at h
    split at h
    · cases h; exact .same rfl rfl
    · exact runCommands_kept (P := NoLzmaTurn s) (decodeCommands_isPacket v)
        (fun _ _ _ hi hs he => hs.trans (command_noLzmaTurn hi he)) (.same rfl rfl) h
    · cases h; exact .same rfl rfl
  | takeDout => cases h; exact takeDout_noLzmaTurn s
  | takeTemp => cases h; rw [takeTemp_eq]; exact .same rfl rfl
  | takeBin => cases h; rw [takeBin_eq]; exact .same rfl rfl
  | takeLoc => cases h; rw [takeLoc_eq]; exact .same rfl rfl
  | rst => cases h; exact .leaves rfl rfl
  | _ => cases h; exact .same rfl rfl

theorem parserTurn_noLzmaTurn {s t : State} (h : parserTurn s = some (.next t)) : NoLzmaTurn s t := by
  rw [parserTurn_parserOnly h]
  exact .same rfl rfl

theorem runTurn_lzma {turn : Turn} {s t : State} (h : runTurn turn s = .next t) :
    lzmaTurn s = some (.next t) ∨ NoLzmaTurn s t := by
  cases turn with
  | host a => exact .inr (hostTurn_noLzmaTurn h)
  | lzma => exact (getD_next h).imp_right fun e => .same (by rw [e]) (by rw [e])
  | parser =>
    rcases getD_next h with h | rfl
    · exact .inr (parserTurn_noLzmaTurn h)
    · exact .inr (.same rfl rfl)

theorem autoTurn_lzma {s t : State} (h : autoTurn s = .next t) : lzmaTurn s = some (.next t) ∨ NoLzmaTurn s t := by
  unfold autoTurn at h
  split at h
  · cases h; exact .inr (takeAll_noLzmaTurn s)
  · cases hl : lzmaTurn s with
    | some o => rw [hl, Option.getD_some] at h; exact .inl (congrArg some h)
    | none => rw [hl] at h; exact .inr ((runTurn_lzma (turn := .parser) h).resolve_left (by simp [hl]))

/-- A step is a turn of the LZMA engine, after the host's plan has moved on, or none. -/
theorem step_lzma {s t : State} (h : step s = .next t) :
    (∃ u : State, u.lz = s.lz ∧ u.host.doutLog = s.host.doutLog ∧ lzmaTurn u = some (.next t)) ∨ NoLzmaTurn s t := by
  unfold step anyTurn at h
  split at h
  · exact (autoTurn_lzma h).imp_left fun h => ⟨s, rfl, rfl, h⟩
  · next turn rest _ =>
    rcases runTurn_lzma h with h | h
    · exact .inl ⟨{ s with host := { s.host with schedule := rest } }, rfl, rfl, h⟩
    · exact .inr (NoLzmaTurn.trans (t := { s with host := { s.host with schedule := rest } }) (.same rfl rfl) h)

/-! ### Entering the loop, and the end of a decode -/

/-- The one move into the loop is the last start byte's, which leaves the window and `dout` (R150, R200). -/
theorem LzmaMove.entersLoop {z y : Lzma} (h : LzmaMove z y) (hl : inLoop z.phase = false) (hl' : inLoop y.phase = true) :
    z.phase ≠ .idle ∧ y.phase = .loopTop ∧ y.outPos = z.outPos ∧ y.winPos = z.winPos ∧ y.dout = z.dout := by
  cases h with
  | starts n l c ha => exact ⟨ne_idle_of_headerAccepted ha, rfl, rfl, rfl, rfl⟩
  | stops | dict | ends => cases hl'
  | accepts n l d ds x u kn p hp ha hv hq => rcases hq with rfl | rfl <;> cases hl'
  | size n l x u kn p ha hlz ha' hlp => rw [hlp] at hl'; cases hl'
  | _ => simp [inLoop, *] at hl

/-- The one move in which LZ_DONE rises is the end of the final flush (R216). -/
theorem LzmaMove.finishes_of_done {z y : Lzma} (h : LzmaMove z y) (hz : z.done = false) (hy : y.done = true) :
    ∃ j v, z.phase = .flush j .finish ∧ z.winPos.toNat ≤ j ∧ z.dout = none ∧
      y = { z with winPos := v, streamPos := v, eosFlag := z.eos, done := true, busy := false, phase := .idle } := by
  cases h with
  | ends j v hp hj hv hd => exact ⟨j, v, hp, hj, hd, rfl⟩
  | stops e x hp he hw hc hd => exact absurd (hz.symm.trans (hd.symm.trans hy)) nofun
  | copies i len x bits w b hp hx =>
    rw [copyOperands_updates hx] at hy; exact absurd (hz.symm.trans hy) nofun
  | copiesFull i len n src x bits w hp hx =>
    rw [copyOperands_updates hx] at hy; exact absurd (hz.symm.trans hy) nofun
  | _ => exact absurd (hz.symm.trans hy) nofun

/-- The header was accepted before the loop was entered (R200). -/
theorem headerAccepted_of_inLoop {p : LzPhase} (h : inLoop p = true) : headerAccepted p = true := by
  cases p with
  | idle | hdrProps | hdrDict => cases h
  | _ => rfl

theorem pointersOk_of_inLoop {s : State} (h : WindowGeometry s) (hl : inLoop s.lz.phase = true) : pointersOk s.lz := by
  obtain ⟨_, _, _, _, _, hp⟩ := h (headerAccepted_of_inLoop hl)
  exact hp

/-! ### The delivery law (R253, R257) -/

/-- A flush's index that has not passed `win_pos` points at the next byte to deliver. -/
theorem flushIndex_byte {s : State} {out : List Byte} {j : Nat} (h : WindowHolds out s) (hj : j < s.lz.winPos.toNat)
    (hw : s.lz.winPos.toNat ≤ s.lz.winSize.toNat) (hu : s.lz.winPos.toNat - j ≤ out.length) :
    out[out.length - (s.lz.winPos.toNat - j)]? = some (sparseGet windowDefault s.lz.window j) := by
  have hW := s.lz.winSize.isLt
  have hd : (BitVec.ofNat 32 (s.lz.winPos.toNat - j - 1)).toNat = s.lz.winPos.toNat - j - 1 := by
    rw [BitVec.toNat_ofNat, Nat.mod_eq_of_lt (by omega)]
  have hlaw := h.2 (BitVec.ofNat 32 (s.lz.winPos.toNat - j - 1))
  rw [hd] at hlaw
  have hback : backIndex (BitVec.ofNat 32 (s.lz.winPos.toNat - j - 1)) s = j := by
    unfold backIndex
    rw [hd, if_neg (by omega)]; omega
  have hget : getByte (BitVec.ofNat 32 (s.lz.winPos.toNat - j - 1)) s = some (sparseGet windowDefault s.lz.window j) := by
    rw [getByte, hback, if_neg (by omega), Int.toNat_natCast, memRead, if_pos (by omega)]
  rw [← hget, hlaw (by omega) (by omega)]
  congr 1; omega

theorem NoLzmaTurn.delivered {given out : List Byte} {s t : State} (h : NoLzmaTurn s t) (hd : Delivered given out s)
    (hl : inLoop t.lz.phase = true) : Delivered given out t := by
  obtain ⟨hout, hu, hlog⟩ := hd
  cases h with
  | leaves hp => rw [hp] at hl; cases hl
  | rests d e r o hz _ hl =>
    refine ⟨windowHolds_congr (by rw [hz]) (by rw [hz]) (by rw [hz]) (by rw [hz]) hout, ?_, ?_⟩
    · rw [hz]; exact hu
    · rw [hz]; exact hl.trans hlog

/-- A turn inside the loop: what it appends to the decoded sequence is not flushed yet, and a byte it offers is the next one. -/
theorem lzmaTurn_delivered {given out : List Byte} {s t : State} (hw : Memory.wf s.lz.window = true)
    (hp : pointersOk s.lz) (hl : inLoop s.lz.phase = true) (hd : Delivered given out s) (h : lzmaTurn s = some (.next t))
    (hl' : inLoop t.lz.phase = true) : ∃ more, Delivered given (out ++ more) t := by
  obtain ⟨hout, hu, hlog⟩ := hd
  obtain ⟨_, hdout, _⟩ := lzmaTurn_next h
  have hthost : t.host.doutLog = s.host.doutLog := by rw [lzmaTurn_lzmaOnly h]
  rw [hdout, Option.toList_none, List.append_nil] at hlog
  rcases lzmaMove_delivers (lzmaTurn_move h) (fun _ => hp) hl hl' hdout (by rw [← hout.1]; exact hu) with
    ⟨hnone, htu, hflushed, _⟩ | ⟨j, c, hph, hj, ht⟩
  · obtain ⟨more, hmore⟩ := lzmaTurn_holds hw hout hl h hl'
    refine ⟨more, hmore, by rw [hmore.1]; exact htu, ?_⟩
    rw [hnone, Option.toList_none, List.append_nil, hthost, hlog, hmore.1, hflushed, ← hout.1,
      List.take_append_of_le_length (Nat.sub_le _ _)]
  · simp only [pointersOk, unflushed, hph] at hp hu hlog
    have hbyte := flushIndex_byte hout hj hp.2.2 hu
    have htu : unflushed t.lz = s.lz.winPos.toNat - (j + 1) := by rw [ht]; rfl
    refine ⟨[], ?_⟩
    rw [List.append_nil]
    refine ⟨windowHolds_congr (by rw [ht]) (by rw [ht]) (by rw [ht]) (by rw [ht]) hout, by omega, ?_⟩
    rw [hthost, hlog, htu, ht, show out.length - (s.lz.winPos.toNat - (j + 1)) =
      out.length - (s.lz.winPos.toNat - j) + 1 by omega, List.take_add_one, hbyte, List.append_assoc]

/-- At the end of the final flush the host has been given all of the decoded sequence. -/
theorem delivered_all {given out : List Byte} {s : State} {j : Nat} {c : FlushCont} (hd : Delivered given out s)
    (hp : s.lz.phase = .flush j c) (hj : s.lz.winPos.toNat ≤ j) (hdout : s.lz.dout = none) :
    s.host.doutLog = given ++ out ∧ s.lz.outPos.toNat = out.length := by
  obtain ⟨hout, _, hlog⟩ := hd
  have hu : unflushed s.lz = 0 := by simp only [unflushed, hp]; omega
  rw [hu, hdout] at hlog
  exact ⟨by simpa using hlog, hout.1.symm⟩

/-- A decode that enters its loop has nothing decoded, nothing to flush and nothing offered. -/
theorem delivered_nil {s : State} (hp : s.lz.phase = .loopTop) (ho : s.lz.outPos = 0) (hw : s.lz.winPos = 0)
    (hd : s.lz.dout = none) : Delivered s.host.doutLog [] s := by
  refine ⟨⟨by rw [ho]; rfl, fun d hlt => absurd hlt (Nat.not_lt_zero _)⟩, ?_, ?_⟩
  · simp [unflushed, hp, hw]
  · simp [hd]

/-! ### The obligation -/

/-- The one step in which LZ_DONE rises is the end of the final flush. -/
theorem step_done {s t : State} (hz : s.lz.done = false) (h : step s = .next t) (ht : t.lz.done = true) :
    ∃ j v, s.lz.phase = .flush j .finish ∧ s.lz.winPos.toNat ≤ j ∧ s.lz.dout = none ∧ t.host.doutLog = s.host.doutLog ∧
      t.lz = { s.lz with winPos := v, streamPos := v, eosFlag := s.lz.eos, done := true, busy := false, phase := .idle } := by
  rcases step_lzma h with ⟨u, hlz, hlog, hu⟩ | hn
  · have hmove := lzmaTurn_move hu
    rw [hlz] at hmove
    obtain ⟨j, v, hp, hj, hd, he⟩ := hmove.finishes_of_done hz ht
    exact ⟨j, v, hp, hj, hd, by rw [lzmaTurn_lzmaOnly hu]; exact hlog, he⟩
  · cases hn with
    | leaves _ hd => rw [hd] at ht; cases ht
    | rests d e r o hlz hd _ =>
      rw [hlz] at ht
      exact absurd (hz.symm.trans (hd ht)) nofun

/-- A step into the loop starts with nothing decoded and nothing delivered. -/
theorem step_entersLoop {s t : State} (hs : NothingBeforeLoop s) (hl : inLoop s.lz.phase = false) (h : step s = .next t)
    (hl' : inLoop t.lz.phase = true) : Delivered t.host.doutLog [] t := by
  rcases step_lzma h with ⟨u, hlz, _, hu⟩ | hn
  · obtain ⟨_, hdout, _⟩ := lzmaTurn_next hu
    obtain ⟨hp, hp', ho, hw, hd⟩ := (lzmaTurn_move hu).entersLoop (by rw [hlz]; exact hl) hl'
    rw [hlz] at hp ho hw
    obtain ⟨ho0, hw0, _⟩ := hs hp hl
    exact delivered_nil hp' (ho.trans ho0) (hw.trans hw0) (hd.trans hdout)
  · cases hn with
    | leaves hp => rw [hp] at hl'; cases hl'
    | rests d e r o hlz => rw [hlz] at hl'; exact absurd (hl.symm.trans hl') nofun

/-- A step inside the loop keeps what was decoded and delivered, and appends what it decodes. -/
theorem step_delivered {given out : List Byte} {s t : State} (hr : RamsCanonical s) (hg : WindowGeometry s)
    (hl : inLoop s.lz.phase = true) (hd : Delivered given out s) (h : step s = .next t) (hl' : inLoop t.lz.phase = true) :
    ∃ more, Delivered given (out ++ more) t := by
  rcases step_lzma h with ⟨u, hlz, hlog, hu⟩ | hn
  · refine lzmaTurn_delivered ?_ ?_ ?_ (delivered_congr hlz hlog hd) hu hl'
    · rw [hlz]; exact hr.1
    · rw [hlz]; exact pointersOk_of_inLoop hg hl
    · rw [hlz]; exact hl
  · exact ⟨[], by rw [List.append_nil]; exact hn.delivered hd hl'⟩

/-- Settles O31: LZ_DONE rises only at the end of the final flush, where nothing is left to flush; and the delivery law holds where
the loop is entered and is kept by every step inside it. -/
theorem doneMeansEverythingDelivered : Obligations.DoneMeansEverythingDelivered := by
  refine ⟨fun s t hz h ht => ?_, fun s t hs hl h hl' => step_entersLoop hs hl h hl', fun given out s t hr hg hl hd h =>
    ⟨step_delivered hr hg hl hd h, fun hz ht => ?_⟩⟩
  · obtain ⟨j, v, _, _, hdout, _, ht⟩ := step_done hz h ht
    rw [ht]
    exact ⟨hdout, rfl, rfl, rfl, rfl, rfl⟩
  · obtain ⟨j, v, hp, hj, hdout, hlog, ht⟩ := step_done hz h ht
    rw [ht, hlog]
    exact delivered_all hd hp hj hdout

end Sys2Proof.Machine
end

section
/-! Where a byte is needed: `ReadIn` and its routines answer by what is offered on `cin` and `pin` (20_memory.md R75, R76, R78;
40_range_decoder.md R152; 60_exceptions.md R333, R335). -/

namespace Sys2Proof.Machine

/-! ### `ReadIn` (R75) -/

theorem readIn_of_ended {s : State} (h : s.lz.inEnded = true) : readIn s = .raised .prematureEndOfInput s := by
  simp [readIn, h]

theorem readIn_of_nothing_offered {s : State} (h : s.lz.inEnded = false) (hc : s.host.cin = []) : readIn s = .wait := by
  simp [readIn, h, hc]

theorem readIn_of_offered {s : State} {b : Byte} {last : Bool} {rest : List (Byte × Bool)} (h : s.lz.inEnded = false)
    (hc : s.host.cin = (b, last) :: rest) (hn : s.lz.inCount ≠ BitVec.allOnes 64) : readIn s = .ok b (afterReadIn last rest s) := by
  rw [readIn, if_neg (by simp [h]), hc]
  exact if_neg hn

/-- Settles O19: the branches of `ReadIn`. -/
theorem readInTakesOneByte : Obligations.ReadInTakesOneByte :=
  fun _ => ⟨readIn_of_ended, readIn_of_nothing_offered, fun _ _ _ => readIn_of_offered⟩

/-! ### The LZMA engine before its loop -/

/-- Before the loop every turn needs a byte; an engine that is idle or offers an item has no turn. -/
theorem lzmaTurn_beforeLoop {s : State} (hl : inLoop s.lz.phase = false) :
    (lzmaTurn s = none ∧ ¬ (s.lz.busy = true ∧ s.lz.dout = none ∧ s.lz.phase ≠ .idle)) ∨
      ∃ k, lzmaTurn s = (readIn s).turn .lzma k := by
  by_cases hb : s.lz.busy = true ∧ s.lz.dout = none
  · cases hp : s.lz.phase with
    | idle => exact .inl ⟨by simp [lzmaTurn, hb, hp], by simp⟩
    | hdrProps | hdrDict | hdrSize | rcFirst | rcCode => exact .inr ⟨_, by simp only [lzmaTurn, hb, hp]; rfl⟩
    | loopTop | packet | flush => rw [hp] at hl; cases hl
  · refine .inl ⟨?_, fun ⟨hbusy, hdout, _⟩ => hb ⟨hbusy, hdout⟩⟩
    rw [lzmaTurn, if_neg (by simpa using hb)]

/-! ### Inside a packet -/

theorem lzmaTurn_packet {bits : List Bool} {s : State} (hb : s.lz.busy = true) (hd : s.lz.dout = none)
    (hp : s.lz.phase = .packet bits) : lzmaTurn s = packetTurn bits s := by
  simp [lzmaTurn, hb, hd, hp]

theorem packetTurn_of_wait {bits : List Bool} {q : Query} {s : State} (hn : NextBit (ctxOf s) bits q)
    (ha : answer q s = .wait) : packetTurn bits s = none := by
  obtain ⟨k, hw⟩ := hn
  simp [packetTurn, hw, ha]

theorem packetTurn_of_raised {bits : List Bool} {q : Query} {e : ErrCode} {s t : State} (hn : NextBit (ctxOf s) bits q)
    (ha : answer q s = .raised e t) :
    packetTurn bits s = some (.next (raise .lzma e { t with lz := rotateEarly bits t.lz })) := by
  obtain ⟨k, hw⟩ := hn
  simp [packetTurn, hw, ha]

/-- `range` shifted by one byte (R152). -/
def shiftRange (s : State) : State := { s with lz := { s.lz with range := BitVec.ofNat 32 (s.lz.range.toNat * 256) } }

/-- `Normalize` below 2^24 needs a byte, with `range` already shifted (R152). -/
theorem normalize_reads {s : State} (h : s.lz.range.toNat < 2 ^ 24) :
    Machine.normalize s = (readIn (shiftRange s)).bind (fun b t =>
      .ok () { t with lz := { t.lz with code := (t.lz.code <<< 8) ||| b.setWidth 32 } }) := by
  have hshift : s.lz.range <<< 8 = BitVec.ofNat 32 (s.lz.range.toNat * 256) := by
    apply BitVec.eq_of_toNat_eq
    rw [BitVec.toNat_shiftLeft, Nat.shiftLeft_eq, BitVec.toNat_ofNat]
  rw [Machine.normalize, if_pos (BitVec.lt_def.2 h), hshift]; rfl

theorem normalize_of_ended {s : State} (h : s.lz.range.toNat < 2 ^ 24) (he : s.lz.inEnded = true) :
    Machine.normalize s = .raised .prematureEndOfInput (shiftRange s) := by
  rw [normalize_reads h, readIn_of_ended (s := shiftRange s) he]; rfl

theorem normalize_of_nothing_offered {s : State} (h : s.lz.range.toNat < 2 ^ 24) (he : s.lz.inEnded = false)
    (hc : s.host.cin = []) : Machine.normalize s = .wait := by
  rw [normalize_reads h, readIn_of_nothing_offered (s := shiftRange s) he hc]; rfl

/-- The early rotation moves the distances and nothing else. -/
theorem rotateEarly_shiftRange (bits : List Bool) (s : State) :
    rotateEarly bits (shiftRange s).lz =
      { rotateEarly bits s.lz with range := BitVec.ofNat 32 (s.lz.range.toNat * 256) } := by
  unfold rotateEarly
  split <;> rfl

/-! ### The parser -/

theorem pReadBit_of_ended {s : State} (ha : s.ps.avail = 0) (he : s.ps.ended = true) :
    pReadBit s = .raised .prematureEndOfInput s := by
  simp [pReadBit, pinRead, ha, he, Res.bind]

theorem pReadBit_of_nothing_offered {s : State} (ha : s.ps.avail = 0) (he : s.ps.ended = false) (hp : s.host.pin = []) :
    pReadBit s = .wait := by
  simp [pReadBit, pinRead, ha, he, hp, Res.bind]

theorem fieldTurn_bit {f : PField} {k : Nat} {v : Word} {s : State} (hk : k < fieldWidth s.ps f) :
    fieldTurn f k v s = (pReadBit s).turn .parser (fun b t =>
      .next (toPPhase (.field f (k + 1) ((v <<< 1) ||| BitVec.ofNat 32 b.toNat)) t)) := by
  rw [fieldTurn, if_pos hk]

/-! ### The obligation -/

/-- A bit whose `Normalize` needs a byte after the last one. -/
theorem packet_endOfInput {bits : List Bool} {q : Query} {b : Bool} {s u : State} (hb : s.lz.busy = true)
    (hd : s.lz.dout = none) (hp : s.lz.phase = .packet bits) (hn : NextBit (ctxOf s) bits q)
    (ha : answer q s = (Machine.normalize u).bind (fun _ t => .ok b t)) (hr : u.lz.range.toNat < 2 ^ 24)
    (he : u.lz.inEnded = true) :
    lzmaTurn s = some (.next { u with lz := { rotateEarly bits u.lz with
      range := BitVec.ofNat 32 (u.lz.range.toNat * 256), err := some .prematureEndOfInput, busy := false, phase := .idle } }) := by
  rw [normalize_of_ended hr he] at ha
  rw [lzmaTurn_packet hb hd hp, packetTurn_of_raised hn ha, rotateEarly_shiftRange]
  rfl

/-- … or one that is not offered yet. -/
theorem packet_waits {bits : List Bool} {q : Query} {b : Bool} {s u : State} (hb : s.lz.busy = true)
    (hd : s.lz.dout = none) (hp : s.lz.phase = .packet bits) (hn : NextBit (ctxOf s) bits q)
    (ha : answer q s = (Machine.normalize u).bind (fun _ t => .ok b t)) (hr : u.lz.range.toNat < 2 ^ 24)
    (he : u.lz.inEnded = false) (hc : u.host.cin = []) : lzmaTurn s = none := by
  rw [normalize_of_nothing_offered hr he hc] at ha
  rw [lzmaTurn_packet hb hd hp, packetTurn_of_wait hn ha]

theorem parser_endOfInput {f : PField} {k : Nat} {v : Word} {s : State} (hp : s.ps.phase = .field f k v)
    (hk : k < fieldWidth s.ps f) (ha : s.ps.avail = 0) (hb : s.ps.busy = true) (hf : parserPortsFree s.ps = true)
    (he : s.ps.ended = true) : parserTurn s = some (.next (raise .parser .prematureEndOfInput s)) := by
  simp only [parserTurn, hb, hf, hp, fieldTurn_bit hk, pReadBit_of_ended ha he]; rfl

theorem parser_waits {f : PField} {k : Nat} {v : Word} {s : State} (hp : s.ps.phase = .field f k v)
    (hk : k < fieldWidth s.ps f) (ha : s.ps.avail = 0) (he : s.ps.ended = false) (hc : s.host.pin = []) :
    parserTurn s = none := by
  simp only [parserTurn, hp, fieldTurn_bit hk, pReadBit_of_nothing_offered ha he hc, Res.turn, ite_self]

/-- Settles O20: each routine that needs a byte hands on what `ReadIn` or `PinRead` answers, the raise and the wait. -/
theorem endOfInputStopsAnEngine : Obligations.EndOfInputStopsAnEngine := by
  refine ⟨fun s => ⟨fun hb hd hp hl he => ?_, fun hl he hc => ?_, fun bits q b u hb hd hp hn ha hr => ?_,
    fun f k v hp hk ha => ?_⟩, fun z r => ⟨rfl, rfl, rfl, rfl, rfl, rfl⟩⟩
  · rcases lzmaTurn_beforeLoop hl with ⟨_, hidle⟩ | ⟨k, hk⟩
    · exact absurd ⟨hb, hd, hp⟩ hidle
    · rw [hk, readIn_of_ended he]; rfl
  · rcases lzmaTurn_beforeLoop hl with ⟨hnone, _⟩ | ⟨k, hk⟩
    · exact hnone
    · rw [hk, readIn_of_nothing_offered he hc]; rfl
  · exact ⟨packet_endOfInput hb hd hp hn ha hr, packet_waits hb hd hp hn ha hr⟩
  · exact ⟨parser_endOfInput hp hk ha, parser_waits hp hk ha⟩

end Sys2Proof.Machine
end

section
/-! A packet's word read back by the packet routine: each routine ends with the value whose code it read (30_encoding.md R106, R109
to R117; 41_probability_models.md R175 to R183), and with it the round trip of the encodings. -/

namespace Sys2Proof

variable {α β : Type}

/-! ### One routine after another -/

/-- A routine that ends at the end of `l`, then the next, which ends at the end of `r`. -/
theorem walk_bind_done {t : Tree α} {f : α → Tree β} {l r : List Bool} {a : α} {b : β} (ht : t.walk l = (.done a, []))
    (hf : (f a).walk r = (.done b, [])) : (t.bind f).walk (l ++ r) = (.done b, []) := by
  rw [walk_bind f a r l t ht, hf]

/-- A routine that ends at the end of `l`, then a value made of its value with no bit more. -/
theorem walk_bind_value {t : Tree α} {f : α → Tree β} {l : List Bool} {a : α} {b : β} (ht : t.walk l = (.done a, []))
    (hf : f a = .done b) : (t.bind f).walk l = (.done b, []) := by
  have h : (f a).walk [] = (.done b, []) := by rw [hf, walk_nil]
  rw [← List.append_nil l, walk_bind_done ht h]

/-! ### The routines of a packet's payload -/

/-- A literal's eight bits are its code, in a literal state and in a matched one (R116, R117, R177, R178). -/
theorem litDecode_walk {c : Ctx} (hc : 7 ≤ c.state → c.matchByte ≠ none) (b : Byte) :
    (litDecode c).walk (bitsMsb 8 b.toNat) = (.done b.toNat, []) := by
  have hb : b.toNat < 2 ^ 8 := b.isLt
  unfold litDecode
  split
  · next h7 =>
    obtain ⟨mb, hmb⟩ := Option.ne_none_iff_exists'.1 (hc h7)
    rw [hmb]
    refine walk_bind_value (litMatchedFrom_walk c.litBase 8 mb.toNat 1 b.toNat) ?_
    rw [Nat.mod_eq_of_lt hb]
    exact congrArg Tree.done (Nat.add_sub_cancel_left (n := 256) (m := b.toNat))
  · exact bitTreeDecode_walk c.litBase 8 b.toNat hb

theorem slotDecode_walk (len : Nat) {slot : Nat} (h : slot < 64) :
    (slotDecode len).walk (bitsMsb 6 slot) = (.done slot, []) :=
  bitTreeDecode_walk _ 6 slot h

/-- The bits of a distance after its slot (R112, R113). -/
def encodeRest (slot rest : Nat) : List Bool :=
  if slot < 14 then bitsLsb (slotExtraBits slot) rest
  else bitsMsb (slotExtraBits slot - 4) (rest / 16) ++ bitsLsb 4 rest

theorem encodeDist_eq (dist : Nat) :
    encodeDist dist = bitsMsb 6 (slotOf dist) ++ encodeRest (slotOf dist) (dist - slotBase (slotOf dist)) := rfl

/-- The four align bits are the low bits of the rest (R113). -/
theorem align_walk (rest : Nat) : (bitTreeReverseDecode baseAlign 4).walk (bitsLsb 4 rest) = (.done (rest % 16), []) := by
  simpa [bitTreeReverseDecode] using bitTreeReverseFrom_walk baseAlign 4 1 0 0 rest

/-- A slot's distance from the bits after the slot: none, a reverse tree, or direct and align bits (R112, R113, R183). -/
theorem distDecode_walk {slot rest : Nat} (h : rest < 2 ^ slotExtraBits slot) :
    (distDecode slot).walk (encodeRest slot rest) = (.done (slotBase slot + rest), []) := by
  unfold distDecode encodeRest
  split
  · next h4 =>
    have hextra : slotExtraBits slot = 0 := if_pos h4
    have hbase : slotBase slot = slot := if_pos h4
    rw [hextra] at h
    rw [if_pos (by omega), hextra, hbase, show rest = 0 by omega]
    rfl
  · next h4 =>
    split
    · exact walk_bind_value (bitTreeReverseDecode_walk _ _ rest h) rfl
    · next h14 =>
      have hextra : 4 ≤ slotExtraBits slot := by rw [slotExtraBits, if_neg h4]; omega
      have hdirect : rest / 16 < 2 ^ (slotExtraBits slot - 4) := by
        apply Nat.div_lt_of_lt_mul
        calc rest < 2 ^ (4 + (slotExtraBits slot - 4)) := by rwa [Nat.add_sub_cancel' hextra]
          _ = 16 * 2 ^ (slotExtraBits slot - 4) := pow_add 2 4 _
      refine walk_bind_done (decodeDirectBits_walk _ (rest / 16) hdirect) (walk_bind_value (align_walk rest) ?_)
      rw [Nat.add_assoc, Nat.div_add_mod']

/-- A distance's code: its slot, then its place in the slot's range (R111 to R113). -/
theorem slotDist_walk (f : Nat → Tree β) {len dist : Nat} {i : β} (h : dist < 2 ^ 32) (hf : f dist = .done i) :
    ((slotDecode len).bind (fun slot => (distDecode slot).bind f)).walk (encodeDist dist) = (.done i, []) := by
  obtain ⟨hslot, hlo, hhi⟩ := slotOf_spec dist h
  rw [encodeDist_eq]
  refine walk_bind_done (slotDecode_walk len hslot) (walk_bind_value (distDecode_walk (by omega)) ?_)
  rw [Nat.add_sub_cancel' hlo, hf]

/-- MATCH and EOS: the length's code, then the distance's (R114, R208, R209). -/
theorem matchDecode_walk (c : Ctx) {len : Nat} (hlen : lenOk len = true) (dist : Word) :
    (matchDecode c).walk (encodeLen len ++ encodeDist dist.toNat) =
      (.done (if dist = eosDistance then .eos len else .newMatch len dist), []) := by
  refine walk_bind_done (lenDecode_walk _ _ len hlen) (slotDist_walk _ dist.isLt ?_)
  rw [BitVec.ofNat_toNat, BitVec.setWidth_eq]
  split <;> rfl

theorem repDecode_walk (c : Ctx) (mk : Nat → Instr) {len : Nat} (hlen : lenOk len = true) :
    (repDecode c mk).walk (encodeLen len) = (.done (mk len), []) :=
  walk_bind_value (lenDecode_walk _ _ len hlen) rfl

/-! ### Decoding a packet -/

/-- A word of decoded bits is the packet that the routine ends with at the word's last bit. -/
theorem decode_bits_iff {c : Ctx} {l : List Bool} {i : Instr} :
    decode c (.bits l) = .ok i ↔ (packetDecode c).walk l = (.done i, []) := by
  simp only [decode]
  split <;> next hw => simp [hw]

/-- A packet's word, by its opening flags (R106): they leave the payload's routine, which reads the rest. -/
theorem packetDecode_walk {c : Ctx} {i : Instr} {l : List Bool} (hi : i.wf = true) (hc : 7 ≤ c.state → c.matchByte ≠ none)
    (hl : encode i = .bits l) : (packetDecode c).walk l = (.done i, []) := by
  cases i with
  | lit b =>
    cases hl
    refine walk_bind_value (t := litDecode c) (litDecode_walk hc b) ?_
    rw [BitVec.ofNat_toNat, BitVec.setWidth_eq]
  | newMatch len dist =>
    cases hl
    obtain ⟨hlen, hdist⟩ : lenOk len = true ∧ dist ≠ eosDistance := by simpa [Instr.wf] using hi
    exact (matchDecode_walk c hlen dist).trans (by rw [if_neg hdist])
  | eos len => cases hl; exact matchDecode_walk c hi eosDistance
  | shortRep => cases hl; rfl
  | rep0 len => cases hl; exact repDecode_walk c .rep0 hi
  | rep1 len => cases hl; exact repDecode_walk c .rep1 hi
  | rep2 len => cases hl; exact repDecode_walk c .rep2 hi
  | rep3 len => cases hl; exact repDecode_walk c .rep3 hi
  | startLzma | startParse | clearLzma | clearParse => cases hl

/-! ### The obligations -/

/-- Settles O1: a packet by its routine along its own word; each command is one bit of CMD. -/
theorem encodeThenDecode : Obligations.EncodeThenDecode := by
  intro c i hi hc
  cases hcode : encode i with
  | bits l => exact decode_bits_iff.2 (packetDecode_walk hi hc hcode)
  | cmd v => cases i <;> cases hcode <;> rfl

/-- Settles O3: the four packets' words are the words the encoder gives; the CMD value has the bit of CLEAR_LZMA and reserved
bits, which the decoder ignores. -/
theorem writtenOutWordsDecode : Obligations.WrittenOutWordsDecode := by
  have hdecode (i : Instr) (hi : i.wf = true) : decode Ctx.blank (encode i) = .ok i :=
    encodeThenDecode Ctx.blank i hi (by decide)
  exact ⟨hdecode (.lit 0x41) rfl, hdecode .shortRep rfl, hdecode (.rep3 11) rfl, hdecode (.newMatch 4 5) rfl, by decide⟩

end Sys2Proof
end

section
/-! Which counter decodes which bit of a packet (30_encoding.md R121 to R131; 41_probability_models.md R172, R175 to R183): the
packet routine followed along the bits decoded so far asks what the payload's routine there asks. -/

namespace Sys2Proof

open Machine

/-! ### The keys of a packet's contexts -/

/-- The masks of R27 take remainders and the shifts of R130 are products and quotients. -/
theorem ctxOf_eq (s : State) : ctxOf s = {
    state := s.lz.state.value
    ps := s.lz.outPos.toNat % 2 ^ s.lz.pb.toNat
    litBase := 1846 + 768 * (s.lz.outPos.toNat % 2 ^ s.lz.lp.toNat * 2 ^ s.lz.lc.toNat +
      s.lz.prevByte.toNat / 2 ^ (8 - s.lz.lc.toNat))
    matchByte := getByte s.lz.rep0 s } := by
  simp only [ctxOf, posState, posStateMask, litContext, litPosMask, baseLiteral, Nat.and_two_pow_sub_one_eq_mod,
    Nat.shiftLeft_eq, Nat.shiftRight_eq_div_pow]

/-! ### The opening flags (R106, R108) -/

theorem nextBit_flags (c : Ctx) :
    NextBit c [] (.counter (16 * c.state + c.ps)) ∧ NextBit c [true] (.counter (192 + c.state)) ∧
      NextBit c [true, true] (.counter (204 + c.state)) ∧
      NextBit c [true, true, false] (.counter (240 + 16 * c.state + c.ps)) ∧
      NextBit c [true, true, true] (.counter (216 + c.state)) ∧
      NextBit c [true, true, true, true] (.counter (228 + c.state)) := by
  rw [Nat.mul_comm 16]
  exact ⟨⟨_, rfl⟩, ⟨_, rfl⟩, ⟨_, rfl⟩, ⟨_, rfl⟩, ⟨_, rfl⟩, ⟨_, rfl⟩⟩

/-! ### A literal -/

theorem nextBit_lit {c : Ctx} {l : List Bool} {q : Query} (h : Asks (litDecode c) l q) : NextBit c (false :: l) q :=
  h.bind (fun v => .done (Instr.lit (BitVec.ofNat 8 v)))

theorem litDecode_asks_normal {c : Ctx} (hc : c.state < 7) {l : List Bool} (hl : l.length < 8) :
    Asks (litDecode c) l (.counter (c.litBase + treeNode l)) := by
  rw [litDecode, if_neg (by omega)]
  exact bitTreeDecode_asks c.litBase 8 l hl

/-- While the decoded bits agree with the match byte, the counter stands in its next bit's half (R178). -/
theorem litDecode_asks_matched {c : Ctx} {mb : Byte} (hc : 7 ≤ c.state) (hmb : c.matchByte = some mb) {l : List Bool}
    (hl : l.length < 8) :
    Asks (litDecode c) l (.counter
      (if l = (bitsMsb 8 mb.toNat).take l.length then c.litBase + 256 * (1 + (mb.getLsbD (7 - l.length)).toNat) + treeNode l
      else c.litBase + treeNode l)) := by
  have h := litMatchedFrom_asks c.litBase l 8 mb.toNat 1 hl le_rfl
  rw [Nat.one_mul] at h
  rw [litDecode, if_pos hc, hmb, treeNode, Nat.mul_comm 256]
  exact h.bind (fun sym => .done (sym - 256))

/-! ### A length -/

/-- The opening flags of the packets with a length, each with the base of its length coder (R106, R127, R128). -/
def lenCoders : List (List Bool × Nat) :=
  [([true, false], 818), ([true, true, false, true], 1332), ([true, true, true, false], 1332),
    ([true, true, true, true, false], 1332), ([true, true, true, true, true], 1332)]

/-- The opening flags of each packet with a length leave that packet's length coder. -/
theorem packetDecode_lenCoder {p : List Bool} {base : Nat} (h : (p, base) ∈ lenCoders) (c : Ctx) :
    ∃ f : Nat → Tree Instr, ∀ l, (packetDecode c).walk (p ++ l) = ((lenDecode base c.ps).bind f).walk l := by
  simp only [lenCoders, List.mem_cons, Prod.mk.injEq, List.not_mem_nil, or_false] at h
  rcases h with ⟨rfl, rfl⟩ | ⟨rfl, rfl⟩ | ⟨rfl, rfl⟩ | ⟨rfl, rfl⟩ | ⟨rfl, rfl⟩ <;> exact ⟨_, fun _ => rfl⟩

theorem nextBit_len {c : Ctx} {p l : List Bool} {base : Nat} {q : Query}
    (h : (p, base) ∈ lenCoders) (hq : Asks (lenDecode base c.ps) l q) : NextBit c (p ++ l) q := by
  obtain ⟨f, hf⟩ := packetDecode_lenCoder h c
  rw [NextBit, hf]
  exact hq.bind f

/-! ### A distance -/

/-- After a MATCH's length comes the slot, with its tree chosen by the length. -/
theorem nextBit_slot (c : Ctx) {len : Nat} (hlen : lenOk len = true) {l : List Bool} {q : Query}
    (h : ∀ f : Nat → Tree Instr, Asks ((slotDecode len).bind (fun slot => (distDecode slot).bind f)) l q) :
    NextBit c (true :: false :: encodeLen len ++ l) q :=
  Asks.after _ (lenDecode_walk baseLenCoder c.ps len hlen) (h _)

/-- After the slot come the bits of its distance. -/
theorem nextBit_dist (c : Ctx) {len slot : Nat} (hlen : lenOk len = true) (hslot : slot < 64) {l : List Bool} {q : Query}
    (h : Asks (distDecode slot) l q) : NextBit c (true :: false :: encodeLen len ++ bitsMsb 6 slot ++ l) q := by
  rw [List.append_assoc]
  exact nextBit_slot c hlen (fun f => Asks.after _ (slotDecode_walk len hslot) (h.bind f))

theorem distDecode_asks_specPos {slot : Nat} (h4 : 4 ≤ slot) (h14 : slot < 14) {l : List Bool} (hl : l.length < slot / 2 - 1) :
    Asks (distDecode slot) l (.counter (688 + (2 + slot % 2) * 2 ^ (slot / 2 - 1) - slot - 1 + treeNode l)) := by
  have hbase : slotBase slot = (2 + slot % 2) * 2 ^ (slot / 2 - 1) := if_neg (by omega)
  have hextra : slotExtraBits slot = slot / 2 - 1 := if_neg (by omega)
  rw [distDecode, if_neg (by omega), if_pos h14, hextra, ← hbase]
  exact (bitTreeReverseDecode_asks (baseSpecPos (slotBase slot) slot) _ l hl).bind _

/-- From slot 14 on: direct bits, then the align tree. -/
theorem distDecode_directAlign {slot : Nat} (h14 : 14 ≤ slot) : ∃ f : Nat → Nat → Tree Nat,
    distDecode slot = (decodeDirectBits (slot / 2 - 5)).bind (fun d => (bitTreeReverseDecode baseAlign 4).bind (f d)) := by
  have hextra : slotExtraBits slot - 4 = slot / 2 - 5 := by rw [slotExtraBits, if_neg (by omega)]; omega
  rw [distDecode, if_neg (by omega), if_neg (by omega), hextra]
  exact ⟨_, rfl⟩

theorem distDecode_asks_direct {slot : Nat} (h14 : 14 ≤ slot) {l : List Bool} (hl : l.length < slot / 2 - 5) :
    Asks (distDecode slot) l .direct := by
  obtain ⟨f, hf⟩ := distDecode_directAlign h14
  rw [hf]
  exact (directBitsFrom_asks l _ 0 hl).bind _

theorem bitsValue_lt (l : List Bool) : bitsValue l < 2 ^ l.length := by
  induction l with
  | nil => exact Nat.one_pos
  | cons b l ih =>
    have hb : b.toNat ≤ 1 := Bool.toNat_le b
    rw [bitsValue_cons, List.length_cons, pow_succ]
    nlinarith

/-- Direct bits, whatever they are, end after their number (R155). -/
theorem decodeDirectBits_walk_length (l : List Bool) : (decodeDirectBits l.length).walk l = (.done (bitsValue l), []) := by
  simpa only [bitsMsb_bitsValue] using decodeDirectBits_walk l.length (bitsValue l) (bitsValue_lt l)

theorem distDecode_asks_align {slot : Nat} (h14 : 14 ≤ slot) {l a : List Bool} (hl : l.length = slot / 2 - 5)
    (ha : a.length < 4) : Asks (distDecode slot) (l ++ a) (.counter (802 + treeNode a)) := by
  obtain ⟨f, hf⟩ := distDecode_directAlign h14
  rw [hf, ← hl]
  exact Asks.after _ (decodeDirectBits_walk_length l) ((bitTreeReverseDecode_asks baseAlign 4 a ha).bind _)

/-! ### The obligation -/

/-- Settles O5: each clause is the question of one payload routine, reached along the bits before it. -/
theorem packetBitsUseTheirCounters : Obligations.PacketBitsUseTheirCounters := by
  refine ⟨fun s _ => ctxOf_eq s, fun c => ⟨nextBit_flags c,
    fun l hl => ⟨fun hc => nextBit_lit (litDecode_asks_normal hc hl), fun mb hc hmb => nextBit_lit (litDecode_asks_matched hc hmb hl)⟩,
    fun p base hp => ?_, fun len h2 h273 => ?_⟩⟩
  · obtain ⟨hchoice, hchoice2, hlowMid, hhigh⟩ := lenDecode_asks base c.ps
    have hfirst : NextBit c (p ++ []) (.counter base) := nextBit_len hp hchoice
    rw [List.append_nil] at hfirst
    exact ⟨hfirst, nextBit_len hp hchoice2,
      fun l hl => ⟨nextBit_len hp (hlowMid l hl).1, nextBit_len hp (hlowMid l hl).2⟩,
      fun l hl => nextBit_len hp (hhigh l hl)⟩
  · have hlen : lenOk len = true := by simp [lenOk, h2, h273]
    refine ⟨fun l hl => nextBit_slot c hlen (fun _ => (bitTreeDecode_asks _ 6 l hl).bind _), ?_⟩
    rintro slot l p rfl
    refine ⟨fun h4 h14 hl => nextBit_dist c hlen (by omega) (distDecode_asks_specPos h4 h14 hl), fun h14 h64 =>
      ⟨fun hl => nextBit_dist c hlen h64 (distDecode_asks_direct h14 hl), fun a hl ha => ?_⟩⟩
    rw [List.append_assoc _ l a]
    exact nextBit_dist c hlen h64 (distDecode_asks_align h14 hl ha)

end Sys2Proof
end

section
/-! A step that runs the decoded instruction (42_lzma_fsm.md R200, R142; 45_host_commands.md R310): whose turn a step is, the turn
at a packet whose bits are complete or not, and a CMD write of one command. -/

namespace Sys2Proof.Machine

/-! ### Whose turn a step is (log 1) -/

theorem step_of_planned {turn : Turn} {rest : List Turn} {s : State} (h : s.host.schedule = turn :: rest) :
    step s = runTurn turn { s with host := { s.host with schedule := rest } } := by
  simp only [step, anyTurn, h]

theorem runTurn_of_lzmaTurn {s : State} {o : Out} (h : lzmaTurn s = some o) : runTurn .lzma s = o := by
  rw [runTurn, h, Option.getD_some]

/-- With nothing planned and nothing to take, a turn the LZMA engine has is the step. -/
theorem step_of_unplanned {s : State} {o : Out} (h : s.host.schedule = []) (ht : (s.host.takes && itemOffered s) = false)
    (hl : lzmaTurn s = some o) : step s = o := by
  simp only [step, anyTurn, autoTurn, h, ht, hl, Bool.false_eq_true, if_false, Option.getD_some]

/-! ### A turn at a packet -/

theorem packetTurn_of_decode {bits : List Bool} {i : Instr} {s : State} (h : decode (ctxOf s) (.bits bits) = .ok i) :
    packetTurn bits s = some (exec i s) := by
  simp only [packetTurn, decode_bits_iff.1 h]

theorem packetTurn_of_ok {bits : List Bool} {q : Query} {b : Bool} {s t : State} (hn : NextBit (ctxOf s) bits q)
    (ha : answer q s = .ok b t) : packetTurn bits s = some (.next (toPhase (.packet (bits ++ [b])) t)) := by
  obtain ⟨k, hw⟩ := hn
  simp only [packetTurn, hw, ha]

/-- The engine's turn at a complete packet is the packet's meaning, whatever the host's side is. -/
theorem lzmaTurn_complete {bits : List Bool} {i : Instr} {s : State} (hb : s.lz.busy = true) (hd : s.lz.dout = none)
    (hp : s.lz.phase = .packet bits) (h : decode (ctxOf s) (.bits bits) = .ok i) : lzmaTurn s = some (exec i s) :=
  (lzmaTurn_packet hb hd hp).trans (packetTurn_of_decode h)

/-! ### A CMD write of one command -/

theorem runCommands_single (i : Instr) (s : State) : runCommands [i] s = exec i s := by
  rw [runCommands]
  cases exec i s <;> rfl

/-- A CMD value decodes to a command exactly where it issues that command alone (R38, R315). -/
theorem decode_cmd_iff {c : Ctx} {v : Word} {i : Instr} : decode c (.cmd v) = .ok i ↔ decodeCommands v = [i] := by
  simp only [decode]
  split <;> next h => simp [h]

theorem csrWrite_of_decode {off : BitVec 8} {v : Word} {c : Ctx} {i : Instr} (hoff : off.toNat / 4 = 1)
    (h : decode c (.cmd v) = .ok i) (s : State) : csrWrite off v s = exec i s := by
  simp only [csrWrite, hoff, decode_cmd_iff.1 h, runCommands_single]

/-! ### The obligation -/

/-- Settles O7: the step is the turn of the engine or of the host, and that turn is the instruction's meaning, or the next bit. -/
theorem stepRunsTheDecodedInstruction : Obligations.StepRunsTheDecodedInstruction := by
  intro s i
  refine ⟨fun bits hb hd hp hi => ⟨fun rest hs => ?_, fun hs ht => ?_⟩,
    fun bits q hb hd hp hn => ⟨fun b t ha => ?_, fun ha => ?_⟩, fun _ => ⟨rfl, rfl⟩, fun off v c rest hs hoff hi => ?_⟩
  · rw [step_of_planned hs]
    exact runTurn_of_lzmaTurn (lzmaTurn_complete hb hd hp hi)
  · exact step_of_unplanned hs ht (lzmaTurn_complete hb hd hp hi)
  · rw [lzmaTurn_packet hb hd hp, packetTurn_of_ok hn ha, toPhase]
  · rw [lzmaTurn_packet hb hd hp, packetTurn_of_wait hn ha]
  · rw [step_of_planned hs, runTurn, hostTurn, csrWrite_of_decode hoff hi]

end Sys2Proof.Machine
end

section
/-! The range decoder: where `Normalize` takes its byte, what a decoded bit makes of `range`, `code` and the counters, and the five
start bytes (40_range_decoder.md R150, R152, R153, R155; 42_lzma_fsm.md R200). -/

namespace Sys2Proof.Machine

/-! ### Registers as numbers -/

/-- A byte taken into a register from below: the low 8 bits are free after the shift, so `|||` is `+` (R150, R152). -/
theorem shiftInByte_eq_ofNat (c : Word) (b : Byte) :
    (c <<< 8) ||| b.setWidth 32 = BitVec.ofNat 32 (c.toNat * 256 + b.toNat) := by
  have hfree : (c <<< 8) &&& b.setWidth 32 = 0#32 := by
    ext i hi
    by_cases h8 : i < 8
    · simp [h8]
    · simp [BitVec.getLsbD_of_ge b i (by omega)]
  apply BitVec.eq_of_toNat_eq
  rw [← BitVec.add_eq_or_of_and_eq_zero _ _ hfree, BitVec.toNat_add, BitVec.toNat_shiftLeft, Nat.shiftLeft_eq,
    BitVec.toNat_setWidth, BitVec.toNat_ofNat]
  omega

theorem sub_eq_ofNat {x y : Word} (h : y.toNat ≤ x.toNat) : x - y = BitVec.ofNat 32 (x.toNat - y.toNat) := by
  rw [← BitVec.ofNat_sub_ofNat_of_le _ _ y.isLt h, BitVec.ofNat_toNat, BitVec.ofNat_toNat, BitVec.setWidth_eq, BitVec.setWidth_eq]

theorem halfRange_toNat (r : Word) : (r >>> 1).toNat = r.toNat / 2 := by
  rw [BitVec.toNat_ushiftRight, Nat.shiftRight_eq_div_pow, Nat.pow_one]

/-- The bound is no more than `range`, since a counter is below 2048 (R153). -/
theorem bitBound_le_range (r : Word) (p : Counter) : (bitBound r p).toNat ≤ r.toNat := by
  calc (bitBound r p).toNat = r.toNat / 2048 * p.toNat := bitBound_toNat r p
    _ ≤ r.toNat / 2048 * 2048 := Nat.mul_le_mul_left _ p.isLt.le
    _ ≤ r.toNat := Nat.div_mul_le_self _ _

/-! ### `Normalize` (R152) -/

theorem normalize_of_normal {s : State} (h : 2 ^ 24 ≤ s.lz.range.toNat) : Machine.normalize s = .ok () s := by
  rw [Machine.normalize, if_neg (fun hlt => Nat.not_lt.2 h (BitVec.lt_def.1 hlt))]

theorem normalize_of_offered {s : State} {b : Byte} {last : Bool} {rest : List (Byte × Bool)}
    (h : s.lz.range.toNat < 2 ^ 24) (he : s.lz.inEnded = false) (hc : s.host.cin = (b, last) :: rest)
    (hn : s.lz.inCount ≠ BitVec.allOnes 64) :
    Machine.normalize s = .ok () { s with
      lz := { s.lz with
        range := BitVec.ofNat 32 (s.lz.range.toNat * 256)
        code := BitVec.ofNat 32 (s.lz.code.toNat * 256 + b.toNat)
        inCount := s.lz.inCount + 1, inEnded := last }
      host := { s.host with cin := rest } } := by
  rw [normalize_reads h, readIn_of_offered (s := shiftRange s) he hc hn, ← shiftInByte_eq_ofNat]
  rfl

/-- Settles O21: the two sides of the comparison, and below 2^24 the two answers of `ReadIn`. -/
theorem normalizeShiftsOneByte : Obligations.NormalizeShiftsOneByte :=
  fun _ => ⟨normalize_of_normal, normalize_of_ended, fun _ _ _ => normalize_of_offered⟩

/-! ### `DecodeBit` (R153) -/

/-- Below the bound: `range` is the bound. -/
theorem decodeBit_of_lt {i : Nat} {s : State} (hi : i < probCount s.lz.lc.toNat s.lz.lp.toNat)
    (hc : s.lz.code.toNat < (bitBound s.lz.range (probRead i s)).toNat) :
    decodeBit i s = (Machine.normalize (bitZero i s)).bind (fun _ t => .ok false t) := by
  rw [decodeBit, if_pos hi, if_pos (BitVec.lt_def.2 hc)]

theorem decodeBit_of_ge {i : Nat} {s : State} (hi : i < probCount s.lz.lc.toNat s.lz.lp.toNat)
    (hc : (bitBound s.lz.range (probRead i s)).toNat ≤ s.lz.code.toNat) :
    decodeBit i s = (Machine.normalize (bitOne i s)).bind (fun _ t => .ok true t) := by
  rw [decodeBit, if_pos hi, if_neg (BitVec.not_lt.2 (BitVec.le_def.2 hc))]

theorem bitZero_eq_ofNat (i : Nat) (s : State) : bitZero i s = { s with lz := { s.lz with
    range := BitVec.ofNat 32 (bitBound s.lz.range (probRead i s)).toNat
    code := BitVec.ofNat 32 s.lz.code.toNat
    prob := sparseSet probDefault s.lz.prob i (probUp (probRead i s)) } } := by
  simp only [BitVec.ofNat_toNat, BitVec.setWidth_eq, bitZero]

/-- Where 1 is decoded neither subtraction wraps. -/
theorem bitOne_eq_ofNat {i : Nat} {s : State} (hc : (bitBound s.lz.range (probRead i s)).toNat ≤ s.lz.code.toNat) :
    bitOne i s = { s with lz := { s.lz with
      range := BitVec.ofNat 32 (s.lz.range.toNat - (bitBound s.lz.range (probRead i s)).toNat)
      code := BitVec.ofNat 32 (s.lz.code.toNat - (bitBound s.lz.range (probRead i s)).toNat)
      prob := sparseSet probDefault s.lz.prob i (probDown (probRead i s)) } } := by
  rw [← sub_eq_ofNat hc, ← sub_eq_ofNat (bitBound_le_range _ _), bitOne]

/-- Settles O22: the side of the bound that `code` is on decides the bit, and one write moves the counter. -/
theorem decodeBitFollowsItsCounter : Obligations.DecodeBitFollowsItsCounter := by
  rintro i p bound b s ⟨_, hprob⟩ _ hi rfl hbound hb
  have moved (v : Counter) : sparseGet probDefault (sparseSet probDefault s.lz.prob i v) i = v ∧
      ∀ j, j ≠ i → sparseGet probDefault (sparseSet probDefault s.lz.prob i v) j = probRead j s :=
    ⟨sparseGet_set_same _ _ _ 0 _ hprob, fun j hj => sparseGet_set_other _ hj _ _⟩
  rw [← bitBound_toNat] at hbound
  subst hbound
  cases b with
  | false =>
    have hc := of_decide_eq_false hb.symm
    refine ⟨sparseSet probDefault s.lz.prob i (probUp (probRead i s)), ?_, ?_, (moved _).2⟩
    · rw [decodeBit_of_lt hi (Nat.lt_of_not_le hc), bitZero_eq_ofNat]; rfl
    · rw [(moved _).1, probUp_toNat]; rfl
  | true =>
    have hc := of_decide_eq_true hb.symm
    refine ⟨sparseSet probDefault s.lz.prob i (probDown (probRead i s)), ?_, ?_, (moved _).2⟩
    · rw [decodeBit_of_ge hi hc, bitOne_eq_ofNat hc]; rfl
    · rw [(moved _).1, probDown_toNat]; rfl

/-! ### A direct bit (R155) -/

theorem directBit_of_lt {s : State} (hc : s.lz.code.toNat < s.lz.range.toNat / 2) :
    directBit s = (Machine.normalize (directZero s)).bind (fun _ t => .ok false t) := by
  rw [← halfRange_toNat] at hc
  rw [directBit, if_pos (BitVec.lt_def.2 hc)]; rfl

theorem directBit_of_ge {s : State} (hc : s.lz.range.toNat / 2 ≤ s.lz.code.toNat) :
    directBit s = (Machine.normalize (directOne s)).bind (fun _ t => .ok true t) := by
  rw [← halfRange_toNat] at hc
  rw [directBit, if_neg (BitVec.not_lt.2 (BitVec.le_def.2 hc))]; rfl

theorem directZero_eq_ofNat (s : State) : directZero s = { s with lz := { s.lz with
    range := BitVec.ofNat 32 (s.lz.range.toNat / 2), code := BitVec.ofNat 32 s.lz.code.toNat } } := by
  simp only [← halfRange_toNat, BitVec.ofNat_toNat, BitVec.setWidth_eq, directZero]

theorem directOne_eq_ofNat {s : State} (hc : s.lz.range.toNat / 2 ≤ s.lz.code.toNat) :
    directOne s = { s with lz := { s.lz with
      range := BitVec.ofNat 32 (s.lz.range.toNat / 2)
      code := BitVec.ofNat 32 (s.lz.code.toNat - s.lz.range.toNat / 2) } } := by
  rw [← halfRange_toNat] at hc ⊢
  rw [← sub_eq_ofNat hc, BitVec.ofNat_toNat, BitVec.setWidth_eq, directOne]

/-- Settles O23: the side of the half that `code` is on decides the bit. -/
theorem directBitHalvesTheRange : Obligations.DirectBitHalvesTheRange := by
  intro b s hb
  cases b with
  | false => rw [directBit_of_lt (Nat.lt_of_not_le (of_decide_eq_false hb.symm)), directZero_eq_ofNat]; rfl
  | true =>
    have hc := of_decide_eq_true hb.symm
    rw [directBit_of_ge hc, directOne_eq_ofNat hc]; rfl

/-! ### The start bytes (R150, R200) -/

theorem lzmaTurns_of_next {n : Nat} {s t : State} (h : lzmaTurn s = some (.next t)) :
    lzmaTurns (n + 1) s = lzmaTurns n t := by
  simp only [lzmaTurns, h]

/-- A turn that needs a byte goes on with the one offered. -/
theorem lzmaTurn_of_offered {s : State} {b : Byte} {last : Bool} {rest : List (Byte × Bool)} {g : Byte → State → State}
    (hg : lzmaTurn s = (readIn s).turn .lzma (fun b t => .next (g b t))) (he : s.lz.inEnded = false)
    (hc : s.host.cin = (b, last) :: rest) (hn : s.lz.inCount.toNat + 1 < 2 ^ 64) :
    lzmaTurn s = some (.next (g b (afterReadIn last rest s))) := by
  have hlimit : s.lz.inCount ≠ BitVec.allOnes 64 := fun h => by rw [h, BitVec.toNat_allOnes] at hn; omega
  rw [hg, readIn_of_offered he hc hlimit]; rfl

/-- The engine at code byte `k` of `RcInit`, `n` bytes taken since `s`, the last of them with the `last` flag `l` (R150). -/
def atCodeByte (k : Nat) (c : Word) (n : Nat) (l : Bool) (rest : List (Byte × Bool)) (s : State) : State :=
  { s with
    lz := { s.lz with inCount := s.lz.inCount + BitVec.ofNat 64 n, inEnded := l, phase := .rcCode k c }
    host := { s.host with cin := rest } }

theorem afterReadIn_atCodeByte (k : Nat) (c : Word) (n : Nat) (l l' : Bool) (rest rest' : List (Byte × Bool)) (s : State) :
    afterReadIn l' rest' (atCodeByte k c n l rest s) = atCodeByte k c (n + 1) l' rest' s := by
  have hcount : s.lz.inCount + BitVec.ofNat 64 n + 1 = s.lz.inCount + BitVec.ofNat 64 (n + 1) := by
    rw [BitVec.ofNat_add, BitVec.add_assoc]; rfl
  simp only [afterReadIn, atCodeByte, hcount]

/-- The first start byte is taken and not used. -/
theorem lzmaTurn_rcFirst {s : State} {b : Byte} {l : Bool} {rest : List (Byte × Bool)} (hb : s.lz.busy = true)
    (hd : s.lz.dout = none) (hp : s.lz.phase = .rcFirst) (he : s.lz.inEnded = false)
    (hc : s.host.cin = (b, l) :: rest) (hn : s.lz.inCount.toNat + 1 < 2 ^ 64) :
    lzmaTurn s = some (.next (atCodeByte 0 0 1 l rest s)) :=
  lzmaTurn_of_offered (g := fun _ => toPhase (.rcCode 0 0)) (by simp [lzmaTurn, hb, hd, hp]) he hc hn

/-- A code byte moves into `code` from below. -/
theorem lzmaTurn_atCodeByte (k : Nat) (c : Word) {n : Nat} (b : Byte) (l : Bool) (rest : List (Byte × Bool)) {s : State}
    (hb : s.lz.busy = true) (hd : s.lz.dout = none) (hn : s.lz.inCount.toNat + n + 1 < 2 ^ 64) :
    lzmaTurn (atCodeByte k c n false ((b, l) :: rest) s) =
      some (.next (codeByte k c b (atCodeByte k c (n + 1) l rest s))) := by
  rw [← afterReadIn_atCodeByte k c n false l ((b, l) :: rest)]
  refine lzmaTurn_of_offered (by simp [lzmaTurn, atCodeByte, hb, hd]) rfl rfl ?_
  rw [atCodeByte, BitVec.toNat_add, BitVec.toNat_ofNat]
  omega

/-- Each of the first three code bytes is one turn. -/
theorem lzmaTurns_atCodeByte {m k : Nat} (hk : k < 3) (c : Word) {n : Nat} (b : Byte) (l : Bool)
    (rest : List (Byte × Bool)) {s : State} (hb : s.lz.busy = true) (hd : s.lz.dout = none)
    (hn : s.lz.inCount.toNat + n + 1 < 2 ^ 64) :
    lzmaTurns (m + 1) (atCodeByte k c n false ((b, l) :: rest) s) =
      lzmaTurns m (atCodeByte (k + 1) ((c <<< 8) ||| b.setWidth 32) (n + 1) l rest s) := by
  rw [lzmaTurns_of_next (lzmaTurn_atCodeByte k c b l rest hb hd hn), codeByte, if_pos hk]; rfl

/-- Four code bytes, the first one most significant (R150). -/
theorem fourCodeBytes_eq_ofNat (b1 b2 b3 b4 : Byte) :
    ((((((((0 : Word) <<< 8) ||| b1.setWidth 32) <<< 8) ||| b2.setWidth 32) <<< 8) ||| b3.setWidth 32) <<< 8) ||| b4.setWidth 32 =
      BitVec.ofNat 32 (b1.toNat * 2 ^ 24 + b2.toNat * 2 ^ 16 + b3.toNat * 2 ^ 8 + b4.toNat) := by
  apply BitVec.eq_of_toNat_eq
  simp only [shiftInByte_eq_ofNat, BitVec.toNat_ofNat]
  omega

/-- Settles O24: one turn for the first byte, four for the code bytes, and the start values with the last. -/
theorem startBytesStartTheDecoder : Obligations.StartBytesStartTheDecoder := by
  intro s b0 b1 b2 b3 b4 last rest hb hd hp he hn hc
  refine ⟨initCounters (probCount s.lz.lc.toNat s.lz.lp.toNat) s.lz.prob, ?_, fun i hi => ?_⟩
  · rw [lzmaTurns_of_next (lzmaTurn_rcFirst hb hd hp he hc (by omega)),
      lzmaTurns_atCodeByte (by decide) 0 b1 _ _ hb hd (by omega), lzmaTurns_atCodeByte (by decide) _ b2 _ _ hb hd (by omega),
      lzmaTurns_atCodeByte (by decide) _ b3 _ _ hb hd (by omega),
      lzmaTurns_of_next (lzmaTurn_atCodeByte 3 _ b4 _ _ hb hd (by omega)), ← fourCodeBytes_eq_ofNat]
    rfl
  · rw [sparseGet_initCounters]
    exact if_pos hi

end Sys2Proof.Machine
end

section
/-! Bit trees and direct bits along any decoded bits (41_probability_models.md R170, R171; 40_range_decoder.md R155): a list of bits
is the code of its value, so the routine that reads a value back from its code ends with the value of the list. -/

namespace Sys2Proof

open Machine

/-- Forward, the bits are their value's code, most significant bit first (R170). -/
theorem bitTreeDecode_walk_length (base : Nat) (l : List Bool) :
    (bitTreeDecode base l.length).walk l = (.done (bitsValue l), []) := by
  simpa only [bitsMsb_bitsValue] using bitTreeDecode_walk base l.length (bitsValue l) (bitsValue_lt l)

/-- The last bit of a list is the least significant one of its value. -/
theorem bitsValue_concat (l : List Bool) (b : Bool) : bitsValue (l ++ [b]) = 2 * bitsValue l + b.toNat :=
  List.foldl_concat ..

/-- A list is the code, least significant bit first, of the value of its reversal. -/
theorem bitsLsb_bitsValue_reverse (l : List Bool) : bitsLsb l.length (bitsValue l.reverse) = l := by
  induction l with
  | nil => rfl
  | cons b l ih =>
    have hhead : (2 * bitsValue l.reverse + b.toNat).testBit 0 = b := by cases b <;> simp
    have htail : (2 * bitsValue l.reverse + b.toNat) / 2 = bitsValue l.reverse := by
      have hb : b.toNat < 2 := Bool.toNat_lt b
      omega
    rw [List.reverse_cons, bitsValue_concat, List.length_cons, bitsLsb, hhead, htail, ih]

/-- In reverse, the bits are the code of the reversed list's value, least significant bit first (R171). -/
theorem bitTreeReverseDecode_walk_length (base : Nat) (l : List Bool) :
    (bitTreeReverseDecode base l.length).walk l = (.done (bitsValue l.reverse), []) := by
  have hlt : bitsValue l.reverse < 2 ^ l.length := by simpa only [List.length_reverse] using bitsValue_lt l.reverse
  simpa only [bitsLsb_bitsValue_reverse] using bitTreeReverseDecode_walk base l.length (bitsValue l.reverse) hlt

/-- Settles O4: each routine reads the list as the code of its value, the reverse tree as that of the reversed list's value. -/
theorem treesReadTheirBits : Obligations.TreesReadTheirBits := fun base l =>
  ⟨bitTreeDecode_walk_length base l, decodeDirectBits_walk_length l, bitTreeReverseDecode_walk_length base l⟩

end Sys2Proof
end

section
/-! The packets of a decode and the loop test before them (42_lzma_fsm.md R202, R207 to R220): what each packet does to the window,
the distances, the automaton's state and the control point, and what it refuses. -/

namespace Sys2Proof.Machine

/-! ### A literal (R207, R251) -/

/-- A literal in a ready window is written, and its packet ends at once below the window's end, after a flush at the end. -/
theorem putLiteral_of_ready {b : Byte} {s : State} (hw : s.lz.winPos.toNat < s.lz.winSize.toNat)
    (ho : s.lz.outPos ≠ BitVec.allOnes 64) :
    putLiteral b s = .next (if s.lz.winPos.toNat + 1 < s.lz.winSize.toNat then endLit b (appended b s)
      else beginFlush (.lit b) (appended b s)) := by
  have hfull : (appended b s).lz.winPos = (appended b s).lz.winSize ↔ ¬ s.lz.winPos.toNat + 1 < s.lz.winSize.toNat := by
    have hsize : (appended b s).lz.winSize = s.lz.winSize := rfl
    rw [BitVec.toNat_eq, appended_winPos b hw, hsize]
    omega
  simp only [putLiteral, appendByte, if_pos hw, if_neg ho, hfull, ite_not, apply_ite Host.Outcome.next]

/-- Settles O8: the literal's byte is a write of the window RAM at `win_pos`. -/
theorem litAppendsItsByte : Obligations.LitAppendsItsByte := by
  rintro b s ⟨hwf, hlt, _⟩ ho
  refine ⟨(appended b s).lz.window, ?_, sparseGet_set_same _ _ _ 0 _ hwf, fun a ha => sparseGet_set_other _ ha _ _,
    sparseSet_wf _ _ _ 0 _ (Nat.zero_le _) hwf⟩
  rw [exec, execLit, putLiteral_of_ready hlt ho]
  split <;> rfl

/-! ### The copy packets (R208, R210, R214 to R219) -/

/-- Settles O9: MATCH is a copy packet with the operands of the rule. -/
theorem matchRotatesAndCopies : Obligations.MatchRotatesAndCopies := by
  rintro len dist s z rfl hr ha
  exact exec_copies (.newMatch len dist) len s _ rfl hr ha

/-- Settles O10: SHORTREP is a copy packet of length 1. -/
theorem shortRepCopiesOneByte : Obligations.ShortRepCopiesOneByte := by
  rintro s z rfl hr ha
  exact exec_copies .shortRep 1 s _ rfl hr ha

/-- Settles O11: REP0 to REP3 are copy packets, each with its row of R223. -/
theorem repeatsRotateAndCopy : Obligations.RepeatsRotateAndCopy := by
  intro len s z hr ha
  refine ⟨?_, ?_, ?_, ?_⟩ <;> rintro rfl
  · exact exec_copies (.rep0 len) len s _ rfl hr ha
  · exact exec_copies (.rep1 len) len s _ rfl hr ha
  · exact exec_copies (.rep2 len) len s _ rfl hr ha
  · exact exec_copies (.rep3 len) len s _ rfl hr ha

theorem distanceOk_iff (z : Lzma) :
    distanceOk z = true ↔ z.rep0.toNat < z.outPos.toNat ∧ z.rep0.toNat < z.dictCheck.toNat := by
  simp [distanceOk]

theorem sizeOk_eq_false_iff (len : Nat) (z : Lzma) :
    sizeOk len z = false ↔ z.sizeKnown = true ∧ z.usize.toNat < z.outPos.toNat + len := by
  simp [sizeOk]

/-- The distance check comes first (R211). -/
theorem copyStep_of_badDistance {len : Nat} {s : State}
    (h : ¬ (s.lz.rep0.toNat < s.lz.outPos.toNat ∧ s.lz.rep0.toNat < s.lz.dictCheck.toNat)) :
    copyStep len s = .next (raise .lzma .corruptCompressedStream s) := by
  rw [copyStep, if_neg (mt (distanceOk_iff s.lz).1 h)]

/-- With a good distance the size check decides (R212). -/
theorem copyStep_of_badSize {len : Nat} {s : State} (hd : distanceOk s.lz = true) (hs : sizeOk len s.lz = false) :
    copyStep len s = .next (raise .lzma .sizeMismatch s) := by
  rw [copyStep, if_pos hd, if_neg (by simp [hs])]

/-- Settles O14: every copy packet is its update followed by `CopyStep`, which raises before it copies. -/
theorem refusedCopyWritesNothing : Obligations.RefusedCopyWritesNothing := by
  intro i len z s hz
  rw [exec_copy hz]
  refine ⟨fun hd => copyStep_of_badDistance (s := { s with lz := z }) hd, fun h1 h2 hk hu => ?_⟩
  exact copyStep_of_badSize (s := { s with lz := z }) ((distanceOk_iff z).2 ⟨h1, h2⟩) ((sizeOk_eq_false_iff len z).2 ⟨hk, hu⟩)

/-! ### The end marker (R209) -/

/-- Settles O13: the two branches of the end marker's size check. -/
theorem eosEndsTheStreamOrStops : Obligations.EosEndsTheStreamOrStops := by
  refine fun len s => ⟨fun h => ?_, fun hk hu => ?_⟩
  · have hends : ¬ (s.lz.sizeKnown && decide (s.lz.outPos ≠ s.lz.usize)) = true := by
      rcases h with h | h <;> simp [h]
    rw [exec, execEos, if_neg hends]; rfl
  · rw [exec, execEos, if_pos (by simp [hk, hu])]; rfl

/-! ### The automaton (R202) -/

/-- Settles O15: the tables of R201 and R202 state by state; an end marker raises or flushes, and neither moves the automaton. -/
theorem stateTransitions : Obligations.StateTransitions := by
  refine ⟨fun st => by cases st <;> decide, fun len s t h => ?_⟩
  rcases execEos_next h with ⟨_, _, rfl⟩ | ⟨_, rfl⟩ <;> rfl

/-! ### The loop test (R220) -/

theorem lzmaTurn_loopTop {s : State} (hb : s.lz.busy = true) (hd : s.lz.dout = none) (hp : s.lz.phase = .loopTop) :
    lzmaTurn s = some (.next (loopTest s)) := by
  simp [lzmaTurn, hb, hd, hp]

/-- Settles O28: the two branches of the loop test; what has not passed the size and has reached it is equal to it. -/
theorem loopTestEndsAtTheSize : Obligations.LoopTestEndsAtTheSize := by
  refine fun s hb hd hp => ⟨?_, fun hs hk hu => ?_⟩
  · rw [lzmaTurn_loopTop hb hd hp]
    simp only [loopTest, Bool.and_eq_true, decide_eq_true_eq]
    split <;> rfl
  · have hle : s.lz.outPos.toNat ≤ s.lz.usize.toNat := by
      have h := hs (by rw [hp]; rfl) hk
      rwa [hp] at h
    exact BitVec.eq_of_toNat_eq (Nat.le_antisymm hle hu)

end Sys2Proof.Machine
end

section
/-! The header (30_encoding.md section 1; 42_lzma_fsm.md R203 to R206): the properties byte, the bytes taken one by one, the numbers
they make, and the checks. -/

namespace Sys2Proof.Machine

/-! ### The properties byte (R102, R204) -/

theorem propsValid_iff (d : Byte) : propsValid d = true ↔ d.toNat < 225 := by
  simp [propsValid]

/-- The three digits of a valid byte. -/
theorem props_toNat {d : Byte} (h : d.toNat < 225) : (propsLc d).toNat = d.toNat % 9 ∧ (propsLp d).toNat = d.toNat / 9 % 5 ∧
    (propsPb d).toNat = d.toNat / 45 := by
  have hv := (propsValid_iff d).2 h
  simp only [propsLc, propsLp, propsPb, if_pos hv, BitVec.toNat_ofNat]
  omega

/-- Settles O25: the byte is a number below 225 = 5 * 5 * 9, with its three digits. -/
theorem propertiesByteDecodes : Obligations.PropertiesByteDecodes := by
  refine fun d => ⟨propsValid_iff d, fun h => ?_, fun h => ?_⟩
  · have hv : ¬ propsValid d = true := fun hv => absurd ((propsValid_iff d).1 hv) (Nat.not_lt.2 h)
    exact ⟨if_neg hv, if_neg hv, if_neg hv⟩
  · obtain ⟨hlc, hlp, hpb⟩ := props_toNat h
    omega

/-! ### Fields of a register -/

/-- A field that is set holds its value's bits; every other bit stays (R8). -/
theorem getLsbD_setField {x : Word} {lo width v i : Nat} (h : i < 32) :
    (setField x lo width v).getLsbD i = if lo ≤ i ∧ i < lo + width then v.testBit (i - lo) else x.getLsbD i := by
  have hiff : i - lo < width ∧ lo ≤ i ↔ lo ≤ i ∧ i < lo + width := by omega
  simp only [setField, BitVec.getLsbD_or, BitVec.getLsbD_and, BitVec.getLsbD_not, BitVec.getLsbD_ofNat,
    Nat.testBit_mul_two_pow, Nat.testBit_two_pow_sub_one, Nat.testBit_mod_two_pow, h, ← hiff]
  by_cases h1 : i - lo < width <;> by_cases h2 : lo ≤ i <;> simp [h1, h2]

/-- Setting a field that is 0 adds its value: the two have no bit in common. -/
theorem setField_of_free {n lo width v : Nat} (hn : n / 2 ^ lo % 2 ^ width = 0) (hv : v < 2 ^ width) :
    setField (BitVec.ofNat 32 n) lo width v = BitVec.ofNat 32 (n + v * 2 ^ lo) := by
  have hclear : ∀ i, lo ≤ i ∧ i < lo + width → n.testBit i = false := fun i hi => by
    have h := congrArg (Nat.testBit · (i - lo)) hn
    simpa [Nat.testBit_mod_two_pow, Nat.testBit_div_two_pow, show i - lo < width by omega, Nat.sub_add_cancel hi.1] using h
  have hvalue : ∀ i, (v * 2 ^ lo).testBit i = if lo ≤ i ∧ i < lo + width then v.testBit (i - lo) else false := fun i => by
    rw [Nat.testBit_mul_two_pow]
    split
    · next hi => simp [hi.1]
    · next hi =>
      by_cases hlo : lo ≤ i
      · rw [Nat.testBit_lt_two_pow (hv.trans_le (Nat.pow_le_pow_right two_pos (by omega))), Bool.and_false]
      · simp [hlo]
  have hfree : BitVec.ofNat 32 n &&& BitVec.ofNat 32 (v * 2 ^ lo) = 0#32 := by
    apply BitVec.eq_of_getLsbD_eq
    intro i hi
    simp only [BitVec.getLsbD_and, BitVec.getLsbD_ofNat, hvalue]
    split
    · next hfield => simp [hclear i hfield]
    · simp
  rw [BitVec.ofNat_add, BitVec.add_eq_or_of_and_eq_zero _ _ hfree]
  apply BitVec.eq_of_getLsbD_eq
  intro i hi
  simp only [getLsbD_setField hi, BitVec.getLsbD_or, BitVec.getLsbD_ofNat, hvalue, hi, decide_true, Bool.true_and]
  split
  · next hfield => simp [hclear i hfield]
  · simp

/-! ### Little-endian numbers (R203, R206) -/

/-- A byte taken into a register above `8 * k` bits: they do not meet, so `|||` is `+`. -/
theorem orByteAt_eq_ofNat (w : Nat) {k n : Nat} (b : Byte) (h : n < 2 ^ (8 * k)) :
    BitVec.ofNat w n ||| (b.setWidth w <<< (8 * k)) = BitVec.ofNat w (n + b.toNat * 2 ^ (8 * k)) := by
  have hor : n + b.toNat * 2 ^ (8 * k) = n ||| b.toNat <<< (8 * k) := by
    rw [Nat.or_comm, ← Nat.shiftLeft_add_eq_or_of_lt h, Nat.shiftLeft_eq, Nat.add_comm]
  have hshift : b.setWidth w <<< (8 * k) = BitVec.ofNat w (b.toNat <<< (8 * k)) := by
    apply BitVec.eq_of_toNat_eq
    simp [Nat.shiftLeft_eq]
  rw [hshift, hor, BitVec.ofNat_or]

/-! ### One byte after another -/

/-- The engine at control point `p`, `n` bytes taken since `s`, the last of them with the `last` flag `l`. -/
def afterBytes (n : Nat) (l : Bool) (rest : List (Byte × Bool)) (p : LzPhase) (s : State) : State :=
  { s with
    lz := { s.lz with inCount := s.lz.inCount + BitVec.ofNat 64 n, inEnded := l, phase := p }
    host := { s.host with cin := rest } }

theorem afterReadIn_afterBytes (n : Nat) (l l' : Bool) (rest rest' : List (Byte × Bool)) (p : LzPhase) (s : State) :
    afterReadIn l' rest' (afterBytes n l rest p s) = afterBytes (n + 1) l' rest' p s :=
  congrArg (toPhase p) (afterReadIn_atCodeByte 0 0 n l l' rest rest' s)

/-- A turn that needs a byte, after `n` bytes. -/
theorem lzmaTurn_afterBytes {n : Nat} {b : Byte} {l : Bool} {rest : List (Byte × Bool)} {p : LzPhase} {s : State}
    {g : Byte → State → State} (hn : s.lz.inCount.toNat + n + 1 < 2 ^ 64)
    (hg : lzmaTurn (afterBytes n false ((b, l) :: rest) p s) =
      (readIn (afterBytes n false ((b, l) :: rest) p s)).turn .lzma (fun b t => .next (g b t))) :
    lzmaTurn (afterBytes n false ((b, l) :: rest) p s) = some (.next (g b (afterBytes (n + 1) l rest p s))) := by
  rw [← afterReadIn_afterBytes n false l ((b, l) :: rest)]
  refine lzmaTurn_of_offered hg rfl rfl ?_
  rw [afterBytes, BitVec.toNat_add, BitVec.toNat_ofNat]
  omega

section Offering

variable {s : State} (hb : s.lz.busy = true) (hd : s.lz.dout = none) (l : Bool) (rest : List (Byte × Bool))
include hb hd

/-- The properties byte is taken. -/
theorem lzmaTurn_hdrProps {d : Byte} (hp : s.lz.phase = .hdrProps) (he : s.lz.inEnded = false)
    (hc : s.host.cin = (d, l) :: rest) (hn : s.lz.inCount.toNat + 1 < 2 ^ 64) :
    lzmaTurn s = some (.next (afterBytes 1 l rest (.hdrDict d 0 0) s)) :=
  lzmaTurn_of_offered (g := fun d => toPhase (.hdrDict d 0 0)) (by simp [lzmaTurn, hb, hd, hp]) he hc hn

theorem lzmaTurn_hdrDict (d : Byte) (k : Nat) (ds : Word) {n : Nat} (b : Byte) (hn : s.lz.inCount.toNat + n + 1 < 2 ^ 64) :
    lzmaTurn (afterBytes n false ((b, l) :: rest) (.hdrDict d k ds) s) =
      some (.next (dictByte d k ds b (afterBytes (n + 1) l rest (.hdrDict d k ds) s))) :=
  lzmaTurn_afterBytes hn (by simp [lzmaTurn, afterBytes, hb, hd])

theorem lzmaTurn_hdrSize (k : Nat) (u : DWord) {n : Nat} (b : Byte) (hn : s.lz.inCount.toNat + n + 1 < 2 ^ 64) :
    lzmaTurn (afterBytes n false ((b, l) :: rest) (.hdrSize k u) s) =
      some (.next (sizeByte k u b (afterBytes (n + 1) l rest (.hdrSize k u) s))) :=
  lzmaTurn_afterBytes hn (by simp [lzmaTurn, afterBytes, hb, hd])

/-- Each of the first three dictionary bytes is one turn, and adds its byte to the number read. -/
theorem lzmaTurns_hdrDict (d : Byte) {m k ds n : Nat} (hk : k < 3) (hds : ds < 2 ^ (8 * k)) (b : Byte)
    (hn : s.lz.inCount.toNat + n + 1 < 2 ^ 64) :
    lzmaTurns (m + 1) (afterBytes n false ((b, l) :: rest) (.hdrDict d k (BitVec.ofNat 32 ds)) s) =
      lzmaTurns m (afterBytes (n + 1) l rest (.hdrDict d (k + 1) (BitVec.ofNat 32 (ds + b.toNat * 2 ^ (8 * k)))) s) := by
  rw [lzmaTurns_of_next (lzmaTurn_hdrDict hb hd l rest d k _ b hn), dictByte, if_pos hk, orByteAt_eq_ofNat 32 b hds]
  rfl

/-- Each of the first seven size bytes is one turn, and adds its byte to the number read. -/
theorem lzmaTurns_hdrSize {m k u n : Nat} (hk : k < 7) (hu : u < 2 ^ (8 * k)) (b : Byte)
    (hn : s.lz.inCount.toNat + n + 1 < 2 ^ 64) :
    lzmaTurns (m + 1) (afterBytes n false ((b, l) :: rest) (.hdrSize k (BitVec.ofNat 64 u)) s) =
      lzmaTurns m (afterBytes (n + 1) l rest (.hdrSize (k + 1) (BitVec.ofNat 64 (u + b.toNat * 2 ^ (8 * k)))) s) := by
  rw [lzmaTurns_of_next (lzmaTurn_hdrSize hb hd l rest k _ b hn), sizeByte, if_pos hk, orByteAt_eq_ofNat 64 b hu]
  rfl

end Offering

/-- An engine that has taken no byte yet. -/
theorem eq_afterBytes_zero {s : State} {l : Bool} {cin : List (Byte × Bool)} {p : LzPhase} (he : s.lz.inEnded = l)
    (hc : s.host.cin = cin) (hp : s.lz.phase = p) : s = afterBytes 0 l cin p s := by
  subst he hc hp
  simp [afterBytes]

/-! ### The size field (R206) -/

/-- PROPS.SIZE_KNOWN is bit 16, and the only bit that settling the size changes (R40, R206). -/
theorem getLsbD_propsSetKnown (known : Bool) (x : Word) (k : Nat) :
    (propsSetKnown known x).getLsbD k = if k = 16 then known else x.getLsbD k := by
  by_cases h32 : k < 32
  · have hbit : 16 ≤ k ∧ k < 16 + 1 ↔ k = 16 := by omega
    rw [propsSetKnown, getLsbD_setField h32]
    simp only [hbit]
    split
    · next h16 => subst h16; cases known <;> rfl
    · rfl
  · rw [BitVec.getLsbD_of_ge _ _ (by omega), BitVec.getLsbD_of_ge _ _ (by omega), if_neg (by omega)]

/-- Settles O27: seven bytes go into the number, and the eighth settles the size with it. -/
theorem sizeFieldIsRead : Obligations.SizeFieldIsRead := by
  rintro s b0 b1 b2 b3 b4 b5 b6 b7 last rest u hb hd hp he hn hc hu
  refine ⟨propsSetKnown (decide (u ≠ BitVec.allOnes 64)) s.lz.props, ?_, by rw [getLsbD_propsSetKnown, if_pos rfl],
    fun k hk => by rw [getLsbD_propsSetKnown, if_neg hk]⟩
  subst hu
  have hstart := eq_afterBytes_zero he hc (p := .hdrSize 0 (BitVec.ofNat 64 0)) hp
  conv_lhs => rw [hstart]
  simp (disch := omega) only [lzmaTurns_hdrSize hb hd]
  rw [lzmaTurns_of_next (lzmaTurn_hdrSize hb hd _ _ _ _ b7 (by omega)), sizeByte, if_neg (by decide),
    orByteAt_eq_ofNat 64 b7 (by omega)]
  simp only [Nat.zero_add, Nat.mul_zero, Nat.pow_zero, Nat.mul_one]
  rfl

/-! ### The dictionary size and the window size (R101, R204) -/

theorem dictCheckOf_ofNat {n : Nat} (h : n < 2 ^ 32) : dictCheckOf (BitVec.ofNat 32 n) = BitVec.ofNat 32 (max n 1) := by
  have hzero : BitVec.ofNat 32 n = 0 ↔ n = 0 := by
    rw [BitVec.toNat_eq, BitVec.toNat_ofNat, Nat.mod_eq_of_lt h]; rfl
  rw [dictCheckOf]
  split
  · next h0 => rw [hzero.1 h0]; rfl
  · next h0 => rw [Nat.max_eq_left (Nat.one_le_iff_ne_zero.2 (mt hzero.2 h0))]

theorem winSizeOf_ofNat {n : Nat} (h : n < 2 ^ 32) :
    winSizeOf (BitVec.ofNat 32 n) = BitVec.ofNat 32 (max (max n 1) 4096) := by
  have hlt : BitVec.ofNat 32 (max n 1) < 4096 ↔ max n 1 < 4096 := by
    rw [BitVec.lt_def, BitVec.toNat_ofNat, Nat.mod_eq_of_lt (by omega)]; rfl
  rw [winSizeOf, dictCheckOf_ofNat h]
  split
  · next hs => rw [Nat.max_eq_right (hlt.1 hs).le]; rfl
  · next hs => rw [Nat.max_eq_left (Nat.not_lt.1 (mt hlt.2 hs))]

/-! ### PROPS (R40, R203, R205) -/

theorem propsSetRaw_zero (d : Byte) : propsSetRaw d 0 = BitVec.ofNat 32 (d.toNat * 2 ^ 24) := by
  have h := setField_of_free (n := 0) (lo := 24) (width := 8) (v := d.toNat) rfl d.isLt
  rwa [Nat.zero_add] at h

/-- PROPS of an accepted header: each field of R40 at its place, in a register that held RAW only. -/
theorem propsSetValid_raw (d : Byte) (lc : BitVec 4) (lp pb : BitVec 3) :
    propsSetValid lc lp pb (BitVec.ofNat 32 (d.toNat * 2 ^ 24)) =
      BitVec.ofNat 32 (d.toNat * 2 ^ 24 + 2 ^ 17 + pb.toNat * 2 ^ 8 + lp.toNat * 2 ^ 4 + lc.toNat) := by
  rw [propsSetValid, setField_of_free (by omega) lc.isLt, setField_of_free (by omega) lp.isLt,
    setField_of_free (by omega) pb.isLt, setField_of_free (by omega) (by decide)]
  congr 1
  omega

/-- An unknown size leaves PROPS.SIZE_KNOWN as it was, 0. -/
theorem propsSetKnown_false {n : Nat} (h : n / 2 ^ 16 % 2 = 0) :
    propsSetKnown false (BitVec.ofNat 32 n) = BitVec.ofNat 32 n := by
  rw [propsSetKnown, flag_false, setField_of_free h (by decide), Nat.zero_mul, Nat.add_zero]

/-! ### The validation (R205) -/

/-- The three checks raise the same error, so their order does not show. -/
theorem headerCheck_eq (d : Byte) (s : State) : headerCheck d s =
    if 225 ≤ d.toNat ∨ s.params.windowCapacity < s.lz.winSize.toNat ∨ s.params.litCtxBitsCapacity < s.lz.lc.toNat + s.lz.lp.toNat
    then raise .lzma .invalidStreamProperties s else headerAccept s := by
  have hinvalid : propsValid d = false ↔ 225 ≤ d.toNat := by simp [propsValid]
  simp only [headerCheck, hinvalid, ite_or]

/-- An accepted header of either length; PROPS becomes `x`, in which the size is not known (R205, R206). -/
theorem headerAccept_eq {x : Word} {s : State} (hvalid : propsSetValid s.lz.lc s.lz.lp s.lz.pb s.lz.props = x)
    (hknown : propsSetKnown false x = x) :
    headerAccept s = { s with lz := { s.lz with
      props := x
      usize := if s.lz.hdr13 = true then s.lz.usize else BitVec.allOnes 64
      sizeKnown := if s.lz.hdr13 = true then s.lz.sizeKnown else false
      phase := if s.lz.hdr13 = true then .hdrSize 0 0 else .rcFirst } } := by
  have hunknown : decide (BitVec.allOnes 64 ≠ BitVec.allOnes 64) = false := decide_eq_false (fun hne => hne rfl)
  rw [headerAccept, hvalid]
  by_cases h13 : s.lz.hdr13 = true
  · simp only [if_pos h13]
  · simp only [if_neg h13, headerSize, hunknown, hknown]

/-- Five turns from the first header byte read it and the dictionary size, and come to the validation (R203, R204). -/
theorem lzmaTurns_header {s : State} {d e0 e1 e2 e3 : Byte} {last : Bool} {rest : List (Byte × Bool)} {ds : Nat}
    (hb : s.lz.busy = true) (hd : s.lz.dout = none) (hp : s.lz.phase = .hdrProps) (he : s.lz.inEnded = false)
    (hn : s.lz.inCount.toNat + 5 < 2 ^ 64)
    (hc : s.host.cin = (d, false) :: (e0, false) :: (e1, false) :: (e2, false) :: (e3, last) :: rest)
    (hds : ds = e0.toNat + e1.toNat * 2 ^ 8 + e2.toNat * 2 ^ 16 + e3.toNat * 2 ^ 24) :
    lzmaTurns 5 s = .next (headerCheck d (headerValues d (BitVec.ofNat 32 ds) (afterBytes 5 last rest
      (.hdrDict d 3 (BitVec.ofNat 32 (e0.toNat + e1.toNat * 2 ^ 8 + e2.toNat * 2 ^ 16))) s))) := by
  subst hds
  rw [lzmaTurns_of_next (lzmaTurn_hdrProps hb hd _ _ hp he hc (by omega)), show (0 : Word) = BitVec.ofNat 32 0 from rfl]
  simp (disch := omega) only [lzmaTurns_hdrDict hb hd]
  rw [lzmaTurns_of_next (lzmaTurn_hdrDict hb hd _ _ _ _ _ e3 (by omega)), dictByte, if_neg (by decide),
    orByteAt_eq_ofNat 32 e3 (by omega)]
  simp only [Nat.zero_add, Nat.mul_zero, Nat.pow_zero, Nat.mul_one]
  rfl

/-- The registers after the five bytes, with the control point still in the header (R203, R204). -/
theorem headerValues_afterBytes {d : Byte} {ds : Nat} (hds : ds < 2 ^ 32) (last : Bool) (rest : List (Byte × Bool)) (p : LzPhase)
    {s : State} (hprops : s.lz.props = 0) :
    headerValues d (BitVec.ofNat 32 ds) (afterBytes 5 last rest p s) = { s with
      lz := { s.lz with
        inCount := s.lz.inCount + 5, inEnded := last, dictSize := BitVec.ofNat 32 ds
        lc := propsLc d, lp := propsLp d, pb := propsPb d
        dictCheck := BitVec.ofNat 32 (max ds 1), winSize := BitVec.ofNat 32 (max (max ds 1) 4096)
        props := BitVec.ofNat 32 (d.toNat * 2 ^ 24), phase := p }
      host := { s.host with cin := rest } } := by
  have hp : (afterBytes 5 last rest p s).lz.props = 0 := hprops
  rw [headerValues, dictCheckOf_ofNat hds, winSizeOf_ofNat hds, hp, propsSetRaw_zero]
  rfl

/-- Settles O26: the validation after the five bytes, on the registers and the PROPS that R203 and R204 give. -/
theorem headerIsReadAndChecked : Obligations.HeaderIsReadAndChecked := by
  rintro s d e0 e1 e2 e3 last rest ds z hb hd hp he hprops hn hc hds rfl
  have hlt : ds < 2 ^ 32 := by omega
  have hwin : (BitVec.ofNat 32 (max (max ds 1) 4096)).toNat = max (max ds 1) 4096 := by
    rw [BitVec.toNat_ofNat, Nat.mod_eq_of_lt (by omega)]
  rw [lzmaTurns_header hb hd hp he hn hc hds, headerValues_afterBytes hlt _ _ _ hprops, headerCheck_eq]
  refine ⟨fun h => ?_, fun h => ?_⟩
  · rw [if_pos (by simpa only [hwin] using h)]; rfl
  · rw [if_neg (by simpa only [hwin] using h)]
    exact congrArg Host.Outcome.next
      (headerAccept_eq (propsSetValid_raw d (propsLc d) (propsLp d) (propsPb d)) (propsSetKnown_false (by omega)))

end Sys2Proof.Machine
end

section
/-! A flush of the output window and what goes on after it (43_output_window.md R252, R253; 60_exceptions.md R77; 42_lzma_fsm.md
R207, R216): the turn that offers a byte, the turn after the last byte, and the steps in which a host takes them all. -/

namespace Sys2Proof.Machine

/-! ### A turn inside a flush (R253) -/

theorem lzmaTurn_flush {j : Nat} {c : FlushCont} {s : State} (hb : s.lz.busy = true) (hd : s.lz.dout = none)
    (hp : s.lz.phase = .flush j c) : lzmaTurn s = some (flushTurn j c s) := by
  simp [lzmaTurn, hb, hd, hp]

/-- `s` with the window's byte at the flush's index `j` offered on `dout`. -/
def byteOffered (j : Nat) (c : FlushCont) (s : State) : State :=
  { s with lz := { s.lz with dout := some (ramByte s.lz j), phase := .flush (j + 1) c } }

/-- Before the last byte the flush offers the byte at its index. -/
theorem flushTurn_of_lt {j : Nat} {s : State} (hj : j < s.lz.winPos.toNat) (hw : j < s.lz.winSize.toNat) (c : FlushCont) :
    flushTurn j c s = .next (byteOffered j c s) := by
  rw [flushTurn, if_pos hj, memRead, if_pos hw]; rfl

/-- After the last byte the flush ends, and what it interrupted goes on. -/
theorem flushTurn_of_ge {j : Nat} {s : State} (hj : s.lz.winPos.toNat ≤ j) (c : FlushCont) :
    flushTurn j c s = afterFlush c (endFlush s) := by
  rw [flushTurn, if_neg (Nat.not_lt.2 hj)]

theorem endFlush_of_full {s : State} (h : s.lz.winPos = s.lz.winSize) :
    endFlush s = { s with lz := { s.lz with winPos := 0, streamPos := 0 } } := by
  rw [endFlush, if_pos h]

/-- Settles O30: the turn after the last byte ends the flush, and the end of a decode or of a literal follows in the same turn. -/
theorem flushEndsThenItsRoutineGoesOn : Obligations.FlushEndsThenItsRoutineGoesOn := by
  rintro s j z hb hd hj rfl
  refine ⟨fun hp => ?_, fun b hp => ?_⟩
  · rw [lzmaTurn_flush hb hd hp, flushTurn_of_ge hj]; rfl
  · rw [lzmaTurn_flush hb hd hp, flushTurn_of_ge hj]; rfl

/-- Settles O12: the pointers wrap to 0, and from there the rest of the copy is a run of the copy loop like any other, its source
`dist + 1` bytes back around the window's end. -/
theorem flushResumesTheCopy : Obligations.FlushResumesTheCopy := by
  rintro s j dist rem src z hb hd hp hj hfull rfl hwf hdist hsrc hout
  have hlt : dist < s.lz.winSize.toNat := hdist
  have hback : copySource src s = (0 + s.lz.winSize.toNat - dist - 1) % s.lz.winSize.toNat := by
    rw [Nat.zero_add, Nat.mod_eq_of_lt (by omega)]; exact hsrc
  refine ⟨_, lzmaTurn_flush hb hd hp, ?_⟩
  rw [flushTurn_of_ge hj, endFlush_of_full hfull]
  exact copyRun_copies dist rem src { s with lz := { s.lz with winPos := 0, streamPos := 0 } }
    (Nat.zero_lt_of_lt hlt) hwf hlt hback hout

/-! ### A flush with a host that takes every byte (R253, R77, log 1) -/

/-- The engine flushes from index `j` with nothing offered on any port, nothing is planned, and the host takes what is offered. -/
structure Flushing (j : Nat) (c : FlushCont) (s : State) : Prop where
  busy : s.lz.busy = true
  dout : s.lz.dout = none
  phase : s.lz.phase = .flush j c
  schedule : s.host.schedule = []
  takes : s.host.takes = true
  ports : parserPortsFree s.ps = true

/-- `s` after a flush has delivered the `n` bytes from index `j` on. -/
def flushed (j n : Nat) (c : FlushCont) (s : State) : State :=
  { s with
    lz := { s.lz with phase := .flush (j + n) c }
    host := { s.host with doutLog := s.host.doutLog ++ (List.range' j n).map (ramByte s.lz) } }

theorem flushed_zero {j : Nat} {c : FlushCont} {s : State} (hp : s.lz.phase = .flush j c) : flushed j 0 c s = s := by
  simp only [flushed, Nat.add_zero, List.range'_zero, List.map_nil, List.append_nil, ← hp]

/-- The first byte delivered, then `n` more from the next index on. -/
theorem flushed_flushed_one (j n : Nat) (c : FlushCont) (s : State) :
    flushed (j + 1) n c (flushed j 1 c s) = flushed j (n + 1) c s := by
  have hindex : j + 1 + n = j + (n + 1) := by omega
  have hlog : s.host.doutLog ++ (List.range' j 1).map (ramByte s.lz) ++ (List.range' (j + 1) n).map (ramByte s.lz) =
      s.host.doutLog ++ (List.range' j (n + 1)).map (ramByte s.lz) := by
    rw [List.append_assoc, List.range'_succ (n := n)]; rfl
  rw [flushed, flushed, flushed, ← hindex, ← hlog]; rfl

/-- The host with nothing to take from the parser takes the byte on `dout` (R52). -/
theorem takeAll_of_portsFree {s : State} (h : parserPortsFree s.ps = true) : takeAll s = takeDout s := by
  have hps : (takeDout s).ps = s.ps := by rw [takeDout_eq]
  simp only [parserPortsFree, Bool.and_eq_true, Option.isNone_iff_eq_none] at h
  obtain ⟨⟨htemp, hbin⟩, hloc⟩ := h
  simp only [takeAll, takeTemp, takeBin, takeLoc, hps, htemp, hbin, hloc]

/-- A host that takes does so in the step after a byte was offered. -/
theorem step_takes {s : State} {b : Byte} (hs : s.host.schedule = []) (ht : s.host.takes = true) (hd : s.lz.dout = some b)
    (hp : parserPortsFree s.ps = true) : step s = .next (takeDout s) := by
  have hoffered : (s.host.takes && itemOffered s) = true := by simp [ht, itemOffered, hd]
  simp only [step, anyTurn, hs, autoTurn, if_pos hoffered, takeAll_of_portsFree hp]

theorem steps_of_next {n : Nat} {s t : State} (h : step s = .next t) : steps (n + 1) s = steps n t := by
  simp only [steps, h]

section
variable {j : Nat} {c : FlushCont} {s : State}

/-- The flush goes on at its next index. -/
theorem Flushing.next (h : Flushing j c s) : Flushing (j + 1) c (flushed j 1 c s) :=
  ⟨h.busy, h.dout, rfl, h.schedule, h.takes, h.ports⟩

theorem Flushing.step_offers (h : Flushing j c s) (hj : j < s.lz.winPos.toNat) (hw : j < s.lz.winSize.toNat) :
    step s = .next (byteOffered j c s) := by
  refine step_of_unplanned h.schedule (by simp [itemOffered, h.dout, h.ports]) ?_
  rw [lzmaTurn_flush h.busy h.dout h.phase, flushTurn_of_lt hj hw]

theorem Flushing.step_delivers (h : Flushing j c s) : step (byteOffered j c s) = .next (flushed j 1 c s) := by
  have htaken : takeDout (byteOffered j c s) = flushed j 1 c s := by
    rw [takeDout_eq, flushed, ← h.dout]; rfl
  exact htaken ▸ step_takes h.schedule h.takes rfl h.ports

end

/-- A flush delivers its next `n` bytes in `2 * n` steps: the engine offers a byte, the host takes it. -/
theorem steps_flushing {c : FlushCont} : ∀ (n : Nat) {j : Nat} {s : State}, Flushing j c s →
    j + n ≤ s.lz.winPos.toNat → s.lz.winPos.toNat ≤ s.lz.winSize.toNat → steps (2 * n) s = .next (flushed j n c s)
  | 0, _, _, h, _, _ => congrArg Host.Outcome.next (flushed_zero h.phase).symm
  | n + 1, j, s, h, hj, hw => by
    rw [Nat.mul_succ, steps_of_next (h.step_offers (by omega) (by omega)), steps_of_next h.step_delivers,
      steps_flushing n h.next (show j + 1 + n ≤ s.lz.winPos.toNat by omega) hw, flushed_flushed_one]

/-- Settles O29: by induction on the number of bytes, two steps for each, up to `win_pos`. -/
theorem flushDeliversTheBytes : Obligations.FlushDeliversTheBytes := by
  intro s j c hb hd hp hj hw hs ht hf
  have hend : j + (s.lz.winPos.toNat - j) = s.lz.winPos.toNat := by omega
  rw [steps_flushing _ ⟨hb, hd, hp, hs, ht, hf⟩ hend.le hw, flushed, hend]

end Sys2Proof.Machine
end

section
/-! The parser at its control points (44_dataset_parser.md R274 to R288): a complete field, the records' order and their ranges,
the temperatures offered, the widths of an accepted header, and the end of a parse. -/

namespace Sys2Proof.Machine

/-! ### A turn by its control point -/

section
variable {s : State}

theorem parserTurn_field {f : PField} {k : Nat} {v : Word} (hb : s.ps.busy = true) (hf : parserPortsFree s.ps = true)
    (hp : s.ps.phase = .field f k v) : parserTurn s = fieldTurn f k v s := by
  simp [parserTurn, hb, hf, hp]

/-- The turn after a field's last bit. -/
theorem parserTurn_fieldDone {f : PField} {k : Nat} {v : Word} (hb : s.ps.busy = true) (hf : parserPortsFree s.ps = true)
    (hp : s.ps.phase = .field f k v) (hk : fieldWidth s.ps f ≤ k) :
    parserTurn s = some (.next (fieldDone f v s)) := by
  rw [parserTurn_field hb hf hp, fieldTurn, if_neg (by omega)]

theorem parserTurn_tempNext (hb : s.ps.busy = true) (hf : parserPortsFree s.ps = true) (hp : s.ps.phase = .tempNext) :
    parserTurn s = some (.next (nextTemperature (bumpIndex s))) := by
  simp [parserTurn, hb, hf, hp]

theorem parserTurn_binHold {md ti : Word} (hb : s.ps.busy = true) (hf : parserPortsFree s.ps = true)
    (hp : s.ps.phase = .binHold md ti) : parserTurn s = some (.next (nextBin (bumpIndex (holdBin md ti s)))) := by
  simp [parserTurn, hb, hf, hp]

theorem parserTurn_binsEnd (hb : s.ps.busy = true) (hf : parserPortsFree s.ps = true) (hp : s.ps.phase = .binsEnd) :
    parserTurn s = some (.next (startLocations s)) := by
  simp [parserTurn, hb, hf, hp]

theorem parserTurn_locHold {la lo bi : Word} (hb : s.ps.busy = true) (hf : parserPortsFree s.ps = true)
    (hp : s.ps.phase = .locHold la lo bi) :
    parserTurn s = some (.next (nextLocation (bumpIndex (holdLocation la lo bi s)))) := by
  simp [parserTurn, hb, hf, hp]

theorem parserTurn_locsEnd (hb : s.ps.busy = true) (hf : parserPortsFree s.ps = true) (hp : s.ps.phase = .locsEnd) :
    parserTurn s = some (.next (endParse s)) := by
  simp [parserTurn, hb, hf, hp]

end

/-! ### The checks of the header (R275, R276, R278) -/

theorem magicByte_eq {k : Nat} (hk : k ≤ 2) : magicByte k = if k = 2 then 0x45 else 0x43 := by
  interval_cases k <;> rfl

/-- A complete magic byte (R275). -/
theorem fieldDone_magic {k : Nat} (hk : k ≤ 2) (v : Word) (s : State) :
    fieldDone (.magic k) v s =
      if v = (if k = 2 then 0x45 else 0x43) then readField (if k = 2 then .version else .magic (k + 1)) s
      else raise .parser .magicMismatch s := by
  rw [fieldDone, magicByte_eq hk]
  by_cases h2 : k = 2
  · simp [h2]
  · simp [h2, show k < 2 by omega]

/-- Settles O36: a complete field is the turn's `fieldDone`, whose three checks are R275, R276 and R278. -/
theorem datasetHeaderIsChecked : Obligations.DatasetHeaderIsChecked := by
  intro s v hb hf
  refine ⟨fun k hp hk => ?_, fun hp => ?_, fun hp hw => ?_⟩
  · rw [parserTurn_fieldDone hb hf hp le_rfl, fieldDone_magic hk]
    by_cases hv : v = (if k = 2 then 0x45 else 0x43)
    · rw [if_pos hv, if_pos hv]; rfl
    · rw [if_neg hv, if_neg hv]; rfl
  · rw [parserTurn_fieldDone hb hf hp le_rfl, fieldDone]
    by_cases hv : v = 3
    · rw [if_pos hv, if_pos hv]; rfl
    · rw [if_neg hv, if_neg hv]; rfl
  · rw [parserTurn_fieldDone hb hf hp le_rfl, fieldDone, checkWidths, if_pos (by simpa using hw)]; rfl

/-! ### A temperature (R282, R283) -/

/-- A pattern made a binary32 NaN: the exponent's bits are set, and where the payload was 0 so is its last bit (93 I10). -/
theorem isNanPattern_nanOf (x : Word) : isNanPattern (nanOf x) := by
  have hexp : (x ||| 0x7F800000).toNat / 2 ^ 23 % 2 ^ 8 = 2 ^ 8 - 1 := by
    have hbits : (x ||| 0x7F800000).extractLsb' 23 8 = BitVec.allOnes 8 := by
      rw [BitVec.extractLsb'_or]; exact BitVec.or_allOnes
    simpa [Nat.shiftRight_eq_div_pow] using congrArg BitVec.toNat hbits
  have hfrac : (x ||| 0x7F800000).toNat % 2 ^ 23 = x.toNat % 2 ^ 23 := by
    rw [BitVec.toNat_or, Nat.or_mod_two_pow]; exact Nat.or_zero _
  unfold nanOf
  split
  · next h0 =>
    have hone : ((x ||| 0x7F800000) ||| 1).toNat / 2 ^ 23 = (x ||| 0x7F800000).toNat / 2 ^ 23 := by
      simp [BitVec.toNat_or, Nat.or_div_two_pow (n := 23)]
    have hodd : ((x ||| 0x7F800000) ||| 1).toNat % 2 = 1 := by
      rw [BitVec.toNat_or, Nat.or_mod_two_eq_one]; exact .inr rfl
    exact ⟨by rw [hone]; exact hexp, by omega⟩
  · next h0 => exact ⟨hexp, by rwa [hfrac]⟩

/-- Settles O38: a complete code is handed to the dequantizer; its value is offered as it is, its NaN as a free one. -/
theorem temperatureIsOffered : Obligations.TemperatureIsOffered := by
  intro s c hb hf hp
  have hdone : parserTurn s = some (.next (offerTemperature c s)) := parserTurn_fieldDone hb hf hp le_rfl
  refine ⟨fun x hx => ?_, fun hx => ⟨_, isNanPattern_nanOf (Config.freeNanBits s.nanCount), ?_⟩⟩ <;>
    simp only [hdone, offerTemperature, hx]

/-! ### The records (R282, R284 to R286, R288) -/

/-- The bins begin at index 0, or are passed over (R280, R285). -/
theorem startBins_eq (s : State) :
    startBins s = { s with ps := { s.ps with
      heldBinValid := false, pI := 0
      phase := if 0 < s.ps.countBins then .field .binMonthDelta 0 0 else .binsEnd } } := by
  rw [startBins, nextBin]
  dsimp only
  by_cases h : 0 < s.ps.countBins
  · rw [if_pos h, if_pos h]; rfl
  · rw [if_neg h, if_neg h]; rfl

/-- The locations begin at index 0, or are passed over (R280, R286). -/
theorem startLocations_eq (s : State) :
    startLocations s = { s with ps := { s.ps with
      heldLocValid := false, pI := 0
      phase := if 0 < s.ps.countLocations then .field .locLat 0 0 else .locsEnd } } := by
  rw [startLocations, nextLocation]
  dsimp only
  by_cases h : 0 < s.ps.countLocations
  · rw [if_pos h, if_pos h]; rfl
  · rw [if_neg h, if_neg h]; rfl

/-- One more temperature, or the bins (R274, R282). -/
theorem nextTemperature_eq (s : State) :
    nextTemperature s = { s with ps :=
      if s.ps.pI < s.ps.countTemperatures then { s.ps with phase := .field .tempCode 0 0 }
      else { s.ps with
        heldBinValid := false, pI := 0
        phase := if 0 < s.ps.countBins then .field .binMonthDelta 0 0 else .binsEnd } } := by
  rw [nextTemperature, startBins_eq]
  by_cases h : s.ps.pI < s.ps.countTemperatures
  · rw [if_pos h, if_pos h]; rfl
  · rw [if_neg h, if_neg h]

/-- With a bin held: one more bin, or the held one goes out (R285). -/
theorem nextBin_of_held {s : State} (h : s.ps.heldBinValid = true) :
    nextBin s = { s with ps :=
      if s.ps.pI < s.ps.countBins then { s.ps with phase := .field .binMonthDelta 0 0 }
      else { s.ps with
        binOut := some { monthDelta := s.ps.heldBinMd, tidxMin := s.ps.heldBinTi, tidxEnd := s.ps.countTemperatures }
        phase := .binsEnd } } := by
  rw [nextBin]
  by_cases hi : s.ps.pI < s.ps.countBins
  · rw [if_pos hi, if_pos hi]; rfl
  · rw [if_neg hi, if_neg hi, if_pos h]

/-- With a location held: one more location, or the held one goes out (R286). -/
theorem nextLocation_of_held {s : State} (h : s.ps.heldLocValid = true) :
    nextLocation s = { s with ps :=
      if s.ps.pI < s.ps.countLocations then { s.ps with phase := .field .locLat 0 0 }
      else { s.ps with
        locOut := some { lat := s.ps.heldLocLa, lon := s.ps.heldLocLo, bidxMin := s.ps.heldLocBi, bidxEnd := s.ps.countBins }
        phase := .locsEnd } } := by
  rw [nextLocation]
  by_cases hi : s.ps.pI < s.ps.countLocations
  · rw [if_pos hi, if_pos hi]; rfl
  · rw [if_neg hi, if_neg hi, if_pos h]

theorem parserPortsFree_iff (p : Parser) :
    parserPortsFree p = true ↔ p.tempOut = none ∧ p.binOut = none ∧ p.locOut = none := by
  simp [parserPortsFree, and_assoc]

/-- With `bin_out` free: what a read bin makes of it (R284, R285). -/
theorem offerBin_eq (md ti : Word) {s : State} (h : s.ps.binOut = none) :
    offerBin md ti s = { s with ps := { s.ps with
      binOut := if s.ps.heldBinValid = true then
          some { monthDelta := s.ps.heldBinMd, tidxMin := s.ps.heldBinTi, tidxEnd := ti } else none
      phase := .binHold md ti } } := by
  rw [offerBin]
  split
  · rfl
  · rw [← h]; rfl

/-- With `loc_out` free: what a read location makes of it (R284, R286). -/
theorem offerLocation_eq (la lo bi : Word) {s : State} (h : s.ps.locOut = none) :
    offerLocation la lo bi s = { s with ps := { s.ps with
      locOut := if s.ps.heldLocValid = true then
          some { lat := s.ps.heldLocLa, lon := s.ps.heldLocLo, bidxMin := s.ps.heldLocBi, bidxEnd := bi } else none
      phase := .locHold la lo bi } } := by
  rw [offerLocation]
  split
  · rfl
  · rw [← h]; rfl

/-- Widths that are legal let the parser go on to the records (R278, R281). -/
theorem checkWidths_of_legal {s : State} (ht : s.ps.bcTemperature.toNat ≤ 32) (hi : s.ps.bcTemperatureIndex.toNat ≤ 32)
    (hm : s.ps.bcMonthDelta.toNat ≤ 32) (hb : s.ps.bcBinIndex.toNat ≤ 32) :
    checkWidths s = nextTemperature { s with ps := { s.ps with hdrValid := true, pI := 0 } } := by
  rw [checkWidths, if_neg (by omega)]

/-- Settles O41: each control point's turn, by the loop test or the offer that stands there. -/
theorem recordsCarryTheirRanges : Obligations.RecordsCarryTheirRanges := by
  intro s bins locs hb hf hbins hlocs
  obtain ⟨_, hbinFree, hlocFree⟩ := (parserPortsFree_iff s.ps).1 hf
  subst hbins hlocs
  refine ⟨fun v hp ht hi hm hv => ?_, fun hp => ?_, fun md hp => ?_, fun md ti hp => ?_, fun md ti hp => ?_, fun hp => ?_,
    fun la hp => ?_, fun la lo hp => ?_, fun la lo bi hp => ?_, fun la lo bi hp => ?_⟩
  · have hdone : fieldDone .bcBinIndex v s = _ := checkWidths_of_legal
      (s := { s with ps := { s.ps with bcBinIndex := v.setWidth 8 } }) ht hi hm (by simpa using hv)
    rw [parserTurn_fieldDone hb hf hp le_rfl, hdone, nextTemperature_eq]
  · rw [parserTurn_tempNext hb hf hp, nextTemperature_eq]; rfl
  · exact parserTurn_fieldDone hb hf hp le_rfl
  · rw [parserTurn_fieldDone hb hf hp le_rfl, fieldDone, offerBin_eq md ti hbinFree]
  · rw [parserTurn_binHold hb hf hp, nextBin_of_held rfl]; rfl
  · rw [parserTurn_binsEnd hb hf hp, startLocations_eq]
  · exact parserTurn_fieldDone hb hf hp le_rfl
  · exact parserTurn_fieldDone hb hf hp le_rfl
  · rw [parserTurn_fieldDone hb hf hp le_rfl, fieldDone, offerLocation_eq la lo bi hlocFree]
  · rw [parserTurn_locHold hb hf hp, nextLocation_of_held rfl]; rfl

/-! ### The widths of an accepted header (R278, R281) -/

/-- The four declared widths are legal (R278). -/
def Parser.WidthsLegal (p : Parser) : Prop :=
  p.bcTemperature.toNat ≤ 32 ∧ p.bcTemperatureIndex.toNat ≤ 32 ∧ p.bcMonthDelta.toNat ≤ 32 ∧ p.bcBinIndex.toNat ≤ 32

/-- `HeaderValidMeansWidths` as a property of the parser engine alone. -/
def Parser.ValidMeansWidths (p : Parser) : Prop :=
  (inHeader p.phase = true → p.hdrValid = false) ∧ (p.hdrValid = true → p.WidthsLegal)

/-- While P_HDR_VALID is 0 there is nothing to show. -/
theorem Parser.ValidMeansWidths.of_invalid {p : Parser} (h : p.hdrValid = false) : p.ValidMeansWidths :=
  ⟨fun _ => h, fun hv => Bool.noConfusion (h.symm.trans hv)⟩

/-- A loop test of the record arrays, or an entry read, leaves P_HDR_VALID and the widths alone. -/
theorem RecordStep.validMeansWidths {s t : State} (h : RecordStep s t) (hs : s.ps.hdrValid = true → s.ps.WidthsLegal) :
    t.ps.ValidMeansWidths := by
  obtain ⟨_, _, _, hvalid, _, ht, hi, hm, hb, _, hphase⟩ := h
  rw [Parser.ValidMeansWidths, Parser.WidthsLegal, hphase, hvalid, ht, hi, hm, hb]
  exact ⟨nofun, hs⟩

/-- The check of the widths raises, or finds them legal before P_HDR_VALID becomes 1. -/
theorem checkWidths_validMeansWidths {s : State} (hs : s.ps.hdrValid = false) : (checkWidths s).ps.ValidMeansWidths := by
  rw [checkWidths]
  split
  · exact .of_invalid hs
  · next hw =>
    simp only [not_or, not_lt] at hw
    exact (nextTemperature_record _).validMeansWidths (fun _ => hw)

/-- A complete field of the header. -/
theorem fieldDone_header_validMeansWidths {f : PField} (hf : headerField f = true) (v : Word) {s : State}
    (hs : s.ps.hdrValid = false) : (fieldDone f v s).ps.ValidMeansWidths := by
  cases f <;> cases hf
  case magic k =>
    rw [fieldDone]
    split
    · split <;> exact .of_invalid hs
    · exact .of_invalid hs
  case version => rw [fieldDone]; split <;> exact .of_invalid hs
  case bcBinIndex => exact checkWidths_validMeansWidths hs
  all_goals exact .of_invalid hs

/-- A complete field of a record. -/
theorem fieldDone_record {f : PField} (hf : headerField f = false) (v : Word) (s : State) : RecordStep s (fieldDone f v s) := by
  cases f <;> cases hf
  case tempCode => rw [fieldDone, offerTemperature]; split <;> simp [RecordStep, inHeader]
  case binTempIndex md => rw [fieldDone, offerBin]; split <;> simp [RecordStep, inHeader]
  case locBinIndex la lo => rw [fieldDone, offerLocation]; split <;> simp [RecordStep, inHeader]
  all_goals simp [fieldDone, RecordStep, inHeader, headerField]

theorem fieldTurn_validMeansWidths {f : PField} {k : Nat} {v : Word} {s t : State} (hs : s.ps.ValidMeansWidths)
    (hp : s.ps.phase = .field f k v) (h : fieldTurn f k v s = some (.next t)) : t.ps.ValidMeansWidths := by
  obtain ⟨hheader, hwidths⟩ := hs
  rw [hp] at hheader
  rcases fieldTurn_next h with ⟨_, b, u, hu, rfl⟩ | ⟨_, rfl⟩ | ⟨_, rfl⟩
  · rw [(pReadBit_ok hu).2]; exact ⟨hheader, hwidths⟩
  · exact ⟨nofun, hwidths⟩
  · cases hf : headerField f with
    | true => exact fieldDone_header_validMeansWidths hf v (hheader hf)
    | false => exact (fieldDone_record hf v s).validMeansWidths hwidths

theorem parserTurn_validMeansWidths {s t : State} (hs : s.ps.ValidMeansWidths) (h : parserTurn s = some (.next t)) :
    t.ps.ValidMeansWidths := by
  obtain ⟨_, _, ⟨f, k, v, hp, hf⟩ | ⟨_, rfl⟩ | ⟨md, ti, _, rfl⟩ | ⟨_, rfl⟩ | ⟨la, lo, bi, _, rfl⟩ | ⟨_, rfl⟩⟩ :=
    parserTurn_next h
  · exact fieldTurn_validMeansWidths hs hp hf
  · exact (nextTemperature_record _).validMeansWidths hs.2
  · exact (nextBin_record _).validMeansWidths hs.2
  · exact (startLocations_record s).validMeansWidths hs.2
  · exact (nextLocation_record _).validMeansWidths hs.2
  · exact ⟨nofun, hs.2⟩

/-- Settles O57: it is a property of the parser engine, kept by its turns; START_PARSE and reset clear P_HDR_VALID. -/
theorem validHeaderHasLegalWidths : Obligations.ValidHeaderHasLegalWidths := by
  refine kept_of_parser (P := Parser.ValidMeansWidths) (fun s t hs h => parserTurn_validMeansWidths hs h)
    (fun s t hs h => ?_) (fun p hp _ => hp) (fun p hp => hp) (fun p hp => hp) (fun p hp => hp) (.of_invalid rfl)
  simp only [exec, execStartParse] at h
  split at h
  · cases h; exact hs
  · cases h; exact .of_invalid rfl

/-! ### The end of a parse (R287, R290) -/

/-- Settles O42: at the end `p_bitpos` is the length the layout gives the dataset. -/
theorem parseEndsAfterItsBits : Obligations.ParseEndsAfterItsBits := by
  intro s hlayout hb hf hp
  refine ⟨parserTurn_locsEnd hb hf hp, ?_⟩
  rw [BitPositionFollowsLayout, hp] at hlayout
  exact hlayout

end Sys2Proof.Machine
end

section
/-! The bit cursor over the bytes offered on `pin` (44_dataset_parser.md R270, R271), and the header read through it (30_encoding.md
R135; 44_dataset_parser.md R277, R281). -/

namespace Sys2Proof.Machine

/-! ### One bit (R271) -/

/-- `s` with the current byte's next bit used. -/
def bitUsed (s : State) : State :=
  { s with ps := { s.ps with avail := s.ps.avail - 1, bitpos := s.ps.bitpos + 1 } }

/-- `s` with the byte `c` taken from `pin` and none of its bits used. -/
def byteLoaded (c : Byte) (last : Bool) (rest : List (Byte × Bool)) (s : State) : State :=
  { s with
    ps := { s.ps with ended := last, byte := c, avail := 8 }
    host := { s.host with pin := rest } }

theorem pReadBit_of_avail {s : State} (h : s.ps.avail ≠ 0) :
    pReadBit s = .ok (s.ps.byte.getLsbD (s.ps.avail.toNat - 1)) (bitUsed s) := by
  rw [pReadBit, if_neg h]; rfl

theorem pReadBit_of_offered {s : State} {c : Byte} {last : Bool} {rest : List (Byte × Bool)} (ha : s.ps.avail = 0)
    (he : s.ps.ended = false) (hp : s.host.pin = (c, last) :: rest) :
    pReadBit s = .ok (c.getLsbD 7) (bitUsed (byteLoaded c last rest s)) := by
  simp only [pReadBit, pinRead, ha, he, hp]; rfl

/-- One bit less in the current byte. -/
theorem avail_sub_one {a : BitVec 4} (h : a ≠ 0) : (a - 1).toNat + 1 = a.toNat := by
  have hpos : a.toNat ≠ 0 := fun h0 => h (BitVec.eq_of_toNat_eq h0)
  rw [BitVec.toNat_sub, show (1 : BitVec 4).toNat = 1 from rfl]
  omega

/-- The current byte's next bit is the first one to come. -/
theorem pendingBits_of_avail {s : State} (h : s.ps.avail ≠ 0) :
    pendingBits s = s.ps.byte.getLsbD (s.ps.avail.toNat - 1) :: pendingBits (bitUsed s) := by
  rw [pendingBits, pendingBits, ← avail_sub_one h]; rfl

/-- Taking a byte changes nothing of the bits to come. -/
theorem pendingBits_byteLoaded {s : State} {c : Byte} {last : Bool} {rest : List (Byte × Bool)} (ha : s.ps.avail = 0)
    (he : s.ps.ended = false) (hp : s.host.pin = (c, last) :: rest) :
    pendingBits (byteLoaded c last rest s) = pendingBits s := by
  simp only [pendingBits, ha, he, hp]; rfl

/-- With a bit to come and the current byte used up, a byte is offered. -/
theorem offered_of_pendingBits {s : State} (ha : s.ps.avail = 0) (h : pendingBits s ≠ []) :
    s.ps.ended = false ∧ ∃ c last rest, s.host.pin = (c, last) :: rest := by
  rw [pendingBits, ha] at h
  cases he : s.ps.ended with
  | true => simp [he, byteBits] at h
  | false =>
    cases hp : s.host.pin with
    | nil => simp [he, hp, byteBits, offeredBits] at h
    | cons x rest => exact ⟨rfl, x.1, x.2, rest, rfl⟩

/-! ### Several bits -/

/-- `n` bits are taken: they are the next ones, a byte is taken only when its first bit is needed, and nothing but the cursor
and the parser's control point differs (R271). -/
structure BitsTaken (n : Nat) (s t : State) : Prop where
  pending : pendingBits t = (pendingBits s).drop n
  bitpos : t.ps.bitpos = s.ps.bitpos + BitVec.ofNat 64 n
  avail : t.ps.avail.toNat + n = s.ps.avail.toNat + 8 * ((n - s.ps.avail.toNat + 7) / 8)
  pin : t.host.pin = s.host.pin.drop ((n - s.ps.avail.toNat + 7) / 8)
  frame : t = { s with
    ps := { s.ps with
      phase := t.ps.phase, bitpos := t.ps.bitpos, byte := t.ps.byte, avail := t.ps.avail, ended := t.ps.ended }
    host := { s.host with pin := t.host.pin } }

theorem BitsTaken.zero (s : State) : BitsTaken 0 s s where
  pending := rfl
  bitpos := (BitVec.add_zero _).symm
  avail := by omega
  pin := by rw [show (0 - s.ps.avail.toNat + 7) / 8 = 0 by omega]; rfl
  frame := rfl

theorem BitsTaken.trans {m n : Nat} {s t u : State} (h : BitsTaken m s t) (k : BitsTaken n t u) : BitsTaken (m + n) s u := by
  have hbytes : (m - s.ps.avail.toNat + 7) / 8 + (n - t.ps.avail.toNat + 7) / 8 = (m + n - s.ps.avail.toNat + 7) / 8 := by
    have := h.avail
    omega
  refine ⟨?_, ?_, ?_, ?_, ?_⟩
  · rw [k.pending, h.pending, List.drop_drop]
  · rw [k.bitpos, h.bitpos, BitVec.add_assoc, BitVec.ofNat_add]
  · have := h.avail
    have := k.avail
    omega
  · rw [k.pin, h.pin, List.drop_drop, hbytes]
  · rw [k.frame, h.frame]

/-- A bit that the current byte still holds. -/
theorem BitsTaken.bitUsed {s : State} (h : s.ps.avail ≠ 0) (p : PPhase) : BitsTaken 1 s (toPPhase p (bitUsed s)) := by
  have hused := avail_sub_one h
  have hbytes : (1 - s.ps.avail.toNat + 7) / 8 = 0 := by omega
  exact ⟨by rw [pendingBits_of_avail h]; rfl, rfl, by rw [hbytes]; exact hused, by rw [hbytes]; rfl, rfl⟩

/-- The next bit to come is read (R270, R271). -/
theorem pReadBit_of_pending {s : State} {b : Bool} {l : List Bool} (h : pendingBits s = b :: l) :
    ∃ u, pReadBit s = .ok b u ∧ ∀ p, BitsTaken 1 s (toPPhase p u) := by
  by_cases ha : s.ps.avail = 0
  · obtain ⟨he, c, last, rest, hp⟩ := offered_of_pendingBits ha (by rw [h]; exact List.cons_ne_nil _ _)
    have hload : (byteLoaded c last rest s).ps.avail ≠ 0 := by show (8 : BitVec 4) ≠ 0; decide
    have hbits := pendingBits_of_avail hload
    rw [pendingBits_byteLoaded ha he hp, h, List.cons.injEq] at hbits
    obtain ⟨rfl, hrest⟩ := hbits
    refine ⟨_, pReadBit_of_offered ha he hp, fun p => ⟨?_, rfl, ?_, ?_, rfl⟩⟩
    · rw [h]; exact hrest.symm
    · rw [ha]; show (8 - 1 : BitVec 4).toNat + 1 = 0 + 8 * ((1 - 0 + 7) / 8); decide
    · rw [ha, hp]; rfl
  · have hbits := pendingBits_of_avail ha
    rw [h, List.cons.injEq] at hbits
    obtain ⟨rfl, _⟩ := hbits
    exact ⟨_, pReadBit_of_avail ha, BitsTaken.bitUsed ha⟩

/-! ### A field (R270, R271) -/

/-- One more bit of a field's value. -/
theorem pushBit_eq_ofNat (x : Nat) (b : Bool) :
    (BitVec.ofNat 32 x <<< 1) ||| BitVec.ofNat 32 b.toNat = BitVec.ofNat 32 (2 * x + b.toNat) := by
  have hfree : (BitVec.ofNat 32 x <<< 1) &&& BitVec.ofNat 32 b.toNat = 0#32 := by
    cases b
    · simp
    · ext i hi
      cases i <;> simp
  apply BitVec.eq_of_toNat_eq
  rw [← BitVec.add_eq_or_of_and_eq_zero _ _ hfree, BitVec.toNat_add, BitVec.toNat_shiftLeft, Nat.shiftLeft_eq]
  simp only [BitVec.toNat_ofNat]
  omega

/-- The turn that reads a field's next bit. -/
theorem parserTurn_bit {s : State} {f : PField} {k x : Nat} {b : Bool} {l : List Bool} (hb : s.ps.busy = true)
    (hf : parserPortsFree s.ps = true) (hp : s.ps.phase = .field f k (BitVec.ofNat 32 x)) (hk : k < fieldWidth s.ps f)
    (h : pendingBits s = b :: l) :
    ∃ t, parserTurn s = some (.next t) ∧ t.ps.phase = .field f (k + 1) (BitVec.ofNat 32 (2 * x + b.toNat)) ∧
      BitsTaken 1 s t := by
  obtain ⟨u, hu, htaken⟩ := pReadBit_of_pending h
  refine ⟨_, ?_, rfl, htaken _⟩
  rw [parserTurn_field hb hf hp, fieldTurn_bit hk, hu, Res.turn, pushBit_eq_ofNat]

theorem parserTurns_of_next {n : Nat} {s t : State} (h : parserTurn s = some (.next t)) :
    parserTurns (n + 1) s = parserTurns n t := by
  simp only [parserTurns, h]

section
variable {n : Nat} {s t : State}

theorem BitsTaken.busy (h : BitsTaken n s t) : t.ps.busy = s.ps.busy := by rw [h.frame]

theorem BitsTaken.portsFree (h : BitsTaken n s t) : parserPortsFree t.ps = parserPortsFree s.ps := by rw [h.frame]; rfl

theorem BitsTaken.fieldWidth (h : BitsTaken n s t) (f : PField) : fieldWidth t.ps f = fieldWidth s.ps f := by
  rw [h.frame]; cases f <;> rfl

end

/-- `n` more bits of a field, by induction on their number: each is pushed into the field's value. -/
theorem parserTurns_bits {f : PField} : ∀ (n : Nat) {k x : Nat} {s : State}, s.ps.busy = true → parserPortsFree s.ps = true →
    s.ps.phase = .field f k (BitVec.ofNat 32 x) → k + n ≤ fieldWidth s.ps f → n ≤ (pendingBits s).length →
      ∃ t, parserTurns n s = .next t ∧ BitsTaken n s t ∧
        t.ps.phase = .field f (k + n)
          (BitVec.ofNat 32 (((pendingBits s).take n).foldl (fun v b => 2 * v + b.toNat) x))
  | 0, _, _, s, _, _, hp, _, _ => ⟨s, rfl, .zero s, hp⟩
  | n + 1, k, x, s, hb, hf, hp, hk, hl => by
    obtain ⟨b, l, hbits⟩ := List.exists_cons_of_length_pos (Nat.lt_of_lt_of_le n.succ_pos hl)
    obtain ⟨t, hturn, hphase, htaken⟩ := parserTurn_bit hb hf hp (by omega) hbits
    have hrest : pendingBits t = l := by rw [htaken.pending, hbits]; rfl
    obtain ⟨u, hturns, htaken', hphase'⟩ := parserTurns_bits n (htaken.busy.trans hb) (htaken.portsFree.trans hf) hphase
      (by rw [htaken.fieldWidth]; omega) (by rw [hrest]; rw [hbits, List.length_cons] at hl; omega)
    refine ⟨u, (parserTurns_of_next hturn).trans hturns, Nat.add_comm n 1 ▸ htaken.trans htaken', ?_⟩
    rw [hphase', hrest, hbits, List.take_succ_cons, List.foldl_cons, Nat.add_assoc, Nat.add_comm 1 n]

/-- Settles O35: its bits one by one, from the field's first. -/
theorem fieldReadsItsBits : Obligations.FieldReadsItsBits := by
  intro s f w hb hf hp hw _ hl
  obtain ⟨t, hturns, htaken, hphase⟩ := parserTurns_bits w (x := 0) hb hf hp (by omega) hl
  rw [Nat.zero_add] at hphase
  exact ⟨t, hturns, hphase, htaken.pending, htaken.bitpos, htaken.pin, htaken.frame⟩

end Sys2Proof.Machine
end

section
/-! The header read field by field (30_encoding.md R135; 44_dataset_parser.md R275 to R278, R281): its bits cut into fields, and
where each completed field leaves the parser. -/

namespace Sys2Proof.Machine

/-! ### Fields of a bit string -/

theorem bitsValue_append (l r : List Bool) : bitsValue (l ++ r) = bitsValue l * 2 ^ r.length + bitsValue r := by
  rw [bitsValue, List.foldl_append, bitsValue_foldl]; rfl

theorem bitsField_lt (l : List Bool) (off w : Nat) : bitsField l off w < 2 ^ w :=
  (bitsValue_lt _).trans_le (Nat.pow_le_pow_right (by norm_num) (List.length_take_le _ _))

/-- A field of `a + b` bits is a field of `a` bits and one of `b` bits. -/
theorem bitsField_add {l : List Bool} {off a b : Nat} (h : off + a + b ≤ l.length) :
    bitsField l off (a + b) = bitsField l off a * 2 ^ b + bitsField l (off + a) b := by
  rw [bitsField, List.take_add, bitsValue_append, List.drop_drop, List.length_take_of_le]
  · rfl
  · rw [List.length_drop]; omega

theorem toNat_ofNat_bitsField {w : Nat} (hw : w ≤ 32) (l : List Bool) (off : Nat) :
    (BitVec.ofNat 32 (bitsField l off w)).toNat = bitsField l off w := by
  rw [BitVec.toNat_ofNat, Nat.mod_eq_of_lt]
  exact (bitsField_lt l off w).trans_le (Nat.pow_le_pow_right (by norm_num) hw)

/-- A register of `w` bits holds a field of `w` bits. -/
theorem toNat_setWidth_bitsField {w : Nat} (hw : w ≤ 32) (l : List Bool) (off : Nat) :
    ((BitVec.ofNat 32 (bitsField l off w)).setWidth w).toNat = bitsField l off w := by
  rw [BitVec.toNat_setWidth, toNat_ofNat_bitsField hw, Nat.mod_eq_of_lt (bitsField_lt l off w)]

/-! ### Several turns -/

theorem parserTurns_of_none {s : State} (h : parserTurn s = none) : ∀ n, parserTurns n s = .next s
  | 0 => rfl
  | n + 1 => by simp only [parserTurns, h]

theorem parserTurns_add {m : Nat} : ∀ {s t : State}, parserTurns m s = .next t → ∀ n,
    parserTurns (m + n) s = parserTurns n t := by
  induction m with
  | zero => intro s t h n; cases h; rw [Nat.zero_add]
  | succ m ih =>
    intro s t h n
    cases ht : parserTurn s with
    | none =>
      rw [parserTurns_of_none ht] at h
      cases h
      rw [parserTurns_of_none ht, parserTurns_of_none ht]
    | some o =>
      simp only [parserTurns, ht] at h
      rw [Nat.succ_add]
      simp only [parserTurns, ht]
      cases o with
      | next u => exact ih h n
      | fault f => cases h
      | refused r => cases h

/-! ### Where the parser stands in the header -/

/-- `p` with the bit cursor and the control point of `q`. -/
def Parser.withCursor (p q : Parser) : Parser :=
  { p with bitpos := q.bitpos, byte := q.byte, avail := q.avail, ended := q.ended, phase := q.phase }

/-- `p` with a header field's register written (R277). -/
def Parser.setHeader (f : PField) (v : Word) (p : Parser) : Parser :=
  match f with
  | .countTemperatures => { p with countTemperatures := v }
  | .countLocations => { p with countLocations := v }
  | .countBins => { p with countBins := v }
  | .minYear => { p with minYear := v.setWidth 16 }
  | .minMonth => { p with minMonth := v.setWidth 8 }
  | .maxYear => { p with maxYear := v.setWidth 16 }
  | .maxMonth => { p with maxMonth := v.setWidth 8 }
  | .tempMin => { p with tempMin := v }
  | .tempMax => { p with tempMax := v }
  | .bcTemperature => { p with bcTemperature := v.setWidth 8 }
  | .bcTemperatureIndex => { p with bcTemperatureIndex := v.setWidth 8 }
  | .bcMonthDelta => { p with bcMonthDelta := v.setWidth 8 }
  | .bcBinIndex => { p with bcBinIndex := v.setWidth 8 }
  | _ => p

theorem Parser.setHeader_withCursor (f : PField) (v : Word) (p q : Parser) :
    (p.withCursor q).setHeader f v = (p.setHeader f v).withCursor q := by
  cases f <;> rfl

theorem Parser.setHeader_busy (f : PField) (v : Word) (p : Parser) : (p.setHeader f v).busy = p.busy := by
  cases f <;> rfl

theorem Parser.setHeader_portsFree (f : PField) (v : Word) (p : Parser) :
    parserPortsFree (p.setHeader f v) = parserPortsFree p := by
  cases f <;> rfl

/-- Of the bits `l` to come in `s`, `off` are read, and but for the cursor the parser engine is `p`. -/
structure BitsRead (l : List Bool) (s : State) (off : Nat) (p : Parser) (t : State) : Prop where
  pending : pendingBits t = l.drop off
  bitpos : t.ps.bitpos = s.ps.bitpos + BitVec.ofNat 64 off
  frame : t = { s with ps := p.withCursor t.ps, host := { s.host with pin := t.host.pin } }

/-- In `n` turns the parser, `p` but for its cursor, comes to stand before the field `f`, which begins at bit `off` of `l`. -/
def FieldReached (l : List Bool) (s : State) (n off : Nat) (f : PField) (p : Parser) : Prop :=
  p.busy = true ∧ parserPortsFree p = true ∧
    ∃ t, parserTurns n s = .next t ∧ t.ps.phase = .field f 0 0 ∧ BitsRead l s off p t

section
variable {l : List Bool} {s : State} {n off : Nat} {f : PField} {p : Parser}

theorem BitsRead.ps {t : State} (h : BitsRead l s off p t) : t.ps = p.withCursor t.ps := by
  conv_lhs => rw [h.frame]

/-- The `w` bits of a field, and the turn that completes it. -/
theorem FieldReached.completed (h : FieldReached l s n off f p) {w : Nat} (hw : fieldWidth p f = w) (hl : off + w ≤ l.length) :
    ∃ u, parserTurns (n + w + 1) s = .next (fieldDone f (BitVec.ofNat 32 (bitsField l off w)) u) ∧
      BitsRead l s (off + w) p u := by
  obtain ⟨hb, hf, t, hturns, hphase, hread⟩ := h
  have hbt : t.ps.busy = true := by rw [hread.ps]; exact hb
  have hft : parserPortsFree t.ps = true := by rw [hread.ps]; exact hf
  have hwt : fieldWidth t.ps f = w := by rw [hread.ps, ← hw]; cases f <;> rfl
  obtain ⟨u, hbits, htaken, hphase'⟩ := parserTurns_bits w (x := 0) hbt hft hphase (by omega)
    (by rw [hread.pending, List.length_drop]; omega)
  rw [Nat.zero_add, hread.pending] at hphase'
  have hdone := parserTurn_fieldDone (htaken.busy.trans hbt) (htaken.portsFree.trans hft) hphase'
    (by rw [htaken.fieldWidth, hwt])
  refine ⟨u, ?_, ?_, ?_, ?_⟩
  · rw [parserTurns_add (m := n + w) ((parserTurns_add hturns w).trans hbits)]
    exact parserTurns_of_next (n := 0) hdone
  · rw [htaken.pending, hread.pending, List.drop_drop]
  · rw [htaken.bitpos, hread.bitpos, BitVec.add_assoc, BitVec.ofNat_add]
  · rw [htaken.frame, hread.frame]; rfl

/-- A header field whose completion writes its register and goes on to the field `g`. -/
theorem FieldReached.next (h : FieldReached l s n off f p) (w : Nat) {g : PField} (hw : fieldWidth p f = w)
    (hl : off + w ≤ l.length)
    (hdone : ∀ u : State, fieldDone f (BitVec.ofNat 32 (bitsField l off w)) u =
      readField g { u with ps := u.ps.setHeader f (BitVec.ofNat 32 (bitsField l off w)) }) :
    FieldReached l s (n + w + 1) (off + w) g (p.setHeader f (BitVec.ofNat 32 (bitsField l off w))) := by
  have ⟨hbusy, hfree, _⟩ := h
  obtain ⟨u, hturns, hread⟩ := h.completed hw hl
  have hregs : u.ps.setHeader f (BitVec.ofNat 32 (bitsField l off w)) =
      (p.setHeader f (BitVec.ofNat 32 (bitsField l off w))).withCursor u.ps := by
    conv_lhs => rw [hread.ps, Parser.setHeader_withCursor]
  rw [hdone, hregs] at hturns
  refine ⟨(p.setHeader_busy f _).trans hbusy, (p.setHeader_portsFree f _).trans hfree, _, hturns, rfl, hread.pending,
    hread.bitpos, ?_⟩
  conv_lhs => rw [hread.frame]
  rfl

/-- A byte of the magic that is right. -/
theorem FieldReached.magic {k : Nat} (h : FieldReached l s n off (.magic k) p) (hk : k ≤ 2) (hl : off + 8 ≤ l.length)
    (hv : bitsField l off 8 = if k = 2 then 0x45 else 0x43) :
    FieldReached l s (n + 8 + 1) (off + 8) (if k = 2 then .version else .magic (k + 1)) p := by
  refine h.next 8 rfl hl (fun u => ?_)
  rw [fieldDone_magic hk, hv, if_pos (by split <;> rfl)]; rfl

/-- A version that is right. -/
theorem FieldReached.version (h : FieldReached l s n off .version p) (hl : off + 8 ≤ l.length) (hv : bitsField l off 8 = 3) :
    FieldReached l s (n + 8 + 1) (off + 8) .countTemperatures p := by
  refine h.next 8 rfl hl (fun u => ?_)
  rw [fieldDone, hv]; rfl

end

/-- What follows an accepted header begins without touching its registers or the cursor (R282, R285). -/
theorem nextTemperature_keeps (s : State) : ∃ held i phase, nextTemperature s =
    { s with ps := { s.ps with heldBinValid := held, pI := i, phase := phase } } := by
  rw [nextTemperature_eq]
  split
  · exact ⟨_, _, _, rfl⟩
  · exact ⟨_, _, _, rfl⟩

/-- The registers of a header whose fields are the bits of `l` (R135, R277). -/
def Parser.headerOf (l : List Bool) (p : Parser) : Parser :=
  { p with
    countTemperatures := BitVec.ofNat 32 (bitsField l 32 32)
    countLocations := BitVec.ofNat 32 (bitsField l 64 32)
    countBins := BitVec.ofNat 32 (bitsField l 96 32)
    minYear := (BitVec.ofNat 32 (bitsField l 128 16)).setWidth 16
    minMonth := (BitVec.ofNat 32 (bitsField l 144 8)).setWidth 8
    maxYear := (BitVec.ofNat 32 (bitsField l 152 16)).setWidth 16
    maxMonth := (BitVec.ofNat 32 (bitsField l 168 8)).setWidth 8
    tempMin := BitVec.ofNat 32 (bitsField l 176 32)
    tempMax := BitVec.ofNat 32 (bitsField l 208 32)
    bcTemperature := (BitVec.ofNat 32 (bitsField l 240 8)).setWidth 8
    bcTemperatureIndex := (BitVec.ofNat 32 (bitsField l 248 8)).setWidth 8
    bcMonthDelta := (BitVec.ofNat 32 (bitsField l 256 8)).setWidth 8
    bcBinIndex := (BitVec.ofNat 32 (bitsField l 264 8)).setWidth 8 }

/-- The 24 bits of the magic are its three bytes (R275). -/
theorem magic_bytes {l : List Bool} (hl : 24 ≤ l.length) (h : bitsField l 0 24 = 0x434345) :
    bitsField l 0 8 = 0x43 ∧ bitsField l 8 8 = 0x43 ∧ bitsField l 16 8 = 0x45 := by
  have h1 := bitsField_add (l := l) (off := 0) (a := 8) (b := 16) (by omega)
  have h2 := bitsField_add (l := l) (off := 8) (a := 8) (b := 8) (by omega)
  have := bitsField_lt l 0 8
  have := bitsField_lt l 8 8
  have := bitsField_lt l 16 8
  norm_num at h1 h2
  omega

/-- The header's fields in their order, up to the last one (R135, R277). -/
theorem lastHeaderField_reached {s : State} {l : List Bool} (hb : s.ps.busy = true) (hf : parserPortsFree s.ps = true)
    (hp : s.ps.phase = .field (.magic 0) 0 0) (hbits : l = pendingBits s) (hl : 272 ≤ l.length)
    (hmagic : bitsField l 0 24 = 0x434345) (hversion : bitsField l 24 8 = 3) :
    ∃ p, FieldReached l s 280 264 .bcBinIndex p ∧
      p.setHeader .bcBinIndex (BitVec.ofNat 32 (bitsField l 264 8)) = s.ps.headerOf l := by
  obtain ⟨hm0, hm1, hm2⟩ := magic_bytes (by omega) hmagic
  have magic0 : FieldReached l s 0 0 (.magic 0) s.ps :=
    ⟨hb, hf, s, rfl, hp, ⟨hbits ▸ rfl, (BitVec.add_zero _).symm, rfl⟩⟩
  have magic1 : FieldReached l s 9 8 (.magic 1) s.ps := magic0.magic (by omega) (by omega) hm0
  have magic2 : FieldReached l s 18 16 (.magic 2) s.ps := magic1.magic (by omega) (by omega) hm1
  have version : FieldReached l s 27 24 .version s.ps := magic2.magic (by omega) (by omega) hm2
  have counts : FieldReached l s 36 32 .countTemperatures s.ps := version.version (by omega) hversion
  have dates := ((counts.next 32 rfl (by omega) (fun _ => rfl)).next 32 rfl (by omega) (fun _ => rfl)).next 32 rfl (by omega)
    (fun _ => rfl)
  have temps := (((dates.next 16 rfl (by omega) (fun _ => rfl)).next 8 rfl (by omega) (fun _ => rfl)).next 16 rfl (by omega)
    (fun _ => rfl)).next 8 rfl (by omega) (fun _ => rfl)
  have widths := (temps.next 32 rfl (by omega) (fun _ => rfl)).next 32 rfl (by omega) (fun _ => rfl)
  exact ⟨_, ((widths.next 8 rfl (by omega) (fun _ => rfl)).next 8 rfl (by omega) (fun _ => rfl)).next 8 rfl (by omega)
    (fun _ => rfl), by simp only [Parser.setHeader, Parser.headerOf, Nat.reduceAdd]⟩

/-- Settles O37: the fields one after another, then the check of the widths. -/
theorem headerRegistersHoldTheirFields : Obligations.HeaderRegistersHoldTheirFields := by
  intro s l hb hf hp hbits hl hmagic hversion ht hi hm hbin
  obtain ⟨p, hlast, hregs⟩ := lastHeaderField_reached hb hf hp hbits hl hmagic hversion
  obtain ⟨u, hturns, hread⟩ := hlast.completed (w := 8) rfl (by omega)
  have hheader : u.ps.setHeader .bcBinIndex (BitVec.ofNat 32 (bitsField l 264 8)) = (s.ps.headerOf l).withCursor u.ps := by
    conv_lhs => rw [hread.ps, Parser.setHeader_withCursor, hregs]
  have hdone : fieldDone .bcBinIndex (BitVec.ofNat 32 (bitsField l 264 8)) u =
      checkWidths { u with ps := (s.ps.headerOf l).withCursor u.ps } := by rw [← hheader]; rfl
  have hwidth {off : Nat} : ((BitVec.ofNat 32 (bitsField l off 8)).setWidth 8).toNat = bitsField l off 8 :=
    toNat_setWidth_bitsField (by norm_num) l off
  have hword {off : Nat} : (BitVec.ofNat 32 (bitsField l off 32)).toNat = bitsField l off 32 :=
    toNat_ofNat_bitsField le_rfl l off
  have hyear {off : Nat} : ((BitVec.ofNat 32 (bitsField l off 16)).setWidth 16).toNat = bitsField l off 16 :=
    toNat_setWidth_bitsField (by norm_num) l off
  rw [hdone, checkWidths_of_legal (hwidth.trans_le ht) (hwidth.trans_le hi) (hwidth.trans_le hm) (hwidth.trans_le hbin)]
    at hturns
  obtain ⟨held, i, phase, hnext⟩ := nextTemperature_keeps
    { u with ps := { (s.ps.headerOf l).withCursor u.ps with hdrValid := true, pI := 0 } }
  refine ⟨_, hturns.trans (congrArg _ hnext), rfl, hword, hword, hword, hyear, hwidth, hyear, hwidth, hword, hword, hwidth,
    hwidth, hwidth, hwidth, hread.bitpos, hread.pending, ?_, ?_⟩
  · show u.lz = s.lz
    rw [hread.frame]
  · show u.ctrl = s.ctrl
    rw [hread.frame]

end Sys2Proof.Machine
end

section
/-! The dequantizer's arithmetic against IEEE 754 (44_dataset_parser.md R283, R289, R291): the scenario, width 0, and each operation
nearest to its exact result. -/

namespace Sys2Proof.Machine

/-- R282's example. -/
theorem dequant_scenario : dequant 8 0 0xC1200000 0x41F00000 = some 0xC1200000 ∧
    dequant 8 128 0xC1200000 0x41F00000 = some 0x41214141 ∧ dequant 8 255 0xC1200000 0x41F00000 = some 0x41F00000 := by
  decide

/-- With no bit the quotient is 0 / 0 (R291). -/
theorem dequant_width_zero (tmin tmax : Word) : dequant 0 0 tmin tmax = none := rfl

theorem natCast_two_pow (k : Nat) : ((2 ^ k : Nat) : ℚ) = 2 ^ k := by push_cast; rfl

/-- A unit of binary32 is `2^925` units of binary64. -/
theorem two_pow_1074 : (2 : ℚ) ^ 1074 = 2 ^ 149 * 2 ^ 925 := by rw [← pow_add]

/-- Widening is exact (R289). -/
theorem f64FromF32_exact {x : Word} (hx : isFinitePattern x) : ∃ m e, f64FromF32 x = .fin (x.getLsbD 31) m e ∧ -1074 ≤ e ∧
    m * 2 ^ (e + 1074).toNat = f32Units x * 2 ^ 925 := by
  obtain ⟨m, e, h, _, he, hv⟩ := f64FromF32_finite hx
  refine ⟨m, e, h, by omega, ?_⟩
  have hunit : (2 : ℚ) ^ (-149 : ℤ) * 2 ^ 149 = 1 := by norm_num
  rw [← Nat.cast_inj (R := ℚ), mag_shift m e (by omega), hv, two_pow_1074, mul_assoc, ← mul_assoc (2 ^ (-149 : ℤ)), hunit,
    one_mul, Nat.cast_mul, natCast_two_pow]

/-- Narrowing a finite datum gives the nearest value of binary32 (R289). -/
theorem f32FromF64_nearest (n : Bool) (m : Nat) {e : Int} (he : -1074 ≤ e) : ∃ x, f32FromF64 (.fin n m e) = some x ∧
    x.getLsbD 31 = n ∧ NearestF32 (m * 2 ^ (e + 1074).toNat) (2 ^ 925) x := by
  obtain ⟨x, hx, hs, hn⟩ := f32FromF64_fin n m e
  refine ⟨x, hx, hs, ?_⟩
  rw [nearestF32_iff _ (2 ^ 925) _ (by positivity), mag_shift m e he, natCast_two_pow, two_pow_1074, ← mul_assoc,
    mul_div_cancel_right₀ _ (by positivity)]
  exact hn

section
variable {n1 n2 n : Bool} {m1 m2 m : Nat} {e1 e2 e : Int}

theorem f64Mul_nearest (h1 : -1074 ≤ e1) (h2 : -1074 ≤ e2) (h : f64Mul (.fin n1 m1 e1) (.fin n2 m2 e2) = .fin n m e) :
    n = (n1 != n2) ∧ NearestF64 (m1 * 2 ^ (e1 + 1074).toNat * (m2 * 2 ^ (e2 + 1074).toNat)) (2 ^ 2148) m e := by
  obtain ⟨hs, hn⟩ := f64Mul_fin h
  refine ⟨hs, (nearestF64_iff _ _ _ _ (by positivity)).2 ?_⟩
  have hscale : (2 : ℚ) ^ 2148 = 2 ^ 1074 * 2 ^ 1074 := by rw [← pow_add]
  rw [Nat.cast_mul, mag_shift m1 e1 h1, mag_shift m2 e2 h2, natCast_two_pow, hscale, mul_mul_mul_comm,
    mul_div_cancel_right₀ _ (by positivity)]
  exact hn

theorem f64Div_nearest (h1 : -1074 ≤ e1) (h2 : -1074 ≤ e2) (h0 : m2 ≠ 0)
    (h : f64Div (.fin n1 m1 e1) (.fin n2 m2 e2) = .fin n m e) :
    n = (n1 != n2) ∧ NearestF64 (m1 * 2 ^ (e1 + 1074).toNat) (m2 * 2 ^ (e2 + 1074).toNat) m e := by
  obtain ⟨hs, hn⟩ := f64Div_fin h0 h
  refine ⟨hs, (nearestF64_iff _ _ _ _ (by positivity)).2 ?_⟩
  rw [mag_shift m1 e1 h1, mag_shift m2 e2 h2, mul_div_mul_right _ _ (by positivity)]
  exact hn

/-- The exact sum of two finite data, in units of `2^(-1074)`. -/
theorem signed_sum_cast (h1 : -1074 ≤ e1) (h2 : -1074 ≤ e2) :
    ((signed n1 (m1 * 2 ^ (e1 + 1074).toNat) + signed n2 (m2 * 2 ^ (e2 + 1074).toNat) : ℤ) : ℚ) =
      (val n1 m1 e1 + val n2 m2 e2) * 2 ^ 1074 := by
  rw [Int.cast_add, signed_val n1 m1 e1 h1, signed_val n2 m2 e2 h2, add_mul]

theorem f64Add_nearest (h1 : -1074 ≤ e1) (h2 : -1074 ≤ e2) (h : f64Add (.fin n1 m1 e1) (.fin n2 m2 e2) = .fin n m e) :
    n = (if signed n1 (m1 * 2 ^ (e1 + 1074).toNat) + signed n2 (m2 * 2 ^ (e2 + 1074).toNat) = 0 then n1 && n2
      else decide (signed n1 (m1 * 2 ^ (e1 + 1074).toNat) + signed n2 (m2 * 2 ^ (e2 + 1074).toNat) < 0)) ∧
    NearestF64 (signed n1 (m1 * 2 ^ (e1 + 1074).toNat) + signed n2 (m2 * 2 ^ (e2 + 1074).toNat)).natAbs (2 ^ 1074) m e := by
  obtain ⟨hs, hn⟩ := f64Add_fin h
  have hsum := signed_sum_cast (n1 := n1) (n2 := n2) (m1 := m1) (m2 := m2) h1 h2
  generalize signed n1 (m1 * 2 ^ (e1 + 1074).toNat) + signed n2 (m2 * 2 ^ (e2 + 1074).toNat) = S at *
  have hpos : (0 : ℚ) < 2 ^ 1074 := by positivity
  constructor
  · have hzero : S = 0 ↔ val n1 m1 e1 + val n2 m2 e2 = 0 := by
      rw [← Int.cast_eq_zero (α := ℚ), hsum, mul_eq_zero, or_iff_left hpos.ne']
    have hneg : S < 0 ↔ val n1 m1 e1 + val n2 m2 e2 < 0 := by
      rw [← Int.cast_lt_zero (R := ℚ), hsum, ← mul_lt_mul_iff_left₀ (b := val n1 m1 e1 + val n2 m2 e2) hpos, zero_mul]
    rw [hs, sumSign]
    simp only [hzero, hneg]
  · refine (nearestF64_iff _ _ _ _ (by positivity)).2 ?_
    rw [Nat.cast_natAbs, Int.cast_abs, hsum, abs_mul, abs_of_pos hpos, natCast_two_pow,
      mul_div_cancel_right₀ _ hpos.ne']
    exact hn

end

/-- Settles O39: the operations' exact values over the rationals, scaled to the units of the statement. -/
theorem dequantizerScenarioAndWidthZero : Obligations.DequantizerScenarioAndWidthZero := by
  obtain ⟨h0, h128, h255⟩ := dequant_scenario
  refine ⟨h0, h128, h255, dequant_width_zero, fun _ => f64FromF32_exact, fun n m _ he => f32FromF64_nearest n m he,
    fun n1 n2 n m1 m2 m a b e1 e2 e h1 h2 ha hb => ?_⟩
  subst ha hb
  exact ⟨f64Mul_nearest h1 h2, f64Div_nearest h1 h2, f64Add_nearest h1 h2, rfl⟩

end Sys2Proof.Machine
end

section
/-! The dequantizer's corner cases (44_dataset_parser.md R283, R289): each of its four operations is exact there, or meets an
infinity or a NaN. -/

namespace Sys2Proof.Machine

/-! ### Values of binary32 -/

/-- The value of a finite binary32 pattern. -/
def f32Value (x : Word) : ℚ := f32Signed x * 2 ^ (-149 : ℤ)

theorem f32Value_eq (x : Word) : f32Value x = (if x.getLsbD 31 then -1 else 1) * (f32Units x * 2 ^ (-149 : ℤ)) := by
  rw [f32Value, f32Signed_cast, mul_assoc]

theorem f32Value_eq_zero {x : Word} (h : f32Units x = 0) : f32Value x = 0 := by
  rw [f32Value_eq, h, Nat.cast_zero, zero_mul, mul_zero]

theorem f32Value_nonpos {x : Word} (h : x.getLsbD 31 = true) : f32Value x ≤ 0 := by
  rw [f32Value_eq, if_pos h, neg_one_mul, neg_nonpos]
  positivity

/-- A value is negative where its pattern is above that of -0. -/
theorem f32Value_neg_iff {x : Word} : f32Value x < 0 ↔ ¬ x ≤ 0x80000000 := by
  have hsign : x.getLsbD 31 = decide (2 ^ 31 ≤ x.toNat) := by
    rw [← BitVec.testBit_toNat, Nat.testBit_eq_decide_div_mod_eq, decide_eq_decide]
    have := x.isLt
    omega
  rw [BitVec.le_def, show (0x80000000 : Word).toNat = 2 ^ 31 from rfl, not_le]
  by_cases hu : f32Units x = 0
  · rw [f32Value_eq_zero hu]
    rcases f32Units_eq_zero.1 hu with rfl | rfl <;> decide
  · have hpos : (0 : ℚ) < f32Units x * 2 ^ (-149 : ℤ) := by
      have : (0 : ℚ) < f32Units x := by exact_mod_cast Nat.pos_of_ne_zero hu
      positivity
    have hne : x.toNat ≠ 2 ^ 31 := fun h => hu (f32Units_eq_zero.2 (.inr (BitVec.eq_of_toNat_eq h)))
    rw [f32Value_eq, hsign]
    by_cases h : 2 ^ 31 ≤ x.toNat
    · simp only [h, decide_true, if_true]
      exact ⟨fun _ => by omega, fun _ => by linarith⟩
    · simp only [h, decide_false, Bool.false_eq_true, if_false]
      exact ⟨fun _ => by linarith, fun _ => by omega⟩

theorem abs_f32Value_le {x : Word} (h : isFinitePattern x) : |f32Value x| ≤ 2 ^ 128 := by
  have habs : |f32Value x| = f32Units x * 2 ^ (-149 : ℤ) := by
    rw [f32Value_eq, abs_mul, abs_of_nonneg (show (0 : ℚ) ≤ f32Units x * 2 ^ (-149 : ℤ) by positivity)]
    cases x.getLsbD 31 <;> simp
  have hunits : (f32Units x : ℚ) ≤ ((2 ^ 24 * 2 ^ 253 : Nat) : ℚ) := Nat.cast_le.2 (f32Units_lt h).le
  calc |f32Value x| = f32Units x * 2 ^ (-149 : ℤ) := habs
    _ ≤ ((2 ^ 24 * 2 ^ 253 : Nat) : ℚ) * 2 ^ (-149 : ℤ) := mul_le_mul_of_nonneg_right hunits (by positivity)
    _ = 2 ^ 128 := by push_cast; norm_num

/-! ### Rounded magnitudes -/

/-- The magnitude `q` is `x` rounded to binary64. -/
def RoundsTo (x q : ℚ) : Prop := ∃ m e, NearQ x m e ∧ mag m e = q

theorem RoundsTo.eq_mag {x q : ℚ} (h : RoundsTo x q) {k : Nat} {f : Int} (hk : k < 2 ^ 53) (hf : -1074 ≤ f)
    (hx : x = mag k f) : q = x := by
  obtain ⟨m, e, hn, rfl⟩ := h
  exact hn.exact hk hf hx

theorem RoundsTo.eq_zero {q : ℚ} (h : RoundsTo 0 q) : q = 0 :=
  h.eq_mag (k := 0) (f := 0) (by norm_num) (by norm_num) (mag_eq_zero.2 rfl).symm

/-- 0 is a datum, so a magnitude is rounded to at most its double. -/
theorem NearQ.le_two_mul {x : ℚ} {m : Nat} {e : Int} (h : NearQ x m e) (hx : 0 ≤ x) : mag m e ≤ 2 * x := by
  obtain ⟨_, _, hnearest⟩ := h
  have hzero := (hnearest 0 0 (by norm_num) (by norm_num)).1
  rw [mag_eq_zero.2 rfl, zero_sub, abs_neg, abs_of_nonneg hx] at hzero
  have := (abs_sub_le_iff.1 hzero).1
  linarith

/-- A magnitude with the sign of a sum whose absolute value it is. -/
theorem sumSign_mul_abs (a b : Bool) (x : ℚ) : (if sumSign a b x then -1 else 1) * |x| = x := by
  rcases lt_trichotomy x 0 with h | rfl | h
  · rw [sumSign_ne a b h.ne, decide_eq_true h, if_pos rfl, abs_of_neg h]; ring
  · rw [abs_zero, mul_zero]
  · rw [sumSign_ne a b h.ne', decide_eq_false h.not_gt, if_neg Bool.false_ne_true, abs_of_pos h, one_mul]

theorem sumSign_of_nonneg (a : Bool) {x : ℚ} (h : 0 ≤ x) : sumSign a false x = false := by
  rcases h.eq_or_lt with rfl | h
  · rw [sumSign_zero, Bool.and_false]
  · rw [sumSign_ne a false h.ne', decide_eq_false h.not_gt]

/-! ### Finite bounds -/

/-- `temp_max - temp_min`. -/
def boundsSpan (tmin tmax : Word) : ℚ := f32Value tmax - f32Value tmin

/-- The sign of the rounded difference, a zero's included (R289). -/
def spanSign (tmin tmax : Word) : Bool := sumSign (tmax.getLsbD 31) (!tmin.getLsbD 31) (boundsSpan tmin tmax)

theorem val_not (n : Bool) (m : Nat) (e : Int) : val (!n) m e = -val n m e := by
  cases n <;> simp [val]

/-- The rounded difference of finite bounds. -/
theorem f64Sub_bounds {tmin tmax : Word} (hmin : isFinitePattern tmin) (hmax : isFinitePattern tmax) :
    ∃ m e, f64Sub (f64FromF32 tmax) (f64FromF32 tmin) = .fin (spanSign tmin tmax) m e ∧
      NearQ |boundsSpan tmin tmax| m e ∧ mag m e ≤ 2 ^ 131 := by
  obtain ⟨m1, e1, h1, _, hv1⟩ := f64FromF32_val hmax
  obtain ⟨m2, e2, h2, _, hv2⟩ := f64FromF32_val hmin
  have hspan : val (tmax.getLsbD 31) m1 e1 + val (!tmin.getLsbD 31) m2 e2 = boundsSpan tmin tmax := by
    rw [val_not, hv1, hv2, boundsSpan, f32Value, f32Value, sub_eq_add_neg]
  have hle : |boundsSpan tmin tmax| ≤ 2 ^ 129 := by
    have := abs_sub (f32Value tmax) (f32Value tmin)
    have := abs_f32Value_le hmin
    have := abs_f32Value_le hmax
    unfold boundsSpan
    linarith
  obtain ⟨m, e, h⟩ := f64Add_finite (tmax.getLsbD 31) (!tmin.getLsbD 31) m1 m2 e1 e2
    (by rw [hspan]; exact hle.trans (by norm_num))
  have hn := (f64Add_fin h).2
  rw [hspan] at h hn
  refine ⟨m, e, by rw [h1, h2]; exact h, hn, ?_⟩
  have := hn.le_two_mul (abs_nonneg _)
  linarith

/-- `Dequant` of finite bounds: the quotient, the difference and their product, each rounded, and a last sum which, where it is a
value of binary32, comes out (R283). -/
theorem dequant_of_finite {w c : Nat} {tmin tmax : Word} (hw : 1 ≤ w) (hw2 : w ≤ 32) (hc : c < 2 ^ w)
    (hmin : isFinitePattern tmin) (hmax : isFinitePattern tmax) :
    ∃ q d r, RoundsTo ((c : ℚ) / (2 ^ w - 1 : Nat)) q ∧ RoundsTo |boundsSpan tmin tmax| d ∧ RoundsTo (q * d) r ∧
      ∀ y, isFinitePattern y → (if spanSign tmin tmax then -1 else 1) * r + f32Value tmin = f32Value y →
        dequant w c tmin tmax =
          some (if f32Units y = 0 then (if spanSign tmin tmax && tmin.getLsbD 31 then 0x80000000 else 0) else y) := by
  obtain ⟨mq, eq, hq, hnq, _, hq2⟩ := codeRatio_spec hw hw2 hc
  obtain ⟨md, ed, hd, hnd, hd2⟩ := f64Sub_bounds hmin hmax
  obtain ⟨m, e, h, _, hv⟩ := f64FromF32_val hmin
  obtain ⟨mr, er, hr⟩ := f64Mul_finite false (spanSign tmin tmax) mq md eq ed (by
    calc mag mq eq * mag md ed ≤ 2 * 2 ^ 131 := mul_le_mul hq2 hd2 (mag_nonneg _ _) (by norm_num)
      _ ≤ 2 ^ 200 := by norm_num)
  refine ⟨_, _, mag mr er, ⟨mq, eq, hnq, rfl⟩, ⟨md, ed, hnd, rfl⟩, ⟨mr, er, (f64Mul_fin hr).2, rfl⟩, fun y hy hsum => ?_⟩
  rw [Bool.false_bne] at hr
  rw [dequant, hq, hd, hr, h]
  exact f64Add_exact32 hy (by rw [hv]; exact hsum.trans (f32Value_eq y))

section
variable {w c : Nat} {tmin tmax : Word}

/-- With `temp_min` = -0 the difference is negative where `temp_max` is. -/
theorem spanSign_negZero (tmax : Word) : spanSign 0x80000000 tmax = decide (¬ tmax ≤ 0x80000000) := by
  have hspan : boundsSpan 0x80000000 tmax = f32Value tmax := by rw [boundsSpan, f32Value_eq_zero (x := 0x80000000) rfl, sub_zero]
  rw [spanSign, hspan]
  by_cases h : tmax ≤ 0x80000000
  · rw [decide_eq_false (not_not.2 h)]
    exact sumSign_of_nonneg _ (not_lt.1 (mt f32Value_neg_iff.1 (not_not.2 h)))
  · have hneg := f32Value_neg_iff.2 h
    rw [decide_eq_true h, sumSign_ne _ _ hneg.ne, decide_eq_true hneg]

/-- Code 0: the product is 0 and `temp_min` comes out, a zero with the sign of the last sum. -/
theorem dequant_zero (hw : 1 ≤ w) (hw2 : w ≤ 32) (hmin : isFinitePattern tmin) (hmax : isFinitePattern tmax) :
    dequant w 0 tmin tmax = some (if tmin = 0x80000000 ∧ tmax ≤ 0x80000000 then 0 else tmin) := by
  obtain ⟨q, d, r, hq, _, hr, hsum⟩ := dequant_of_finite hw hw2 (Nat.two_pow_pos w) hmin hmax
  rw [Nat.cast_zero, zero_div] at hq
  rw [hq.eq_zero, zero_mul] at hr
  rw [hsum tmin hmin (by rw [hr.eq_zero, mul_zero, zero_add])]
  by_cases h0 : f32Units tmin = 0
  · rw [if_pos h0]
    rcases f32Units_eq_zero.1 h0 with rfl | rfl
    · simp
    · rw [spanSign_negZero]
      by_cases h : tmax ≤ 0x80000000
      · rw [decide_eq_false (not_not.2 h), Bool.false_and, if_neg Bool.false_ne_true, if_pos ⟨rfl, h⟩]
      · rw [decide_eq_true h, if_pos (by decide), if_neg (fun hc => h hc.2)]
  · rw [if_neg h0, if_neg (fun h => h0 (f32Units_eq_zero.2 (.inr h.1)))]

/-- Where the last sum is an exact zero, product and `temp_min` are not both negative. -/
theorem spanSign_and_sign (h : f32Units tmax = 0) : (spanSign tmin tmax && tmin.getLsbD 31) = false := by
  cases hs : tmin.getLsbD 31 with
  | false => exact Bool.and_false _
  | true =>
    have hnonneg : 0 ≤ boundsSpan tmin tmax := by
      rw [boundsSpan, f32Value_eq_zero h, zero_sub, neg_nonneg]
      exact f32Value_nonpos hs
    rw [spanSign, hs, Bool.not_true, sumSign_of_nonneg _ hnonneg]; rfl

/-- The last code: the quotient is 1, the difference exact, and their sum with `temp_min` is `temp_max`. -/
theorem dequant_last (hw : 1 ≤ w) (hw2 : w ≤ 32) (hmin : isFinitePattern tmin) (hmax : isFinitePattern tmax)
    (hexact : ∃ m k, m < 2 ^ 53 ∧ (f32Signed tmax - f32Signed tmin).natAbs = m * 2 ^ k) :
    dequant w (2 ^ w - 1) tmin tmax = some (if tmax = 0x80000000 then 0 else tmax) := by
  obtain ⟨m, k, hm, hmk⟩ := hexact
  have hD : ((2 ^ w - 1 : Nat) : ℚ) ≠ 0 := by
    have := Nat.pow_le_pow_right (show 0 < 2 by norm_num) hw
    exact_mod_cast (show 2 ^ w - 1 ≠ 0 by omega)
  have hspan : |boundsSpan tmin tmax| = mag m (k - 149) := by
    have hnat : ((f32Signed tmax - f32Signed tmin).natAbs : ℚ) = |(f32Signed tmax : ℚ) - f32Signed tmin| := by
      rw [Nat.cast_natAbs, Int.cast_abs, Int.cast_sub]
    rw [boundsSpan, f32Value, f32Value, ← sub_mul, abs_mul, abs_of_pos (show (0 : ℚ) < 2 ^ (-149 : ℤ) by positivity), ← hnat,
      hmk, mag, sub_eq_add_neg, zpow_add₀ (by norm_num), zpow_natCast]
    push_cast
    ring
  obtain ⟨q, d, r, hq, hd, hr, hsum⟩ := dequant_of_finite hw hw2 (Nat.sub_lt (Nat.two_pow_pos w) Nat.one_pos) hmin hmax
  rw [div_self hD] at hq
  rw [hq.eq_mag (k := 1) (f := 0) (by norm_num) (by norm_num) (by simp [mag]), one_mul,
    hd.eq_mag hm (by omega) hspan] at hr
  rw [hsum tmax hmax (by
    rw [hr.eq_mag hm (by omega) hspan, spanSign, sumSign_mul_abs, boundsSpan, sub_add_cancel])]
  by_cases h0 : f32Units tmax = 0
  · rw [if_pos h0, spanSign_and_sign h0]
    rcases f32Units_eq_zero.1 h0 with rfl | rfl <;> simp
  · rw [if_neg h0, if_neg (fun h => h0 (f32Units_eq_zero.2 (.inr h)))]

/-- Equal bounds: difference and product are +0. -/
theorem dequant_equal (hw : 1 ≤ w) (hw2 : w ≤ 32) (hc : c < 2 ^ w) (hmin : isFinitePattern tmin) :
    dequant w c tmin tmin = some (if tmin = 0x80000000 then 0 else tmin) := by
  have hspan : boundsSpan tmin tmin = 0 := sub_self _
  obtain ⟨q, d, r, _, hd, hr, hsum⟩ := dequant_of_finite hw hw2 hc hmin hmin
  rw [hspan, abs_zero] at hd
  rw [hd.eq_zero, mul_zero] at hr
  rw [hsum tmin hmin (by rw [hr.eq_zero, mul_zero, zero_add])]
  by_cases h0 : f32Units tmin = 0
  · rw [if_pos h0, spanSign_and_sign h0]
    rcases f32Units_eq_zero.1 h0 with rfl | rfl <;> simp
  · rw [if_neg h0, if_neg (fun h => h0 (f32Units_eq_zero.2 (.inr h)))]

end

/-! ### Infinities and NaNs -/

theorem f64Add_nan_right (x : F64) : f64Add x .nan = .nan := by cases x <;> rfl

theorem f64Mul_nan_right (x : F64) : f64Mul x .nan = .nan := by cases x <;> rfl

/-- A code's quotient times an infinite difference: a NaN for code 0, else the infinity (R289). -/
theorem f64Mul_codeRatio_inf {w c : Nat} (hw : 1 ≤ w) (hw2 : w ≤ 32) (hc : c < 2 ^ w) (neg : Bool) :
    f64Mul (f64Div (f64OfNat c) (f64OfNat (2 ^ w - 1))) (.inf neg) = if c = 0 then .nan else .inf neg := by
  obtain ⟨m, e, h, _, hzero, _⟩ := codeRatio_spec hw hw2 hc
  simp only [h, f64Mul, hzero, Bool.false_bne]

/-- The infinity that is a pattern's value narrows to it. -/
theorem f32FromF64_inf {x : Word} (h : isInfPattern x) : f32FromF64 (.inf (x.getLsbD 31)) = some x := by
  obtain ⟨hsign, hmag, _⟩ := f32Pattern_facts (x.getLsbD 31) 0x7F800000 (by norm_num)
  exact congrArg some (word_ext_of_sign (hmag.trans h.symm) hsign)

section
variable {w c : Nat} {tmin tmax : Word}

theorem dequant_inf_max (hw : 1 ≤ w) (hw2 : w ≤ 32) (hc : c < 2 ^ w) (hmin : isFinitePattern tmin) (hmax : isInfPattern tmax) :
    dequant w c tmin tmax = if c = 0 then none else some tmax := by
  obtain ⟨m, e, hm, _⟩ := f64FromF32_val hmin
  have hsub : f64Sub (f64FromF32 tmax) (f64FromF32 tmin) = .inf (tmax.getLsbD 31) := by
    rw [f64FromF32_inf hmax, hm]; rfl
  rw [dequant, hsub, f64Mul_codeRatio_inf hw hw2 hc, hm]
  by_cases h0 : c = 0
  · rw [if_pos h0, if_pos h0]; rfl
  · rw [if_neg h0, if_neg h0]; exact f32FromF64_inf hmax

/-- The difference is the opposite infinity or a NaN, and so the last sum a NaN. -/
theorem dequant_inf_min (hw : 1 ≤ w) (hw2 : w ≤ 32) (hc : c < 2 ^ w) (hmin : isInfPattern tmin) (tmax : Word) :
    dequant w c tmin tmax = none := by
  have hsub : f64Sub (f64FromF32 tmax) (.inf (tmin.getLsbD 31)) = .nan ∨
      f64Sub (f64FromF32 tmax) (.inf (tmin.getLsbD 31)) = .inf (!tmin.getLsbD 31) := by
    cases f64FromF32 tmax with
    | nan => exact .inl rfl
    | inf a =>
      by_cases ha : a = !tmin.getLsbD 31
      · exact .inr (by rw [f64Sub, f64Neg, f64Add, if_pos ha, ha])
      · exact .inl (if_neg ha)
    | fin n m e => exact .inr rfl
  rw [dequant, f64FromF32_inf hmin]
  rcases hsub with h | h
  · rw [h, f64Mul_nan_right]; rfl
  · rw [h, f64Mul_codeRatio_inf hw hw2 hc]
    split
    · rfl
    · cases tmin.getLsbD 31 <;> rfl

theorem dequant_nan_min (w c : Nat) (hmin : isNanPattern tmin) (tmax : Word) : dequant w c tmin tmax = none := by
  rw [dequant, f64FromF32_nan hmin, f64Add_nan_right]; rfl

theorem dequant_nan_max (w c : Nat) (tmin : Word) (hmax : isNanPattern tmax) : dequant w c tmin tmax = none := by
  have hsub : f64Sub .nan (f64FromF32 tmin) = .nan := rfl
  rw [dequant, f64FromF32_nan hmax, hsub, f64Mul_nan_right]; rfl

end

/-- Settles O40: the corner cases one by one. -/
theorem codeZeroGivesTheMinimum : Obligations.CodeZeroGivesTheMinimum := by
  intro w c tmin tmax hw hw2 hc
  refine ⟨fun hmin hmax => ⟨dequant_zero hw hw2 hmin hmax, dequant_last hw hw2 hmin hmax, dequant_equal hw hw2 hc hmin⟩,
    dequant_inf_max hw hw2 hc, ?_⟩
  rintro (hmin | hmin | hmax)
  · exact dequant_inf_min hw hw2 hc hmin tmax
  · exact dequant_nan_min w c hmin tmax
  · exact dequant_nan_max w c tmin hmax

end Sys2Proof.Machine
end

section
/-! The host's commands (45_host_commands.md R310 to R316): what each does on a busy and on an idle engine, several of them in one
CMD write, and that nothing the host does but `rst` stops a running engine. -/

namespace Sys2Proof.Machine

/-! ### A command on a busy engine (R316) -/

theorem exec_startLzma_of_busy {s : State} (h : s.lz.busy = true) : exec .startLzma s = .next s := if_pos h
theorem exec_clearLzma_of_busy {s : State} (h : s.lz.busy = true) : exec .clearLzma s = .next s := if_pos h
theorem exec_startParse_of_busy {s : State} (h : s.ps.busy = true) : exec .startParse s = .next s := if_pos h
theorem exec_clearParse_of_busy {s : State} (h : s.ps.busy = true) : exec .clearParse s = .next s := if_pos h

/-! ### The obligations on one command (R311 to R314) -/

/-- Settles O43: the two branches of each START command. -/
theorem startCommandsStartTheirEngine : Obligations.StartCommandsStartTheirEngine := fun _ =>
  ⟨exec_startLzma_of_busy, fun h => if_neg (ne_true_of_eq_false h),
    exec_startParse_of_busy, fun h => if_neg (ne_true_of_eq_false h)⟩

/-- Settles O44: the two branches of each CLEAR command. -/
theorem clearClearsTheStatus : Obligations.ClearClearsTheStatus := fun _ =>
  ⟨exec_clearLzma_of_busy, fun h => if_neg (ne_true_of_eq_false h),
    exec_clearParse_of_busy, fun h => if_neg (ne_true_of_eq_false h)⟩

/-! ### Several commands in one CMD write (R315) -/

theorem csrWrite_cmd {off : BitVec 8} (h : off.toNat / 4 = 1) (v : Word) (s : State) :
    csrWrite off v s = runCommands (decodeCommands v) s := by
  simp only [csrWrite, h]

/-- A command bit of a CMD value runs its command, where it is set, after the commands in front of it. -/
theorem runCommands_append_optional (is : List Instr) (b : Bool) (i : Instr) (s : State) :
    runCommands (is ++ if b then [i] else []) s = thenIf b i (runCommands is s) := by
  induction is generalizing s with
  | nil =>
    cases b with
    | false => rfl
    | true => exact runCommands_single i s
  | cons j is ih =>
    rw [List.cons_append, runCommands, runCommands]
    cases exec j s with
    | next t => exact ih t
    | fault f => rfl
    | refused r => rfl

/-- Settles O6: the command list of a CMD value, taken apart from its last command. -/
theorem commandsRunInOrder : Obligations.CommandsRunInOrder := by
  intro off v s hoff
  have hfirst : runCommands (if v.getLsbD 2 then [.clearLzma] else []) s = thenIf (v.getLsbD 2) .clearLzma (.next s) :=
    runCommands_append_optional [] _ _ s
  rw [csrWrite_cmd hoff, decodeCommands, runCommands_append_optional, runCommands_append_optional, runCommands_append_optional,
    hfirst]

/-! ### Nothing but reset stops a running engine (R316) -/

/-- Each engine that is busy in `s` is busy in `t`, at the same control point. -/
structure RunsOn (s t : State) : Prop where
  lz : s.lz.busy = true → t.lz.busy = true ∧ t.lz.phase = s.lz.phase
  ps : s.ps.busy = true → t.ps.busy = true ∧ t.ps.phase = s.ps.phase

theorem RunsOn.same {s t : State} (hlb : t.lz.busy = s.lz.busy) (hlp : t.lz.phase = s.lz.phase) (hpb : t.ps.busy = s.ps.busy)
    (hpp : t.ps.phase = s.ps.phase) : RunsOn s t :=
  ⟨fun hs => ⟨hlb.trans hs, hlp⟩, fun hs => ⟨hpb.trans hs, hpp⟩⟩

theorem RunsOn.refl (s : State) : RunsOn s s := .same rfl rfl rfl rfl

theorem RunsOn.trans {s t u : State} (h : RunsOn s t) (k : RunsOn t u) : RunsOn s u where
  lz hs :=
    have ⟨ht, hp⟩ := h.lz hs
    (k.lz ht).imp_right (·.trans hp)
  ps hs :=
    have ⟨ht, hp⟩ := h.ps hs
    (k.ps ht).imp_right (·.trans hp)

/-- A command finds its engine busy and is ignored, or it is one for an idle engine. -/
theorem command_runsOn {i : Instr} (hi : isPacket i = false) {s t : State} (h : exec i s = .next t) : RunsOn s t where
  lz hs := by
    rcases command_lz hi h with rfl | hlz | ⟨hidle, _⟩
    · rw [exec_startLzma_of_busy hs] at h
      cases h; exact ⟨hs, rfl⟩
    · rw [hlz]; exact ⟨hs, rfl⟩
    · rw [hs] at hidle; cases hidle
  ps hs := by
    rcases command_ps hi h with rfl | hps | ⟨hidle, _⟩
    · rw [exec_startParse_of_busy hs] at h
      cases h; exact ⟨hs, rfl⟩
    · rw [hps]; exact ⟨hs, rfl⟩
    · rw [hs] at hidle; cases hidle

theorem csrWrite_runsOn {off : BitVec 8} {v : Word} {s t : State} (h : csrWrite off v s = .next t) : RunsOn s t := by
  unfold csrWrite at h
  split at h
  · cases h; exact .same rfl rfl rfl rfl
  · exact runCommands_kept (P := RunsOn s) (decodeCommands_isPacket v)
      (fun _ _ _ hi hs he => hs.trans (command_runsOn hi he)) (.refl s) h
  · cases h; exact .refl s

/-- A taken item frees its port and every other action but a register write stays on the host's side. -/
theorem hostTurn_runsOn {a : HostAct} (ha : a ≠ .rst) {s t : State} (h : hostTurn a s = .next t) : RunsOn s t := by
  cases a with
  | csrWrite off v => exact csrWrite_runsOn h
  | takeDout => cases h; rw [takeDout_eq]; exact .same rfl rfl rfl rfl
  | takeTemp => cases h; rw [takeTemp_eq]; exact .same rfl rfl rfl rfl
  | takeBin => cases h; rw [takeBin_eq]; exact .same rfl rfl rfl rfl
  | takeLoc => cases h; rw [takeLoc_eq]; exact .same rfl rfl rfl rfl
  | rst => exact absurd rfl ha
  | _ => cases h; exact .same rfl rfl rfl rfl

/-- Settles O45: a busy engine ignores its commands, and each action of the host leaves it running. -/
theorem onlyResetStopsARunningEngine : Obligations.OnlyResetStopsARunningEngine :=
  ⟨fun _ => ⟨fun hs => ⟨exec_startLzma_of_busy hs, exec_clearLzma_of_busy hs⟩,
      fun hs => ⟨exec_startParse_of_busy hs, exec_clearParse_of_busy hs⟩⟩,
    fun _ _ _ ha h =>
      have hon := hostTurn_runsOn ha h
      ⟨hon.lz, hon.ps⟩⟩

end Sys2Proof.Machine
end

section
/-! Errors (60_exceptions.md R333): `raise` ends its engine's routine, and an engine that is not busy has no turn (R29). -/

namespace Sys2Proof.Machine

/-- The LZMA engine has no turn while it is not busy (R29), whatever its control point and its port. -/
theorem lzmaTurn_of_not_busy {s : State} (h : s.lz.busy = false) : lzmaTurn s = none := by
  simp [lzmaTurn, h]

/-- The parser engine has no turn while it is not busy (R29), whatever its control point and its ports. -/
theorem parserTurn_of_not_busy {s : State} (h : s.ps.busy = false) : parserTurn s = none := by
  simp [parserTurn, h]

/-- Settles O34: the record update of each engine is what `raise` is defined to be, and the BUSY it clears leaves no turn. -/
theorem raiseChangesOnlyItsEngine : Obligations.RaiseChangesOnlyItsEngine := fun e s =>
  have hlz : (raise .lzma e s).lz.busy = false := by rw [raise_lzma_lz]
  have hps : (raise .parser e s).ps.busy = false := by rw [raise_parser_ps]
  ⟨rfl, rfl, lzmaTurn_of_not_busy hlz, parserTurn_of_not_busy hps⟩

end Sys2Proof.Machine
end

section
/-! Reset and the parameters (70_reset_and_hazards.md R370 to R375; 00_scope.md R6): what the block reads as after power-on and
after `rst`, and that no turn, reset included, writes the parameters. -/

namespace Sys2Proof.Machine

/-! ### After reset -/

/-- Power-on leaves the block as `rst` does, so one description serves both (R371). -/
theorem reset_eq_resetBlock : State.reset = resetBlock State.reset := rfl

theorem highWord_zero : highWord 0 = 0 := by decide

/-- After reset every register but CTRL reads 0, the unmapped ones included (R371, R50). -/
theorem csrRegister_resetBlock {n : Nat} (hn : 1 ≤ n) (s : State) : csrRegister n (resetBlock s) = 0 := by
  match n with
  | 0 => omega
  | 6 | 8 | 10 | 20 => exact highWord_zero
  | 1 | 2 | 3 | 4 | 5 | 7 | 9 | 11 | 12 | 13 | 14 | 15 | 16 | 17 | 18 | 19 => rfl
  | k + 21 => exact csrRegister_unmapped (by omega) _

/-- Nothing is pending after reset, so `irq` is 0 (R340, R371). -/
theorem irq_resetBlock (s : State) : irq (resetBlock s) = false := by
  have hpending : irqPending (resetBlock s) = false := rfl
  rw [irq, hpending, Bool.and_false]

/-- Settles O49: both resets are `resetBlock` of some state, whose fields are the reset values (what is left to `rfl`);
with BUSY 0 no engine has a turn. -/
theorem resetSetsTheRegisters : Obligations.ResetSetsTheRegisters := by
  refine ⟨fun t ht => ?_, fun s => ⟨resetBlock s, rfl, rfl, rfl, rfl, rfl⟩⟩
  obtain ⟨s, rfl⟩ : ∃ s, t = resetBlock s := by
    rcases ht with rfl | ⟨s, hs⟩
    · exact ⟨State.reset, reset_eq_resetBlock⟩
    · cases hs; exact ⟨s, rfl⟩
  have hregs : ∀ off : BitVec 8, 4 ≤ off.toNat → csrRead off (resetBlock s) = 0 := fun off hoff =>
    csrRegister_resetBlock (by omega) s
  have hlzma : lzmaTurn (resetBlock s) = none := lzmaTurn_of_not_busy rfl
  have hparser : parserTurn (resetBlock s) = none := parserTurn_of_not_busy rfl
  exact ⟨rfl, hregs, irq_resetBlock s, rfl, rfl, hlzma, hparser, by and_intros <;> rfl⟩

/-! ### The parameters (R375) -/

/-- A command writes registers of one engine only. -/
theorem command_params {i : Instr} (hi : isPacket i = false) {s t : State} (h : exec i s = .next t) : t.params = s.params := by
  cases i with
  | startLzma => simp only [exec, execStartLzma] at h; split at h <;> cases h <;> rfl
  | startParse => simp only [exec, execStartParse] at h; split at h <;> cases h <;> rfl
  | clearLzma => simp only [exec, execClearLzma] at h; split at h <;> cases h <;> rfl
  | clearParse => simp only [exec, execClearParse] at h; split at h <;> cases h <;> rfl
  | _ => cases hi

/-- Having the parameters `p` is kept: each kind of turn updates other fields of the state. -/
theorem params_kept (p : Params) : KeptByStep (fun s => s.params = p) :=
  kept_by_turns (P := fun s => s.params = p) (fun _ _ hs => hs)
    (fun s t hs h => by
      have hparams : t.params = s.params := by rw [lzmaTurn_lzmaOnly h]
      exact hparams.trans hs)
    (fun s t hs h => by
      have hparams : t.params = s.params := by rw [parserTurn_parserOnly h]
      exact hparams.trans hs)
    (fun _ _ _ hi hs h => (command_params hi h).trans hs)
    (fun _ _ hs => hs) (fun _ hs => hs) (fun _ hs => hs) (fun _ hs => hs) (fun _ hs => hs) (fun _ hs => hs)

/-- Settles O51: the parameters before the step are kept by it. -/
theorem parametersNeverChange : Obligations.ParametersNeverChange := fun s => params_kept s.params s rfl

end Sys2Proof.Machine
end

section
/-! The decoded sequence in the window (42_lzma_fsm.md R224; 43_output_window.md R252, R254, R257): what a copy appends to it, and
that no turn of the loop loses a byte of it. -/

namespace Sys2Proof.Machine

/-! ### The byte at a distance (R254) -/

/-- A distance below `win_size` leads to a window byte, around the window's end once at most. -/
theorem backIndex_bounds {d : Word} {s : State} (hw : s.lz.winPos.toNat ≤ s.lz.winSize.toNat)
    (hd : d.toNat < s.lz.winSize.toNat) : 0 ≤ backIndex d s ∧ backIndex d s < s.lz.winSize.toNat := by
  unfold backIndex
  split <;> omega

theorem memRead_of_lt {a : Nat} {s : State} (h : a < s.lz.winSize.toNat) : memRead a s = some (ramByte s.lz a) :=
  if_pos h

theorem getByte_of_lt {d : Word} {s : State} (hw : s.lz.winPos.toNat ≤ s.lz.winSize.toNat)
    (hd : d.toNat < s.lz.winSize.toNat) : getByte d s = some (ramByte s.lz (backIndex d s).toNat) := by
  have hb := backIndex_bounds hw hd
  rw [getByte, if_neg (by omega), memRead_of_lt (by omega)]

/-- Below `win_size` the window law gives the byte of the decoded sequence that far back. -/
theorem WindowHolds.getByte {out : List Byte} {s : State} {d : Word} (h : WindowHolds out s) (hd : d.toNat < out.length)
    (hw : d.toNat < s.lz.winSize.toNat) : getByte d s = some (out.getD (out.length - d.toNat - 1) 0) := by
  have hi : out.length - d.toNat - 1 < out.length := by omega
  rw [h.2 d hd hw, List.getElem?_eq_getElem hi, List.getD_eq_getElem out 0 hi]

/-! ### A copy (R252) -/

/-- With its byte appended, a copy's source stands at the same distance again. -/
theorem copySource_appended {d : Word} {src : Nat} {s : State} (b : Byte) (hw : s.lz.winPos.toNat < s.lz.winSize.toNat)
    (hd : d.toNat < s.lz.winSize.toNat) (hsrc : copySource src s = (backIndex d s).toNat) :
    copySource (copySource src s + 1) (appended b s) = (backIndex d (appended b s)).toNat := by
  have hwp := appended_winPos b hw
  have hws : (appended b s).lz.winSize = s.lz.winSize := rfl
  rw [hsrc]
  unfold copySource backIndex
  rw [hwp, hws]
  split_ifs <;> omega

/-- A run of a copy up to the window's end appends the bytes `d + 1` back, one after another (R224). -/
theorem copyRun_extends {d : Word} {t : State} : ∀ (rem src : Nat) (s : State) (out : List Byte),
    s.lz.winPos.toNat < s.lz.winSize.toNat → Memory.wf s.lz.window = true → d.toNat < s.lz.winSize.toNat →
    d.toNat < out.length → copySource src s = (backIndex d s).toNat → WindowHolds out s → copyRun rem src s = .next t →
    WindowHolds (copyOutput d.toNat (copyCount rem s.lz) out) t
  | 0, src, s, out, _, _, _, _, _, hout, h => by
    obtain ⟨b, _, rfl⟩ := endCopy_next h
    rw [copyCount, Nat.zero_min]
    exact windowHolds_congr rfl rfl rfl rfl hout
  | rem + 1, src, s, out, hw, hwf, hd, hdo, hsrc, hout, h => by
    have hbyte : memRead (copySource src s) s = some (out.getD (out.length - d.toNat - 1) 0) := by
      rw [← hout.getByte hdo hd, getByte_of_lt hw.le hd, hsrc, memRead_of_lt]
      have := backIndex_bounds hw.le hd
      omega
    rw [copyRun, hbyte] at h
    obtain ⟨_, ho, h⟩ := appendByte_next h
    generalize hb : out.getD (out.length - d.toNat - 1) 0 = b at h
    have hwp := appended_winPos b hw
    have hws : (appended b s).lz.winSize = s.lz.winSize := rfl
    have hout' : WindowHolds (out ++ [b]) (appended b s) := windowHolds_append b hwf hw ho hout
    split at h
    · next hfull =>
      cases h
      rw [BitVec.toNat_eq, hwp, hws] at hfull
      have hcount : copyCount (rem + 1) s.lz = 1 := by rw [copyCount]; omega
      rw [hcount, copyOutput, hb]
      exact windowHolds_congr rfl rfl rfl rfl hout'
    · next hfull =>
      rw [BitVec.toNat_eq, hwp, hws] at hfull
      have hcount : copyCount (rem + 1) s.lz = copyCount rem (appended b s).lz + 1 := by
        rw [copyCount, copyCount, hwp, hws]; omega
      rw [hcount, copyOutput, hb]
      refine copyRun_extends rem _ (appended b s) (out ++ [b]) ?_ (sparseSet_wf _ _ _ 0 _ (Nat.zero_le _) hwf) hd ?_
        (copySource_appended b hw hd hsrc) hout' h
      · rw [hwp, hws]; omega
      · rw [List.length_append]; omega

/-- An accepted copy appends by its distance, as many bytes as fit before the window's end (R219, R224). -/
theorem copyStep_extends {len : Nat} {s t : State} {out : List Byte} (hr : WindowReady s.lz) (ha : CopyAccepted len s.lz)
    (hout : WindowHolds out s) (h : copyStep len s = .next t) :
    WindowHolds (copyOutput s.lz.rep0.toNat (copyCount len s.lz) out) t := by
  obtain ⟨hwf, hw, hdict⟩ := hr
  obtain ⟨hpos, hcheck, hsize, _⟩ := ha
  have hd : s.lz.rep0.toNat < s.lz.winSize.toNat := by omega
  rcases copyStep_next h with ⟨hbad, _⟩ | ⟨_, hbad, _⟩ | ⟨_, _, _, hrun⟩
  · rw [(distanceOk_iff s.lz).2 ⟨hpos, hcheck⟩] at hbad; cases hbad
  · obtain ⟨hk, hu⟩ := (sizeOk_eq_false_iff len s.lz).1 hbad
    have := hsize hk
    omega
  · refine copyRun_extends len _ s out hw hwf hd (by rw [hout.1]; exact hpos) (if_pos ?_) hout hrun
    have := backIndex_bounds hw.le hd
    omega

/-! ### The obligations -/

/-- Settles O17: a literal's byte is appended; a copy packet is its update of the distances, which the window law does not see, and
then `CopyStep`. -/
theorem packetsExtendTheOutput : Obligations.PacketsExtendTheOutput := by
  intro out s t hr hout
  refine ⟨fun b h => putLiteral_holds hr.1 hout h, fun i len z hz ha h => ?_⟩
  have hu := copyOperands_updates hz
  rw [exec_copy hz] at h
  refine copyStep_extends (s := { s with lz := z }) ?_ ha ?_ h
  · rw [hu]; exact hr
  · rw [hu]; exact windowHolds_congr rfl rfl rfl rfl hout

/-- Settles O18: a turn inside the loop only appends to the decoded sequence. -/
theorem windowLawIsKept : Obligations.WindowLawIsKept := fun _ _ _ hr _ hl hout h hl' =>
  lzmaTurn_holds hr.1 hout hl h hl'

end Sys2Proof.Machine
end

section
/-! Steps that stop (10_state.md section 2, log 9, log 10): only a turn of the LZMA engine does, and it is refused where `out_pos`
or `in_count` would reach 2^64. -/

namespace Sys2Proof.Machine

/-! ### Everything but a turn of the LZMA engine goes on -/

theorem GoesOn.next (s : State) : GoesOn (.next s) := ⟨s, rfl⟩

/-- What neither faults nor is refused goes on. -/
theorem goesOn_of_not_stop {o : Out} (hf : ∀ f, o ≠ .fault f) (hr : ∀ r, o ≠ .refused r) : GoesOn o := by
  cases o with
  | next t => exact .next t
  | fault f => exact absurd rfl (hf f)
  | refused r => exact absurd rfl (hr r)

theorem command_goesOn {i : Instr} (hi : isPacket i = false) (s : State) : GoesOn (exec i s) := by
  cases i with
  | startLzma => rw [exec, execStartLzma]; split <;> exact .next _
  | startParse => rw [exec, execStartParse]; split <;> exact .next _
  | clearLzma => rw [exec, execClearLzma]; split <;> exact .next _
  | clearParse => rw [exec, execClearParse]; split <;> exact .next _
  | _ => cases hi

theorem runCommands_goesOn {is : List Instr} (his : ∀ i ∈ is, isPacket i = false) (s : State) : GoesOn (runCommands is s) := by
  induction is generalizing s with
  | nil => exact .next s
  | cons i is ih =>
    obtain ⟨t, ht⟩ := command_goesOn (his i List.mem_cons_self) s
    rw [runCommands, ht]
    exact ih (fun j hj => his j (List.mem_cons_of_mem i hj)) t

theorem hostTurn_goesOn (a : HostAct) (s : State) : GoesOn (hostTurn a s) := by
  cases a with
  | csrWrite off v =>
    rw [hostTurn, csrWrite]
    split
    · exact .next _
    · exact runCommands_goesOn (decodeCommands_isPacket v) s
    · exact .next _
  | _ => exact .next _

theorem parserTurn_not_fault {s : State} {f : Fault} : parserTurn s ≠ some (.fault f) := by
  intro h
  unfold parserTurn at h
  split at h
  · split at h
    case h_2 g k v _ =>
      rw [fieldTurn] at h
      split at h
      · rcases turn_some h with ⟨_, _, _, h⟩ | ⟨_, _, _, h⟩ | ⟨_, h, _⟩ | ⟨_, _, h⟩
        · cases h
        · cases h
        · exact pReadBit_not_fault h
        · cases h
      · cases h
    all_goals cases h
  · cases h

theorem parserTurn_goesOn {s : State} {o : Out} (h : parserTurn s = some o) : GoesOn o :=
  goesOn_of_not_stop (fun _ e => parserTurn_not_fault (e ▸ h)) (fun _ e => parserTurn_not_refused (e ▸ h))

/-- A turn that is left unused goes on. -/
theorem getD_goesOn {o : Option Out} {s : State} : GoesOn (o.getD (.next s)) ∨ o = some (o.getD (.next s)) := by
  cases o with
  | none => exact .inl (.next s)
  | some o => exact .inr rfl

theorem parserTurn_getD_goesOn (s : State) : GoesOn ((parserTurn s).getD (.next s)) :=
  getD_goesOn.elim id parserTurn_goesOn

/-- A step goes on, or it is a turn of the LZMA engine, after the host's plan has moved on. -/
theorem step_goesOn_or_lzma (s : State) :
    GoesOn (step s) ∨ ∃ plan, lzmaTurn { s with host := { s.host with schedule := plan } } = some (step s) := by
  unfold step anyTurn
  split
  · unfold autoTurn
    split
    · exact .inl (.next _)
    · cases hl : lzmaTurn s with
      | some o => exact .inr ⟨s.host.schedule, hl⟩
      | none => exact .inl (parserTurn_getD_goesOn s)
  · next turn rest _ =>
    cases turn with
    | host a => exact .inl (hostTurn_goesOn a _)
    | lzma => exact getD_goesOn.imp_right fun h => ⟨rest, h⟩
    | parser => exact .inl (parserTurn_getD_goesOn _)

/-! ### Refusals (R24) -/

/-- A literal at `out_pos = 2^64 - 1` is refused. -/
theorem putLiteral_refuses {b : Byte} {s : State} (hw : s.lz.winPos.toNat < s.lz.winSize.toNat)
    (ho : s.lz.outPos = BitVec.allOnes 64) : putLiteral b s = .refused .counterLimit := by
  rw [putLiteral, appendByte, if_pos hw, if_pos ho]

/-- An accepted copy that would bring `out_pos` to 2^64 before the window's end is refused. -/
theorem copyStep_refuses {len : Nat} {s : State} (hr : WindowReady s.lz) (hd : distanceOk s.lz = true)
    (hs : sizeOk len s.lz = true) (ho : 2 ^ 64 ≤ s.lz.outPos.toNat + copyCount len s.lz) :
    copyStep len s = .refused .counterLimit := by
  obtain ⟨_, hw, hdict⟩ := hr
  have hrep : s.lz.rep0.toNat < s.lz.winSize.toNat := ((distanceOk_iff s.lz).1 hd).2.trans_le hdict
  have hback := (backIndex_bounds hw.le hrep).1
  rw [copyStep, if_pos hd, if_pos hs, copyBlock, if_neg (by omega)]
  exact copyRun_refuses len _ s hw ho

/-- Settles O16: each refusal from its routine's guard; and a step that is refused is a turn of the LZMA engine that is. -/
theorem counterLimitRefuses : Obligations.CounterLimitRefuses := by
  refine ⟨fun b s hr ho => putLiteral_refuses hr.2.1 ho, fun i len z s hz hr h1 h2 hsize ho => ?_,
    fun s j rem src hb hd hp hj hfull h0 ho => ?_, fun s b l rest he hc hi => ?_, fun s r h => ?_⟩
  · rw [exec_copy hz]
    refine copyStep_refuses (s := { s with lz := z }) ?_ ((distanceOk_iff z).2 ⟨h1, h2⟩) ?_ ho
    · rw [copyOperands_updates hz]; exact hr
    · refine eq_true_of_ne_false fun hbad => ?_
      obtain ⟨hk, hu⟩ := (sizeOk_eq_false_iff len z).1 hbad
      exact absurd (hsize hk) hu.not_ge
  · rw [lzmaTurn_flush hb hd hp, flushTurn_of_ge hj, endFlush_of_full hfull]
    exact congrArg some (copyRun_refuses rem src _ h0 ho)
  · rw [readIn, if_neg (by simp [he]), hc]
    exact if_pos hi
  · rcases step_goesOn_or_lzma s with ⟨t, ht⟩ | ⟨plan, hl⟩
    · rw [ht] at h; cases h
    · have hrefused := lzmaTurn_refused (hl.trans (congrArg some h))
      exact hrefused

end Sys2Proof.Machine
end

section
/-! The invariants of the LZMA engine (10_state.md R24, R28, R31; 40_range_decoder.md R154; 41_probability_models.md R175;
42_lzma_fsm.md R220; 43_output_window.md R250, R255): each is a property of that engine alone, and its moves keep it. -/

namespace Sys2Proof.Machine

/-! ### A property of the LZMA engine along a step -/

/-- What START_LZMA and `rst` make of an engine: it stands before the end of its header, has produced nothing and keeps its RAMs
(R311, R371, R372). -/
structure Rewound (z y : Lzma) : Prop where
  phase : headerAccepted y.phase = false
  outPos : y.outPos = 0
  winPos : y.winPos = 0
  streamPos : y.streamPos = 0
  window : y.window = z.window
  prob : y.prob = z.prob

theorem not_inLoop_of_not_headerAccepted {p : LzPhase} (h : headerAccepted p = false) : inLoop p = false := by
  cases hl : inLoop p with
  | false => rfl
  | true => rw [headerAccepted_of_inLoop hl] at h; cases h

theorem Rewound.not_inLoop {z y : Lzma} (h : Rewound z y) : inLoop y.phase = false :=
  not_inLoop_of_not_headerAccepted h.phase

/-- START_LZMA is ignored, or rewinds the engine (R311, R316). -/
theorem startLzma_next {s t : State} (h : exec .startLzma s = .next t) : t.lz = s.lz ∨ Rewound s.lz t.lz := by
  rw [exec, execStartLzma] at h
  split at h
  · cases h; exact .inl rfl
  · cases h; exact .inr ⟨rfl, rfl, rfl, rfl, rfl, rfl⟩

/-- A property of the LZMA engine alone. -/
def ReadsLzma (P : State → Prop) : Prop := ∀ s t : State, P s → P { t with lz := s.lz }

theorem ReadsLzma.congr {P : State → Prop} (hP : ReadsLzma P) {s t : State} (h : t.lz = s.lz) (hs : P s) : P t := by
  have ht := hP s t hs
  rwa [← h] at ht

/-- A property of the LZMA engine that its moves keep, that a rewound engine has, and that does not depend on the status fields and
`dout`, is kept by every step. -/
theorem kept_by_moves {P : State → Prop} (hP : ReadsLzma P)
    (hmove : ∀ s y, P s → LzmaMove s.lz y → P { s with lz := y })
    (hrewind : ∀ s y, P s → Rewound s.lz y → P { s with lz := y })
    (hstatus : ∀ s done eosFlag err dout, P s →
      P { s with lz := { s.lz with done := done, eosFlag := eosFlag, err := err, dout := dout } }) : KeptByStep P := by
  refine kept_by_turns (fun s h hs => hP.congr (s := s) rfl hs)
    (fun s t hs h => hP.congr (s := { s with lz := t.lz }) rfl (hmove s t.lz hs (lzmaTurn_move h)))
    (fun s t hs h => hP.congr (by rw [parserTurn_parserOnly h]) hs) (fun i s t hi hs h => ?_)
    (fun s c hs => hP.congr (s := s) rfl hs)
    (fun s hs => hstatus s s.lz.done s.lz.eosFlag s.lz.err none hs) (fun s hs => hP.congr (s := s) rfl hs)
    (fun s hs => hP.congr (s := s) rfl hs) (fun s hs => hP.congr (s := s) rfl hs)
    (fun s hs => hP.congr (s := { s with lz := (resetBlock s).lz }) rfl (hrewind s _ hs ⟨rfl, rfl, rfl, rfl, rfl, rfl⟩))
  rcases command_lz hi h with rfl | hlz | ⟨_, hlz⟩
  · rcases startLzma_next h with hlz | hlz
    · exact hP.congr hlz hs
    · exact hP.congr (s := { s with lz := t.lz }) rfl (hrewind s t.lz hs hlz)
  · exact hP.congr hlz hs
  · exact hP.congr (s := { s with lz := _ }) hlz (hstatus s false false none s.lz.dout hs)

/-! ### What a move does to single registers -/

/-- A copy packet's own update, as one of the fields it names. -/
theorem copyOperands_eq {i : Instr} {len : Nat} {z y : Lzma} (h : copyOperands i z = some (len, y)) :
    ∃ r0 r1 r2 r3 st, y = { z with rep0 := r0, rep1 := r1, rep2 := r2, rep3 := r3, state := st } :=
  ⟨_, _, _, _, _, copyOperands_updates h⟩

/-- A position that `n` bytes do not bring to its end moves up by `n`. -/
theorem toNat_add_ofNat {w n : Nat} {p : BitVec w} (h : p.toNat + n < 2 ^ w) :
    (p + BitVec.ofNat w n).toNat = p.toNat + n := by
  rw [BitVec.toNat_add, BitVec.toNat_ofNat, Nat.add_mod_mod, Nat.mod_eq_of_lt h]

/-- Where a flush leaves `win_pos` (R253). -/
theorem wrapped_lt {z : Lzma} {v : Word} (hv : v = if z.winPos = z.winSize then 0 else z.winPos)
    (hle : z.winPos.toNat ≤ z.winSize.toNat) (hW : 0 < z.winSize.toNat) : v.toNat < z.winSize.toNat := by
  subst hv
  split
  · exact hW
  · next hne => exact lt_of_le_of_ne hle (fun e => hne (BitVec.eq_of_toNat_eq e))

/-- No move lowers `out_pos` (R24). -/
theorem LzmaMove.outPos_le {z y : Lzma} (h : LzmaMove z y) : z.outPos.toNat ≤ y.outPos.toNat := by
  cases h with
  | stops e x hp he hw hc hd hf ho => exact le_of_eq (congrArg BitVec.toNat ho.symm)
  | lit b w bits hp hw ho => exact (Nat.le_add_right _ 1).trans (toNat_add_ofNat ho).ge
  | litFull b w bits hp hw ho => exact (Nat.le_add_right _ 1).trans (toNat_add_ofNat ho).ge
  | copies i len x bits w b hp hx hd hs hl hw ho =>
    obtain ⟨_, _, _, _, _, rfl⟩ := copyOperands_eq hx
    exact (Nat.le_add_right _ len).trans (toNat_add_ofNat ho).ge
  | copiesFull i len n src x bits w hp hx hd hs h0 hn hw ho =>
    obtain ⟨_, _, _, _, _, rfl⟩ := copyOperands_eq hx
    exact (Nat.le_add_right _ n).trans (toNat_add_ofNat ho).ge
  | copyGoesOn j rem src v w b hp hj hv hw ho =>
    exact (Nat.le_add_right _ rem).trans (toNat_add_ofNat ho).ge
  | copyGoesOnFull j rem src n src' v w hp hj hv h0 hn hw ho =>
    exact (Nat.le_add_right _ n).trans (toNat_add_ofNat ho).ge
  | _ => exact le_rfl

/-- No move lowers `in_count` (R24). -/
theorem LzmaMove.inCount_le {z y : Lzma} (h : LzmaMove z y) : z.inCount.toNat ≤ y.inCount.toNat := by
  cases h with
  | stops e x hp he hw hc hd hf ho hn => exact hn
  | dict n l d k ds hp ha hn => exact hn
  | accepts n l d ds x u kn p hp ha hv hq hn => exact hn
  | size n l x u kn p ha hl ha' hl' hn => exact hn
  | starts n l c ha hl hn => exact hn
  | bit q b bits s t hs hp ha => rw [← hs]; exact answer_inCount ha
  | copies i len x bits w b hp hx => obtain ⟨_, _, _, _, _, rfl⟩ := copyOperands_eq hx; exact le_rfl
  | copiesFull i len n src x bits w hp hx => obtain ⟨_, _, _, _, _, rfl⟩ := copyOperands_eq hx; exact le_rfl
  | _ => exact le_rfl

/-- Settles O32: a turn that goes on is a move, and no move lowers a counter. -/
theorem countersOnlyIncrease : Obligations.CountersOnlyIncrease := fun _ _ h =>
  ⟨(lzmaTurn_move h).outPos_le, (lzmaTurn_move h).inCount_le⟩

/-! ### The RAMs and the counters (R31, log 5, log 6) -/

theorem LzmaMove.window_wf {z y : Lzma} (h : LzmaMove z y) (hz : Memory.wf z.window = true) : Memory.wf y.window = true := by
  cases h with
  | stops e x hp he hw => exact (congrArg Memory.wf hw).trans hz
  | lit b w bits hp hw ho hm => exact hm hz
  | litFull b w bits hp hw ho hm => exact hm hz
  | copies i len x bits w b hp hx hd hs hl hw ho hm => exact hm hz
  | copiesFull i len n src x bits w hp hx hd hs h0 hn hw ho hm => exact hm hz
  | copyGoesOn j rem src v w b hp hj hv hw ho hm => exact hm hz
  | copyGoesOnFull j rem src n src' v w hp hj hv h0 hn hw ho hm => exact hm hz
  | _ => exact hz

/-- The probability RAM changes by a decoded bit, or as a whole at the start of a decode (R153, R200). -/
theorem LzmaMove.prob {z y : Lzma} (h : LzmaMove z y) :
    CounterMove z.prob y.prob ∨ ∃ count, y.prob = initCounters count z.prob := by
  cases h with
  | stops e x hp he hw hc => exact .inl hc
  | starts n l c ha hl hn => exact .inr ⟨_, rfl⟩
  | bit q b bits s t hs hp ha => rw [← hs]; exact .inl (answer_prob ha)
  | copies i len x bits w b hp hx => obtain ⟨_, _, _, _, _, rfl⟩ := copyOperands_eq hx; exact .inl (.inl rfl)
  | copiesFull i len n src x bits w hp hx => obtain ⟨_, _, _, _, _, rfl⟩ := copyOperands_eq hx; exact .inl (.inl rfl)
  | _ => exact .inl (.inl rfl)

theorem LzmaMove.ramsCanonical {s : State} {y : Lzma} (h : LzmaMove s.lz y) (hs : RamsCanonical s) :
    RamsCanonical { s with lz := y } := by
  refine ⟨h.window_wf hs.1, ?_⟩
  rcases h.prob with hmove | ⟨count, hinit⟩
  · exact hmove.wf hs.2
  · exact (congrArg probWf hinit).trans (sparseFilter_wf _ _ 0 _ hs.2)

theorem Rewound.ramsCanonical {s : State} {y : Lzma} (h : Rewound s.lz y) (hs : RamsCanonical s) :
    RamsCanonical { s with lz := y } :=
  ⟨(congrArg Memory.wf h.window).trans hs.1, (congrArg probWf h.prob).trans hs.2⟩

/-- Settles O52: a write and the counters' start keep the canonical form, and nothing else writes a RAM. -/
theorem ramsStayCanonical : Obligations.RamsStayCanonical :=
  kept_by_moves (fun _ _ hs => hs) (fun _ _ hs h => h.ramsCanonical hs) (fun _ _ hs h => h.ramsCanonical hs)
    (fun _ _ _ _ _ hs => hs)

theorem counterOk_probDefault : counterOk probDefault := by
  unfold counterOk; decide

theorem LzmaMove.countersBounded {s : State} {y : Lzma} (h : LzmaMove s.lz y) (hw : probWf s.lz.prob = true)
    (hs : CountersBounded s) : CountersBounded { s with lz := y } := by
  intro i
  rcases h.prob with hmove | ⟨count, hinit⟩
  · exact hmove.bounded hw hs i
  · have hread : probRead i { s with lz := y } = if i < count then probDefault else probRead i s := by
      rw [probRead, hinit]; exact sparseGet_initCounters count i s.lz.prob
    rw [hread]
    split
    · exact counterOk_probDefault
    · exact hs i

theorem Rewound.countersBounded {s : State} {y : Lzma} (h : Rewound s.lz y) (hs : CountersBounded s) :
    CountersBounded { s with lz := y } := by
  intro i
  rw [probRead, h.prob]
  exact hs i

/-! ### `range` between bits (R152, R154) -/

/-- `Normalize` brings `range` to 2^24 at least where it was 2^16 at least (R152). -/
theorem normalize_range {s t : State} (h : Machine.normalize s = .ok () t) (hr : 2 ^ 16 ≤ s.lz.range.toNat) :
    2 ^ 24 ≤ t.lz.range.toNat := by
  rcases normalize_ok h with ⟨hge, rfl⟩ | ⟨hlt, ht, _, _⟩
  · rw [BitVec.lt_def] at hge
    exact Nat.not_lt.1 hge
  · rw [BitVec.lt_def] at hlt
    have hlt : s.lz.range.toNat < 2 ^ 24 := hlt
    rw [ht, BitVec.toNat_shiftLeft, Nat.shiftLeft_eq]
    omega

/-- A counter in 31..2017 leaves 2^16 of `range` at least on both sides of its bound (R153, R154). -/
theorem bitBound_sides {r : Word} {p : Counter} (hr : 2 ^ 24 ≤ r.toNat) (hp : counterOk p) :
    2 ^ 16 ≤ (bitBound r p).toNat ∧ 2 ^ 16 ≤ (r - bitBound r p).toNat := by
  obtain ⟨hlo, hhi⟩ := hp
  have hshare : 8192 ≤ r.toNat / 2048 := by omega
  have hbelow : 8192 * 31 ≤ r.toNat / 2048 * p.toNat := Nat.mul_le_mul hshare hlo
  have habove : r.toNat / 2048 * p.toNat ≤ r.toNat / 2048 * 2017 := Nat.mul_le_mul_left _ hhi
  have hbound := bitBound_toNat r p
  rw [BitVec.toNat_sub_of_le (by rw [BitVec.le_def]; omega)]
  omega

/-- After a decoded bit `range` is 2^24 at least again (R154). -/
theorem answer_range {q : Query} {s t : State} {b : Bool} (h : answer q s = .ok b t) (hc : CountersBounded s)
    (hr : 2 ^ 24 ≤ s.lz.range.toNat) : 2 ^ 24 ≤ t.lz.range.toNat := by
  cases q with
  | counter i =>
    obtain ⟨hzero, hone⟩ := bitBound_sides hr (hc i)
    obtain ⟨_, ⟨_, _, h⟩ | ⟨_, _, h⟩⟩ := decodeBit_ok h
    · exact normalize_range h hzero
    · exact normalize_range h hone
  | direct =>
    have hhalf : 2 ^ 16 ≤ (s.lz.range >>> 1).toNat := by
      rw [BitVec.toNat_ushiftRight, Nat.shiftRight_eq_div_pow]; omega
    rcases directBit_ok h with ⟨_, _, h⟩ | ⟨_, _, h⟩
    · exact normalize_range h hhalf
    · exact normalize_range h hhalf

/-- A move into the loop or inside it starts the range decoder, decodes a bit, or leaves `range` alone. -/
theorem LzmaMove.rangeNormal {s : State} {y : Lzma} (h : LzmaMove s.lz y) (hc : CountersBounded s) (hs : RangeNormal s) :
    RangeNormal { s with lz := y } := by
  intro hl
  cases h with
  | stops | dict | ends => cases hl
  | accepts n l d ds x u kn p hp ha hv hq => rcases hq with rfl | rfl <;> cases hl
  | size n l x u kn p ha hlz ha' hlp => exact absurd (hlp.symm.trans hl) nofun
  | starts n l c ha hlz hn => exact show 2 ^ 24 ≤ (0xFFFFFFFF : Word).toNat by decide
  | bit q b bits u t hu hp ha =>
    have hcu : CountersBounded u := fun i => by rw [probRead, hu]; exact hc i
    have hr : 2 ^ 24 ≤ u.lz.range.toNat := by rw [hu]; exact hs (by rw [hp]; rfl)
    exact show 2 ^ 24 ≤ t.lz.range.toNat from answer_range ha hcu hr
  | copies i len x bits w b hp hx => obtain ⟨_, _, _, _, _, rfl⟩ := copyOperands_eq hx; exact hs (by rw [hp]; rfl)
  | copiesFull i len n src x bits w hp hx => obtain ⟨_, _, _, _, _, rfl⟩ := copyOperands_eq hx; exact hs (by rw [hp]; rfl)
  | finishes hp | opens hp => exact hs (by rw [hp]; rfl)
  | lit b w bits hp | litFull b w bits hp | marker bits hp => exact hs (by rw [hp]; rfl)
  | emits j c hp | litGoesOn j c v hp => exact hs (by rw [hp]; rfl)
  | copyGoesOn j rem src v w b hp => exact hs (by rw [hp]; rfl)
  | copyGoesOnFull j rem src n src' v w hp => exact hs (by rw [hp]; rfl)

/-- Settles O53: the three properties together, since `range` stays normal by the counters' bounds, and a counter that is written is
read back by the canonical form. -/
theorem rangeStaysNormal : Obligations.RangeStaysNormal := by
  refine kept_by_moves (fun _ _ hs => hs) (fun s y hs h => ?_) (fun s y hs h => ?_) (fun _ _ _ _ _ hs => hs)
  · obtain ⟨hrams, hcounters, hrange⟩ := hs
    exact ⟨h.ramsCanonical hrams, h.countersBounded hrams.2 hcounters, h.rangeNormal hcounters hrange⟩
  · obtain ⟨hrams, hcounters, _⟩ := hs
    exact ⟨h.ramsCanonical hrams, h.countersBounded hcounters, fun hl => absurd (h.not_inLoop.symm.trans hl) nofun⟩

end Sys2Proof.Machine
end

section
/-! The window's invariants (10_state.md R28; 41_probability_models.md R175; 42_lzma_fsm.md R220; 43_output_window.md R250, R255):
where the pointers stand, how they follow `out_pos`, and what `out_pos` does not pass. -/

namespace Sys2Proof.Machine

/-! ### Before the loop (R250, R311) -/

/-- Before the loop a move writes no pointer. -/
theorem LzmaMove.nothingBeforeLoop {s : State} {y : Lzma} (h : LzmaMove s.lz y) (hs : NothingBeforeLoop s) :
    NothingBeforeLoop { s with lz := y } := by
  intro hp' hl'
  cases h with
  | stops | ends => exact absurd rfl hp'
  | dict n l d k ds hp ha hn => exact hs hp (not_inLoop_of_not_headerAccepted ha)
  | accepts n l d ds x u kn p hp ha => exact hs hp (not_inLoop_of_not_headerAccepted ha)
  | size n l x u kn p ha hl => exact hs (ne_idle_of_headerAccepted ha) hl
  | _ => cases hl'

theorem Rewound.nothingBeforeLoop {s : State} {y : Lzma} (h : Rewound s.lz y) : NothingBeforeLoop { s with lz := y } :=
  fun _ _ => ⟨h.outPos, h.winPos, h.streamPos⟩

/-! ### The geometry of an accepted header (R101, R102) -/

theorem winSizeOf_ge (ds : Word) : 4096 ≤ (winSizeOf ds).toNat := by
  unfold winSizeOf
  split
  · exact le_rfl
  · next h => rw [BitVec.lt_def] at h; exact Nat.not_lt.1 h

theorem dictCheckOf_le (ds : Word) : (dictCheckOf ds).toNat ≤ (winSizeOf ds).toNat := by
  unfold winSizeOf
  split
  · next h => rw [BitVec.lt_def] at h; exact h.le
  · exact le_rfl

/-- The fields of a valid properties byte (R102). -/
theorem props_le {d : Byte} (h : propsValid d = true) :
    (propsLc d).toNat ≤ 8 ∧ (propsLp d).toNat ≤ 4 ∧ (propsPb d).toNat ≤ 4 := by
  have hd : d.toNat < 225 := by simpa [propsValid] using h
  rw [propsLc, propsLp, propsPb, if_pos h, if_pos h, if_pos h, BitVec.toNat_ofNat, BitVec.toNat_ofNat, BitVec.toNat_ofNat]
  omega

/-- Outside a flush `win_pos` is a window index. -/
theorem pointersOk_of_not_flush {z : Lzma} (h : ∀ j c, z.phase ≠ .flush j c) :
    pointersOk z ↔ z.streamPos.toNat ≤ z.winPos.toNat ∧ z.winPos.toNat < z.winSize.toNat := by
  unfold pointersOk
  split
  · next hp => exact absurd hp (h _ _)
  · exact Iff.rfl

theorem ne_flush_of_not_inLoop {p : LzPhase} (h : inLoop p = false) (j : Nat) (c : FlushCont) : p ≠ .flush j c := by
  rintro rfl
  cases h

theorem winPos_le_of_pointersOk {z : Lzma} (h : pointersOk z) : z.winPos.toNat ≤ z.winSize.toNat := by
  unfold pointersOk at h
  split at h
  · exact h.2.2
  · exact h.2.le

/-- After the header no move writes its registers. -/
theorem LzmaMove.sameHeader {z y : Lzma} (h : LzmaMove z y) (ha : headerAccepted z.phase = true)
    (ha' : headerAccepted y.phase = true) :
    y.dictSize = z.dictSize ∧ y.dictCheck = z.dictCheck ∧ y.winSize = z.winSize ∧ y.lc = z.lc ∧ y.lp = z.lp ∧ y.pb = z.pb := by
  cases h with
  | stops | dict | ends => cases ha'
  | accepts n l d ds x u kn p hp hz => exact absurd (hz.symm.trans ha) nofun
  | copies i len x bits w b hp hx => obtain ⟨_, _, _, _, _, rfl⟩ := copyOperands_eq hx; exact ⟨rfl, rfl, rfl, rfl, rfl, rfl⟩
  | copiesFull i len n src x bits w hp hx =>
    obtain ⟨_, _, _, _, _, rfl⟩ := copyOperands_eq hx; exact ⟨rfl, rfl, rfl, rfl, rfl, rfl⟩
  | _ => exact ⟨rfl, rfl, rfl, rfl, rfl, rfl⟩

/-- The rest of a copy, which may be nothing, ends below the window's end. -/
theorem add_rem_lt {v rem W : Nat} (hv : v < W) (h : 0 < rem → v + rem < W) : v + rem < W := by
  rcases Nat.eq_zero_or_pos rem with rfl | h0
  · exact hv
  · exact h h0

/-- Bytes below the window's end leave `win_pos` a window index. -/
theorem winPos_ordered_below {p st W : Word} {n : Nat} (hst : st.toNat ≤ p.toNat) (hn : p.toNat + n < W.toNat) :
    st.toNat ≤ (p + BitVec.ofNat 32 n).toNat ∧ (p + BitVec.ofNat 32 n).toNat < W.toNat := by
  rw [toNat_add_ofNat (hn.trans W.isLt)]
  omega

/-- Bytes up to the window's end leave the pointers as a flush finds them. -/
theorem winPos_ordered_full {p st W : Word} {n : Nat} (hst : st.toNat ≤ p.toNat) (hn : p.toNat + n = W.toNat) :
    st.toNat ≤ st.toNat ∧ st.toNat ≤ (p + BitVec.ofNat 32 n).toNat ∧ (p + BitVec.ofNat 32 n).toNat ≤ W.toNat := by
  rw [toNat_add_ofNat (hn.trans_lt W.isLt)]
  omega

/-- After the header a move keeps the pointers in order (R28, R253). -/
theorem LzmaMove.pointersOk {z y : Lzma} (h : LzmaMove z y) (ha : headerAccepted z.phase = true)
    (ha' : headerAccepted y.phase = true) (hW : 0 < z.winSize.toNat) (hz : pointersOk z) : pointersOk y := by
  have hle := winPos_le_of_pointersOk hz
  have between (hp : ∀ j c, z.phase ≠ .flush j c) := (pointersOk_of_not_flush hp).1 hz
  cases h with
  | stops | dict | ends => cases ha'
  | accepts n l d ds x u kn p hp hna => exact absurd (hna.symm.trans ha) nofun
  | size n l x u kn p _ hl _ hl' =>
    exact (pointersOk_of_not_flush (ne_flush_of_not_inLoop hl')).2 (between (ne_flush_of_not_inLoop hl))
  | starts n l c _ hl => exact between (ne_flush_of_not_inLoop hl)
  | opens hp => exact between (by rw [hp]; nofun)
  | bit q b bits s t hs hp => exact between (by rw [hp]; nofun)
  | finishes hp =>
    obtain ⟨hst, hw⟩ := between (by rw [hp]; nofun)
    exact ⟨le_rfl, hst, hw.le⟩
  | marker bits hp =>
    obtain ⟨hst, hw⟩ := between (by rw [hp]; nofun)
    exact ⟨le_rfl, hst, hw.le⟩
  | lit b w bits hp hw => exact winPos_ordered_below (between (by rw [hp]; nofun)).1 hw
  | litFull b w bits hp hw => exact winPos_ordered_full (between (by rw [hp]; nofun)).1 hw
  | copies i len x bits w b hp hx hd hs hl hw =>
    obtain ⟨_, _, _, _, _, rfl⟩ := copyOperands_eq hx
    exact winPos_ordered_below (between (by rw [hp]; nofun)).1 hw
  | copiesFull i len n src x bits w hp hx hd hs h0 hn hw =>
    obtain ⟨_, _, _, _, _, rfl⟩ := copyOperands_eq hx
    exact winPos_ordered_full (between (by rw [hp]; nofun)).1 hw
  | emits j c hp hj =>
    rw [Machine.pointersOk, hp] at hz
    obtain ⟨hst, _, hw⟩ := hz
    exact ⟨hst.trans (Nat.le_succ j), hj, hw⟩
  | litGoesOn j b v hp hj hv => exact ⟨le_rfl, wrapped_lt (z := z) hv hle hW⟩
  | copyGoesOn j rem src v w b hp hj hv hw => exact winPos_ordered_below le_rfl (add_rem_lt (wrapped_lt (z := z) hv hle hW) hw)
  | copyGoesOnFull j rem src n src' v w hp hj hv h0 hn hw => exact winPos_ordered_full le_rfl hw

/-- The geometry holds where the header is accepted, and is kept from there on. -/
theorem LzmaMove.windowGeometry {s : State} {y : Lzma} (h : LzmaMove s.lz y) (hn : NothingBeforeLoop s)
    (hs : WindowGeometry s) : WindowGeometry { s with lz := y } := by
  intro ha'
  cases ha : headerAccepted s.lz.phase with
  | true =>
    obtain ⟨hdict, hsize, hlc, hlp, hpb, hpointers⟩ := hs ha
    obtain ⟨e1, e2, e3, e4, e5, e6⟩ := h.sameHeader ha ha'
    have hW : 0 < s.lz.winSize.toNat := by have := winSizeOf_ge s.lz.dictSize; rw [hsize]; omega
    have hpointers' := h.pointersOk ha ha' hW hpointers
    dsimp only
    rw [e1, e2, e3, e4, e5, e6]
    exact ⟨hdict, hsize, hlc, hlp, hpb, hpointers'⟩
  | false =>
    cases h with
    | accepts n l d ds x u kn p hp _ hv hq =>
      obtain ⟨_, hw, hst⟩ := hn hp (not_inLoop_of_not_headerAccepted ha)
      obtain ⟨hlc, hlp, hpb⟩ := props_le hv
      have hp' : inLoop p = false := by rcases hq with rfl | rfl <;> rfl
      refine ⟨rfl, rfl, hlc, hlp, hpb, (pointersOk_of_not_flush (ne_flush_of_not_inLoop hp')).2 ?_⟩
      have hW := winSizeOf_ge ds
      rw [hw, hst]
      exact ⟨le_rfl, show 0 < (winSizeOf ds).toNat by omega⟩
    | stops | dict | ends => cases ha'
    | size n l x u kn p hz => exact absurd (ha.symm.trans hz) nofun
    | starts n l c hz => exact absurd (ha.symm.trans hz) nofun
    | _ => simp [headerAccepted, *] at ha

theorem Rewound.windowGeometry {s : State} {y : Lzma} (h : Rewound s.lz y) : WindowGeometry { s with lz := y } :=
  fun ha => absurd (h.phase.symm.trans ha) nofun

theorem WindowGeometry.winSize_pos {s : State} (h : WindowGeometry s) (hl : inLoop s.lz.phase = true) :
    0 < s.lz.winSize.toNat := by
  obtain ⟨_, hsize, _⟩ := h (headerAccepted_of_inLoop hl)
  have hW := winSizeOf_ge s.lz.dictSize
  rw [hsize]
  omega

/-! ### `win_pos` follows `out_pos` (R255) -/

/-- Bytes below the window's end move `win_pos` along with `out_pos`. -/
theorem winPos_follows_below {p W : Word} {o : DWord} {n : Nat} (hp : p.toNat = o.toNat % W.toNat)
    (hn : p.toNat + n < W.toNat) (ho : o.toNat + n < 2 ^ 64) :
    (p + BitVec.ofNat 32 n).toNat = (o + BitVec.ofNat 64 n).toNat % W.toNat := by
  rw [toNat_add_ofNat (hn.trans W.isLt), toNat_add_ofNat ho, ← Nat.mod_add_mod, ← hp, Nat.mod_eq_of_lt hn]

/-- Bytes up to the window's end bring `out_pos` to a multiple of `win_size`. -/
theorem winPos_follows_full {p W : Word} {o : DWord} {n : Nat} (hp : p.toNat = o.toNat % W.toNat)
    (hn : p.toNat + n = W.toNat) (ho : o.toNat + n < 2 ^ 64) :
    p + BitVec.ofNat 32 n = W ∧ (o + BitVec.ofNat 64 n).toNat % W.toNat = 0 := by
  refine ⟨BitVec.eq_of_toNat_eq ((toNat_add_ofNat (hn.trans_lt W.isLt)).trans hn), ?_⟩
  rw [toNat_add_ofNat ho, ← Nat.mod_add_mod, ← hp, hn, Nat.mod_self]

/-- What the invariant says inside a packet and before the loop test. -/
theorem WindowFollowsOutput.between {s : State} (h : WindowFollowsOutput s) (hl : inLoop s.lz.phase = true)
    (hp : ∀ j c, s.lz.phase ≠ .flush j c) :
    s.lz.streamPos = 0 ∧ s.lz.winPos.toNat = s.lz.outPos.toNat % s.lz.winSize.toNat := by
  obtain ⟨hst, hm⟩ := h hl
  refine ⟨hst, ?_⟩
  split at hm
  · next hf => exact absurd hf (hp _ _)
  · next _ hf => exact absurd hf (hp _ _)
  · exact hm

/-- What it says where a flush at the window's end is over: `win_pos` wraps to 0. -/
theorem WindowFollowsOutput.wrapped {s : State} {j : Nat} {c : FlushCont} {v : Word} (h : WindowFollowsOutput s)
    (hp : s.lz.phase = .flush j c) (hc : c ≠ .finish) (hv : v = if s.lz.winPos = s.lz.winSize then 0 else s.lz.winPos) :
    v = 0 ∧ s.lz.outPos.toNat % s.lz.winSize.toNat = 0 := by
  obtain ⟨_, hm⟩ := h (by rw [hp]; rfl)
  rw [hp] at hm
  cases c with
  | finish => exact absurd rfl hc
  | lit b => exact ⟨by rw [hv, if_pos hm.1], hm.2⟩
  | copy rem src => exact ⟨by rw [hv, if_pos hm.1], hm.2⟩

theorem LzmaMove.windowFollowsOutput {s : State} {y : Lzma} (h : LzmaMove s.lz y) (hn : NothingBeforeLoop s)
    (hg : WindowGeometry s) (hs : WindowFollowsOutput s) : WindowFollowsOutput { s with lz := y } := by
  intro hl'
  cases h with
  | stops | dict | ends => cases hl'
  | accepts n l d ds x u kn p hp ha hv hq => rcases hq with rfl | rfl <;> cases hl'
  | size n l x u kn p ha hl ha' hlp => exact absurd (hlp.symm.trans hl') nofun
  | starts n l c ha hl =>
    obtain ⟨ho, hw, hst⟩ := hn (ne_idle_of_headerAccepted ha) hl
    exact ⟨hst, by simp [ho, hw]⟩
  | finishes hp => exact hs.between (by rw [hp]; rfl) (by rw [hp]; nofun)
  | opens hp => exact hs.between (by rw [hp]; rfl) (by rw [hp]; nofun)
  | marker bits hp => exact hs.between (by rw [hp]; rfl) (by rw [hp]; nofun)
  | bit q b bits u t hu hp => exact hs.between (by rw [hp]; rfl) (by rw [hp]; nofun)
  | lit b w bits hp hw ho =>
    obtain ⟨hst, hm⟩ := hs.between (by rw [hp]; rfl) (by rw [hp]; nofun)
    exact ⟨hst, winPos_follows_below hm hw ho⟩
  | litFull b w bits hp hw ho =>
    obtain ⟨hst, hm⟩ := hs.between (by rw [hp]; rfl) (by rw [hp]; nofun)
    exact ⟨hst, winPos_follows_full hm hw ho⟩
  | copies i len x bits w b hp hx hd hsz hl hw ho =>
    obtain ⟨_, _, _, _, _, rfl⟩ := copyOperands_eq hx
    obtain ⟨hst, hm⟩ := hs.between (by rw [hp]; rfl) (by rw [hp]; nofun)
    exact ⟨hst, winPos_follows_below hm hw ho⟩
  | copiesFull i len n src x bits w hp hx hd hsz h0 hle hw ho =>
    obtain ⟨_, _, _, _, _, rfl⟩ := copyOperands_eq hx
    obtain ⟨hst, hm⟩ := hs.between (by rw [hp]; rfl) (by rw [hp]; nofun)
    exact ⟨hst, winPos_follows_full hm hw ho⟩
  | emits j c hp hj =>
    have hm := hs (by rw [hp]; rfl)
    rw [hp] at hm
    cases c <;> exact hm
  | litGoesOn j b v hp hj hv =>
    obtain ⟨rfl, hm⟩ := hs.wrapped hp nofun hv
    exact ⟨rfl, hm.symm⟩
  | copyGoesOn j rem src v w b hp hj hv hw ho =>
    obtain ⟨rfl, hm⟩ := hs.wrapped hp nofun hv
    exact ⟨rfl, winPos_follows_below hm.symm (add_rem_lt (hg.winSize_pos (by rw [hp]; rfl)) hw) ho⟩
  | copyGoesOnFull j rem src n src' v w hp hj hv h0 hle hw ho =>
    obtain ⟨rfl, hm⟩ := hs.wrapped hp nofun hv
    exact ⟨rfl, winPos_follows_full hm.symm hw ho⟩

/-- Settles O55: before the loop nothing is produced, so the header's geometry and the start of the loop meet the three properties;
and the moves inside the loop keep them. -/
theorem windowFollowsOutputIsKept : Obligations.WindowFollowsOutputIsKept := by
  refine kept_by_moves (fun _ _ hs => hs) (fun s y hs h => ?_) (fun s y _ h => ?_) (fun _ _ _ _ _ hs => hs)
  · obtain ⟨hbefore, hgeometry, hfollows⟩ := hs
    exact ⟨h.nothingBeforeLoop hbefore, h.windowGeometry hbefore hgeometry, h.windowFollowsOutput hbefore hgeometry hfollows⟩
  · exact ⟨h.nothingBeforeLoop, h.windowGeometry, fun hl => absurd (h.not_inLoop.symm.trans hl) nofun⟩

/-! ### A known size (R220) -/

theorem le_size_of_sizeOk {len : Nat} {z : Lzma} (h : sizeOk len z = true) (hk : z.sizeKnown = true) :
    z.outPos.toNat + len ≤ z.usize.toNat := by
  simpa [sizeOk, hk] using h

/-- What a copy has written and what it has left are its length. -/
theorem copy_left_le {o : DWord} {n len size : Nat} (hn : n ≤ len) (ho : o.toNat + n < 2 ^ 64) (h : o.toNat + len ≤ size) :
    (o + BitVec.ofNat 64 n).toNat + (len - n) ≤ size := by
  rw [toNat_add_ofNat ho]
  omega

/-- A move adds to `out_pos` what it takes from a copy, and the checks before a packet and a copy leave room for it. -/
theorem LzmaMove.sizeRespected {s : State} {y : Lzma} (h : LzmaMove s.lz y) (hn : NothingBeforeLoop s)
    (hs : SizeRespected s) : SizeRespected { s with lz := y } := by
  intro hl' hk
  cases h with
  | stops | dict | ends => cases hl'
  | accepts n l d ds x u kn p hp ha hv hq => rcases hq with rfl | rfl <;> cases hl'
  | size n l x u kn p ha hl ha' hlp => exact absurd (hlp.symm.trans hl') nofun
  | starts n l c ha hl =>
    obtain ⟨ho, _, _⟩ := hn (ne_idle_of_headerAccepted ha) hl
    exact show s.lz.outPos.toNat ≤ s.lz.usize.toNat by rw [ho]; exact Nat.zero_le _
  | opens hp hu => exact hu hk
  | finishes hp =>
    have hm := hs (by rw [hp]; rfl) hk
    rwa [hp] at hm
  | bit q b bits u t hu hp =>
    have hm := hs (by rw [hp]; rfl) hk
    rwa [hp] at hm
  | marker bits hp hend => exact (congrArg BitVec.toNat (hend hk)).le
  | lit b w bits hp hw ho | litFull b w bits hp hw ho =>
    have hm := hs (by rw [hp]; rfl) hk
    rw [hp] at hm
    exact (toNat_add_ofNat ho).trans_le hm
  | copies i len x bits w b hp hx hd hsz hl hw ho =>
    obtain ⟨_, _, _, _, _, rfl⟩ := copyOperands_eq hx
    exact (toNat_add_ofNat ho).trans_le (le_size_of_sizeOk hsz hk)
  | copiesFull i len n src x bits w hp hx hd hsz h0 hle hw ho =>
    obtain ⟨_, _, _, _, _, rfl⟩ := copyOperands_eq hx
    exact copy_left_le hle ho (le_size_of_sizeOk hsz hk)
  | emits j c hp hj =>
    have hm := hs (by rw [hp]; rfl) hk
    rw [hp] at hm
    cases c <;> exact hm
  | litGoesOn j b v hp hj hv =>
    have hm := hs (by rw [hp]; rfl) hk
    rwa [hp] at hm
  | copyGoesOn j rem src v w b hp hj hv hw ho =>
    have hm := hs (by rw [hp]; rfl) hk
    rw [hp] at hm
    exact (toNat_add_ofNat ho).trans_le hm
  | copyGoesOnFull j rem src n src' v w hp hj hv h0 hle hw ho =>
    have hm := hs (by rw [hp]; rfl) hk
    rw [hp] at hm
    exact copy_left_le hle ho hm

/-- Settles O56: a decode enters its loop at `out_pos` 0, and the moves inside the loop do not pass the size. -/
theorem sizeIsRespected : Obligations.SizeIsRespected := by
  refine kept_by_moves (fun _ _ hs => hs) (fun s y hs h => ?_) (fun s y _ h => ?_) (fun _ _ _ _ _ hs => hs)
  · exact ⟨h.nothingBeforeLoop hs.1, h.sizeRespected hs.1 hs.2⟩
  · exact ⟨h.nothingBeforeLoop, fun hl => absurd (h.not_inLoop.symm.trans hl) nofun⟩

/-! ### A validated `rep0` (R175, R211) -/

/-- A copy packet is checked before it is performed, a literal leaves a literal state, and no other move writes `rep0` or the state
inside the loop. -/
theorem LzmaMove.matchByteExists {s : State} {y : Lzma} (h : LzmaMove s.lz y) (hs : MatchByteExists s) :
    MatchByteExists { s with lz := y } := by
  intro hl' hst
  have hout := h.outPos_le
  have same : inLoop s.lz.phase = true → 7 ≤ s.lz.state.value →
      s.lz.rep0.toNat < y.outPos.toNat ∧ s.lz.rep0.toNat < s.lz.dictCheck.toNat := fun hl hv =>
    (hs hl hv).imp_left (·.trans_le hout)
  cases h with
  | stops | dict | ends => cases hl'
  | accepts n l d ds x u kn p hp ha hv hq => rcases hq with rfl | rfl <;> cases hl'
  | size n l x u kn p ha hl ha' hlp => exact absurd (hlp.symm.trans hl') nofun
  | starts n l c ha hl => exact absurd (show 7 ≤ LzState.litLit.value from hst) (by decide)
  | lit b w bits hp => exact absurd (litNext_value _) hst.not_gt
  | litGoesOn j b v hp => exact absurd (litNext_value _) hst.not_gt
  | copies i len x bits w b hp hx hd =>
    obtain ⟨_, _, _, _, _, rfl⟩ := copyOperands_eq hx
    exact ((distanceOk_iff _).1 hd).imp_left (·.trans_le hout)
  | copiesFull i len n src x bits w hp hx hd =>
    obtain ⟨_, _, _, _, _, rfl⟩ := copyOperands_eq hx
    exact ((distanceOk_iff _).1 hd).imp_left (·.trans_le hout)
  | finishes hp | opens hp => exact same (by rw [hp]; rfl) hst
  | litFull b w bits hp | marker bits hp => exact same (by rw [hp]; rfl) hst
  | bit q b bits u t hu hp => exact same (by rw [hp]; rfl) hst
  | emits j c hp => exact same (by rw [hp]; rfl) hst
  | copyGoesOn j rem src v w b hp => exact same (by rw [hp]; rfl) hst
  | copyGoesOnFull j rem src n src' v w hp => exact same (by rw [hp]; rfl) hst

end Sys2Proof.Machine
end

section
/-! Every counter the packet routine asks for exists, and a match byte stands where it is read (30_encoding.md R30, R121 to R131;
41_probability_models.md R175). -/

namespace Sys2Proof

variable {α β : Type}

/-- The question names a counter below `n`, or none. -/
def Query.Below (n : Nat) : Query → Prop
  | .counter i => i < n
  | .direct => True

/-- A routine asks for counters below `n` only and never lacks a match byte. -/
def Tree.Safe (n : Nat) : Tree α → Prop
  | .done _ => True
  | .ask q k => q.Below n ∧ ∀ b, Tree.Safe n (k b)
  | .noMatchByte => False

theorem Tree.Safe.bind {n : Nat} {f : α → Tree β} (hf : ∀ a, (f a).Safe n) : ∀ {t : Tree α}, t.Safe n → (t.bind f).Safe n
  | .done a, _ => hf a
  | .ask _ _, h => ⟨h.1, fun b => Tree.Safe.bind hf (h.2 b)⟩

theorem Tree.Safe.map {n : Nat} {f : α → β} {t : Tree α} (h : t.Safe n) : (t.bind (fun a => .done (f a))).Safe n :=
  Tree.Safe.bind (f := fun a => .done (f a)) (fun _ => trivial) h

theorem Tree.Safe.walk {n : Nat} : ∀ {bits : List Bool} {t : Tree α}, t.Safe n → (t.walk bits).1.Safe n
  | [], _, h => h
  | _ :: _, .done _, h => h
  | b :: bs, .ask _ k, h => Tree.Safe.walk (bits := bs) (t := k b) (h.2 b)

/-! ### The routines -/

/-- The two children of a node with `n` bits below them stay within the node's share of the tree. -/
theorem child_le {m n : Nat} (b : Bool) : (2 * m + b.toNat + 1) * 2 ^ n ≤ (m + 1) * 2 ^ (n + 1) := by
  have hb := Bool.toNat_le b
  calc (2 * m + b.toNat + 1) * 2 ^ n ≤ (2 * m + 2) * 2 ^ n := Nat.mul_le_mul_right _ (by omega)
    _ = (m + 1) * 2 ^ (n + 1) := by ring

theorem lt_succ_mul_two_pow (m n : Nat) : m < (m + 1) * 2 ^ n :=
  Nat.le_mul_of_pos_right (m + 1) (Nat.two_pow_pos n)

theorem bitTreeFrom_safe {base N : Nat} : ∀ {n m : Nat}, base + (m + 1) * 2 ^ n ≤ N → (bitTreeFrom base n m).Safe N
  | 0, _, _ => trivial
  | n + 1, m, h => by
    have hm := lt_succ_mul_two_pow m (n + 1)
    refine ⟨show base + m < N by omega, fun b => bitTreeFrom_safe ?_⟩
    have hb := child_le (m := m) (n := n) b
    omega

theorem bitTreeDecode_safe {base n N : Nat} (h : base + 2 * 2 ^ n ≤ N) : (bitTreeDecode base n).Safe N :=
  (bitTreeFrom_safe (m := 1) h).map

theorem bitTreeReverseFrom_safe {base N : Nat} : ∀ {n m k sym : Nat}, base + (m + 1) * 2 ^ n ≤ N →
    (bitTreeReverseFrom base n m k sym).Safe N
  | 0, _, _, _, _ => trivial
  | n + 1, m, k, sym, h => by
    have hm := lt_succ_mul_two_pow m (n + 1)
    refine ⟨show base + m < N by omega, fun b => bitTreeReverseFrom_safe ?_⟩
    have hb := child_le (m := m) (n := n) b
    omega

theorem directBitsFrom_safe {N : Nat} : ∀ {n r : Nat}, (directBitsFrom n r).Safe N
  | 0, _ => trivial
  | _ + 1, _ => ⟨trivial, fun _ => directBitsFrom_safe⟩

/-- A matched literal stays within the 768 counters of its context (R178). -/
theorem litMatchedFrom_safe {base N : Nat} (hN : base + 768 ≤ N) : ∀ {n mb sym : Nat}, (sym + 1) * 2 ^ n ≤ 512 →
    (litMatchedFrom base n mb sym).Safe N
  | 0, _, _, _ => trivial
  | n + 1, mb, sym, h => by
    have hchild (b : Bool) : (2 * sym + b.toNat + 1) * 2 ^ n ≤ 512 := (child_le b).trans h
    have hsym : (sym + 1) * 2 ≤ 512 :=
      (Nat.mul_le_mul_left (sym + 1) (Nat.le_self_pow n.succ_ne_zero 2)).trans h
    refine ⟨show base + (1 + mb / 128 % 2) * 256 + sym < N by omega, fun b => ?_⟩
    dsimp only
    split
    · exact litMatchedFrom_safe hN (hchild b)
    · exact bitTreeFrom_safe (by have := hchild b; omega)

theorem litDecode_safe {c : Ctx} {N : Nat} (hN : c.litBase + 768 ≤ N) (hc : 7 ≤ c.state → c.matchByte ≠ none) :
    (litDecode c).Safe N := by
  unfold litDecode
  split
  · next h7 =>
    obtain ⟨mb, hmb⟩ := Option.ne_none_iff_exists'.1 (hc h7)
    rw [hmb]
    exact (litMatchedFrom_safe hN (by norm_num)).map
  · exact bitTreeDecode_safe (by omega)

/-- A length (R180), with the position state below 16. -/
theorem lenDecode_safe {l ps N : Nat} (hps : ps < 16) (hN : l + 770 ≤ N) : (lenDecode l ps).Safe N := by
  refine ⟨show l + 0 < N by omega, fun b => ?_⟩
  dsimp only
  split
  · exact (bitTreeDecode_safe (by omega)).map
  · refine ⟨show l + 1 < N by omega, fun b => ?_⟩
    dsimp only
    split
    · exact (bitTreeDecode_safe (by omega)).map
    · exact (bitTreeDecode_safe (by omega)).map

theorem slotDecode_safe {len N : Nat} (hN : 752 ≤ N) : (slotDecode len).Safe N :=
  bitTreeDecode_safe (by unfold basePosSlot; omega)

theorem distDecode_safe {slot N : Nat} (hN : 848 ≤ N) : (distDecode slot).Safe N := by
  unfold distDecode
  split
  · trivial
  · next h4 =>
    split
    · next h14 =>
      refine Tree.Safe.map (bitTreeReverseFrom_safe ?_)
      have hpow : 2 ^ (slot / 2 - 1) ≤ 2 ^ 5 := Nat.pow_le_pow_right (by norm_num) (by omega)
      have hbase : (2 + slot % 2) * 2 ^ (slot / 2 - 1) ≤ 3 * 2 ^ 5 := Nat.mul_le_mul (by omega) hpow
      rw [baseSpecPos, slotBase, slotExtraBits, if_neg h4, if_neg h4]
      omega
    · exact directBitsFrom_safe.bind fun _ =>
        Tree.Safe.map (bitTreeReverseFrom_safe (by unfold baseAlign; omega))

theorem repDecode_safe {c : Ctx} {N : Nat} (mk : Nat → Instr) (hps : c.ps < 16) (hN : 2102 ≤ N) : (repDecode c mk).Safe N :=
  (lenDecode_safe hps (by unfold baseRepLenCoder; omega)).map

theorem matchDecode_safe {c : Ctx} {N : Nat} (hps : c.ps < 16) (hN : 1588 ≤ N) : (matchDecode c).Safe N := by
  refine (lenDecode_safe hps (by unfold baseLenCoder; omega)).bind fun len =>
    (slotDecode_safe (by omega)).bind fun slot => (distDecode_safe (by omega)).bind fun dist => ?_
  split <;> trivial

/-- A packet in a context of the index map (R121 to R131). -/
theorem packetDecode_safe {c : Ctx} {N : Nat} (hst : c.state < 12) (hps : c.ps < 16) (hbase : baseLiteral ≤ c.litBase)
    (hN : c.litBase + 768 ≤ N) (hc : 7 ≤ c.state → c.matchByte ≠ none) : (packetDecode c).Safe N := by
  have hN' : 2614 ≤ N := by unfold baseLiteral at hbase; omega
  refine ⟨show c.state * 16 + c.ps < N by omega, fun b => ?_⟩
  dsimp only
  split
  · exact (litDecode_safe hN hc).map
  refine ⟨show 192 + c.state < N by omega, fun b => ?_⟩
  dsimp only
  split
  · exact matchDecode_safe hps (by omega)
  refine ⟨show 204 + c.state < N by omega, fun b => ?_⟩
  dsimp only
  split
  · refine ⟨show 240 + c.state * 16 + c.ps < N by omega, fun b => ?_⟩
    dsimp only
    split
    · trivial
    · exact repDecode_safe _ hps (by omega)
  refine ⟨show 216 + c.state < N by omega, fun b => ?_⟩
  dsimp only
  split
  · exact repDecode_safe _ hps (by omega)
  refine ⟨show 228 + c.state < N by omega, fun b => ?_⟩
  dsimp only
  split <;> exact repDecode_safe _ hps (by omega)

end Sys2Proof
end

section
/-! No step faults (20_memory.md R70, R72; 43_output_window.md R256; log 10). -/

namespace Sys2Proof.Machine

/-! ### The window (R70) -/

section
variable {s : State} {f : Fault}

theorem endCopy_not_fault (hw : s.lz.winPos.toNat ≤ s.lz.winSize.toNat) (hW : 0 < s.lz.winSize.toNat) :
    endCopy s ≠ .fault f := by
  rw [endCopy, getByte_of_lt (d := 0) hw hW]
  nofun

/-- A copy's source is a window index, and each byte it writes is below the window's end. -/
theorem copyRun_not_fault : ∀ (rem src : Nat) {s : State}, s.lz.winPos.toNat < s.lz.winSize.toNat →
    copyRun rem src s ≠ .fault f
  | 0, src, s, hw => endCopy_not_fault hw.le (Nat.zero_lt_of_lt hw)
  | rem + 1, src, s, hw => by
    have hsrc : copySource src s < s.lz.winSize.toNat := by unfold copySource; split <;> omega
    rw [copyRun, memRead_of_lt hsrc]
    intro h
    rcases appendByte_fault h with hbad | h
    · exact hbad hw
    · split at h
      · cases h
      · next hfull =>
        refine copyRun_not_fault rem _ ?_ h
        rw [BitVec.toNat_eq] at hfull
        rw [appended_winPos _ hw] at hfull ⊢
        exact lt_of_le_of_ne hw hfull

theorem copyStep_not_fault {len : Nat} (hw : s.lz.winPos.toNat < s.lz.winSize.toNat)
    (hdict : s.lz.dictCheck.toNat ≤ s.lz.winSize.toNat) : copyStep len s ≠ .fault f := by
  unfold copyStep
  split
  · next hd =>
    have hrep := ((distanceOk_iff s.lz).1 hd).2.trans_le hdict
    have hback := (backIndex_bounds hw.le hrep).1
    split
    · rw [copyBlock, if_neg (by omega)]
      exact copyRun_not_fault len _ hw
    · nofun
  · nofun

theorem putLiteral_not_fault {b : Byte} (hw : s.lz.winPos.toNat < s.lz.winSize.toNat) : putLiteral b s ≠ .fault f := by
  intro h
  rcases appendByte_fault h with hbad | h
  · exact hbad hw
  · split at h <;> cases h

theorem packet_not_fault {i : Instr} (hi : isPacket i = true) (hw : s.lz.winPos.toNat < s.lz.winSize.toNat)
    (hdict : s.lz.dictCheck.toNat ≤ s.lz.winSize.toNat) : exec i s ≠ .fault f := by
  rcases packet_cases hi s.lz with ⟨b, rfl⟩ | ⟨len, rfl⟩ | ⟨len, z, hz⟩
  · exact putLiteral_not_fault hw
  · rw [exec, execEos]
    split <;> nofun
  · rw [exec_copy hz]
    obtain ⟨_, _, _, _, _, rfl⟩ := copyOperands_eq hz
    exact copyStep_not_fault hw hdict

theorem flushTurn_not_fault {j : Nat} {c : FlushCont} (hw : s.lz.winPos.toNat ≤ s.lz.winSize.toNat)
    (hW : 0 < s.lz.winSize.toNat) : flushTurn j c s ≠ .fault f := by
  by_cases hj : j < s.lz.winPos.toNat
  · rw [flushTurn_of_lt hj (hj.trans_le hw)]
    nofun
  · rw [flushTurn_of_ge (Nat.not_lt.1 hj)]
    cases c with
    | copy rem src => exact copyRun_not_fault rem src (wrapped_lt (z := s.lz) rfl hw hW)
    | lit b => nofun
    | finish => nofun

/-! ### A decoded bit (R72) -/

theorem normalizeThen_not_fault {b : Bool} : (Machine.normalize s).bind (fun _ t => .ok b t) ≠ .fault f := by
  intro h
  rcases bind_fault h with h | ⟨_, _, _, h⟩
  · exact normalize_not_fault h
  · cases h

/-- A bit whose counter exists does not fault. -/
theorem answer_not_fault {q : Query} (h : q.Below (probCount s.lz.lc.toNat s.lz.lp.toNat)) : answer q s ≠ .fault f := by
  cases q with
  | counter i =>
    rw [answer, decodeBit, if_pos (show i < _ from h)]
    split <;> exact normalizeThen_not_fault
  | direct =>
    rw [answer, directBit]
    split <;> exact normalizeThen_not_fault

end

/-! ### The contexts of a packet -/

theorem LzState.value_lt (st : LzState) : st.value < 12 := by cases st <;> decide

/-- The literal context is one of the `2^(lc + lp)` of R130. -/
theorem litContext_lt {lc lp o : Nat} (p : Byte) (hlc : lc ≤ 8) : o % 2 ^ lp * 2 ^ lc + p.toNat / 2 ^ (8 - lc) < 2 ^ (lc + lp) := by
  have hpos : o % 2 ^ lp + 1 ≤ 2 ^ lp := Nat.mod_lt _ (Nat.two_pow_pos lp)
  have hbyte : p.toNat / 2 ^ (8 - lc) < 2 ^ lc := by
    apply Nat.div_lt_of_lt_mul
    rw [← pow_add, Nat.sub_add_cancel hlc]
    exact p.isLt
  calc o % 2 ^ lp * 2 ^ lc + p.toNat / 2 ^ (8 - lc) < (o % 2 ^ lp + 1) * 2 ^ lc := by rw [Nat.succ_mul]; omega
    _ ≤ 2 ^ lp * 2 ^ lc := Nat.mul_le_mul_right _ hpos
    _ = 2 ^ (lc + lp) := by rw [← pow_add, Nat.add_comm]

/-- Inside a packet the routine is safe: the header's properties bound its contexts, and `rep0` is validated where a literal needs
the match byte. -/
theorem packetDecode_ctxOf_safe {s : State} (hg : WindowGeometry s) (hm : MatchByteExists s) (hl : inLoop s.lz.phase = true) :
    (packetDecode (ctxOf s)).Safe (probCount s.lz.lc.toNat s.lz.lp.toNat) := by
  obtain ⟨hdict, hsize, hlc, _, hpb, hp⟩ := hg (headerAccepted_of_inLoop hl)
  have hctx := litContext_lt (o := s.lz.outPos.toNat) (lp := s.lz.lp.toNat) s.lz.prevByte hlc
  have hpow : 2 ^ s.lz.pb.toNat ≤ 2 ^ 4 := Nat.pow_le_pow_right (by norm_num) hpb
  rw [ctxOf_eq]
  refine packetDecode_safe s.lz.state.value_lt ((Nat.mod_lt _ (Nat.two_pow_pos _)).trans_le hpow) ?_ ?_ fun hst => ?_
  · exact Nat.le_add_right 1846 _
  · dsimp only [probCount]
    omega
  · have hrep : s.lz.rep0.toNat < s.lz.winSize.toNat := by
      have hle := dictCheckOf_le s.lz.dictSize
      rw [← hdict, ← hsize] at hle
      exact (hm hl hst).2.trans_le hle
    dsimp only
    rw [getByte_of_lt (winPos_le_of_pointersOk hp) hrep]
    nofun

/-! ### A turn and a step -/

theorem readTurn_not_fault {s : State} {k : Byte → State → State} {f : Fault} :
    (readIn s).turn .lzma (fun b t => .next (k b t)) ≠ some (.fault f) := by
  intro h
  rcases turn_some h with ⟨_, _, _, h⟩ | ⟨_, _, _, h⟩ | ⟨_, h, _⟩ | ⟨_, _, h⟩
  · cases h
  · cases h
  · exact readIn_not_fault h
  · cases h

theorem packetTurn_not_fault {s : State} {bits : List Bool} {f : Fault} (hg : WindowGeometry s) (hm : MatchByteExists s)
    (hp : s.lz.phase = .packet bits) : packetTurn bits s ≠ some (.fault f) := by
  have hl : inLoop s.lz.phase = true := by rw [hp]; rfl
  have hsafe := (packetDecode_ctxOf_safe hg hm hl).walk (bits := bits)
  obtain ⟨hdict, hsize, _, _, _, hpointers⟩ := hg (headerAccepted_of_inLoop hl)
  have hw : s.lz.winPos.toNat < s.lz.winSize.toNat := by
    rw [pointersOk, hp] at hpointers
    exact hpointers.2
  have hle := dictCheckOf_le s.lz.dictSize
  rw [← hdict, ← hsize] at hle
  unfold packetTurn
  split
  · next i r hi =>
    intro h
    exact packet_not_fault (packet_of_walk hi).1 hw hle (Option.some.inj h)
  · next hi => rw [hi] at hsafe; exact absurd hsafe id
  · next q k r hi =>
    rw [hi] at hsafe
    split
    · nofun
    · nofun
    · nofun
    · next ha => exact absurd ha (answer_not_fault hsafe.1)
    · nofun

theorem lzmaTurn_not_fault {s : State} {f : Fault} (hg : WindowGeometry s) (hm : MatchByteExists s) :
    lzmaTurn s ≠ some (.fault f) := by
  unfold lzmaTurn
  split
  · split
    · nofun
    · exact readTurn_not_fault
    · exact readTurn_not_fault
    · exact readTurn_not_fault
    · exact readTurn_not_fault
    · exact readTurn_not_fault
    · nofun
    · next bits hp => exact packetTurn_not_fault hg hm hp
    · next j c hp =>
      have hl : inLoop s.lz.phase = true := by rw [hp]; rfl
      obtain ⟨_, _, _, _, _, hpointers⟩ := hg (headerAccepted_of_inLoop hl)
      intro h
      exact flushTurn_not_fault (winPos_le_of_pointersOk hpointers) (hg.winSize_pos hl) (Option.some.inj h)
  · nofun

/-- Settles O59: a step that stops is a turn of the LZMA engine, which the invariants keep from faulting; and its moves
keep them. -/
theorem noStepFaults : Obligations.NoStepFaults := by
  have hkept : KeptByStep (fun s => NothingBeforeLoop s ∧ WindowGeometry s ∧ MatchByteExists s) := by
    refine kept_by_moves (fun _ _ hs => hs) (fun s y hs h => ?_) (fun s y _ h => ?_) (fun _ _ _ _ _ hs => hs)
    · obtain ⟨hbefore, hgeometry, hmatch⟩ := hs
      exact ⟨h.nothingBeforeLoop hbefore, h.windowGeometry hbefore hgeometry, h.matchByteExists hmatch⟩
    · exact ⟨h.nothingBeforeLoop, h.windowGeometry, fun hl => absurd (h.not_inLoop.symm.trans hl) nofun⟩
  intro s hn hg hm
  refine ⟨?_, hkept s ⟨hn, hg, hm⟩⟩
  rintro ⟨f, hf⟩
  rcases step_goesOn_or_lzma s with ⟨t, ht⟩ | ⟨plan, hl⟩
  · rw [ht] at hf; cases hf
  · rw [hf] at hl
    exact lzmaTurn_not_fault (s := { s with host := { s.host with schedule := plan } }) hg hm hl

end Sys2Proof.Machine
end

section
/-! `p_bitpos` along the layout of the dataset (30_encoding.md R135 to R137; 44_dataset_parser.md R290). -/

namespace Sys2Proof.Machine

/-! ### The layout's bounds (R137) -/

/-- The bits of the records before the `i`-th and of the `i`-th itself are within the array. -/
theorem record_end_le {i n w : Nat} (h : i < n) : i * w + w ≤ n * w := by
  rw [← Nat.succ_mul]
  exact Nat.mul_le_mul_right w h

/-- A field ends within the dataset. -/
theorem fieldEnd_le_datasetBits {p : Parser} {f : PField} (h : fieldIndexOk p f) :
    fieldOffset p f + fieldWidth p f ≤ datasetBits p := by
  have hrecords : 272 ≤ datasetBits p := by unfold datasetBits locsOffset binsOffset; omega
  unfold datasetBits locsOffset binsOffset at *
  cases f with
  | magic k =>
    have hk : k ≤ 2 := h
    simp only [fieldOffset, fieldWidth]
    omega
  | tempCode =>
    have hi := record_end_le (w := p.bcTemperature.toNat) h
    simp only [fieldOffset, fieldWidth, temperatureBits]
    omega
  | binMonthDelta | binTempIndex md =>
    have hi := record_end_le (w := binEntryBits p) h
    have hentry : binEntryBits p = p.bcMonthDelta.toNat + p.bcTemperatureIndex.toNat := rfl
    simp only [fieldOffset, fieldWidth, binsOffset]
    omega
  | locLat | locLon la | locBinIndex la lo =>
    have hi := record_end_le (w := locEntryBits p) h
    have hentry : locEntryBits p = 64 + p.bcBinIndex.toNat := rfl
    simp only [fieldOffset, fieldWidth, locsOffset, binsOffset]
    omega
  | _ =>
    simp only [fieldOffset, fieldWidth]
    omega

/-- No dataset is so long that `p_bitpos` wraps. -/
theorem datasetBits_lt (p : Parser) : datasetBits p < 2 ^ 64 := by
  have ht : temperatureBits p ≤ 2 ^ 32 * 2 ^ 8 := Nat.mul_le_mul p.countTemperatures.isLt.le p.bcTemperature.isLt.le
  have hb : p.countBins.toNat * binEntryBits p ≤ 2 ^ 32 * 2 ^ 9 :=
    Nat.mul_le_mul p.countBins.isLt.le (by unfold binEntryBits; omega)
  have hl : p.countLocations.toNat * locEntryBits p ≤ 2 ^ 32 * 2 ^ 9 :=
    Nat.mul_le_mul p.countLocations.isLt.le (by unfold locEntryBits; omega)
  unfold datasetBits locsOffset binsOffset
  omega

/-! ### The loop tests (R282, R285, R286) -/

/-- One more location, or the dataset's end. -/
theorem nextLocation_followsLayout {s : State} (hi : s.ps.pI.toNat ≤ s.ps.countLocations.toNat)
    (hb : s.ps.bitpos.toNat = locsOffset s.ps + s.ps.pI.toNat * locEntryBits s.ps) :
    BitPositionFollowsLayout (nextLocation s) := by
  unfold nextLocation
  split
  · next h => exact ⟨h, Nat.zero_le _, hb⟩
  · next h =>
    have hend : s.ps.pI.toNat = s.ps.countLocations.toNat := Nat.le_antisymm hi (Nat.not_lt.1 h)
    have hall : s.ps.bitpos.toNat = datasetBits s.ps := by rw [hb, hend, datasetBits]
    split <;> exact hall

theorem startLocations_followsLayout {s : State} (hb : s.ps.bitpos.toNat = locsOffset s.ps) :
    BitPositionFollowsLayout (startLocations s) :=
  nextLocation_followsLayout (Nat.zero_le _) (by rw [hb]; simp; rfl)

/-- One more bin, or the locations' offset. -/
theorem nextBin_followsLayout {s : State} (hi : s.ps.pI.toNat ≤ s.ps.countBins.toNat)
    (hb : s.ps.bitpos.toNat = binsOffset s.ps + s.ps.pI.toNat * binEntryBits s.ps) :
    BitPositionFollowsLayout (nextBin s) := by
  unfold nextBin
  split
  · next h => exact ⟨h, Nat.zero_le _, hb⟩
  · next h =>
    have hend : s.ps.pI.toNat = s.ps.countBins.toNat := Nat.le_antisymm hi (Nat.not_lt.1 h)
    have hall : s.ps.bitpos.toNat = locsOffset s.ps := by rw [hb, hend, locsOffset]
    split <;> exact hall

theorem startBins_followsLayout {s : State} (hb : s.ps.bitpos.toNat = binsOffset s.ps) :
    BitPositionFollowsLayout (startBins s) :=
  nextBin_followsLayout (Nat.zero_le _) (by rw [hb]; simp; rfl)

/-- One more temperature, or the bins. -/
theorem nextTemperature_followsLayout {s : State} (hi : s.ps.pI.toNat ≤ s.ps.countTemperatures.toNat)
    (hb : s.ps.bitpos.toNat = 272 + s.ps.pI.toNat * s.ps.bcTemperature.toNat) :
    BitPositionFollowsLayout (nextTemperature s) := by
  unfold nextTemperature
  split
  · next h => exact ⟨h, Nat.zero_le _, hb⟩
  · next h =>
    have hend : s.ps.pI.toNat = s.ps.countTemperatures.toNat := Nat.le_antisymm hi (Nat.not_lt.1 h)
    exact startBins_followsLayout (by rw [hb, hend, binsOffset, temperatureBits])

/-- A register below a bound goes up by 1 without wrapping. -/
theorem toNat_add_one {w n : Nat} {p : BitVec w} (h : p.toNat < n) (hn : n < 2 ^ w) : (p + 1).toNat = p.toNat + 1 :=
  toNat_add_ofNat (n := 1) (by omega)

/-! ### A field (R271, R277) -/

/-- A complete field leaves `p_bitpos` at the control point after it. -/
theorem fieldDone_followsLayout {f : PField} {s : State} (v : Word) (hi : fieldIndexOk s.ps f)
    (hb : s.ps.bitpos.toNat = fieldOffset s.ps f + fieldWidth s.ps f) : BitPositionFollowsLayout (fieldDone f v s) := by
  cases f with
  | magic k =>
    have hk : k ≤ 2 := hi
    rw [fieldDone_magic hk]
    by_cases h2 : k = 2
    · subst h2
      rw [if_pos rfl, if_pos rfl]
      split
      · exact ⟨trivial, Nat.zero_le _, hb⟩
      · trivial
    · rw [if_neg h2, if_neg h2]
      split
      · exact ⟨show k + 1 ≤ 2 by omega, Nat.zero_le _, hb⟩
      · trivial
  | version =>
    rw [fieldDone]
    split
    · exact ⟨trivial, Nat.zero_le _, hb⟩
    · trivial
  | bcBinIndex =>
    rw [fieldDone, checkWidths]
    split
    · trivial
    · refine nextTemperature_followsLayout (Nat.zero_le _) ?_
      exact hb.trans (by simp [fieldOffset, fieldWidth])
  | tempCode =>
    have hnext : s.ps.bitpos.toNat = 272 + (s.ps.pI.toNat + 1) * s.ps.bcTemperature.toNat := by
      rw [hb, Nat.succ_mul, ← Nat.add_assoc]; rfl
    rw [fieldDone, offerTemperature]
    split <;> exact ⟨hi, hnext⟩
  | binTempIndex md =>
    have hnext : s.ps.bitpos.toNat = binsOffset s.ps + (s.ps.pI.toNat + 1) * binEntryBits s.ps := by
      rw [hb, Nat.succ_mul, ← Nat.add_assoc]; exact Nat.add_assoc _ _ _
    rw [fieldDone, offerBin]
    split <;> exact ⟨hi, hnext⟩
  | locBinIndex la lo =>
    have hnext : s.ps.bitpos.toNat = locsOffset s.ps + (s.ps.pI.toNat + 1) * locEntryBits s.ps := by
      rw [hb, Nat.succ_mul, ← Nat.add_assoc]; exact Nat.add_assoc _ _ _
    rw [fieldDone, offerLocation]
    split <;> exact ⟨hi, hnext⟩
  | binMonthDelta | locLat | locLon la => exact ⟨hi, Nat.zero_le _, hb⟩
  | _ => exact ⟨trivial, Nat.zero_le _, hb⟩

/-- A turn inside a field moves `p_bitpos` by the bit it reads. -/
theorem fieldTurn_followsLayout {f : PField} {k : Nat} {v : Word} {s t : State} (hs : BitPositionFollowsLayout s)
    (hp : s.ps.phase = .field f k v) (h : fieldTurn f k v s = some (.next t)) : BitPositionFollowsLayout t := by
  rw [BitPositionFollowsLayout, hp] at hs
  obtain ⟨hi, hk, hb⟩ := hs
  rcases fieldTurn_next h with ⟨hlt, b, u, hu, rfl⟩ | ⟨_, rfl⟩ | ⟨hge, rfl⟩
  · obtain ⟨hbit, hcursor⟩ := pReadBit_ok hu
    have hend := fieldEnd_le_datasetBits hi
    have hbitpos : u.ps.bitpos.toNat = fieldOffset s.ps f + (k + 1) := by
      rw [hbit, toNat_add_one (n := datasetBits s.ps) (by omega) (datasetBits_lt s.ps), hb, Nat.add_assoc]
    rw [hcursor]
    exact ⟨hi, hlt, hbitpos⟩
  · trivial
  · exact fieldDone_followsLayout v hi (by rw [hb]; omega)

/-! ### A turn and a step -/

theorem parserTurn_followsLayout {s t : State} (hs : BitPositionFollowsLayout s) (h : parserTurn s = some (.next t)) :
    BitPositionFollowsLayout t := by
  obtain ⟨_, _, ⟨f, k, v, hp, hf⟩ | ⟨hp, rfl⟩ | ⟨md, ti, hp, rfl⟩ | ⟨hp, rfl⟩ | ⟨la, lo, bi, hp, rfl⟩ | ⟨_, rfl⟩⟩ :=
    parserTurn_next h
  · exact fieldTurn_followsLayout hs hp hf
  · rw [BitPositionFollowsLayout, hp] at hs
    have hi := toNat_add_one hs.1 (BitVec.isLt _)
    exact nextTemperature_followsLayout (hi.trans_le hs.1) (hs.2.trans (by rw [← hi]; rfl))
  · rw [BitPositionFollowsLayout, hp] at hs
    have hi := toNat_add_one hs.1 (BitVec.isLt _)
    exact nextBin_followsLayout (hi.trans_le hs.1) (hs.2.trans (by rw [← hi]; rfl))
  · rw [BitPositionFollowsLayout, hp] at hs
    exact startLocations_followsLayout hs
  · rw [BitPositionFollowsLayout, hp] at hs
    have hi := toNat_add_one hs.1 (BitVec.isLt _)
    exact nextLocation_followsLayout (hi.trans_le hs.1) (hs.2.trans (by rw [← hi]; rfl))
  · trivial

/-- `BitPositionFollowsLayout` as a property of the parser engine alone. -/
def Parser.FollowsLayout (p : Parser) : Prop := BitPositionFollowsLayout { State.reset with ps := p }

theorem followsLayout_iff (s : State) : s.ps.FollowsLayout ↔ BitPositionFollowsLayout s := Iff.rfl

/-- Settles O58: it is a property of the parser engine, kept by its turns; START_PARSE begins at bit 0 of the dataset. -/
theorem bitPositionFollowsTheLayout : Obligations.BitPositionFollowsTheLayout := by
  refine KeptByStep.congr followsLayout_iff (kept_of_parser (P := Parser.FollowsLayout)
    (fun s t hs h => show BitPositionFollowsLayout t from parserTurn_followsLayout (s := s) hs h) (fun s t hs h => ?_)
    (fun p hp _ => hp) (fun p hp => hp) (fun p hp => hp) (fun p hp => hp) trivial)
  rw [exec, execStartParse] at h
  split at h
  · cases h; exact hs
  · cases h; exact ⟨Nat.zero_le 2, Nat.zero_le _, rfl⟩

end Sys2Proof.Machine
end

section
/-! The invariants after reset (70_reset_and_hazards.md R370 to R373; log 5, log 6). -/

namespace Sys2Proof.Machine

/-- Settles O60: after reset both engines are idle, so what speaks of a running one is empty; the RAMs list no entry, so every
counter reads as the default of log 6. -/
theorem resetSatisfiesTheInvariants : Obligations.ResetSatisfiesTheInvariants :=
  ⟨⟨rfl, rfl⟩, fun _ => counterOk_probDefault, nofun, by unfold StatusExclusive; decide, by unfold ErrorsOfEngine; decide,
    fun h => absurd rfl h, nofun, nofun, nofun, nofun, by unfold HeaderValidMeansWidths; decide, trivial⟩

end Sys2Proof.Machine
end

section
/-! The code of the packets is complete (30_encoding.md R106, R107, R109 to R113): any bits that are long enough begin with the code
of a length, of a distance, of a packet. -/

namespace Sys2Proof

open Machine

/-! ### Fixed-width codes -/

/-- The first `n` bits are the code of a value, most significant bit first. -/
theorem bitsMsb_atHead {n : Nat} {l : List Bool} (h : n ≤ l.length) : ∃ v r, v < 2 ^ n ∧ l = bitsMsb n v ++ r := by
  have hlen := List.length_take_of_le h
  refine ⟨bitsValue (l.take n), l.drop n, ?_, ?_⟩
  · have hlt := bitsValue_lt (l.take n)
    rwa [hlen] at hlt
  · have hcode := bitsMsb_bitsValue (l.take n)
    rw [hlen] at hcode
    rw [hcode, List.take_append_drop]

/-- The same, least significant bit first. -/
theorem bitsLsb_atHead {n : Nat} {l : List Bool} (h : n ≤ l.length) : ∃ v r, v < 2 ^ n ∧ l = bitsLsb n v ++ r := by
  have hlen := List.length_take_of_le h
  refine ⟨bitsValue (l.take n).reverse, l.drop n, ?_, ?_⟩
  · have hlt := bitsValue_lt (l.take n).reverse
    rwa [List.length_reverse, hlen] at hlt
  · have hcode := bitsLsb_bitsValue_reverse (l.take n)
    rw [hlen] at hcode
    rw [hcode, List.take_append_drop]

/-- Only the low bits of a value are coded. -/
theorem bitsLsb_mod (n v : Nat) : bitsLsb n (v % 2 ^ n) = bitsLsb n v := by
  induction n generalizing v with
  | zero => rfl
  | succ n ih =>
    have hhead : (v % 2 ^ (n + 1)).testBit 0 = v.testBit 0 := by simp
    have htail : v % 2 ^ (n + 1) / 2 = v / 2 % 2 ^ n := by rw [pow_succ, Nat.mod_mul_left_div_self]
    rw [bitsLsb, bitsLsb, hhead, htail, ih]

/-! ### A length (R109) -/

theorem encodeLen_atHead {l : List Bool} (h : 10 ≤ l.length) :
    ∃ len r, lenOk len = true ∧ l = encodeLen len ++ r ∧ l.length ≤ r.length + 10 := by
  match l with
  | false :: l =>
    obtain ⟨v, r, hv, rfl⟩ := bitsMsb_atHead (n := 3) (l := l) (by simp at h; omega)
    refine ⟨2 + v, r, by simp [lenOk]; omega, ?_, by simp [bitsMsb_length]; omega⟩
    rw [encodeLen, if_pos (by omega), Nat.add_sub_cancel_left]; rfl
  | true :: false :: l =>
    obtain ⟨v, r, hv, rfl⟩ := bitsMsb_atHead (n := 3) (l := l) (by simp at h; omega)
    refine ⟨10 + v, r, by simp [lenOk]; omega, ?_, by simp [bitsMsb_length]; omega⟩
    rw [encodeLen, if_neg (by omega), if_pos (by omega), Nat.add_sub_cancel_left]; rfl
  | true :: true :: l =>
    obtain ⟨v, r, hv, rfl⟩ := bitsMsb_atHead (n := 8) (l := l) (by simp at h; omega)
    refine ⟨18 + v, r, by simp [lenOk]; omega, ?_, by simp [bitsMsb_length]; omega⟩
    rw [encodeLen, if_neg (by omega), if_neg (by omega), Nat.add_sub_cancel_left]; rfl
  | [] | [true] => simp at h

/-! ### A distance (R111 to R113) -/

/-- Each slot's range begins where the one before it ends (R112). -/
theorem slotBase_succ (slot : Nat) : slotBase (slot + 1) = slotBase slot + 2 ^ slotExtraBits slot := by
  unfold slotBase slotExtraBits
  by_cases h3 : slot < 3
  · rw [if_pos (by omega), if_pos (by omega), if_pos (by omega)]; rfl
  by_cases h4 : slot < 4
  · obtain rfl : slot = 3 := by omega
    rfl
  rw [if_neg (by omega), if_neg h4, if_neg h4]
  obtain ⟨n, hn⟩ : ∃ n, slot / 2 = n + 1 := ⟨slot / 2 - 1, by omega⟩
  rcases Nat.mod_two_eq_zero_or_one slot with h | h
  · rw [h, hn, show (slot + 1) / 2 = n + 1 by omega, show (slot + 1) % 2 = 1 by omega, Nat.add_sub_cancel]
    ring
  · rw [h, hn, show (slot + 1) / 2 = n + 2 by omega, show (slot + 1) % 2 = 0 by omega, Nat.add_sub_cancel,
      show n + 2 - 1 = n + 1 by omega]
    ring

theorem slotBase_mono : Monotone slotBase :=
  monotone_nat_of_le_succ fun slot => by rw [slotBase_succ]; exact Nat.le_add_right _ _

/-- The slots' ranges end at 2^32. -/
theorem slotRange_lt {slot rest : Nat} (hs : slot < 64) (hr : rest < 2 ^ slotExtraBits slot) : slotBase slot + rest < 2 ^ 32 := by
  have hle : slotBase (slot + 1) ≤ slotBase 64 := slotBase_mono hs
  rw [slotBase_succ] at hle
  have hend : slotBase 64 = 2 ^ 32 := by decide
  omega

/-- A distance lies in the range of its slot only. -/
theorem slotOf_slotBase_add {slot rest : Nat} (hs : slot < 64) (hr : rest < 2 ^ slotExtraBits slot) :
    slotOf (slotBase slot + rest) = slot := by
  obtain ⟨_, hlo, hhi⟩ := slotOf_spec (slotBase slot + rest) (slotRange_lt hs hr)
  rw [← slotBase_succ] at hhi
  rcases Nat.lt_trichotomy (slotOf (slotBase slot + rest)) slot with hlt | heq | hgt
  · have hle := slotBase_mono (show slotOf (slotBase slot + rest) + 1 ≤ slot from hlt)
    omega
  · exact heq
  · have hle := slotBase_mono (show slot + 1 ≤ slotOf (slotBase slot + rest) from hgt)
    rw [slotBase_succ slot] at hle
    omega

theorem encodeRest_atHead {slot : Nat} {l : List Bool} (hs : slot < 64) (h : 30 ≤ l.length) :
    ∃ rest r, rest < 2 ^ slotExtraBits slot ∧ l = encodeRest slot rest ++ r := by
  have hextra := slotExtraBits_le hs
  unfold encodeRest
  by_cases h14 : slot < 14
  · obtain ⟨v, r, hv, rfl⟩ := bitsLsb_atHead (n := slotExtraBits slot) (l := l) (by omega)
    exact ⟨v, r, hv, by rw [if_pos h14]⟩
  · have h4 : slotExtraBits slot = slotExtraBits slot - 4 + 4 := by
      rw [slotExtraBits, if_neg (by omega)]; omega
    obtain ⟨d, l, hd, rfl⟩ := bitsMsb_atHead (n := slotExtraBits slot - 4) (l := l) (by omega)
    obtain ⟨a, r, ha, rfl⟩ := bitsLsb_atHead (n := 4) (l := l) (by rw [List.length_append, bitsMsb_length] at h; omega)
    refine ⟨d * 16 + a, r, ?_, ?_⟩
    · rw [h4, pow_add]; omega
    · have halign : bitsLsb 4 (d * 16 + a) = bitsLsb 4 a := by
        rw [← bitsLsb_mod, show (d * 16 + a) % 2 ^ 4 = a by omega]
      rw [if_neg h14, halign, show (d * 16 + a) / 16 = d by omega, List.append_assoc]

theorem encodeDist_atHead {l : List Bool} (h : 36 ≤ l.length) :
    ∃ (dist : Word) (r : List Bool), l = encodeDist dist.toNat ++ r := by
  obtain ⟨slot, l, hs, rfl⟩ := bitsMsb_atHead (n := 6) (l := l) (by omega)
  obtain ⟨rest, r, hr, rfl⟩ := encodeRest_atHead (slot := slot) (l := l) hs
    (by rw [List.length_append, bitsMsb_length] at h; omega)
  refine ⟨BitVec.ofNat 32 (slotBase slot + rest), r, ?_⟩
  rw [BitVec.toNat_ofNat, Nat.mod_eq_of_lt (slotRange_lt hs hr), encodeDist_eq, slotOf_slotBase_add hs hr,
    Nat.add_sub_cancel_left, List.append_assoc]

/-! ### A packet (R106, R107) -/

/-- The packet `i`, well-formed, stands at the head of `l`. -/
def BeginsWith (i : Instr) (l : List Bool) : Prop := i.wf = true ∧ ∃ p r, encode i = .bits p ∧ l = p ++ r

/-- MATCH or EOS, by the distance. -/
theorem match_atHead {l : List Bool} (h : 46 ≤ l.length) : ∃ i, BeginsWith i (true :: false :: l) := by
  obtain ⟨len, l, hlen, rfl, hl⟩ := encodeLen_atHead (l := l) (by omega)
  obtain ⟨dist, r, rfl⟩ := encodeDist_atHead (l := l) (by omega)
  by_cases hd : dist = eosDistance
  · subst hd
    exact ⟨.eos len, hlen, _, r, rfl, by simp⟩
  · exact ⟨.newMatch len dist, by simp [Instr.wf, hlen, hd], _, r, rfl, by simp⟩

/-- A repeat whose word is `flags` and a length. -/
theorem rep_atHead {l flags : List Bool} {mk : Nat → Instr} (hwf : ∀ len, (mk len).wf = lenOk len)
    (hmk : ∀ len, encode (mk len) = .bits (flags ++ encodeLen len)) (h : 10 ≤ l.length) : ∃ i, BeginsWith i (flags ++ l) := by
  obtain ⟨len, r, hlen, rfl, _⟩ := encodeLen_atHead h
  exact ⟨mk len, (hwf len).trans hlen, _, r, hmk len, (List.append_assoc ..).symm⟩

/-- Any 48 bits begin with a packet, found by its opening flags. -/
theorem packet_atHead {l : List Bool} (h : 48 ≤ l.length) : ∃ i, BeginsWith i l := by
  match l with
  | false :: l =>
    obtain ⟨v, r, hv, rfl⟩ := bitsMsb_atHead (n := 8) (l := l) (by simp at h; omega)
    refine ⟨.lit (BitVec.ofNat 8 v), rfl, _, r, rfl, ?_⟩
    rw [BitVec.toNat_ofNat, Nat.mod_eq_of_lt hv]; rfl
  | true :: false :: l => exact match_atHead (by simp at h; omega)
  | true :: true :: false :: false :: l => exact ⟨.shortRep, rfl, _, l, rfl, rfl⟩
  | true :: true :: false :: true :: l =>
    exact rep_atHead (flags := [true, true, false, true]) (mk := .rep0) (fun _ => rfl) (fun _ => rfl) (by simp at h; omega)
  | true :: true :: true :: false :: l =>
    exact rep_atHead (flags := [true, true, true, false]) (mk := .rep1) (fun _ => rfl) (fun _ => rfl) (by simp at h; omega)
  | true :: true :: true :: true :: false :: l =>
    exact rep_atHead (flags := [true, true, true, true, false]) (mk := .rep2) (fun _ => rfl) (fun _ => rfl)
      (by simp at h; omega)
  | true :: true :: true :: true :: true :: l =>
    exact rep_atHead (flags := [true, true, true, true, true]) (mk := .rep3) (fun _ => rfl) (fun _ => rfl)
      (by simp at h; omega)
  | [] | [true] | [true, true] | [true, true, false] | [true, true, true] | [true, true, true, true] => simp at h

/-- Two packets that one bit sequence begins with are the same: the routine follows the sequence one way (R107). -/
theorem packet_atHead_unique {c : Ctx} {p p' r r' : List Bool} {i i' : Instr} (h : decode c (.bits p) = .ok i)
    (h' : decode c (.bits p') = .ok i') (hl : p ++ r = p' ++ r') : p' = p ∧ i' = i := by
  have hw := walk_append (decode_bits_iff.1 h) r
  have hw' := walk_append (decode_bits_iff.1 h') r'
  rw [hl, hw'] at hw
  simp only [Prod.mk.injEq, Tree.done.injEq] at hw
  obtain ⟨hi, hr⟩ := hw
  rw [hr] at hl
  exact ⟨(List.append_cancel_right hl).symm, hi⟩

/-- Settles O2: some packet's encoding stands at the head, it decodes to the packet, and no other initial part decodes. -/
theorem everyBitSequenceBeginsWithAPacket : Obligations.EveryBitSequenceBeginsWithAPacket := by
  intro c l hc hl
  obtain ⟨i, hi, p, r, hp, rfl⟩ := packet_atHead hl
  have hdecode : decode c (.bits p) = .ok i := decode_bits_iff.2 (packetDecode_walk hi hc hp)
  exact ⟨i, p, r, hi, hp, rfl, hdecode, fun p' r' hpr i' hi' => packet_atHead_unique hdecode hi' hpr⟩

end Sys2Proof
end
